-- ==== Sys2Proof/Word.lean ====
section
/-! DEFINITION. The word types of the SEP-4096 (R7, R12) and nothing else. -/

namespace Sys2Proof

/-- One byte. -/
abbrev Byte := BitVec 8
/-- A BAR0 register: 32 bits (R12). -/
abbrev Word := BitVec 32
/-- A memory word, record word, timestamp or key: 64 bits (R7, R10, R210). -/
abbrev Word64 := BitVec 64
/-- A microword: 192 bits (R155). -/
abbrev MicroWord := BitVec 192
/-- A Timetable tick: bits [63:8] of a timestamp (R10, R60). -/
abbrev Tick := Nat

end Sys2Proof
end

