-- ==== Sys2Proof/Syntax.lean ====
section
/-! DEFINITION. The commands of the SEP-4096: one constructor per row of spec/opcode_table.json.
The table gives no operands; an operand here is what the row's rule says the step names (which mailbox, lane, ring,
register) or what reaches the device from outside its balls in that step (line bits, an image, a measured code, a
descriptor, a completion). Log entry 2. -/

namespace Sys2Proof

/-- What the firmware's reads of a UCODE_LOAD image brought (R69, R334): the 32-byte words, or a failed read. -/
inductive ImageRead where
  | words (w : List (BitVec 256))
  | failed
deriving DecidableEq, Repr

/-- Where a host register write lands: BAR0 (R30) or BAR4, the MSI-X table (R322). -/
inductive RegTarget where
  | bar0 (off : BitVec 26)
  | bar4 (off : BitVec 16)
deriving DecidableEq, Repr

/-- How a request TLP arrives: sound, with EP set, or with an ECRC that fails (R339). -/
inductive TlpMark where
  | clean
  | poisoned
  | ecrcFails
deriving DecidableEq, Repr

/-- A register access whose value no one takes, or a read: its byte enables, and those of the second half of a 64-bit read, at the
next higher DW (R34). -/
inductive OffAccess where
  | writes
  | reads (be : BitVec 4) (upper : Option (BitVec 4))
deriving DecidableEq, Repr

/-- Completion status of a read the endpoint issued (R333, R336). -/
inductive CplStatus where
  | ok
  | unsupported
  | aborted
deriving DecidableEq, Repr

/-- What brought a reset of the scope of an FLR (R320). -/
inductive FlrCause where
  | functionLevel
  | hot
  | linkDown
deriving DecidableEq, Repr

/-- What the boot ROM found on the flash (R376, R377). -/
inductive BootImage where
  | image0
  | image1
  | bothFailed
  | noAnswer
deriving DecidableEq, Repr

/-- One echo of training phase 5 (R87 to R89): lane, measured RTT in sub-ticks, and training words 4 and 5. -/
structure Echo where
  lane : Fin 256
  rtt  : BitVec 24
  tag  : Word
  turn : Word
deriving DecidableEq, Repr

/-- A DMA descriptor as fetched from host memory (R329). -/
structure Descriptor where
  w0 : Word64
  w1 : Word64
  w2 : Word64
  w3 : Word64
deriving DecidableEq, Repr

/-- The commands, in the order of spec/opcode_table.json. -/
inductive Instr where
  | mbxDoorbell (m : Fin 16)
  | sysInfo (m : Fin 16)
  | sysEcho (m : Fin 16)
  | sysTemp (m : Fin 16)
  | tbRefSelect (m : Fin 16)
  | pllConfig (m : Fin 16)
  | refOutSet (m : Fin 16)
  | tbStatus (m : Fin 16)
  | timeSet (m : Fin 16)
  | laneFormat (m : Fin 16)
  | laneTrain (m : Fin 16)
  | laneRetrain (m : Fin 16)
  | laneIdle (m : Fin 16)
  | returnSend (m : Fin 16)
  | ucodeLoad (m : Fin 16) (image : ImageRead)
  | engineMode (m : Fin 16)
  | consistSet (m : Fin 16)
  | engineSnapshot (m : Fin 16)
  | ctxConfig (m : Fin 16)
  | ctxClear (m : Fin 16)
  | ctxAge (m : Fin 16)
  | ctxDump (m : Fin 16)
  | ringCreate (m : Fin 16)
  | ringDelete (m : Fin 16)
  | streamMode (m : Fin 16)
  | budgetCheck (m : Fin 16)
  | ringFlush (m : Fin 16)
  | ringFlushForcedClose (r : Fin 32768)
  | capturePrepare (m : Fin 16)
  | captureArm (m : Fin 16)
  | captureStop (m : Fin 16)
  | captureForceTrigger (m : Fin 16)
  | captureRelease (m : Fin 16)
  | captureStatus (m : Fin 16)
  | replayStart (m : Fin 16)
  | replayStop (m : Fin 16)
  | replayStatus (m : Fin 16)
  | tiuConfig (m : Fin 16)
  | tiuMeasure (m : Fin 16)
  | tiuStop (m : Fin 16)
  | dfcConfig (m : Fin 16)
  | dfcThreshold (m : Fin 16)
  | dfcSync (m : Fin 16)
  | deflateJob (m : Fin 16)
  | inflateJob (m : Fin 16)
  | deflateFlush (m : Fin 16)
  | deflateStatus (m : Fin 16)
  | memtestRun (m : Fin 16)
  | memtestStatus (m : Fin 16)
  | gateChallenge (m : Fin 16)
  | gateResponse (m : Fin 16)
  | gatePasswordSet (m : Fin 16)
  | gateUnlock (m : Fin 16)
  | gateLock (m : Fin 16)
  | serviceCommand (m : Fin 16)
  | loopCalibrate (m : Fin 16)
  | loopStatus (m : Fin 16)
  | loopPost (m : Fin 16)
  | scheduledCommandExecution (m : Fin 16)
  /-- A host write at a stage offset 0x0010_0000 + off (R37). -/
  | guardStage (off : BitVec 16) (value : Word) (be : BitVec 4)
  /-- A host write in the guarded block, at the commit side or the stage side (R37). -/
  | guardedCommit (commit : Bool) (off : BitVec 16) (value : Word) (be : BitVec 4)
  /-- The commit write of a PWR_SW[d] value whose bit 0 is 1 and whose bits [31:1] are `upper` (R365). -/
  | powerDomainOn (d : Fin 24) (upper : BitVec 31)
  | powerDomainOff (d : Fin 24) (upper : BitVec 31)
  /-- `columns`: redundant columns applied; `faulty`: regions that still fail after repair (R357). -/
  | bistComplete (d : Fin 24) (columns : BitVec 16) (faulty : List (Fin 16384))
  | warmReset (upper : BitVec 31)
  /-- The commit write of `value` (the complement of the staged word) to PEER_WIN[w] (R323). -/
  | peerWin (w : Fin 8) (value : Word)
  /-- A write of `data` to the alias word of control and status block bit `n` = byte offset x 8 + bit (R43). -/
  | bitBandWrite (n : BitVec 23) (data : Word)
  /-- `be`: the byte enables of `value`, and the second half of a 64-bit TLP, value and byte enables, at the next higher DW
  (R34). `mark`: how the write's TLP arrives (R339). A marked or a 64-bit write of any BAR0 or BAR4 offset is this row. -/
  | registerWrite (target : RegTarget) (value : Word) (be : BitVec 4 × Option (Word × BitVec 4)) (mark : TlpMark)
  | domoff (off : BitVec 26) (access : OffAccess)
  | ringHeadRead (r : Fin 32768) (high : Bool)
  | advance (r : Fin 32768) (count : BitVec 24)
  | mark (r : Fin 32768)
  | rewind (r : Fin 32768)
  | release (r : Fin 32768)
  | consume (r : Fin 32768) (count : BitVec 24)
  | ringDoorbellNone (r : Fin 32768)
  | ringDoorbellReserved (r : Fin 32768) (op : BitVec 4)
  | snapshot (e : Fin 256)
  | forceLevel (e : Fin 256) (value : BitVec 5)
  | stop (e : Fin 256)
  | pause (e : Fin 256)
  | resume (e : Fin 256)
  | engReset (e : Fin 256)
  | inc (e : Fin 256)
  | jump (e : Fin 256)
  | brt (e : Fin 256)
  | brf (e : Fin 256)
  | call (e : Fin 256)
  | ret (e : Fin 256)
  | dispatch (e : Fin 256)
  | wait (e : Fin 256)
  | lookup (master : Fin 258)
  | insert (master : Fin 258)
  | update (master : Fin 258)
  | delete (master : Fin 258)
  | lookupInsert (master : Fin 258)
  | ctxSweepRow (bank : Fin 64)
  | timerLimit (e : Fin 256) (k : Fin 4)
  | triggerDecide
  | recordFormerSlice (n : Fin 256)
  | segmentEnd
  | recordCommit (stream : Fin 4096)
  | ringGapCommit (r : Fin 32768)
  | ringNoticeTimer (r : Fin 32768)
  /-- `line`: the 40 line bits of each of the superframe's 64 ticks, first bit sent in bit 39 (R70, R72).
  `wander`: the phase wander the receiver tracks, in signed sub-ticks (R71). -/
  | superframe (n : Fin 256) (line : List (BitVec 40)) (wander : BitVec 16)
  | cdrLockLoss (n : Fin 256)
  | idleDetect (n : Fin 256)
  | clockDataRecovery (n : Fin 256)
  /-- `block`: the training block received (R88). -/
  | markerLock (n : Fin 256) (block : List Word)
  /-- `arrivals`: lane and receive-pin tick of the last MARKER bit of its SYNC-marked superframe (R87). -/
  | deskew (arrivals : List (Fin 256 × Nat))
  | latency (echoes : List Echo)
  | live (n : Fin 256)
  /-- `second`: the phase's second failure reason, where R87 gives it two. -/
  | trainingPhaseLimit (n : Fin 256) (second : Bool)
  | returnSuperframe (k : Fin 32)
  | census (frame : BitVec 192) (trailer : BitVec 128)
  /-- `phase`: a_p; `elapsed`: at the origin, sub-ticks from launch to return (R121). -/
  | measure (frame : BitVec 192) (trailer : BitVec 128) (phase : BitVec 8) (elapsed : BitVec 32)
  | align (frame : BitVec 192)
  | time (frame : BitVec 192)
  | command (frame : BitVec 192) (trailer : BitVec 128)
  | trigger (frame : BitVec 192)
  | halt (frame : BitVec 192)
  | dissolve (frame : BitVec 192)
  | loopFrameSend
  | censusTimeout
  | syncInLoss
  | trigIn (p : Fin 8) (level : Bool)
  | trigOutPulseEnd (p : Fin 8)
  | refDetectWindow (edges : Nat)
  | refLost
  | pllLock (k : Fin 12) (cycles : Word)
  | pllLockTimeout (k : Fin 12)
  | unlock (k : Fin 12)
  /-- `phase`: which quarter of the tick holds the edge's coarse edge C2 (C2 = 4 x tick + phase, R269); `code`: raw code
  N with 8 fractional bits. -/
  | ptiEdge (i : Fin 64) (rising : Bool) (phase : BitVec 4) (code : BitVec 16)
  | tiuCalibration (i : Fin 64) (n1 n2 : BitVec 16)
  | tiuGateClose (i : Fin 64)
  | tiuNoStop (i : Fin 64)
  | tiuWinWrite (i : Fin 64) (close : Bool) (value : Word) (be : BitVec 4)
  | stampRequestTimeout (i : Fin 64)
  | dfcOutput (j : Fin 64)
  | deflateBlockEnd (k : Fin 16)
  | deflateBlockIdleTimeout (k : Fin 16)
  | deflateJobEnd (k : Fin 16)
  | inflateRecordCommit (k : Fin 16)
  | inflateStreamEnd (k : Fin 16)
  | replayFeed (j : Fin 16)
  | replaySkip (j : Fin 16)
  | replayJobEnd (j : Fin 16)
  /-- `fails`: the region fails its march (R360). -/
  | memtestRegion (fails : Bool)
  /-- `desc`: the descriptor as fetched; `data`: the bytes the read of an ENGINE_IN buffer brought (R328, R332). -/
  | dmaDescriptor (c : Fin 32) (desc : Descriptor) (data : List Byte)
  | start (c : Fin 32)
  | dmaStop (c : Fin 32)
  | reclaim
  | completionReceived (tag : BitVec 10) (status : CplStatus) (ep : Bool)
  | completionTimeout (tag : BitVec 10)
  /-- `addr`: BAR2 byte offset; `len`: bytes (R325). -/
  | peerWindowRead (addr : BitVec 36) (len : Nat)
  /-- `data`: byte per enabled byte from `addr` up, `none` where the byte enable is 0; `ep`: poisoned (R325, R339). -/
  | peerWindowWrite (addr : BitVec 36) (data : List (Option Byte)) (ep : Bool)
  /-- `bar`: 0, 2 or 4. -/
  | atomicopRequest (bar : Fin 5) (off : BitVec 36)
  /-- `reg`: doubleword number in configuration space; `write`: value and byte enables of a write (R318, R320). -/
  | configurationRequest (reg : BitVec 10) (write : Option (Word × BitVec 4))
  | d3hot
  | aspmL1Entry
  /-- The partner's highest rate (1 to 6) and width code (1 to 5) and whether it supports Flit mode (R317). -/
  | linkTraining (rate : Fin 7) (width : Fin 6) (flit : Bool)
  | msixMessage (v : Fin 1024)
  | flr (cause : FlrCause)
  /-- `por`: POR occurred; `smbAddr`: the SMB_ADDR straps sampled at POR release (R373, R377, R392). -/
  | coldReset (por : Bool) (smbAddr : BitVec 2)
  /-- `image`: what the boot found; `time`: units of 10 us from the end of reset (R376, R377). -/
  | firmwareBoot (image : BootImage) (time : BitVec 16)
  | fwFault
  | temperatureMeasurement (temp : BitVec 16)
  | thermalTrip
  | nonceExpiry
  /-- `verifies`: the flash copy written verifies (R386). -/
  | gateSave (verifies : Bool)
  /-- `addr`: the SMBus address the master names (R392, R400). -/
  | smbusBlockRead (addr : BitVec 7) (cmd : BitVec 8)
  /-- `marker`: the marker of the slice's superframe was found (R96). -/
  | sliceAtLaneInput (n : Fin 256) (payload : Word) (marker : Bool)
  | contextStoreClearEnd
deriving DecidableEq, Repr

end Sys2Proof
end

