-- ==== Sys2Proof/Config.lean ====
section
/-! DEFINITION. The free values of the model: what the spec leaves open in value while the block goes on. Each is a constant
without a body, applied to the model's count of free values drawn (log 3) or to the operands it depends on. -/

namespace Sys2Proof

/-- The firmware version SYS_INFO returns (R69): the spec gives no number. -/
opaque Config.fwVersion : Word
/-- A Service gate nonce (R382), by draw. -/
opaque Config.nonce : Nat → BitVec 256
/-- A drawn hash seed (R179), by draw. -/
opaque Config.seed : Nat → Word64
/-- The device key in the fuses (R382). -/
opaque Config.fuseKey : BitVec 256
/-- TRIG_OUT jitter of at most one tick either way (R145), by draw. -/
opaque Config.trigOutJitter : Nat → BitVec 2
/-- Width in ticks, less one, of the trigger pulse driven in level mode (R145): the spec states none. -/
opaque Config.trigPulseWidth : Nat
/-- Rounding of an interpolated time that is not a multiple of 1/256 tick (R269), by draw. -/
opaque Config.tiuRound : Nat → Bool
/-- The interpolated time where calibration gives no length (R269), by draw. -/
opaque Config.tiuValue : Nat → BitVec 16
/-- The number of taps of a FIR stage of the presets (R290), by path and stage: the spec gives none. -/
opaque Config.dfcLen : Nat → Nat → Nat
/-- A tap of such a stage, by path, stage and distance from the nearer end: the stage is linear-phase. -/
opaque Config.dfcTap : Nat → Nat → Nat → BitVec 18
/-- The taps of path 4's interpolator (R292), phase by phase: tap t of phase p has the number 64 t + p. -/
opaque Config.dfcPhase : Nat → BitVec 18
/-- Rounding of an output that is not a whole number of output units (R290, R293), by draw. -/
opaque Config.dfcRound : Nat → Bool
/-- An output that 24 bits cannot hold (R290), by draw: the spec states none. -/
opaque Config.dfcOver : Nat → BitVec 24
/-- The level of a prescaler's output between the edges it passes on (R279), by draw. -/
opaque Config.tiuPrescaled : Nat → Bool
/-- The frequency where the regression slope is not positive (R277), by draw: the spec states none. -/
opaque Config.tiuFreq : Nat → Word64
/-- The SEQ field the firmware gives a TRAIN or FORMAT frame (R87), by draw. -/
opaque Config.frameSeq : Nat → BitVec 8
/-- The echo tag of training phase 5 (R87), by draw. -/
opaque Config.echoTag : Nat → BitVec 16
/-- What the capture of the JTAG instruction register loads above its two lowest bits (R399): the spec gives no length. -/
opaque Config.irCapture : List Bool
/-- The instruction a JTAG code names (R399): 0 IDCODE, 1 SAMPLE/PRELOAD, 2 EXTEST, any other BYPASS; the spec gives no code. -/
opaque Config.irCode : List Bool → Nat
/-- The cells of the boundary-scan chain (R399), from TDO on, by pin number: the spec gives their pins and not their order. -/
opaque Config.scanChain : List Nat
/-- The level of a pin that nothing in the model drives (R399), by draw and pin number. -/
opaque Config.pinLevel : Nat → Nat → Bool
/-- RES0 of BUSY where a DFC_SYNC accepted from the Loop line holds the chain (R54, R299): no mailbox of this device holds it. -/
opaque Config.loopHolder : Word
/-- The STATE byte of a unit state word for a unit whose chapter numbers no states (R58), by class and draw. -/
opaque Config.unitState : Nat → Nat → BitVec 8

/-- A MEM_SPARE_MAP word (R363), whose layout the spec does not give: word index, and the spare rows in use as memory, row
and region. -/
opaque Config.spareMapWord : Nat → List (Nat × Nat × Nat) → Word
/-- A Stratus word read while its domain is not ready (R367, R371), by draw and word address. -/
opaque Config.offWord : Nat → Nat → Word64
/-- The bits of one block as a compressing engine codes it (R302), by draw: dynamic tables, history (latest byte first) and
input. The spec fixes the format, not the matches and tables chosen; the engine uses it only where it expands to the input. -/
opaque Config.deflateCode : Nat → Bool → List Byte → List Byte → List Bool

end Sys2Proof
end

