-- ==== Sys2Proof/Machine/Tab.lean ====
section
/-! DEFINITION. Sparse tables (a register file, per-instance records) and byte memories, both as lists of key and value
in one canonical form: keys strictly rising, no entry equal to what an unlisted key reads as. Small bit helpers. -/

namespace Sys2Proof.Machine

/-- A sparse table: key and value, keys strictly rising. -/
abbrev Tab (α : Type) := List (Nat × α)

/-- The value at `k`; `d` is what an unlisted key reads as. -/
def tabGet {α : Type} (d : α) : Tab α → Nat → α
  | [], _ => d
  | (k', v) :: r, k => if k' = k then v else tabGet d r k

/-- Insert or replace, keeping the keys in order. -/
def tabPut {α : Type} : Tab α → Nat → α → Tab α
  | [], k, v => [(k, v)]
  | (k', v') :: r, k, v =>
    if k' = k then (k, v) :: r else if k < k' then (k, v) :: (k', v') :: r else (k', v') :: tabPut r k v

/-- Remove the entry at `k`. -/
def tabDel {α : Type} (t : Tab α) (k : Nat) : Tab α := t.filter (fun p => p.1 != k)

/-- Write: a value equal to the default removes the entry. -/
def tabSet {α : Type} [DecidableEq α] (d : α) (t : Tab α) (k : Nat) (v : α) : Tab α :=
  if v = d then tabDel t k else tabPut t k v

/-- Keys strictly rising. -/
def tabSorted {α : Type} : Tab α → Bool
  | [] => true
  | (k, _) :: r => r.all (fun p => decide (k < p.1)) && tabSorted r

/-- The canonical form of a table whose unlisted key `k` reads `d k`. -/
def tabWf {α : Type} [DecidableEq α] (d : Nat → α) (t : Tab α) : Bool :=
  tabSorted t && t.all (fun p => decide (p.2 ≠ d p.1))

/-- A byte memory (Stratus, Cirrus). -/
abbrev Memory := List Host.Cell

/-- What a byte nothing has written reads as. The spec gives no contents after switch-on (DESIGN CHOICE, log 5). -/
def memDefault : Byte := 0

def memRead (m : Memory) (a : Nat) : Byte := tabGet memDefault m a

def memWrite (m : Memory) (a : Nat) (b : Byte) : Memory := tabSet memDefault m a b

/-- The memory's canonical form. -/
def Memory.wf (m : Memory) : Bool := tabWf (fun _ => memDefault) m

/-- Write bytes from address `a` up. -/
def memWriteBytes : Memory → Nat → List Byte → Memory
  | m, _, [] => m
  | m, a, b :: r => memWriteBytes (memWrite m a b) (a + 1) r

/-- Byte `j` of a word, least significant first (chapter 15: word address b div 8, byte b mod 8). -/
def byteOf (w : Word64) (j : Nat) : Byte := w.extractLsb' (8 * j) 8

def bytesOfWord (w : Word64) : List Byte := (List.range 8).map (byteOf w)

/-- The number that bytes spell, least significant byte first. -/
def natOfBytes : List Byte → Nat
  | [] => 0
  | b :: r => b.toNat + 256 * natOfBytes r

/-- The 64-bit word at word address `w`. -/
def memReadWord (m : Memory) (w : Nat) : Word64 :=
  BitVec.ofNat 64 (natOfBytes ((List.range 8).map (fun j => memRead m (8 * w + j))))

def memWriteWord (m : Memory) (w : Nat) (v : Word64) : Memory := memWriteBytes m (8 * w) (bytesOfWord v)

/-! Sets of numbers as strictly rising lists. -/

def setInsert : List Nat → Nat → List Nat
  | [], k => [k]
  | x :: r, k => if x = k then x :: r else if k < x then k :: x :: r else x :: setInsert r k

def setErase (l : List Nat) (k : Nat) : List Nat := l.filter (fun x => x != k)

/-! Bit fields. -/

/-- Bits [lo + w - 1 : lo] of a register, as a number. -/
def fld (v : Word) (lo w : Nat) : Nat := (v.toNat / 2 ^ lo) % 2 ^ w

/-- Replace bits [lo + w - 1 : lo]. -/
def setFld (v : Word) (lo w n : Nat) : Word :=
  (v &&& ~~~(BitVec.ofNat 32 ((2 ^ w - 1) * 2 ^ lo))) ||| BitVec.ofNat 32 ((n % 2 ^ w) * 2 ^ lo)

/-- Bit `i` of a register. -/
def bitAt (v : Word) (i : Nat) : Bool := v.getLsbD i

def setBit (v : Word) (i : Nat) (b : Bool) : Word := setFld v i 1 (if b then 1 else 0)

/-- One mask bit. -/
def bit (i : Nat) : Word := BitVec.ofNat 32 (2 ^ i)

def fld64 (v : Word64) (lo w : Nat) : Nat := (v.toNat / 2 ^ lo) % 2 ^ w

def b2n (b : Bool) : Nat := if b then 1 else 0

/-- Replace entry `i` of a list; a list too short stays as it is. -/
def listSet {α : Type} (l : List α) (i : Nat) (v : α) : List α := l.set i v

/-- Byte-enable mask: bit 8j..8j+7 set where enable j is. -/
def beMask (be : BitVec 4) : Word :=
  (if be.getLsbD 0 then 0x000000FF else 0) ||| (if be.getLsbD 1 then 0x0000FF00 else 0) |||
  (if be.getLsbD 2 then 0x00FF0000 else 0) ||| (if be.getLsbD 3 then 0xFF000000 else 0)

end Sys2Proof.Machine
end

