-- ==== Sys2Proof/Machine/Regs.lean ====
section
/-! DEFINITION. The BAR0 register map (R30): offsets, reset values, access masks (R13) and the power domain of each
block (R33, R364). Bits in no mask are RO, RSV or unnamed: a write leaves them as they are (R13, R48, log 6). -/

namespace Sys2Proof.Machine

/-! Block bases (R30) and per-unit offsets of the control and status block. -/

def eR (n o : Nat) : Nat := 0x00400000 + n * 0x4000 + o
def lR (n o : Nat) : Nat := 0x00C00000 + n * 0x4000 + o
def rR (r o : Nat) : Nat := 0x00800000 + r * 0x80 + o
def mR (m o : Nat) : Nat := 0x00200000 + m * 0x1000 + o
def argR (m i : Nat) : Nat := mR m (0x100 + 4 * i)
def resR (m i : Nat) : Nat := mR m (0x800 + 4 * i)
def pwrSwR (d : Nat) : Nat := 0x00100000 + 4 * d
def peerWinR (w : Nat) : Nat := 0x00100800 + 4 * w
def strR (s o : Nat) : Nat := 0x00010000 + s * 0x10 + o
def tiuR (i o : Nat) : Nat := 0x4000 + i * 0x80 + o
def dfcR (j o : Nat) : Nat := 0x6000 + j * 0x40 + o
def dflR (k o : Nat) : Nat := 0x7000 + k * 0x40 + o
def dmaR (c o : Nat) : Nat := 0x8000 + c * 0x40 + o
def evtR (s : Nat) : Nat := 0xA000 + 4 * s
def pendR (r : Nat) : Nat := 0x2000 + (r / 1024) * 0x80 + ((r % 1024) / 32) * 4

def SYS_ID : Nat := 0x0
def SYS_MEMCFG : Nat := 0x4
def SYS_ACCESS : Nat := 0x8
def SYS_ACCESS_ADDR : Nat := 0xC
def SYS_MBX_DONE : Nat := 0x10
def SYS_FW_STATUS : Nat := 0x14
def SYS_CAPTURE : Nat := 0x18
def TB_TIME : Nat := 0x100
def TB_EVENT : Nat := 0x108
def TB_EVENT_EN : Nat := 0x10C
def trigInR (p : Nat) : Nat := 0x200 + 4 * p
def trigOutR (p : Nat) : Nat := 0x220 + 4 * p
def GLB_GLOBAL : Nat := 0x240
def CTX_STATUS : Nat := 0x400
def CTX_EVENT : Nat := 0x404
def CTX_EVENT_EN : Nat := 0x408
def CTX_SEED : Nat := 0x410
def CTX_AGE_LIMIT : Nat := 0x418
def CTX_SWEEP_STEP : Nat := 0x41C
def CTX_SWEEP_PASS : Nat := 0x420
def CTX_VALID_COUNT : Nat := 0x424
def CTX_FULL_COUNT : Nat := 0x428
def CTX_EVICT_COUNT : Nat := 0x42C
def CTX_EXPIRE_COUNT : Nat := 0x430
def CTX_ECC_CORR_COUNT : Nat := 0x434
def CTX_ROW_LOST_COUNT : Nat := 0x438
def CTX_TT_CONFLICT : Nat := 0x43C
def CTX_HOST_CONFLICT : Nat := 0x440
def CTX_GRANTS : Nat := 0x448
def STR_EVENT : Nat := 0x500
def STR_EVENT_EN : Nat := 0x504
def STR_OVF_LAST : Nat := 0x508
def MEM_CAP_BYTES : Nat := 0x510
def STG_CORR_COUNT : Nat := 0x518
def STG_POISON_COUNT : Nat := 0x51C
def RPL_EVENT : Nat := 0x600
def RPL_EVENT_EN : Nat := 0x604
def rplFedR (j : Nat) : Nat := 0x640 + 0x10 * j
def rplSkipR (j : Nat) : Nat := 0x648 + 0x10 * j
def tiuGselR (g : Nat) : Nat := 0x800 + 4 * g
def grpCorrR (g : Nat) : Nat := 0x3000 + 4 * g
def grpUncorrR (g : Nat) : Nat := 0x3080 + 4 * g
def chCorrR (c : Nat) : Nat := 0x3100 + 4 * c
def chUncorrR (c : Nat) : Nat := 0x3140 + 4 * c
def PCIE_STATUS : Nat := 0x9000
def PCIE_EVENT : Nat := 0x9004
def PCIE_EVENT_EN : Nat := 0x9008
def PCIE_CTRL : Nat := 0x900C
def PEER_STATUS : Nat := 0x9010
def PCIE_UNEXP : Nat := 0x9014
def PCIE_POISON_RX : Nat := 0x9018
def PCIE_POISON_TX : Nat := 0x901C
def DMA_EVENT_DONE : Nat := 0x9020
def DMA_EVENT_HALT : Nat := 0x9024
def DMA_DONE_EN : Nat := 0x9028
def DMA_HALT_EN : Nat := 0x902C
def FUSE_STATUS : Nat := 0xB000
def MT_STATUS : Nat := 0xB004
def MT_EVENT : Nat := 0xB008
def MT_EVENT_EN : Nat := 0xB00C
def MT_LAST_FAULT : Nat := 0xB010
def memSpareR (m : Nat) : Nat := 0xB020 + 4 * m
def memBistR (m : Nat) : Nat := 0xB040 + 4 * m
def PWR_ON : Nat := 0xC000
def PWR_READY : Nat := 0xC004
def PWR_REFUSE : Nat := 0xC008
def THERM_STATUS : Nat := 0xC010
def THERM_ALERT : Nat := 0xC014
def THERM_MAX : Nat := 0xC018
def SYS_BOOT : Nat := 0xC020
def GATE_STATUS : Nat := 0xD000
def GATE_FAIL : Nat := 0xD004
def gateCfgR (w : Nat) : Nat := 0xD100 + 4 * w
def SYS_RESET : Nat := 0x00100100

/-- A BAR0 offset by block (R30). -/
inductive Block where
  | ctl (o : Nat)
  | stage (o : Nat)
  | commit (o : Nat)
  | mbx (m o : Nat)
  | eng (n o : Nat)
  | ring (r o : Nat)
  | lane (n o : Nat)
  | bitBand (bitNo : Nat)
  | unmapped
deriving DecidableEq, Repr

def blockOf (off : Nat) : Block :=
  if off < 0x00100000 then .ctl off
  else if off < 0x00110000 then .stage (off - 0x00100000)
  else if off < 0x00120000 then .commit (off - 0x00110000)
  else if off < 0x00200000 then .unmapped
  else if off < 0x00210000 then .mbx ((off - 0x00200000) / 0x1000) ((off - 0x00200000) % 0x1000)
  else if off < 0x00400000 then .unmapped
  else if off < 0x00800000 then .eng ((off - 0x00400000) / 0x4000) ((off - 0x00400000) % 0x4000)
  else if off < 0x00C00000 then .ring ((off - 0x00800000) / 0x80) ((off - 0x00800000) % 0x80)
  else if off < 0x01000000 then .lane ((off - 0x00C00000) / 0x4000) ((off - 0x00C00000) % 0x4000)
  else if off < 0x02000000 then .unmapped
  else if off < 0x04000000 then .bitBand ((off - 0x02000000) / 4)
  else .unmapped

/-- The power domain of the block an offset lies in; 0 is AON (R33, R126, R98, R237, R364). -/
def offDomain (off : Nat) : Nat :=
  match blockOf off with
  | .eng n _ => 11 + n / 64
  | .ring _ _ => 22
  | .lane n _ => 3 + n / 32
  | _ => 0

/-- Soft spare rows of each memory (R353). -/
def spareCapacity (m : Nat) : Nat :=
  match m with | 0 => 32 | 1 => 8 | 2 => 16 | 3 => 4 | 4 => 4 | 5 => 4 | _ => 0

/-- Reset value of the register at an offset, as its chapter's table gives; 0 where the table gives 0. -/
def resetVal (off : Nat) : Word :=
  match blockOf off with
  | .ctl o =>
    if 0x220 ≤ o ∧ o < 0x240 then 0x7FF
    else if 0x4000 ≤ o ∧ o < 0x6000 then
      (if o % 0x80 = 0x10 ∨ o % 0x80 = 0x1C then 0xFFFFFFFF else 0)
    else if 0x7000 ≤ o ∧ o < 0x7400 then (if o % 0x40 = 0x2C then 1 else 0)
    else if 0xB020 ≤ o ∧ o < 0xB038 then BitVec.ofNat 32 (spareCapacity ((o - 0xB020) / 4))
    else if o = 0xC000 ∨ o = 0xC004 then 3
    else if o = 0xC014 then 0x640
    else if o = 0xC018 then 0x8000
    else 0
  | .stage o => if o = 0 ∨ o = 4 then 1 else 0
  | .mbx _ o => if o = 4 then 2 else 0
  | .eng _ o => if 0x100 ≤ o ∧ o < 0x180 then 0x7FF else 0
  | _ => 0

/-- Access masks of a register (R13): RW bits, W1C bits, and whether it is a counter of R45. -/
structure Access where
  rw  : Word
  w1c : Word
  ctr : Bool
deriving DecidableEq, Repr

def accNone : Access := { rw := 0, w1c := 0, ctr := false }
def accRw (m : Word) : Access := { rw := m, w1c := 0, ctr := false }
def accW1c (m : Word) : Access := { rw := 0, w1c := m, ctr := false }
def accCtr : Access := { rw := 0xFFFFFFFF, w1c := 0, ctr := true }

/-- Streams whose register block exists: lane, TIU, DFC and context streams (R201, R233). -/
def streamBindable (s : Nat) : Bool :=
  decide (s < 0x100) || (decide (0x200 ≤ s) && decide (s < 0x280)) || decide (s = 0x280)

/-- Access masks of the control and status block. -/
def accCtl (o : Nat) : Access :=
  if o = SYS_ACCESS then accW1c 0x7
  else if o = SYS_MBX_DONE then accW1c 0xFFFF
  else if o = SYS_CAPTURE then accW1c 0xF00
  else if o = TB_EVENT then accW1c 0x00FC0FFF
  else if o = TB_EVENT_EN then accRw 0x00FC0FFF
  else if 0x200 ≤ o ∧ o < 0x220 then accRw 0x0000FF03
  else if 0x220 ≤ o ∧ o < 0x240 then accRw 0x80FF1FFF
  else if o = CTX_EVENT then accW1c 0x1F
  else if o = CTX_EVENT_EN then accRw 0x1F
  else if o = 0x420 ∨ (0x428 ≤ o ∧ o ≤ 0x440) ∨ o = 0x448 ∨ o = 0x44C then accCtr
  else if o = STR_EVENT then accW1c 0x3
  else if o = STR_EVENT_EN then accRw 0x3
  else if o = 0x510 ∨ o = 0x514 ∨ o = 0x518 ∨ o = 0x51C then accCtr
  else if o = RPL_EVENT then accW1c 0xFFFFFFFF
  else if o = RPL_EVENT_EN then accRw 0xFFFFFFFF
  else if 0x800 ≤ o ∧ o < 0x840 then accRw 0x00003F07
  else if 0x2000 ≤ o ∧ o < 0x3000 then accW1c 0xFFFFFFFF
  else if 0x3000 ≤ o ∧ o < 0x3180 then accCtr
  else if 0x4000 ≤ o ∧ o < 0x6000 then
    let b := o % 0x80
    if b = 0x04 then accW1c 0xFF else if b = 0x08 then accRw 0xFF
    else if b = 0x0C ∨ b = 0x10 ∨ b = 0x1C then accRw 0xFFFFFFFF
    else if b = 0x14 then accRw 0xFFFF
    else if 0x5C ≤ b ∧ b ≤ 0x78 then accCtr else accNone
  else if 0x6000 ≤ o ∧ o < 0x7000 then
    let b := o % 0x40
    if b = 0x04 then accW1c 0x3F else if b = 0x08 then accRw 0x3F
    else if 0x2C ≤ b then accCtr else accNone
  else if 0x7000 ≤ o ∧ o < 0x7400 then
    let b := o % 0x40
    if b = 0x08 then accW1c 0xF else if b = 0x0C then accRw 0xF
    else if b = 0x20 ∨ b = 0x24 ∨ b = 0x28 then accCtr else accNone
  else if 0x8000 ≤ o ∧ o < 0x8800 then
    let b := o % 0x40
    if b = 0x00 ∨ b = 0x04 then accRw 0xFFFFFFFF
    else if b = 0x08 then accRw 0x1F else if b = 0x0C then accRw 0x1FFFF
    else if b = 0x20 ∨ b = 0x24 ∨ b = 0x28 then accCtr else accNone
  else if o = PCIE_EVENT then accW1c 0x1F
  else if o = PCIE_EVENT_EN then accRw 0x1F
  else if o = PEER_STATUS then accW1c 0xFF
  else if o = PCIE_UNEXP ∨ o = PCIE_POISON_RX ∨ o = PCIE_POISON_TX then accCtr
  else if o = DMA_EVENT_DONE ∨ o = DMA_EVENT_HALT then accW1c 0xFFFFFFFF
  else if o = DMA_DONE_EN ∨ o = DMA_HALT_EN then accRw 0xFFFFFFFF
  else if 0xA000 ≤ o ∧ o < 0xAA00 then { rw := 0x400003FF, w1c := 0x80000000, ctr := false }
  else if o = MT_EVENT then accW1c 0xF
  else if o = MT_EVENT_EN then accRw 0xF
  else if 0xB080 ≤ o ∧ o < 0xB090 then accCtr
  else if o = PWR_REFUSE then accW1c 0x80000000
  else if o = THERM_ALERT then accRw 0xFFFF
  else if o = GATE_FAIL then accCtr
  else if 0xD100 ≤ o ∧ o < 0xD200 then accRw 0xFFFFFFFF
  else if 0x10000 ≤ o ∧ o < 0x20000 then
    (if streamBindable ((o - 0x10000) / 0x10) then
      (if o % 0x10 = 0 then accRw 0x027FFFFF else if o % 0x10 = 8 then accCtr else accNone)
    else accNone)
  else accNone

/-- Access masks of an engine block (R126 to R148, R198). -/
def accEng (o : Nat) : Access :=
  if o = 0x000 then accW1c 0x20
  else if o = 0x004 then accRw 0x1F
  else if o = 0x00C then accRw 0xFFF
  else if o = 0x010 then accW1c 0x7F
  else if o = 0x014 then accRw 0x7F
  else if o = 0x018 then accRw 1
  else if o = 0x020 ∨ o = 0x024 ∨ o = 0x028 then accCtr
  else if o = 0x040 then accRw 0x7
  else if o = 0x044 then accRw 0x000F3F1F
  else if 0x100 ≤ o ∧ o < 0x180 then accRw 0x7FF
  else if 0x180 ≤ o ∧ o < 0x200 then
    (if o % 0x10 = 0 ∨ o % 0x10 = 4 then accRw 0xFFFFFFFF else if o % 0x10 = 8 then accRw 3 else accNone)
  else if 0x200 ≤ o ∧ o < 0x300 then
    (if o % 0x10 = 0 ∨ o % 0x10 = 4 then accRw 0xFFFFFFFF else if o % 0x10 = 8 then accRw 0xFFFF001F else accNone)
  else if 0x300 ≤ o ∧ o < 0x340 then (if o % 8 = 0 then accRw 0x0FFF003F else accCtr)
  else if 0x400 ≤ o ∧ o < 0x500 then
    (if o % 0x20 < 0x10 then accRw 0xFFFFFFFF else if o % 0x20 = 0x10 then accRw 0x003F3F07 else accNone)
  else if 0x500 ≤ o ∧ o < 0x600 then
    (if o % 0x20 = 0 then accCtr
     else if o % 0x20 = 4 then { rw := 0xFFFF, w1c := 0, ctr := true }
     else if o % 0x20 = 8 ∨ o % 0x20 = 0x10 then accRw 0xFFFFFFFF
     else if o % 0x20 = 0xC ∨ o % 0x20 = 0x14 then accRw 0xFFFF
     else if o % 0x20 = 0x18 then accRw 0x1BF else accNone)
  else if 0x600 ≤ o ∧ o < 0x680 then
    (if o % 0x20 = 0 then accCtr
     else if o % 0x20 = 4 then { rw := 0xFFFF, w1c := 0, ctr := true }
     else if o % 0x20 = 8 then accRw 0xFFFFFFFF
     else if o % 0x20 = 0xC then accRw 0xFFFF
     else if o % 0x20 = 0x10 then accRw 1 else accNone)
  else if 0x700 ≤ o ∧ o < 0x740 then (if o % 0x20 < 0x18 then accRw 0xFFFFFFFF else accNone)
  else if 0xC00 ≤ o ∧ o ≤ 0xC10 then accCtr
  else accNone

/-- Access masks of a ring descriptor (R237). RING_MARK is written only through RING_DOORBELL. -/
def accRing (o : Nat) : Access :=
  if o = 0x004 then accW1c 0x1D
  else if o = 0x038 then accRw 0xFFFFFFFF
  else if o = 0x050 ∨ o = 0x054 ∨ o = 0x058 ∨ o = 0x05C then accCtr
  else accNone

/-- Access masks of a lane block (R98). -/
def accLane (o : Nat) : Access :=
  if o = 0x004 then accW1c 0x1FF
  else if o = 0x008 then accRw 0x1FF
  else if 0x010 ≤ o ∧ o ≤ 0x024 then accCtr
  else accNone

/-- Access masks of a mailbox (R49); MBX_DOORBELL has its own step. -/
def accMbx (o : Nat) : Access :=
  if o = 0x000 then accRw 0xFFFFFFFF
  else if o = 0x004 then accRw 3
  else if o = 0x008 ∨ o = 0x00C then accRw 0xFFFFFFFF
  else if o = 0x014 then accW1c 0x100
  else if 0x100 ≤ o ∧ o < 0x500 then accRw 0xFFFFFFFF
  else accNone

/-- Access masks of the register at a BAR0 offset; offsets that name no writable register have none (R31). -/
def accessOf (off : Nat) : Access :=
  if off % 4 ≠ 0 then accNone else
  match blockOf off with
  | .ctl o => accCtl o
  | .mbx _ o => accMbx o
  | .eng _ o => accEng o
  | .ring _ o => accRing o
  | .lane _ o => accLane o
  | _ => accNone

/-- AON registers that a warm reset or an FLR keeps (R373; the memory test registers by R363, log 7). -/
def keptAtWarm (off : Nat) : Bool :=
  decide (0xB000 ≤ off) && decide (off < 0xB080) || decide (0xB100 ≤ off) && decide (off < 0xB200) ||
  decide (off = THERM_STATUS) || decide (off = THERM_MAX) || decide (0xD010 ≤ off) && decide (off < 0xD020)

end Sys2Proof.Machine
end

