-- ==== Sys2Proof/Machine/State.lean ====
section
/-! DEFINITION. The state of the block as plain data, the reasons a command can stop, and the state after reset.
Host-visible registers live once, in `regs`, by BAR0 byte offset; the other fields hold what the rules give the units
beside their registers. Ticks and lengths that are counted are numbers. -/

namespace Sys2Proof.Machine

/-! ### Sequencer engines (chapters 06, 07) -/

/-- A context request waiting in an engine's queue (R162, R187). `recTick`: record tick of the treated slice. -/
structure CtxReq where
  op      : Nat
  key     : Word64
  mask    : BitVec 3
  user    : Word
  imm     : BitVec 16
  stamp   : BitVec 48
  recTick : Int
  issued  : Tick
  /-- The job of a Turntable insert (R197). -/
  job     : Nat := 0
deriving DecidableEq, Repr

/-- A context result (R186); `visible` is the first tick on which a CTX_DONE word sees it (R187). -/
structure CtxRes where
  hit     : Bool
  full    : Bool
  st      : BitVec 16
  issued  : Tick
  visible : Tick
deriving DecidableEq, Repr

/-- What an engine's resources found in one slice (R128, R129), awaiting the word that treats it. -/
structure Eval where
  tick   : Tick
  recTick : Int
  payload : Word
  valid  : Bool
  cvalid : Bool
  wr     : BitVec 16
  ed     : BitVec 8
  rc     : BitVec 8
  qclk   : Bool
  bus    : Word64
  last   : Bool
deriving DecidableEq, Repr

/-- One slice of one member lane as the resources take it: sample images in time order, and VALID. -/
structure LaneSample where
  images : List Nat
  valid  : Bool
deriving DecidableEq, Repr

/-- Notices pending in ENG_NOTICE, each with the tick on which it was accepted (R147, R173); `again`: bits the host set on
this tick while they were pending (R45). -/
structure Notices where
  snap  : Option Tick
  level : Option Tick
  stop  : Option Tick
  pause : Option Tick
  again : BitVec 5
deriving DecidableEq, Repr

structure EngCore where
  /-- Holds microcode: an UCODE_LOAD completed OK since the domain was switched on (R155). -/
  loaded   : Bool
  /-- Control store words other than the parking word of their address (R155). -/
  cs       : Tab MicroWord
  /-- Control store words in error: 1 single-bit, 2 double-bit (R149). -/
  csErr    : Tab Nat
  pc       : BitVec 11
  stack    : List (BitVec 11)
  qual     : Bool
  winOpen  : Bool
  /-- Bit i: auto-count of counter i is held (R137). -/
  held     : BitVec 8
  /-- Published values with the tick of each publish, newest first (R141). -/
  pub      : List (Tick × BitVec 4)
  reqQ     : List CtxReq
  /-- Results of granted requests, oldest first: in flight until the tick before they become visible (R187). -/
  resQ     : List CtxRes
  lastRes  : Option CtxRes
  dropped  : Bool
  notices  : Notices
  evals    : List Eval
  /-- Slices of the member lanes the resources took, newest first (R132, R135). -/
  recent   : List (List LaneSample)
  /-- Edges under qualification, by detector: new level and samples held (R132). -/
  edges    : Tab (Bool × Nat)
  /-- Samples since the last clock edge the qualifier accepted, counted up to 4 (R136). -/
  qclkSince : Option Nat
  busHold  : Word64
  /-- Timers whose count of this tick is replaced or done: whether each ran before, and its value before (R138, R166). -/
  tmrOld   : Tab (Bool × Nat)
  /-- Counters a word or a start wrote on this tick, with the value before (R166). -/
  cntOld   : Tab Nat
  /-- The tick on which the engine last executed a word, on which it started, and on which it left PAUSED. -/
  lastExec : Option Tick
  startAt  : Option Tick
  resumedAt : Option Tick
  /-- Value of each condition on the last executed word, for skipping (R262), and whether the word was settled. -/
  settled  : Bool
  lastCond : Word64
  /-- Ticks of the latest microcode and host writes to LEVEL (R45). -/
  lvlHw    : Option Tick
  lvlHost  : Option Tick
  /-- Consist: lead engine and log2 of the size (R140). -/
  lead     : Nat
  csize    : Nat
  /-- Replay job that owns the engine, if any (R254). -/
  job      : Option Nat
  resetAt  : Option Tick
deriving DecidableEq, Repr

def Notices.none4 : Notices := { snap := none, level := none, stop := none, pause := none, again := 0 }

/-- Engine `n` at switch-on of its domain (R155, R140, R146). -/
def EngCore.init (n : Nat) : EngCore :=
  { loaded := false, cs := [], csErr := [], pc := 0, stack := [], qual := true, winOpen := false, held := 0, pub := [],
    reqQ := [], resQ := [], lastRes := none, dropped := false, notices := Notices.none4, evals := [],
    recent := [], edges := [], qclkSince := none, busHold := 0, tmrOld := [], cntOld := [], lastExec := none, startAt := none, resumedAt := none,
    settled := false, lastCond := 0, lvlHw := none, lvlHost := none, lead := n, csize := 0, job := none, resetAt := none }

/-! ### Keyed context store (chapter 08) -/

structure CtxEntry where
  key   : Word64
  st    : BitVec 16
  stamp : BitVec 48
  user  : Word
  valid : Bool
  rank  : BitVec 2
deriving DecidableEq, Repr

def CtxEntry.empty : CtxEntry := { key := 0, st := 0, stamp := 0, user := 0, valid := false, rank := 0 }

/-- A set: four ways (R178, R181). -/
def ctxSetEmpty : List CtxEntry := [CtxEntry.empty, CtxEntry.empty, CtxEntry.empty, CtxEntry.empty]

/-- A clear under way (R180): its first tick and whether it is the switch-on clear. -/
structure CtxClear where
  from_    : Tick
  switchOn : Bool
deriving DecidableEq, Repr

/-- A granted operation that has not reached its row's write yet: master, request, set, the age limit in force at the grant, and
the tick of the grant (R185, R187). -/
structure CtxFlight where
  master : Nat
  req    : CtxReq
  set    : Nat
  limit  : Nat
  at_    : Tick
deriving DecidableEq, Repr

structure CtxStore where
  sets    : Tab (List CtxEntry)
  /-- Rows in error: 1 correctable, 2 uncorrectable (R183). -/
  rowErr  : Tab Nat
  drawn   : Bool
  policy  : Bool
  clear   : Option CtxClear
  /-- Round-robin pointer per bank (R188). -/
  rr      : Tab Nat
  /-- Tick of the latest grant, by bank and by 64 + master. -/
  granted : Tab Tick
  /-- Rows the sweep has examined in each bank, and the tick of its latest step (R192). -/
  sweepRow : Tab Nat
  sweepAt  : Tab Tick
  /-- Requests of the Turntable (256) and the host path (257). -/
  extQ    : Tab (List CtxReq)
  /-- Operations granted and not done yet, oldest grant first (R187). -/
  flight  : List CtxFlight
deriving DecidableEq, Repr

def CtxStore.init : CtxStore :=
  { sets := [], rowErr := [], drawn := true, policy := false, clear := none, rr := [], granted := [], sweepRow := [],
    sweepAt := [], extQ := [], flight := [] }

/-! ### Records, streams and rings (chapters 09, 10) -/

/-- A record without its SEQ (R210): the ring manager gives SEQ at the commit (R241). `words` are its LEN payload words,
`bad` the payload words in uncorrectable error (R222), `ring` where it goes, `ord` its place in the order of closing
(R220), `firstTs` and `lastTs` the timestamps of its first and last tick (R249). -/
structure Rec where
  typ    : BitVec 4
  flags  : BitVec 8
  source : Nat
  words  : List Word64
  bad    : List Nat
  ring   : Nat
  ord    : Nat
  firstTs : Word64
  lastTs : Word64
deriving DecidableEq, Repr

/-- A record being formed: first record tick, timestamp, items so far (slices, entries, slots or stamps) and the record
tick of the latest item. `head` is payload word 1 where the type has one, `ring` where the record goes, `at_` the tick on which
it was opened, `lost` that it did not fit its staging queue and is dropped (R228). -/
structure OpenRec where
  typ   : BitVec 4
  first : Int
  last  : Int
  ts    : Word64
  flags : BitVec 8
  head  : Word64
  items : List Word64
  ring  : Nat
  at_   : Tick
  lost  : Bool
deriving DecidableEq, Repr

/-- A loss under way or awaiting its GAP record: first and last lost timestamp, and the count (R217). -/
structure Loss where
  stream : Nat
  first  : Word64
  last   : Word64
  count  : Nat
deriving DecidableEq, Repr

/-- A widened hybrid window (R209): first record tick, last one (none while open), and the tail of its STR_CFG. -/
structure Window where
  start : Int
  stop  : Option Int
  post  : Nat
deriving DecidableEq, Repr

structure StreamCore where
  activity : Word
  duty     : Word
  rate     : Word
  openRec  : Option OpenRec
  staged   : List Rec
  loss     : Option Loss
  /-- Lost interval of a lane that is not LIVE: first record tick, ticks already covered (R95). -/
  dead     : Option (Int × Nat)
  refNext  : Bool
  /-- The last valid slice the record former took (R207). -/
  prev     : Option Word
  prevQual : Bool
  prevWin  : Bool
  /-- Widened hybrid windows of the microcode, and of AUTO_WIN (R209). -/
  windows  : List Window
  autoWins : List Window
  /-- First tick of the bad superframe whose GAP record was written last (R92). -/
  badSf    : Option Tick
  /-- Segments this stream has completed (R230), and the last record tick the former took. -/
  seg      : Nat
  doneK    : Option Int
  /-- Staged words in single-bit error (R221). -/
  corr     : Nat
  /-- What the memory scheduler has taken out of the staging of the records not committed yet, and what it took on the latest
  tick, in thousandths of a byte (R224). -/
  drained  : Nat
  drainRate : Nat
  /-- The lane's line buffer (R354): next word of its staging area, words gathered in the present line, and the banks for which
  its completed lines wait. -/
  wpos     : Nat
  part     : Nat
  lines    : List Nat
deriving DecidableEq, Repr

def StreamCore.init : StreamCore :=
  { activity := 0, duty := 0, rate := 0, openRec := none, staged := [], loss := none, dead := none, refNext := true,
    prev := none, prevQual := true, prevWin := false, windows := [], autoWins := [], badSf := none, seg := 0,
    doneK := none, corr := 0,
    drained := 0, drainRate := 0, wpos := 0, part := 0, lines := [] }

structure RingCore where
  /-- Losses awaiting their GAP records, and those whose GAP records are being committed (R249). -/
  losses    : List Loss
  batch     : List Loss
  /-- Commit tick of the oldest unnoticed record (R242), and whether RING_NOTICE was written on this tick. -/
  oldest    : Option Tick
  noticeWr  : Bool
  hdrStop   : Bool
  /-- Ticks of the latest auto-release raise of MARK, and commit (R241, R247). -/
  markRaise : Option Tick
  commitAt  : Option Tick
  /-- Doorbell words accepted and not yet applied (R247). -/
  ops       : List Word
  /-- Mailbox of a RING_FLUSH under way (R252). -/
  flush     : Option Nat
deriving DecidableEq, Repr

def RingCore.init : RingCore :=
  { losses := [], batch := [], oldest := none, noticeWr := false, hdrStop := false, markRaise := none, commitAt := none,
    ops := [], flush := none }

/-! ### Rail lanes (chapter 04) -/

/-- A MARK action on a slice, or a replay trigger (R161, R219). -/
structure MarkAct where
  id    : BitVec 8
  pc    : BitVec 11
  level : BitVec 5
  eng   : Nat
  cnts  : List (BitVec 48)
deriving DecidableEq, Repr

/-- A slice between the lane input and the record former, with what its word asked for (R92, R161). `bad` is the first
tick of its superframe where the superframe is bad. -/
structure Slice where
  tick    : Tick
  payload : Word
  valid   : Bool
  live    : Bool
  bad     : Option Tick
  qual    : Option Bool
  marks   : List MarkAct
deriving DecidableEq, Repr

/-- A superframe whose verdict is pending (R75, R91): its first tick, its own checks, and the CRC of its payload. -/
structure SfPend where
  first    : Tick
  markerOk : Bool
  scrOk    : Bool
  seqOk    : Bool
  crc      : Word
deriving DecidableEq, Repr

/-- The superframe under way (R72): what its overhead carries, the CRC of its payload, and how many of the four moments at
which the device takes its fields have passed: MARKER, STATUS, CRC, SCR_SYNC. -/
structure SfCur where
  first  : Tick
  found  : Bool
  /-- It starts 2,560 line bits after the one before (R73). -/
  next   : Bool
  seqOk  : Bool
  status : Word
  crcIn  : Word
  scrOk  : Bool
  crc    : Word
  taken  : Nat
deriving DecidableEq, Repr

/-- The receiver of a lane (R73 to R78, R91, R94): descrambler, last SEQ, missing markers and failed SCR_SYNC checks in a
row, markers found in a row, CRCs that passed, the superframe awaiting its CRC, the one under way, the STATUS of the last
superframe with a found marker, and superframes that passed in a row. -/
structure SfState where
  scr      : BitVec 58
  seq      : Option (BitVec 16)
  miss     : Nat
  scrFail  : Nat
  found    : Nat
  crcRun   : Nat
  pend     : Option SfPend
  cur      : Option SfCur
  status   : Option Word
  liveRun  : Nat
deriving DecidableEq, Repr

/-- `liveFrom`: first tick of the first whole superframe since the lane became LIVE (R95); `phaseAt`: start of its training
phase (`ns`); `ready3`, `echo`: it waits at the end of phase 3 or 5 (R87); `tag`: the echo tag sent; `lat`: l_n (R89). -/
structure LaneCore where
  hist   : List Slice
  sf     : SfState
  liveFrom : Tick
  phaseAt : Nat
  ready3 : Bool
  echo   : Option Echo
  tag    : BitVec 16
  lat    : Nat
  /-- The tick of a loss of CDR lock or an excess of wander (R94). -/
  lossAt : Option Tick
deriving DecidableEq, Repr

def SfState.init : SfState :=
  { scr := 0, seq := none, miss := 0, scrFail := 0, found := 0, crcRun := 0, pend := none, cur := none, status := none,
    liveRun := 0 }

def LaneCore.init : LaneCore :=
  { hist := [], sf := SfState.init, liveFrom := 0, phaseAt := 0, ready3 := false, echo := none, tag := 0, lat := 0,
    lossAt := none }

/-- A control frame queued on a return lane (R83): header and body words, and the mailbox waiting for it. `sync`: the return
lanes on which a SYNC frame goes out in one return superframe (R87), empty for any other frame; `go`: it has come to that. -/
structure RetFrame where
  words  : List Word
  waiter : Option Nat
  sync   : List Nat
  go     : Bool
deriving DecidableEq, Repr

/-- A return lane (R81 to R84): control frames queued; the frame
being sent: words still to send, its SEQ and its mailbox; the scrambler; the tick of the last return superframe. -/
structure RetCore where
  rseq    : BitVec 16
  lastSeq : BitVec 8
  queue   : List RetFrame
  busy    : Bool
  part    : List Word
  seq     : BitVec 8
  waiter  : Option Nat
  scr     : BitVec 58
  lastAt  : Option Tick
deriving DecidableEq, Repr

def RetCore.init : RetCore :=
  { rseq := 0, lastSeq := 0, queue := [], busy := false, part := [], seq := 0, waiter := none, scr := 0, lastAt := none }

/-! ### Timebase and Loop line (chapter 05) -/

structure Pll where
  refdiv : Nat
  fbdiv  : Nat
  bw     : Nat
  spread : Nat
  locked : Bool
  /-- Relocking or locking for the first time, and since when (`ns`). -/
  relock : Bool
  since  : Nat
deriving DecidableEq, Repr

structure Timebase where
  crystal  : Bool
  holdover : Bool
  refLost  : Bool
  refClass : Nat
  prevWin  : Nat
  refOut   : Nat
  /-- The latest rising edge of REF_OUT, in `ns` (R104). -/
  refEdge  : Nat
  plls     : List Pll
deriving DecidableEq, Repr

/-- A Loop line frame with its trailer (R119). -/
structure LoopTx where
  frame   : BitVec 192
  trailer : BitVec 128
  /-- The first tick on which it may start. -/
  from_   : Tick
deriving DecidableEq, Repr

/-- A Loop line command that passed its checks here and waits for its tick (R123). -/
structure LoopCmd where
  opcode : Nat
  tick   : Tick
  param  : Word64
deriving DecidableEq, Repr

structure LoopCore where
  n       : Nat
  pos     : Option Nat
  resid   : Nat
  retard  : Nat
  syncErr : Word
  txq     : List LoopTx
  sent    : List LoopTx
  cmds    : List LoopCmd
  /-- Trailer of the returned COMMAND frame. -/
  reply   : Option (BitVec 128)
  /-- a_p of this device (R121). -/
  phase   : BitVec 8
  /-- Sub-ticks of the retard done so far (R121). -/
  done    : Nat
  /-- The frame that takes up SYNC_OUT, with the tick of its first bit (R118). -/
  line    : Option (Tick × LoopTx)
  /-- The position held before membership ended, for frames of its own still on the line (R120); a CENSUS of its own that timed
  out is one of them. -/
  was     : Option Nat
  late    : Bool
deriving DecidableEq, Repr

/-- What a change on its way does to its bit: a level it takes and holds, or a pulse of one tick. -/
inductive GKind where
  | level (v : Bool)
  | pulse
deriving DecidableEq, Repr

/-- A change of one Global bit on its way to the Junction, or of one TRIG_OUT source on its way to its pin (R142, R144,
R145, R279, R297). -/
structure GEv where
  due : Tick
  bit : Nat
  val : GKind
deriving DecidableEq, Repr

/-- The Global group (R142, R144): bits at the Junction inputs on this tick and on the tick before, the levels they hold
beneath the pulses, changes under way, TRIG_IN pin levels, the changes of the sampled pins of the last ticks, newest first,
and ENG_GFORCE. -/
structure Globals where
  vis   : Word64
  visPrev : Word64
  level : Word64
  pipe  : List GEv
  pins  : BitVec 8
  sampled : List (Tick × BitVec 8)
  /-- The levels of the TIU selectors as sampled at the end of the tick before (R279). -/
  tiuLvl : BitVec 16
  gforce : BitVec 8
deriving DecidableEq, Repr

/-- TRIG_OUT (R145): pin levels behind DRIVE, source levels seen last tick, source levels that have reached the pins and
whether each pin's result was high, changes under way, pulse end ticks. -/
structure TrigOut where
  pin    : BitVec 8
  src    : BitVec 8
  at_    : BitVec 8
  high   : BitVec 8
  pipe   : List GEv
  pulse  : Tab Tick
deriving DecidableEq, Repr

/-! ### Capture (chapters 03, 06) -/

/-- An assertion of the trigger for record tick `t`; `src` as CAPTURE_STATUS RES3 gives (R151, R153). -/
structure Assertion where
  t      : Int
  src    : Nat
  origin : Nat
deriving DecidableEq, Repr

structure Trig where
  t       : Int
  src     : Nat
  origin  : Nat
  decided : Tick
  /-- Index of its segment. -/
  seg     : Nat
  /-- SYS_CAPTURE shows TRIGGERED for it (R152). -/
  shown   : Bool
  /-- Rings that still owe its TRIG record (R218), and whether that carries GAPPED, once the record former has passed the
  trigger tick (R93). -/
  rings   : List Nat
  gapped  : Option Bool
deriving DecidableEq, Repr

/-- A segment that SYS_CAPTURE shows as done: its trigger tick, and its last record tick T + P. -/
structure SegEnd where
  t   : Int
  fin : Int
deriving DecidableEq, Repr

structure Capture where
  segs     : Nat
  depth    : Nat
  /-- Record ticks from which the capture records (R204), and from which the present segment triggers (R151). -/
  recFrom  : Int
  first    : Int
  /-- Index of the segment the arbiter is armed for. -/
  segIdx   : Nat
  asserts  : List Assertion
  /-- Honoured triggers whose segments SYS_CAPTURE does not yet show as done, oldest first. -/
  trigs    : List Trig
  /-- The segments done since the arm whose last record ticks a unit behind the record former may not have reached, newest
  first. -/
  ends     : List SegEnd
  /-- Triggers of such segments whose TRIG records a ring still lacks. -/
  owed     : List Trig
  /-- Halt record tick q of a halt that has acted, and its cause (R65). -/
  haltAt   : Option Int
  haltCause : Nat
  lastTs   : Word64
  lastSrc  : Nat
  /-- Rings whose SEGBASE follows once every record up to that timestamp is committed (R251). -/
  segMarks : List (Nat × Word64)
  /-- SYS_CAPTURE.STATE at the end of the tick before (R129). -/
  prevState : Nat
deriving DecidableEq, Repr

/-! ### Mailboxes (chapter 03) -/

/-- The resources commands hold (R54). -/
inductive Res where
  | capture
  | lane (n : Nat)
  | engine (n : Nat)
  | ring (r : Nat)
  | tiu (i : Nat)
  | chain (j : Nat)
  | deflate (k : Nat)
  | ctx
  | timebase
  | loop
  | gates
  | memtest
deriving DecidableEq, Repr

/-- What an executing command waits for. -/
inductive Wait where
  | scheduled (tick : Tick)
  | train (lanes : List Nat) (setRel : Bool)
  | returnSend (k : Nat)
  | pll (k : Nat)
  | flush (r : Nat) (at_ : Tick) (trunc : Bool) (upto : Option Nat)
  | deflateFlush (k : Nat)
  | tiuCal (inputs : List Nat) (measure : Bool)
  | clear
  | armClear (atTick : Tick)
  /-- CTX_DUMP: ring, timestamp, next set, entries so far, and records of the last set still to go into the ring. -/
  | dump (ring : Nat) (ts : Word64) (next : Nat) (count : Nat) (recs : List Rec)
  | census (at_ : Tick)
  | aligning
  | snapshot (at_ : Tick) (ring : Nat) (engs : List Nat)
  /-- ENGINE_SNAPSHOT: snapshot tick, ring, and the STATS records still to be written, one per tick (R150). -/
  | stats (at_ : Tick) (ring : Nat) (recs : List (Nat × List Word64))
  | measuring
  | loopPost (tick : Tick) (n : Nat)
  | loopReturn (tick : Tick) (n : Nat)
deriving DecidableEq, Repr

structure RunCmd where
  m    : Nat
  op   : Nat
  wait : Wait
  held : List Res
deriving DecidableEq, Repr

/-! ### TIU and decimation chains (chapters 12, 13) -/

/-- An edge that an input's prescaler passed on and that is stamped on the next tick: coarse edge C2, raw code, polarity and the
tick on which it arrived (R269, R273). -/
structure TiuEdge where
  c2     : Nat
  code   : Nat
  rising : Bool
  tick   : Tick
deriving DecidableEq, Repr

/-- A whole record of a bound TIU stream that waits for the record former to pass its record tick. -/
structure TiuRec where
  recTick : Int
  typ     : BitVec 4
  words   : List Word64
deriving DecidableEq, Repr

structure TiuCore where
  /-- Input edges the prescaler has counted since it last passed one on, the level of its output (R266, R279), and the edges it
  passed on that are not judged yet. -/
  edges    : Nat
  lvl      : Bool
  queue    : List TiuEdge
  hold     : List TiuRec
  typ      : Nat
  each     : Bool
  n        : Nat
  gateTick : Tick
  gate     : Nat
  stopIn   : Nat
  ring     : Nat
  /-- Start of the calibration under way (R270), and whether the last one failed. -/
  calFrom  : Tick
  calFail  : Bool
  /-- Stamps in sub-ticks with 8 fractional bits: the open interval's start, the pair's first edge; the last stamped edge,
  without the skew (R267). -/
  openAt   : Option Int
  openWin  : Bool
  pairAt   : Option Int
  lastEdge : Option Int
  results  : Nat
  sumR     : Int
  sumR2    : Int
  minR     : Int
  maxR     : Int
  /-- Regression of R277: cycles so far, stamps, first stamp and the exact sums; x of the last stamp. -/
  xCount   : Nat
  stampsK  : Nat
  firstY   : Int
  sumX     : Int
  sumY     : Int
  sumXX    : Int
  sumXY    : Int
  sumYY    : Int
  lastX    : Nat
  winChg   : Bool
  /-- Stamp requests on their way: engine and tick of arrival; the one held in STAMP_WAIT (R278). -/
  reqIn    : List (Nat × Tick)
  req      : Option (Nat × Tick)
  /-- Measurement that takes this input as its stop input. -/
  stopOf   : Option Nat
deriving DecidableEq, Repr

def TiuCore.init : TiuCore :=
  { edges := 0, lvl := false, queue := [], hold := [], typ := 0, each := false, n := 0, gateTick := 0, gate := 0, stopIn := 0, ring := 0, calFrom := 0, calFail := false,
    openAt := none, openWin := false, pairAt := none, lastEdge := none, results := 0, sumR := 0, sumR2 := 0, minR := 0,
    maxR := 0, xCount := 0, stampsK := 0, firstY := 0, sumX := 0, sumY := 0, sumXX := 0, sumXY := 0, sumYY := 0, lastX := 0,
    winChg := false, reqIn := [], req := none, stopOf := none }

/-- One input sample of a chain (R288). -/
structure DfcIn where
  recTick : Int
  sample  : Int
  missing : Bool
  ovr     : Bool
  bad     : Bool
deriving DecidableEq, Repr

/-- An output within the 80-tick hold (R288): tick it goes to staging, source lane, ring argument of the DFC_CONFIG in force, position
in 2^-24 ticks (R292), support, slot and output period in sub-ticks; or with `close` the point at which a reset closes the open
record. -/
structure DfcOut where
  due   : Tick
  lane  : Nat
  ring  : Word
  pos   : Int
  supp  : Int
  upto  : Int
  slot  : Word
  period : Word
  close : Bool
deriving DecidableEq, Repr

/-- The setting of one threshold as DFC_THRn_LEVEL and DFC_THRn_CFG give it (R298, R300). -/
structure ThrSet where
  level : Word
  cfg   : Word
deriving DecidableEq, Repr

/-- An output on its way to the thresholds (R297): tick of the comparison, value (none where UNSETTLED), settings in force. -/
structure ThrCmp where
  due : Tick
  val : Option Int
  set : List ThrSet
deriving DecidableEq, Repr

/-- `resets`: record ticks of the DFC_SYNCs that wait for their slices (R299). Inputs and held outputs: `inputs` newest first,
`held` oldest first. `thr`: the settings that the two thresholds act under (R298); `cmps`: outputs not compared yet. -/
structure DfcCore where
  rankL   : Nat
  rankK   : Nat
  param0  : Word
  param1  : Word
  ring    : Word
  grid    : Int
  resets  : List Int
  inputs  : List DfcIn
  lastIn  : Int
  outIdx  : Nat
  held    : List DfcOut
  thr     : List ThrSet
  cmps    : List ThrCmp
deriving DecidableEq, Repr

def DfcCore.init : DfcCore :=
  { rankL := 0, rankK := 0, param0 := 0, param1 := 0, ring := 0, grid := 0, resets := [], inputs := [], lastIn := 0,
    outIdx := 0, held := [], thr := [], cmps := [] }

/-! ### Deflate, replay, memory test (chapters 14, 11, 17) -/

structure DflCore where
  /-- Input bytes since the last block end, with the timestamp of the first record in them, and poison. -/
  buf      : List Byte
  bufRecs  : Nat
  bufTs    : Word64
  bufPoison : Bool
  bufWords : Nat
  history  : List Byte
  block    : Nat
  readPtr  : Nat
  lastTs   : Word64
  lastRead : Tick
  flushReq : Bool
  headerDone : Bool
  /-- Why the job stops reading: 5 a poisoned header at the source (R313), else 0. -/
  endReq   : Nat
  /-- Inflate: stream bytes taken and not yet expanded, expanded bytes not yet committed. -/
  inBytes  : List Byte
  outBytes : List Byte
  committed : Nat
  /-- Bytes waiting for host buffers; whether they end at the sync point of a flush; the end cause of a job whose last output
  is made. -/
  outQ     : List Byte
  syncMark : Bool
  endMark  : Option Nat
  /-- How many of those bytes, the last ones, follow the last block: the final block and the trailer (R308). -/
  finLen   : Nat
deriving DecidableEq, Repr

def DflCore.init : DflCore :=
  { buf := [], bufRecs := 0, bufTs := 0, bufPoison := false, bufWords := 0, history := [], block := 0, readPtr := 0,
    lastTs := 0, lastRead := 0, flushReq := false, headerDone := false, endReq := 0, inBytes := [], outBytes := [],
    committed := 0, outQ := [], syncMark := false, endMark := none, finLen := 0 }

/-- A source ring of a replay job as it stood at the start (R257): REL, WR and RING_SEQ.NEXT. -/
structure SrcRing where
  ring : Nat
  rel  : Nat
  wr   : Nat
  seq  : Nat
deriving DecidableEq, Repr

structure Job where
  state   : Nat
  engines : List Nat
  rings   : List SrcRing
  rs      : Int
  re      : Int
  next    : Int
  /-- Record ticks fed on the latest fed ticks, newest first (none on a drain tick), and the last one every engine treated. -/
  fedRec  : List (Option Int)
  treated : Option Int
  result  : Nat
  marks   : Nat
  /-- Fed tick of the first TRIG action (R254). -/
  trigAt  : Option Nat
  fmts    : List (Nat × Nat)
  fedTick : Nat
  drain   : Nat
  /-- State the job is to end in (R264): 0 none, 3 STOPPED, 4 ABORTED. -/
  endReq  : Nat
  /-- The state of a job whose engines have ended and whose result records are still to be committed. -/
  ending  : Option Nat
  /-- The ticks of the latest fed tick, and of the latest feed or skip (R261). -/
  lastFed : Option Tick
  lastAct : Option Tick
deriving DecidableEq, Repr

def Job.free : Job :=
  { state := 0, engines := [], rings := [], rs := 0, re := 0, next := 0, fedRec := [], treated := none, result := 0,
    marks := 0, trigAt := none, fmts := [], fedTick := 0, drain := 0, endReq := 0, ending := none, lastFed := none, lastAct := none }

structure MtJob where
  memory : Nat
  first  : Nat
  count  : Nat
  done   : Nat
  faulty : Nat
deriving DecidableEq, Repr

/-- A soft spare row in use: memory, row, region (R360, R362). -/
structure Spare where
  memory : Nat
  row    : Nat
  region : Nat
deriving DecidableEq, Repr

/-! ### Endpoint (chapters 15, 16) -/

/-- A request the endpoint issued (R335): a posted write of data or of an MSI-X message, or a read of `len` bytes. `ecrc`: it
carries an ECRC (R339). -/
inductive Tlp where
  | data (addr : Nat) (bytes : List Byte) (ep : Bool) (ecrc : Bool)
  | msix (addr : Word64) (dat : Word) (ecrc : Bool)
  | read (addr : Nat) (len : Nat) (ecrc : Bool)
deriving DecidableEq, Repr

/-- The answer to the latest non-posted request. -/
inductive Cpl where
  | retry
  | data (words : List Word64) (ep : List Bool)
  | word (w : Word)
  /-- A register read: each DW with the byte enables that select what it returns (R34); a byte not selected is 0 here. -/
  | regs (dws : List (Word × BitVec 4))
  | success
  | unsupported
deriving DecidableEq, Repr

/-- Who a read of host memory belongs to (R333, R334). -/
structure OutRead where
  tag   : Nat
  chan  : Nat
  sent  : Nat
deriving DecidableEq, Repr

structure Pcie where
  cfg      : Tab Word
  reads    : List OutRead
  retired  : List Nat
  preFlr   : List OutRead
  tx       : List Tlp
  cpl      : Option Cpl
  /-- That completion carries an ECRC. -/
  cplEcrc  : Bool
  aspmL1   : Bool
  /-- When a TLP was last sent or received (`ns`). -/
  lastTlp  : Nat
  msix     : Tab Word
  pba      : List Nat
deriving DecidableEq, Repr

/-- `waiting`: the cause of a halt that waits for the channel's reads; `fetched`: the descriptor at HEAD has been read and is
under way; `filled`: bytes already written to its buffer; `irq`: its IRQ bit. -/
structure DmaCore where
  waiting : Option Nat
  fetched : Bool
  filled  : Nat
  irq     : Bool
deriving DecidableEq, Repr

def DmaCore.init : DmaCore := { waiting := none, fetched := false, filled := 0, irq := false }

/-! ### Gates, fuses, flash, power (chapters 17 to 19) -/

/-- Fuse contents (R355, R356): CRC verdict of each copy, whether they agree, and the identity of each copy. -/
structure Fuses where
  aOk      : Bool
  bOk      : Bool
  agree    : Bool
  capGibA  : BitVec 16
  capGibB  : BitVec 16
  serial   : Word64
  stepping : BitVec 8
deriving DecidableEq, Repr

inductive Copy where
  | valid (generation : Nat) (password : BitVec 128) (cfg : List Word)
  | erased
  | damaged
deriving DecidableEq, Repr

structure Flash where
  a : Copy
  b : Copy
  subsys : Word
deriving DecidableEq, Repr

structure Gates where
  svcOpen  : Bool
  custOpen : Bool
  custRestricted : Bool
  nonce    : Option (BitVec 256)
  /-- When the nonce was issued (`ns`). -/
  nonceAt  : Nat
  /-- GATE_PWD once written (R385). -/
  pwd      : Option (BitVec 128)
  /-- A save waits for the flash (R386). -/
  saving   : Bool
  /-- The password the flash holds or is to hold, 0 for none (R387). -/
  savedPwd : BitVec 128
deriving DecidableEq, Repr

/-- A staged guarded write (R37). -/
structure GuardLatch where
  off : BitVec 16
  val : Word
deriving DecidableEq, Repr

/-- An answer of the SMBus target: the data bytes, least significant first, and the packet error code after them (R400). -/
structure SmbAnswer where
  data : List Byte
  pec  : Byte
deriving DecidableEq, Repr

/-- The 16 states of the TAP controller (R399; IEEE 1149.1). -/
inductive TapState where
  | testLogicReset | runTestIdle
  | selectDr | captureDr | shiftDr | exit1Dr | pauseDr | exit2Dr | updateDr
  | selectIr | captureIr | shiftIr | exit1Ir | pauseIr | exit2Ir | updateIr
deriving DecidableEq, Repr

/-- JTAG instructions: IDCODE, BYPASS and those of boundary scan (R399). -/
inductive TapInstr where
  | idcode | bypass | samplePreload | extest
deriving DecidableEq, Repr

/-- The test logic: TAP state, instruction, the shift stages of the instruction register and of the selected data register
(the bit next to TDO first), and the update stage of the boundary cells. No reset of the device but POR reaches it. -/
structure Jtag where
  tap   : TapState
  instr : TapInstr
  ir    : List Bool
  dr    : List Bool
  held  : List Bool
deriving DecidableEq, Repr

/-- The state of the block. -/
structure State where
  pending  : List Instr
  /-- Whole ticks of the Timetable counter, modulo 2^56 (R113). -/
  time     : BitVec 56
  /-- The model's own count of free values drawn (log 3). -/
  freeCtr  : Nat
  /-- Host-visible registers by BAR0 byte offset; an unlisted offset reads `resetVal`. -/
  regs     : Tab Word
  /-- Register bits the hardware set and increments it made on this tick, and what the registers the host wrote on this
  tick held before (R45, R129). -/
  cycSet   : Tab Word
  cycInc   : Tab Nat
  cycHost  : Tab Word
  /-- What the registers the host wrote on the tick before held before (R127). -/
  cycPrev  : Tab Word
  /-- Event sources whose STATUS and EN were both 1 at the end of the tick before, or whose request the vector has taken
  since (R347, R349). -/
  evBoth   : List Nat
  /-- The model's count of records closed, which orders the commits of one ring (R220). -/
  recOrd   : Nat
  guard    : Option GuardLatch
  /-- Mailboxes in the order of their doorbells (R53), and commands under way (R51, R54). -/
  posted   : List Nat
  running  : List RunCmd
  /-- When a committed warm reset starts (R374), in `ns`. -/
  warmAt   : Option Nat
  /-- Nanoseconds since the model's start, by which limits outside the Timetable counter are measured. -/
  ns       : Nat
  /-- End of the switch ramp, and of the discharge, of each domain (R364, R368), in `ns`. -/
  ramp     : Tab Nat
  disch    : Tab Nat
  /-- Domains whose BIST or initialisation has passed since they were switched on (R357, R364). -/
  inits    : List Nat
  /-- Domains whose latest BIST left a region faulty with no spare row (R358). -/
  bistFailed : List Nat
  /-- The first DW of the latest BAR0 read the table has a row for. -/
  readData : Word
  fuses    : Fuses
  flash    : Flash
  gates    : Gates
  /-- A BIST has applied a repair since the last reset (R69, R357). -/
  repaired : Bool
  capture  : Capture
  /-- l_rel (R90). -/
  lrel     : Nat
  tb       : Timebase
  loop     : LoopCore
  glb      : Globals
  trigOut  : TrigOut
  eng      : Tab EngCore
  ctx      : CtxStore
  lane     : Tab LaneCore
  ret      : Tab RetCore
  /-- Return superframes sent, newest first: return lane and its 20 words as on the line. -/
  retTx    : List (Nat × List Word)
  stream   : Tab StreamCore
  ring     : Tab RingCore
  stratus  : Memory
  cirrus   : Memory
  /-- Round-robin pointer over the lanes of each Cirrus bank (R354). -/
  lineRr   : Tab Nat
  /-- Word addresses in uncorrectable and in single-bit error (R221, R222). -/
  stratusBad  : List Nat
  stratusCorr : List Nat
  cirrusBad   : List Nat
  cirrusCorr  : List Nat
  tiu      : Tab TiuCore
  dfc      : Tab DfcCore
  dfl      : Tab DflCore
  job      : Tab Job
  mt       : Option MtJob
  mtLast   : Option MtJob
  spares   : List Spare
  pcie     : Pcie
  dma      : Tab DmaCore
  /-- SMBus address bits sampled at POR release, and the latest answer, or none for a NACK (R392, R400). -/
  smbAddr  : BitVec 2
  smbOut   : Option SmbAnswer
  jtag     : Jtag
deriving DecidableEq, Repr

/-- No rule of the spec stops the machine, so no command raises a fault and the type has no value. -/
inductive Fault where
deriving DecidableEq, Repr

/-- Reasons a command has no meaning here. -/
inductive Refusal where
  /-- An arm of exec without a meaning yet. Raised by no meaning; safe. -/
  | notModelled (mnemonic : String)
  /-- Raised by SERVICE_COMMAND alone, when the Service gate is open: the spec names the range 0x0C80-0x0CFF for fuse
  programming and diagnostics and gives its opcodes no effect (R380). Safe: the model stops. -/
  | serviceEffectNotGiven
deriving DecidableEq, Repr

/-- Default PLL settings of index `k` from a 100 MHz source (R105). -/
def Pll.initial (k : Nat) : Pll :=
  if k = 0 then { refdiv := 1, fbdiv := 40, bw := 2, spread := 0, locked := false, relock := false, since := 0 }
  else if k = 1 then { refdiv := 4, fbdiv := 16, bw := 4, spread := 0, locked := false, relock := false, since := 0 }
  else if k < 10 then { refdiv := 4, fbdiv := 80, bw := 4, spread := 0, locked := false, relock := false, since := 0 }
  else { refdiv := 1, fbdiv := 64, bw := 4, spread := 0, locked := false, relock := false, since := 0 }

def Timebase.init : Timebase :=
  { crystal := true, holdover := false, refLost := false, refClass := 0, prevWin := 0, refOut := 0, refEdge := 0,
    plls := (List.range 12).map Pll.initial }

def LoopCore.init : LoopCore :=
  { n := 0, pos := none, resid := 1024, retard := 0, syncErr := 0, txq := [], sent := [], cmds := [], reply := none,
    phase := 0, done := 0, line := none, was := none, late := false }

def Capture.init : Capture :=
  { segs := 0, depth := 0, recFrom := 0, first := 0, segIdx := 0, asserts := [], trigs := [], ends := [], owed := [], haltAt := none,
    haltCause := 0, lastTs := 0, lastSrc := 0, segMarks := [], prevState := 0 }

/-- The test logic reset, as POR leaves it (R399). -/
def Jtag.init : Jtag := { tap := .testLogicReset, instr := .idcode, ir := [], dr := [], held := [] }

def Gates.init : Gates :=
  { svcOpen := false, custOpen := false, custRestricted := false, nonce := none, nonceAt := 0, pwd := none,
    saving := false, savedPwd := 0 }

def Pcie.init : Pcie :=
  { cfg := [], reads := [], retired := [], preFlr := [], tx := [], cpl := none, cplEcrc := false, aspmL1 := false, lastTlp := 0, msix := [],
    pba := [] }

/-- The block right after cold reset (R373, R378), before the firmware has booted. The fuses and the flash are what the
model's device holds (log 4). -/
def State.reset : State :=
  { pending := [], time := 0, freeCtr := 0, regs := [], cycSet := [], cycInc := [], cycHost := [], cycPrev := [], evBoth := [],
    recOrd := 0, guard := none,
    posted := [], running := [], warmAt := none, ns := 0, ramp := [], disch := [], inits := [], bistFailed := [], readData := 0,
    fuses := { aOk := true, bOk := true, agree := true, capGibA := 0x200, capGibB := 0x200, serial := 0, stepping := 1 },
    flash := { a := .erased, b := .erased, subsys := 0x00001F5E },
    gates := Gates.init, repaired := false, capture := Capture.init, lrel := 0, tb := Timebase.init, loop := LoopCore.init,
    glb := { vis := 0, visPrev := 0, level := 0, pipe := [], pins := 0, sampled := [], tiuLvl := 0, gforce := 0 },
    trigOut := { pin := 0, src := 0, at_ := 0, high := 0, pipe := [], pulse := [] },
    eng := [], ctx := CtxStore.init, lane := [], ret := [], retTx := [], stream := [], ring := [], stratus := [],
    cirrus := [], lineRr := [], stratusBad := [], stratusCorr := [], cirrusBad := [], cirrusCorr := [], tiu := [], dfc := [], dfl := [],
    job := [], mt := none, mtLast := none, spares := [], pcie := Pcie.init, dma := [], smbAddr := 0, smbOut := none,
    jtag := Jtag.init }

end Sys2Proof.Machine
end

