-- ==== Sys2Proof/Machine/Ops.lean ====
section
/-! DEFINITION. The named operations over State that every unit uses: registers, 64-bit pairs, hardware sets and counters
under the same-cycle rules (R45), the per-instance tables, power and time. -/

namespace Sys2Proof.Machine

/-- The answer of a command. -/
abbrev Out := Host.Outcome State Fault Refusal

/-! ### Registers -/

/-- The stored value of the register at BAR0 offset `off`. -/
def rd (s : State) (off : Nat) : Word := tabGet (resetVal off) s.regs off

/-- Store `v` in the register at `off`; a register at its reset value has no entry. -/
def wr (s : State) (off : Nat) (v : Word) : State := { s with regs := tabSet (resetVal off) s.regs off v }

def rdF (s : State) (off lo w : Nat) : Nat := fld (rd s off) lo w

def wrF (s : State) (off lo w n : Nat) : State := wr s off (setFld (rd s off) lo w n)

def rdBit (s : State) (off i : Nat) : Bool := bitAt (rd s off) i

def wrBit (s : State) (off i : Nat) (b : Bool) : State := wr s off (setBit (rd s off) i b)

/-- A 64-bit value: LOW at `off`, HIGH at `off + 4` (R14). -/
def rd64 (s : State) (off : Nat) : Nat := (rd s off).toNat + 2 ^ 32 * (rd s (off + 4)).toNat

def wr64 (s : State) (off : Nat) (n : Nat) : State :=
  wr (wr s off (BitVec.ofNat 32 n)) (off + 4) (BitVec.ofNat 32 (n / 2 ^ 32))

/-! ### Same-cycle bookkeeping (R45) -/

/-- The register at `off` as it stood before the host's writes of this tick (R129). -/
def rdBefore (s : State) (off : Nat) : Word := tabGet (rd s off) s.cycHost off

/-- The register at `off` as the evaluations of the tick before took it: as it stood before the host's writes of that tick and
of this one (R127, R129). -/
def rdEval (s : State) (off : Nat) : Word := tabGet (rdBefore s off) s.cycPrev off

/-- A 64-bit pair as the evaluations of the tick before took it. -/
def rd64Eval (s : State) (off : Nat) : Nat := (rdEval s off).toNat + 2 ^ 32 * (rdEval s (off + 4)).toNat

/-- The register pair at `off` as it stood before the host's writes of this tick. -/
def rd64Before (s : State) (off : Nat) : Nat := (rdBefore s off).toNat + 2 ^ 32 * (rdBefore s (off + 4)).toNat

/-- The host wrote the register at `off` on this tick. -/
def hostWrote (s : State) (off : Nat) : Bool := s.cycHost.any (fun p => p.1 == off)

/-- Bits of the register at `off` that the hardware set on this tick. -/
def cycBits (s : State) (off : Nat) : Word := tabGet 0 s.cycSet off

/-- Hardware sets the bits of `m`: a host clear on the same tick loses (R45). -/
def hwOr (s : State) (off : Nat) (m : Word) : State :=
  let s1 := wr s off (rd s off ||| m)
  { s1 with cycSet := tabSet 0 s1.cycSet off (cycBits s1 off ||| m) }

/-- Hardware clears the bits of `m`. -/
def hwClr (s : State) (off : Nat) (m : Word) : State := wr s off (rd s off &&& ~~~m)

/-- The largest value of a 32-bit counter. -/
def ctrMax : Nat := 0xFFFFFFFF

/-- Hardware adds `n` to a 32-bit counter, which saturates; the increments of this tick are kept for a host load (R45). -/
def ctrAdd (s : State) (off n : Nat) : State :=
  let s1 := wr s off (BitVec.ofNat 32 (min ctrMax ((rd s off).toNat + n)))
  { s1 with cycInc := tabSet 0 s1.cycInc off (tabGet 0 s1.cycInc off + n) }

/-- Hardware adds `n` to a 64-bit counter pair. -/
def ctrAdd64 (s : State) (off n : Nat) : State :=
  let s1 := wr64 s off (rd64 s off + n)
  { s1 with cycInc := tabSet 0 s1.cycInc off (tabGet 0 s1.cycInc off + n) }

/-- Hardware adds `n` to a 16-bit counter field at bit `lo` of a register that holds two of them; the increments of this tick are
kept for a host load (R45), those of the upper field under the offset of its half. -/
def ctrAdd16 (s : State) (off lo n : Nat) : State :=
  let s1 := wrF s off lo 16 (min 0xFFFF (rdF s off lo 16 + n))
  let k := off + lo / 8
  { s1 with cycInc := tabSet 0 s1.cycInc k (tabGet 0 s1.cycInc k + n) }

/-- A counter field that saturates. -/
def fldAdd (s : State) (off lo w n : Nat) : State := wrF s off lo w (min (2 ^ w - 1) (rdF s off lo w + n))

/-! ### Instances -/

def getEng (s : State) (n : Nat) : EngCore := tabGet (EngCore.init n) s.eng n
def setEng (s : State) (n : Nat) (e : EngCore) : State := { s with eng := tabSet (EngCore.init n) s.eng n e }
def modEng (s : State) (n : Nat) (f : EngCore → EngCore) : State := setEng s n (f (getEng s n))
def getLane (s : State) (n : Nat) : LaneCore := tabGet LaneCore.init s.lane n
def setLane (s : State) (n : Nat) (l : LaneCore) : State := { s with lane := tabSet LaneCore.init s.lane n l }
def modLane (s : State) (n : Nat) (f : LaneCore → LaneCore) : State := setLane s n (f (getLane s n))
def getPll (s : State) (k : Nat) : Pll := s.tb.plls.getD k (Pll.initial k)
def getRet (s : State) (k : Nat) : RetCore := tabGet RetCore.init s.ret k
def setRet (s : State) (k : Nat) (r : RetCore) : State := { s with ret := tabSet RetCore.init s.ret k r }
def getStr (s : State) (n : Nat) : StreamCore := tabGet StreamCore.init s.stream n
def setStr (s : State) (n : Nat) (c : StreamCore) : State := { s with stream := tabSet StreamCore.init s.stream n c }
def modStr (s : State) (n : Nat) (f : StreamCore → StreamCore) : State := setStr s n (f (getStr s n))
def getRing (s : State) (r : Nat) : RingCore := tabGet RingCore.init s.ring r
def setRing (s : State) (r : Nat) (c : RingCore) : State := { s with ring := tabSet RingCore.init s.ring r c }
def modRing (s : State) (r : Nat) (f : RingCore → RingCore) : State := setRing s r (f (getRing s r))
def getTiu (s : State) (i : Nat) : TiuCore := tabGet TiuCore.init s.tiu i
def setTiu (s : State) (i : Nat) (t : TiuCore) : State := { s with tiu := tabSet TiuCore.init s.tiu i t }
def modTiu (s : State) (i : Nat) (f : TiuCore → TiuCore) : State := setTiu s i (f (getTiu s i))
def getDfc (s : State) (j : Nat) : DfcCore := tabGet DfcCore.init s.dfc j
def setDfc (s : State) (j : Nat) (c : DfcCore) : State := { s with dfc := tabSet DfcCore.init s.dfc j c }
def modDfc (s : State) (j : Nat) (f : DfcCore → DfcCore) : State := setDfc s j (f (getDfc s j))
def getDfl (s : State) (k : Nat) : DflCore := tabGet DflCore.init s.dfl k
def setDfl (s : State) (k : Nat) (c : DflCore) : State := { s with dfl := tabSet DflCore.init s.dfl k c }
def modDfl (s : State) (k : Nat) (f : DflCore → DflCore) : State := setDfl s k (f (getDfl s k))
def getJob (s : State) (j : Nat) : Job := tabGet Job.free s.job j
def setJob (s : State) (j : Nat) (c : Job) : State := { s with job := tabSet Job.free s.job j c }
def modJob (s : State) (j : Nat) (f : Job → Job) : State := setJob s j (f (getJob s j))
def getDma (s : State) (c : Nat) : DmaCore := tabGet DmaCore.init s.dma c
def setDma (s : State) (c : Nat) (d : DmaCore) : State := { s with dma := tabSet DmaCore.init s.dma c d }

/-! ### Folds -/

/-- Apply `f` to the state for each element in turn. -/
def forEach {α : Type} (l : List α) (s : State) (f : State → α → State) : State := l.foldl f s

/-- Apply `f` to the state for 0, 1, …, `n - 1`. -/
def forN (n : Nat) (s : State) (f : State → Nat → State) : State := (List.range n).foldl f s

/-- The instance numbers a mask of 32-bit words names (R69): bit b of word w stands for 32w + b. -/
def maskOf (l : List Nat) (w : Nat) : Word :=
  l.foldl (fun v n => if n / 32 = w then v ||| bit (n % 32) else v) 0

/-! ### Time (R10, R113) -/

/-- The Timetable counter in whole ticks. -/
def now (s : State) : Nat := s.time.toNat

/-- A timestamp of tick `t`, in sub-ticks. -/
def tsOf (t : Int) : Word64 := BitVec.ofInt 64 (t * 256)

/-- Draw the index of a free value (log 3). -/
def drawFree (s : State) : Nat × State := (s.freeCtr, { s with freeCtr := s.freeCtr + 1 })

/-! ### Power domains (R364, R369) -/

def domReady (s : State) (d : Nat) : Bool := rdBit s PWR_READY d
def domOn (s : State) (d : Nat) : Bool := rdBit s PWR_ON d
/-- The thermal trip is latched (R371). -/
def thermTripped (s : State) : Bool := rdBit s THERM_STATUS 31
def domTimebase : Nat := 2
def domLink (n : Nat) : Nat := 3 + n / 32
def domSeq (n : Nat) : Nat := 11 + n / 64
def domCtx : Nat := 15
def domCirrus : Nat := 16
def domStratus (j : Nat) : Nat := 17 + j
def domTiu : Nat := 19
def domAnalog : Nat := 20
def domDeflate : Nat := 21
def domRing : Nat := 22

/-- Both Stratus domains are ready: Full Memory (R22). -/
def fullMem (s : State) : Bool := domReady s 17 && domReady s 18
/-- Both are off: Compact Memory (R22). -/
def compactMem (s : State) : Bool := !domOn s 17 && !domOn s 18

/-! ### Identity (R2 to R4, R356) -/

/-- The populated capture memory in GiB: 0 where no fuse copy is usable. -/
def capGib (s : State) : Nat :=
  if s.fuses.aOk then s.fuses.capGibA.toNat else if s.fuses.bOk then s.fuses.capGibB.toNat else 0

/-! ### Capture state (R50, R63) -/

def capState (s : State) : Nat := rdF s SYS_CAPTURE 0 3
def capOFF : Nat := 0
def capREADY : Nat := 1
def capARMED : Nat := 2
def capTRIGGERED : Nat := 3
def capHALTED : Nat := 4
def capActive (s : State) : Bool := capState s == capARMED || capState s == capTRIGGERED
def segDone (s : State) : Nat := rdF s SYS_CAPTURE 15 17

end Sys2Proof.Machine
end

