-- ==== Sys2Proof/Machine/Flags.lean ====
section
/-! DEFINITION. Event cause bits, event sources and MSI-X requests (chapter 16), one named operation per unit register. -/

namespace Sys2Proof.Machine

/-! ### Sources (R344 to R347) -/

/-- STATUS and EN of source `k` are both 1. -/
def srcBoth (s : State) (k : Nat) : Bool := rdBit s (evtR k) 31 && rdBit s (evtR k) 30

/-- VECTOR of source `k`. -/
def srcVector (s : State) (k : Nat) : Nat := rdF s (evtR k) 0 10

/-- Source `k` is raised (R344): STATUS becomes 1. -/
def raiseSrc (s : State) (k : Nat) : State := hwOr s (evtR k) 0x80000000

/-- The event sources an EVT_SRC entry of the register file stands for and that are both set and enabled. -/
def sourcesBoth (s : State) : List Nat :=
  (s.regs.filter (fun p => decide (0xA000 ≤ p.1) && decide (p.1 < 0xAA00) && bitAt p.2 31 && bitAt p.2 30)).map
    (fun p => (p.1 - 0xA000) / 4)

/-- Source `k` requests its vector on this tick (R347). -/
def srcRequests (s : State) (k : Nat) : Bool := srcBoth s k && !s.evBoth.contains k

/-- PBA bit `v` (R349): a request kept from an earlier tick, or one of this tick. -/
def pbaBit (s : State) (v : Nat) : Bool :=
  s.pcie.pba.contains v || (sourcesBoth s).any (fun k => srcRequests s k && decide (srcVector s k = v))

/-- A cause register at `off` sets the bits of `m`; a bit that becomes set while its bit of `en` is 1 raises source `k`
(R344). -/
def setCause (s : State) (off : Nat) (en : Word) (k : Nat) (m : Word) : State :=
  let new := m &&& ~~~ rd s off
  let s1 := hwOr s off m
  if new &&& en = 0 then s1 else raiseSrc s1 k

/-! ### The units' cause registers -/

def laneEvent (s : State) (n : Nat) (m : Word) : State := setCause s (lR n 4) (rd s (lR n 8)) n m
def engEvent (s : State) (n : Nat) (m : Word) : State := setCause s (eR n 0x10) (rd s (eR n 0x14)) (256 + n) m
def tiuEvent (s : State) (i : Nat) (m : Word) : State := setCause s (tiuR i 4) (rd s (tiuR i 8)) (512 + i) m
def ringPend (s : State) (r : Nat) : State := setCause s (pendR r) 0xFFFFFFFF (576 + r / 1024) (bit (r % 32))
def dfcEvent (s : State) (j : Nat) (m : Word) : State := setCause s (dfcR j 4) (rd s (dfcR j 8)) (624 + j / 8) m
def dflEvent (s : State) (k : Nat) (m : Word) : State := setCause s (dflR k 8) (rd s (dflR k 0xC)) (632 + k / 4) m
def mbxDoneEvent (s : State) (m : Nat) : State := setCause s SYS_MBX_DONE 0xFFFF 636 (bit m)
def captureEvent (s : State) (m : Word) : State := setCause s SYS_CAPTURE 0xF00 637 m
def fwStatusEvent (s : State) (m : Word) : State := setCause s SYS_FW_STATUS 3 638 m
def tbEvent (s : State) (m : Word) : State := setCause s TB_EVENT (rd s TB_EVENT_EN) 638 m
def ctxEvent (s : State) (m : Word) : State := setCause s CTX_EVENT (rd s CTX_EVENT_EN) 638 m
def strEvent (s : State) (m : Word) : State := setCause s STR_EVENT (rd s STR_EVENT_EN) 638 m
def rplEvent (s : State) (m : Word) : State := setCause s RPL_EVENT (rd s RPL_EVENT_EN) 638 m
def pcieEvent (s : State) (m : Word) : State := setCause s PCIE_EVENT (rd s PCIE_EVENT_EN) 638 m
def dmaDoneEvent (s : State) (c : Nat) : State := setCause s DMA_EVENT_DONE (rd s DMA_DONE_EN) 638 (bit c)
def dmaHaltEvent (s : State) (c : Nat) : State := setCause s DMA_EVENT_HALT (rd s DMA_HALT_EN) 638 (bit c)
def mtEvent (s : State) (m : Word) : State := setCause s MT_EVENT (rd s MT_EVENT_EN) 638 m

/-- The cause bits of SYS_CAPTURE (R50). -/
def evArmed : Word := 0x100
def evTriggered : Word := 0x200
def evHalted : Word := 0x400
def evSegment : Word := 0x800

/-- An access violation (R36): cause and BAR0 offset recorded, the SYS_ACCESS bits of `m` set, ACCESS raised. -/
def accessViolation (s : State) (m : Word) (cause off : Nat) : State :=
  setCause (wr s SYS_ACCESS_ADDR (BitVec.ofNat 32 (cause * 2 ^ 28 + off % 2 ^ 26))) SYS_ACCESS 3 639 m

end Sys2Proof.Machine
end

