-- ==== Sys2Proof/Machine/Operands.lean ====
section
/-! DEFINITION. Mailbox commands (chapter 03): argument and result words, starting and completing, and the checks of R56. -/

namespace Sys2Proof.Machine

/-! ### Status codes (R57) -/

def stOK : Nat := 0
def stBUSY : Nat := 1
def stBAD_COMMAND : Nat := 2
def stBAD_ARG : Nat := 3
def stRANGE : Nat := 4
def stBAD_STATE : Nat := 5
def stBUDGET : Nat := 6
def stLOCKED : Nat := 7
def stUCODE_REJECT : Nat := 8
def stHW_FAULT : Nat := 9
def stTIMEOUT : Nat := 10
def stNOT_POWERED : Nat := 11

/-! ### Words -/

/-- Argument word `i` of mailbox `m`. -/
def arg (s : State) (m i : Nat) : Nat := (rd s (argR m i)).toNat

/-- Argument words `i` and `i + 1` as one number, LOW first. -/
def arg64 (s : State) (m i : Nat) : Nat := arg s m i + 2 ^ 32 * arg s m (i + 1)

/-- The lane or engine numbers of the eight-word mask at argument `i` (R69), rising. -/
def argMask (s : State) (m i : Nat) : List Nat :=
  (List.range 256).filter (fun n => (arg s m (i + n / 32)).testBit (n % 32))

/-- The two words of a 64-bit result, LOW first. -/
def words2 (n : Nat) : List Nat := [n % 2 ^ 32, n / 2 ^ 32 % 2 ^ 32]

/-- The eight words of a mask. -/
def maskWords (l : List Nat) : List Nat := (List.range 8).map (fun w => (maskOf l w).toNat)

def cmdOpcode (s : State) (m : Nat) : Nat := rdF s (mR m 0) 16 16
def cmdTag (s : State) (m : Nat) : Nat := rdF s (mR m 0) 0 16
def cmdSched (s : State) (m : Nat) : Bool := rdBit s (mR m 4) 0
def cmdNotify (s : State) (m : Nat) : Bool := rdBit s (mR m 4) 1
/-- MBX_EXEC_TICK, all 64 bits. -/
def cmdExecTick (s : State) (m : Nat) : Nat := rd64 s (mR m 8)
/-- MBX_STATE.STATE: 0 IDLE, 1 POSTED, 2 EXECUTING, 3 DONE. -/
def mbxState (s : State) (m : Nat) : Nat := rdF s (mR m 0x14) 0 2

/-- Result words from word `i` up. -/
def putRes (s : State) (m i : Nat) : List Nat → State
  | [] => s
  | v :: vs => putRes (wr s (resR m i) (BitVec.ofNat 32 v)) m (i + 1) vs
termination_by structural x => x

/-! ### The catalogue (R69) -/

def catalogue : List Nat :=
  [0x0001, 0x0002, 0x0003, 0x0101, 0x0102, 0x0103, 0x0104, 0x0105, 0x0201, 0x0202, 0x0203, 0x0204, 0x0205, 0x0301,
   0x0302, 0x0303, 0x0304, 0x0401, 0x0402, 0x0403, 0x0404, 0x0501, 0x0502, 0x0503, 0x0504, 0x0505] ++
  [0x0601, 0x0602, 0x0603, 0x0604, 0x0605, 0x0606, 0x0701, 0x0702, 0x0703, 0x0801, 0x0802, 0x0803, 0x0901, 0x0902,
   0x0903, 0x0A01, 0x0A02, 0x0A03, 0x0A04, 0x0B01, 0x0B02, 0x0C01, 0x0C02, 0x0C03, 0x0C04, 0x0C05, 0x0D01, 0x0D02,
   0x0D03]

/-- The service range (R380). -/
def serviceOp (op : Nat) : Bool := decide (0x0C80 ≤ op) && decide (op ≤ 0x0CFF)

def knownOp (op : Nat) : Bool := catalogue.contains op || serviceOp op

/-! ### Starting and completing (R51, R53) -/

/-- POSTED to EXECUTING: the result words are cleared. -/
def startCmd (s : State) (m : Nat) : State :=
  let s1 := { s with
    posted := s.posted.filter (fun x => x != m)
    regs := s.regs.filter (fun p => !(decide (resR m 0 ≤ p.1) && decide (p.1 < resR m 256))) }
  wr64 (wrF s1 (mR m 0x14) 0 2 2) (mR m 0x20) 0

/-- EXECUTING to DONE: result words, MBX_RESULT_HDR, and the mailbox's bit of SYS_MBX_DONE where NOTIFY is 1. -/
def completeCmd (s : State) (m status : Nat) (res : List Nat) : State :=
  let s1 := putRes { s with running := s.running.filter (fun c => c.m != m) } m 0 res
  let s2 := wr s1 (mR m 0x18) (BitVec.ofNat 32 (cmdTag s m * 2 ^ 16 + capState s * 2 ^ 8 + status))
  let s3 := wrF s2 (mR m 0x14) 0 2 3
  if cmdNotify s m then mbxDoneEvent s3 m else s3

/-- The command stays EXECUTING, waiting, with the resources it holds (R54). -/
def holdCmd (s : State) (m : Nat) (w : Wait) (held : List Res) : State :=
  { s with running := s.running ++ [{ m := m, op := cmdOpcode s m, wait := w, held := held }] }

/-- The firmware executes commands: FW_READY, and it has not stopped (R50). -/
def fwReady (s : State) : Bool := rdBit s SYS_FW_STATUS 0 && !rdBit s SYS_FW_STATUS 1

/-- The firmware starts the command of mailbox `m` now: it is the oldest posted one and fewer than four execute (R53). -/
def fwStarts (s : State) (m : Nat) : Bool :=
  fwReady s && s.posted.head? == some m && decide (s.running.length < 4)

/-- A row of the catalogue: the command of mailbox `m` starts where its opcode is `op`; an opcode outside the catalogue
completes with BAD_COMMAND (R56 check 1). -/
def fwRow (s : State) (m op : Nat) (body : State → State) : State :=
  if fwStarts s m then
    if cmdOpcode s m = op then body (startCmd s m)
    else if knownOp (cmdOpcode s m) then s
    else completeCmd (startCmd s m) m stBAD_COMMAND []
  else s

/-! ### Checks (R56, R57) -/

/-- A failed check: status and result words. -/
structure Fail where
  status : Nat
  res    : List Nat
deriving DecidableEq, Repr

/-- The first failing check. -/
def firstFail : List (Option Fail) → Option Fail
  | [] => none
  | some f :: _ => some f
  | none :: r => firstFail r

/-- Complete with the first failing check, or go on. A BAD_STATE uses up a draw (log 3). -/
def checked (s : State) (m : Nat) (checks : List (Option Fail)) (body : State → State) : State :=
  match firstFail checks with
  | some f =>
    completeCmd (if f.status = stBAD_STATE then { s with freeCtr := s.freeCtr + 1 } else s) m f.status f.res
  | none => body s

def failIf (b : Bool) (status : Nat) (res : List Nat) : Option Fail :=
  if b then some { status := status, res := res } else none

/-- Argument `i` is a defined encoding. -/
def needArg (ok : Bool) (i : Nat) : Option Fail := failIf (!ok) stBAD_ARG [i]
/-- Argument `i` is within its limit. -/
def needRange (ok : Bool) (i : Nat) : Option Fail := failIf (!ok) stRANGE [i]
/-- A unit state word (R58). -/
def unitWord (cls inst st : Nat) : Nat := cls * 2 ^ 24 + inst * 2 ^ 8 + st
def needState (ok : Bool) (cls inst st : Nat) : Option Fail := failIf (!ok) stBAD_STATE [unitWord cls inst st]
/-- The unit state word of a single unit whose chapter numbers no states: Loop line 7, timebase 8. -/
def openWord (s : State) (cls : Nat) : Nat := unitWord cls 0 (Config.unitState cls s.freeCtr).toNat
def needOpen (s : State) (ok : Bool) (cls : Nat) : Option Fail := failIf (!ok) stBAD_STATE [openWord s cls]
/-- The capture state is one of `l` (R69). -/
def needCap (s : State) (l : List Nat) : Option Fail := needState (l.contains (capState s)) 0 0 (capState s)
/-- Domains the command needs, checked in the order given (R20). -/
def needDoms (s : State) (ds : List Nat) : Option Fail :=
  match ds.find? (fun d => !domReady s d) with
  | some d => some { status := stNOT_POWERED, res := [d] }
  | none => none

/-- Chains that a DFC_SYNC accepted from the Loop line holds until its execution tick (R299). -/
def loopHolds (s : State) (l : List Res) : Bool :=
  s.loop.cmds.any (fun c => decide (c.opcode = 0x0903) &&
    l.any (fun r => match r with | .chain j => c.param.toNat.testBit j | _ => false))

/-- No command under way holds one of these resources (R54). -/
def needFree (s : State) (l : List Res) : Option Fail :=
  match s.running.find? (fun c => c.held.any (fun r => l.contains r)) with
  | some c => some { status := stBUSY, res := [c.m] }
  | none => if loopHolds s l then some { status := stBUSY, res := [Config.loopHolder.toNat] } else none

/-- Memory `mem` has not FAILED its BIST (R358); `word`: the unit state word of its owner. -/
def needMem (s : State) (mem word : Nat) : Option Fail := failIf (rdBit s (memBistR mem) 31) stHW_FAULT [word]

/-- RES0 of the scheduling faults (R60). -/
def noWord : Nat := 0xFFFFFFFF

/-- SCHED on a command that takes no execution tick (R60). -/
def noSched (s : State) (m : Nat) : Option Fail := failIf (cmdSched s m) stBAD_ARG [noWord]

/-- Bits [63:56] of MBX_EXEC_TICK of a scheduled command (R60). -/
def schedBits (s : State) (m : Nat) : Option Fail :=
  failIf (cmdSched s m && decide (2 ^ 56 ≤ cmdExecTick s m)) stBAD_ARG [noWord]

/-- The execution tick lies at least `lead` and at most 2^32 ticks after the posting tick `p` (R61). -/
def schedRange (s : State) (m p lead : Nat) : Option Fail :=
  failIf (cmdSched s m && (decide (cmdExecTick s m < p + lead) || decide (p + 2 ^ 32 < cmdExecTick s m))) stRANGE
    (noWord :: words2 (p + lead))

/-- A check made for each element of a list. -/
def needAll {α : Type} (l : List α) (f : α → Option Fail) : Option Fail := firstFail (l.map f)

end Sys2Proof.Machine
end

