-- ==== Sys2Proof/Machine/Codec.lean ====
section
/-! DEFINITION. Line codes: bit lists, CRC-32 (R75), CRC-16 and Loop line frames (R119), the scrambler (R74). -/

namespace Sys2Proof.Machine

/-- The `w` low bits of `n`, most significant first. -/
def bitsMsb (w n : Nat) : List Bool := (List.range w).map (fun i => n.testBit (w - 1 - i))

/-- The number that bits spell, most significant first. -/
def natOfBits (l : List Bool) : Nat := l.foldl (fun a b => 2 * a + b2n b) 0

/-- One bit into a CRC register of `w` bits with polynomial `poly`, no reflection. -/
def crcBit (w poly reg : Nat) (b : Bool) : Nat :=
  let top := reg.testBit (w - 1)
  let sh := (2 * reg) % 2 ^ w
  if top != b then sh ^^^ poly else sh

def crcBits (w poly init : Nat) (l : List Bool) : Nat := l.foldl (crcBit w poly) init

/-- CRC-32 of R75: start 0xFFFF_FFFF, result complemented. -/
def crc32 (l : List Bool) : Nat := 0xFFFFFFFF - crcBits 32 0x04C11DB7 0xFFFFFFFF l

/-- CRC-16 of R119. -/
def crc16 (l : List Bool) : Nat := crcBits 16 0x1021 0xFFFF l

/-- The receiver's descrambler of R74: register (s[1] is its least significant bit) and one line bit. -/
def descramble (scr : BitVec 58) (b : Bool) : BitVec 58 × Bool :=
  ((scr <<< 1) ||| (if b then 1 else 0), b ^^ scr.getLsbD 38 ^^ scr.getLsbD 57)

/-- The transmitter's scrambler of R74. -/
def scramble (scr : BitVec 58) (b : Bool) : BitVec 58 × Bool :=
  let o := b ^^ scr.getLsbD 38 ^^ scr.getLsbD 57
  ((scr <<< 1) ||| (if o then 1 else 0), o)

/-- Run a bit coder over a list. -/
def codeBits (f : BitVec 58 → Bool → BitVec 58 × Bool) : BitVec 58 → List Bool → BitVec 58 × List Bool
  | scr, [] => (scr, [])
  | scr, b :: l =>
    let (scr1, o) := f scr b
    let (scr2, os) := codeBits f scr1 l
    (scr2, o :: os)
termination_by structural _ l => l

/-! ### Loop line frames (R119) -/

def kCENSUS : Nat := 1
def kMEASURE : Nat := 2
def kALIGN : Nat := 3
def kTIME : Nat := 4
def kCOMMAND : Nat := 5
def kTRIGGER : Nat := 6
def kHALT : Nat := 7
def kDISSOLVE : Nat := 8

/-- Bits [lo + w - 1 : lo] of a frame. -/
def frF (f : BitVec 192) (lo w : Nat) : Nat := (f.toNat / 2 ^ lo) % 2 ^ w

def frSof (f : BitVec 192) : Nat := frF f 184 8
def frKind (f : BitVec 192) : Nat := frF f 180 4
def frOrigin (f : BitVec 192) : Nat := frF f 176 4
def frHops (f : BitVec 192) : Nat := frF f 168 8
def frTag (f : BitVec 192) : Nat := frF f 152 16
def frTick (f : BitVec 192) : Nat := frF f 96 56
def frParam (f : BitVec 192) : Nat := frF f 32 64
def frOp (f : BitVec 192) : Nat := frF f 16 16
def frCrc (f : BitVec 192) : Nat := frF f 0 16

/-- The CRC of a frame's bits [183:16]. -/
def frCrcOf (f : BitVec 192) : Nat := crc16 (bitsMsb 168 (f.toNat / 2 ^ 16))

def frOk (f : BitVec 192) : Bool := frSof f == 0x7E && frCrc f == frCrcOf f

/-- A frame with its CRC. -/
def mkFrame (kind origin hops tag tick param op : Nat) : BitVec 192 :=
  let body := 0x7E * 2 ^ 184 + kind % 16 * 2 ^ 180 + origin % 16 * 2 ^ 176 + hops % 256 * 2 ^ 168 + tag % 2 ^ 16 * 2 ^ 152 +
    tick % 2 ^ 56 * 2 ^ 96 + param % 2 ^ 64 * 2 ^ 32 + op % 2 ^ 16 * 2 ^ 16
  let f := BitVec.ofNat 192 body
  BitVec.ofNat 192 (body + frCrcOf f)

/-- The frame as a forwarding device sends it: HOPS one more, CRC recomputed; a frame with a bad CRC goes on with its CRC
complemented (R120). -/
def forwardFrame (f : BitVec 192) : BitVec 192 :=
  if frOk f then mkFrame (frKind f) (frOrigin f) (frHops f + 1) (frTag f) (frTick f) (frParam f) (frOp f)
  else f ^^^ 0xFFFF

/-- Byte `p` of a trailer; byte 0 is sent first. -/
def trailerGet (t : BitVec 128) (p : Nat) : Nat := (t.toNat / 2 ^ (8 * (15 - p))) % 256

def trailerPut (t : BitVec 128) (p v : Nat) : BitVec 128 :=
  BitVec.ofNat 128 (t.toNat - trailerGet t p * 2 ^ (8 * (15 - p)) + v % 256 * 2 ^ (8 * (15 - p)))

/-- The trailer as the origin sends it. -/
def trailerNew : BitVec 128 := BitVec.allOnes 128

/-! ### Loop line transmitter (R120, R124) -/

/-- This device is a calibrated member of a Loop line. -/
def loopMember (s : State) : Bool := rdBit s SYS_CAPTURE 3

/-- Priority of a waiting frame: HALT, TRIGGER, COMMAND, then the others. -/
def framePrio (f : BitVec 192) : Nat :=
  if frKind f = kHALT then 0 else if frKind f = kTRIGGER then 1 else if frKind f = kCOMMAND then 2 else 3

/-- Queue a frame behind the frames of its priority. -/
def txInsert (x : LoopTx) : List LoopTx → List LoopTx
  | [] => [x]
  | y :: ys => if framePrio x.frame < framePrio y.frame then x :: y :: ys else y :: txInsert x ys

def loopQueue (s : State) (f : BitVec 192) : State :=
  { s with loop := { s.loop with txq := txInsert { frame := f, trailer := trailerNew, from_ := 0 } s.loop.txq } }

def loopPos (s : State) : Nat := s.loop.pos.getD 0

/-- Send HALT for a halt of this member (R66, R124). -/
def loopSendHalt (s : State) (cause : Nat) : State :=
  if loopMember s then loopQueue s (mkFrame kHALT (loopPos s) 0 0 (now s) cause 0) else s

/-- Send TRIGGER for the trigger tick `t` this member honoured: the broadcast reaches the Loop transmitter on t + l_rel + 6
(R152). -/
def loopSendTrigger (s : State) (t : Int) (seg src : Nat) : State :=
  if loopMember s then
    let f := mkFrame kTRIGGER (loopPos s) 0 0 (t % 2 ^ 56).toNat (seg * 2 ^ 48 + src) 0
    { s with
      loop := { s.loop with txq := txInsert { frame := f, trailer := trailerNew, from_ := (t + s.lrel + 6).toNat } s.loop.txq } }
  else s

end Sys2Proof.Machine
end

