-- ==== Sys2Proof/Machine/EngCtl.lean ====
section
/-! DEFINITION. Engine status, starting and stopping (R146 to R148, R170, R375) and the Mainline (R141). -/

namespace Sys2Proof.Machine

/-- The engine states of R146. -/
def runSTOPPED : Nat := 0
def runRUNNING : Nat := 1
def runPAUSED : Nat := 2
def runWAITING : Nat := 3
def runFOLLOWER : Nat := 4
def runREPLAY : Nat := 5
def runFAULT : Nat := 6

def engRun (s : State) (e : Nat) : Nat := rdF s (eR e 0) 13 3
def setRun (s : State) (e r : Nat) : State := wrF s (eR e 0) 13 3 r
/-- The engine is in replay mode. -/
def engReplay (s : State) (e : Nat) : Bool := rdBit s (eR e 0) 12
def engLevel (s : State) (e : Nat) : Nat := rdF s (eR e 4) 0 5
def engPublish (s : State) (e : Nat) : Nat := rdF s (eR e 0) 0 4

/-- L_e (R128, R140). -/
def engLat (s : State) (e : Nat) : Nat := if (getEng s e).csize = 0 then 2 else 3

/-- The engine's program is running or held: RUNNING, PAUSED or WAITING. -/
def engBusy (s : State) (e : Nat) : Bool :=
  engRun s e == runRUNNING || engRun s e == runPAUSED || engRun s e == runWAITING

/-- Counter and timer offsets. -/
def cntR (e i : Nat) : Nat := eR e (0x500 + 0x20 * i)
def tmrR (e k : Nat) : Nat := eR e (0x600 + 0x20 * k)
def cntVal (s : State) (e i : Nat) : Nat := rd64 s (cntR e i) % 2 ^ 48
def tmrVal (s : State) (e k : Nat) : Nat := rd64 s (tmrR e k) % 2 ^ 48
def tmrRunning (s : State) (e k : Nat) : Bool := rdBit s (tmrR e k + 0x10) 1
/-- LIMIT and AUTO_RESTART as the count of this tick takes them: as they stood before the host's writes of it (R127). -/
def tmrLimit (s : State) (e k : Nat) : Nat := rd64Before s (tmrR e k + 8) % 2 ^ 48
def tmrAuto (s : State) (e k : Nat) : Bool := bitAt (rdBefore s (tmrR e k + 0x10)) 0

/-- Load a 48-bit value; the upper half of its HIGH register is RSV. -/
def wr48 (s : State) (off n : Nat) : State :=
  wrF (wr s off (BitVec.ofNat 32 n)) (off + 4) 0 16 (n / 2 ^ 32)

/-- The ticks engine `e` counts: fed ticks of its job in replay, Timetable ticks otherwise (R254, R255). -/
def engClock (s : State) (e : Nat) : Nat :=
  match (getEng s e).job with
  | some j => if engReplay s e then (getJob s j).fedTick else now s
  | none => now s

/-- Publish `v` on the engine's four Mainline bits from this tick (R141). -/
def engPub (s : State) (e v : Nat) : State :=
  let c := getEng s e
  wrF (setEng s e { c with pub := (engClock s e, BitVec.ofNat 4 v) :: c.pub.take 7 }) (eR e 0) 0 4 v

/-- Discard the engine's context requests, results in flight and waiting results, each counted (R170). -/
def engDiscard (s : State) (e : Nat) : State :=
  let c := getEng s e
  let n := c.reqQ.length + c.resQ.length
  let s1 := setEng s e { c with reqQ := [], resQ := [], lastRes := none }
  if n = 0 then s1 else ctrAdd s1 (eR e 0xC08) n

/-- Clear every pending notice (R173). -/
def engClearNotices (s : State) (e : Nat) : State :=
  let s1 := wrBit s (eR e 0) 8 false
  modEng s1 e (fun c => { c with notices := Notices.none4 })

/-- The engine enters STOPPED or FAULT (R149, R173, R170). -/
def engEnter (s : State) (e run : Nat) : State := engDiscard (engClearNotices (setRun s e run) e) e

/-- The engine enters `run` unless it is in FAULT, which only UCODE_LOAD ends (R149). -/
def engEnterSound (s : State) (e run : Nat) : State := engEnter s e (if engRun s e = runFAULT then runFAULT else run)

/-- The host wrote a half of the 48-bit value at `off` on this tick. -/
def hostWrote48 (s : State) (off : Nat) : Bool := hostWrote s off || hostWrote s (off + 4)

/-- The level write of R45: the engine's LEVEL takes `v` unless the host wrote it on this tick. -/
def engSetLevel (s : State) (e v : Nat) : State :=
  if (getEng s e).lvlHost = some (now s) then hwOr s (eR e 0) 0x20
  else modEng (wrF s (eR e 4) 0 5 v) e (fun c => { c with lvlHw := some (now s) })

/-- Level, counters, timers, stack, hold and published bits at their start values (R146, R375). A value the host wrote on this
tick stays (R45). -/
def engStartValues (s : State) (e : Nat) : State :=
  let s1 := engSetLevel s e 0
  let s2 := forN 8 s1 (fun s i =>
    if hostWrote48 s (cntR e i) then s
    else modEng (wr48 s (cntR e i) (rd64 s (cntR e i + 8) % 2 ^ 48)) e (fun c =>
      { c with cntOld := tabPut c.cntOld i (cntVal s e i) }))
  let s3 := forN 4 s2 (fun s k =>
    wrBit (if hostWrote48 s (tmrR e k) then s else wr48 s (tmrR e k) 0) (tmrR e k + 0x10) 1 false)
  let s4 := modEng s3 e (fun c => { c with stack := [], held := 0, tmrOld := [] })
  engPub s4 e 0

/-- Start engine `e` on this tick in state `run` (R146, R256). -/
def engStart (s : State) (e run : Nat) : State :=
  let s1 := engDiscard (engStartValues s e) e
  let addr := BitVec.ofNat 11 (rdF s1 (eR e 0xC) 0 11)
  let t := now s
  let s2 := modEng s1 e (fun c =>
    { c with pc := addr, qual := true, winOpen := false, startAt := some t, lastExec := none, settled := false })
  wrF (wr (setRun s2 e run) (eR e 0xC18) 0) (eR e 0xC14) 8 5 0

/-- Engines the state knows of: any that was ever loaded, ganged or run. -/
def engsKnown (s : State) : List Nat := s.eng.map Prod.fst

/-- The engine stands alone or leads a consist, is live, and holds microcode (R146). An engine in FAULT waits for
UCODE_LOAD (R149). -/
def engStarts (s : State) (e : Nat) : Bool :=
  let c := getEng s e
  c.loaded && c.lead == e && !engReplay s e && domReady s (domSeq e) && engRun s e != runFAULT

/-- The members of the consist that `e` leads, or `e` alone. -/
def engMembers (s : State) (e : Nat) : List Nat := (List.range (2 ^ (getEng s e).csize)).map (fun k => e + k)

/-- Stop the live engines when the capture shows HALTED (R146). -/
def engsHalt (s : State) : State :=
  forEach (engsKnown s) s (fun s e => if engBusy s e && !engReplay s e then engEnter s e runSTOPPED else s)

/-- A live engine's assertion is ignored (R151). -/
def trigIgnored (s : State) (e : Nat) : State := engEvent (ctrAdd s (eR e 0x20) 1) e 2

end Sys2Proof.Machine
end

