-- ==== Sys2Proof/Machine/Chains.lean ====
section
/-! DEFINITION. What the decimation chains run with (R287, R289 to R293): states, parameters, and the place of each output.
Positions are in 2^-24 ticks (R292). -/

namespace Sys2Proof.Machine

/-- The chain states of R287. -/
def dfcOFF : Nat := 0
def dfcIDLE : Nat := 1
def dfcSETTLING : Nat := 2
def dfcRUNNING : Nat := 3

def dfcState (s : State) (j : Nat) : Nat := rdF s (dfcR j 0) 0 2
def setDfcState (s : State) (j v : Nat) : State := wrF s (dfcR j 0) 0 2 v
def dfcPath (s : State) (j : Nat) : Nat := rdF s (dfcR j 0) 8 3
def dfcLane (s : State) (j : Nat) : Nat := rdF s (dfcR j 0) 16 8
def dfcChan (s : State) (j : Nat) : Nat := rdF s (dfcR j 0) 12 1
def dfcActive (s : State) (j : Nat) : Bool := decide (2 ≤ dfcState s j)
def dfcStream (j : Nat) : Nat := 0x240 + j

/-- D of the presets (R290). -/
def presetD (path : Nat) : Nat := if path = 0 then 8 else if path = 1 then 64 else if path = 2 then 512 else 4096

/-- D of paths 0 to 3 and 5. -/
def dfcD (s : State) (j : Nat) : Nat :=
  let p := dfcPath s j
  if p < 4 then presetD p else (getDfc s j).param0.toNat

/-- M of path 4 (R292). -/
def dfcM (s : State) (j : Nat) : Nat := fld (getDfc s j).param1 16 11

/-- Output period T (R290, R292, R293). -/
def dfcT (s : State) (j : Nat) : Int :=
  if dfcPath s j = 4 then
    let c := getDfc s j
    (fld c.param1 0 16 * 2 ^ 24 + fld c.param0 0 24 : Nat)
  else ((dfcD s j * 2 ^ 24 : Nat) : Int)

/-- Half width of the rank filter (R289). -/
def dfcRankHalf (s : State) (j : Nat) : Nat := ((getDfc s j).rankL - 1) / 2

/-- The lead H (R291 to R293). -/
def dfcH (s : State) (j : Nat) : Int :=
  let r := dfcRankHalf s j
  let p := dfcPath s j
  if p = 5 then (((dfcD s j - 1) * 2 ^ 23 + r * 2 ^ 24 : Nat) : Int)
  else if p = 4 then (((18 * dfcM s j + r) * 2 ^ 24 : Nat) : Int)
  else (((5 * dfcD s j + 16 + r) * 2 ^ 24 : Nat) : Int)

/-- Position of output `k`. -/
def dfcPos (s : State) (j k : Nat) : Int :=
  (getDfc s j).grid * 2 ^ 24 + (k : Int) * dfcT s j + (if dfcPath s j = 5 then (((dfcD s j - 1) * 2 ^ 23 : Nat) : Int) else 0)

/-- First and last record tick of the support of position `p` (R291). -/
def dfcSupp (s : State) (j : Nat) (p : Int) : Int := (p - dfcH s j) / 2 ^ 24
def dfcUpto (s : State) (j : Nat) (p : Int) : Int := (p + dfcH s j + (2 ^ 24 - 1)) / 2 ^ 24

/-- Timestamp of position `p`, to the nearest sub-tick. -/
def dfcTs (p : Int) : Int := (p + 2 ^ 15) / 2 ^ 16

/-- Record tick of a timestamp in sub-ticks (R204). -/
def recTickOf (ts : Int) : Int := (ts + 255) / 256

/-- Chain `j` may still bring an output of a record tick up to `fin`: one on hold, or the next one it computes. -/
def dfcBehind (s : State) (j : Nat) (fin : Int) : Bool :=
  (getDfc s j).held.any (fun o => !o.close && decide (recTickOf (dfcTs o.pos) ≤ fin)) ||
  (dfcActive s j && decide (recTickOf (dfcTs (dfcPos s j (getDfc s j).outIdx)) ≤ fin))

end Sys2Proof.Machine
end

