-- ==== Sys2Proof/Machine/Rings.lean ====
section
/-! DEFINITION. Records as words (R210 to R219), staging queues, and rings: pointers, commits, notices, consumer
operations, loss and auto-release (chapters 09 and 10). -/

namespace Sys2Proof.Machine

/-! ### Records -/

def flagTRUNC : BitVec 8 := 0x80
def flagPOISON : BitVec 8 := 0x40
def flagCONT : BitVec 8 := 0x20
def flagGAPPED : BitVec 8 := 0x10
def flagTRIG : BitVec 8 := 0x08
def flagSTORED : BitVec 8 := 0x04
def flagOVR : BitVec 8 := 0x02
def flagREF : BitVec 8 := 0x01

/-- The record types of R213. -/
def tySAMPLE : BitVec 4 := 1
def tyTRANS : BitVec 4 := 2
def tyGAP : BitVec 4 := 3
def tyTRIG : BitVec 4 := 4
def tySTAMP : BitVec 4 := 5
def tyANALOG : BitVec 4 := 6
def tyCTX : BitVec 4 := 7
def tyMARK : BitVec 4 := 8
def tySTATS : BitVec 4 := 9
def tyDEFLATE : BitVec 4 := 10

/-- A header word (R210). -/
def headerWord (typ : BitVec 4) (flags : BitVec 8) (len source seq : Nat) : Word64 :=
  BitVec.ofNat 64 (typ.toNat * 2 ^ 60 + flags.toNat * 2 ^ 52 + len % 4096 * 2 ^ 40 + source % 4096 * 2 ^ 28 + seq % 2 ^ 28)

def hdrType (h : Word64) : Nat := fld64 h 60 4
def hdrFlags (h : Word64) : BitVec 8 := h.extractLsb' 52 8
def hdrLen (h : Word64) : Nat := fld64 h 40 12
def hdrSource (h : Word64) : Nat := fld64 h 28 12
def hdrSeq (h : Word64) : Nat := fld64 h 0 28

/-- The idle item of a ring whose next SEQ is `seq` (R243). -/
def idleItem (seq : Nat) : Word64 := headerWord 0 0 0 0xFFF seq

/-- Give the next place in the order of closing (R220). -/
def takeOrd (s : State) : Nat × State := (s.recOrd, { s with recOrd := s.recOrd + 1 })

/-- A GAP record (R217). -/
def gapRec (stream ring ord : Nat) (first last : Word64) (count cause : Nat) : Rec :=
  { typ := tyGAP, flags := 0, source := stream, ring := ring, ord := ord, bad := [], firstTs := first, lastTs := last,
    words := [first, last, BitVec.ofNat 64 (min count 0xFFFFFFFF * 2 ^ 32 + cause)] }

def isLaneStream (n : Nat) : Bool := decide (n < 256)

/-! ### Streams and staging -/

/-- The stream's records are part of the capture: it is bound (R201, R203). -/
def strBound (s : State) (n : Nat) : Bool := rdBit s (strR n 0) 31
def strModeOf (s : State) (n : Nat) : Nat := rdF s (strR n 0) 26 2
def strRingOf (s : State) (n : Nat) : Nat := rdF s (strR n 4) 0 15

/-- The bound streams, rising. -/
def boundStreams (s : State) : List Nat :=
  (s.regs.filter (fun p => decide (0x10000 ≤ p.1) && decide (p.1 < 0x20000) && p.1 % 16 == 0 && bitAt p.2 31)).map
    (fun p => (p.1 - 0x10000) / 16)

/-- The bound streams that are not OFF. -/
def captureStreams (s : State) : List Nat := (boundStreams s).filter (fun n => strModeOf s n != 0)

/-- The streams bound to ring `r` (R202). -/
def streamsOfRing (s : State) (r : Nat) : List Nat := (boundStreams s).filter (fun n => strRingOf s n == r)

/-- Bytes a closed record holds in staging, header included. -/
def recBytes (r : Rec) : Nat := 8 * (r.words.length + 1)

/-- Bytes an open record's payload holds so far (R223): a SAMPLE record and an ANALOG record of KIND 1 pack two items to a
word. -/
def openBytes (o : OpenRec) : Nat :=
  if o.lost then 0
  else if o.typ = tySAMPLE || (o.typ = tyANALOG && o.head.getLsbD 30) then 8 * (2 + (o.items.length + 1) / 2)
  else if o.typ = tyTRANS then 8 * (1 + o.items.length)
  else 8 * (2 + o.items.length)

/-- Bytes placed in the staging of a stream by the records not committed yet. -/
def stagePlaced (c : StreamCore) : Nat :=
  (c.staged.map recBytes).foldl (· + ·) 0 + (match c.openRec with | some o => openBytes o | none => 0)

/-- What the staging of a stream holds, in thousandths of a byte. -/
def stageHeld (c : StreamCore) : Nat := 1000 * stagePlaced c - c.drained

/-- Bytes in the staging of a stream. -/
def stageFill (c : StreamCore) : Nat := (stageHeld c + 999) / 1000

/-- Bytes in the staging of a stream once this tick's drain, taken to be that of the latest tick, has gone (R227; log 11). -/
def stageNet (c : StreamCore) : Nat := (stageHeld c - c.drainRate + 999) / 1000

/-- STR_STAGE of stream `n` as a tick ends: FILL and PEAK in KiB, rounded up (R233). -/
def stageShow (s : State) (n : Nat) : State :=
  if streamBindable n then
    let k := (stageFill (getStr s n) + 1023) / 1024
    wrF (wrF s (strR n 0xC) 0 9 k) (strR n 0xC) 16 9 (max k (rdF s (strR n 0xC) 16 9))
  else s

/-! ### Line buffers (R354) -/

/-- One word enters the lane's line buffer; the eighth word of a line completes it. -/
def lineWord (c : StreamCore) : StreamCore :=
  if c.wpos % 8 = 7 then
    { c with wpos := (c.wpos + 1) % 16384, part := 0, lines := c.lines ++ [c.wpos / 8 % 64] }
  else { c with wpos := c.wpos + 1, part := c.part + 1 }

/-- `w` words. -/
def lineWords : Nat → StreamCore → StreamCore
  | 0, c => c
  | w + 1, c => lineWords w (lineWord c)

/-- The present line leaves although it is not whole: a record has closed. -/
def lineEnd (c : StreamCore) : StreamCore :=
  if c.part = 0 then c else { c with part := 0, lines := c.lines ++ [c.wpos / 8 % 64] }

/-- `w` words do not fit into the 16 lines. -/
def lineFull (c : StreamCore) (w : Nat) : Bool :=
  let d := lineWords w c
  decide (16 < d.lines.length + (if d.part = 0 then 0 else 1))

/-- Stream `n` is a lane's, and its words pass through the lane's line buffer: its ring is no spill queue (R239). -/
def hasLines (s : State) (n : Nat) : Bool := isLaneStream n && !rdBit s (rR (strRingOf s n) 0) 30

/-- Put a closed record in the stream's staging, behind the records already there. `w`: its words that enter staging now. -/
def stagePush (s : State) (n : Nat) (r : Rec) (w : Nat) : State :=
  let line (c : StreamCore) : StreamCore := if hasLines s n then lineEnd (lineWords w c) else c
  modStr s n (fun c => { line c with staged := c.staged ++ [r] })

/-- Stage a closed record of stream `n` for ring `ring`, of whose words `w` are placed now. -/
def stageRec (s : State) (n ring : Nat) (typ : BitVec 4) (flags : BitVec 8) (words : List Word64) (first last : Word64)
    (w : Nat) : State :=
  let (o, s1) := takeOrd s
  stagePush s1 n { typ := typ, flags := flags, source := n, words := words, bad := [], ring := ring, ord := o,
                   firstTs := first, lastTs := last } w

/-- Stage a new whole record. -/
def stageNew (s : State) (n ring : Nat) (typ : BitVec 4) (flags : BitVec 8) (words : List Word64)
    (first last : Word64) : State :=
  stageRec s n ring typ flags words first last (words.length + 1)

/-- A staging overflow of stream `n` begins (R227, R228): event and STR_OVF_LAST. -/
def stageOvf (s : State) (n : Nat) : State := strEvent (wr s STR_OVF_LAST (BitVec.ofNat 32 n)) 1

/-- A record of stream `n`, not a lane stream, with timestamp `ts` does not fit its staging queue, or comes while records are
being dropped: it is counted (R228). -/
def otherDrop (s : State) (n : Nat) (ts : Word64) : State :=
  match (getStr s n).loss with
  | some l => ctrAdd (modStr s n (fun c => { c with loss := some { l with last := ts, count := l.count + 1 } })) (strR n 8) 1
  | none =>
    stageOvf (ctrAdd (modStr s n (fun c => { c with loss := some { stream := n, first := ts, last := ts, count := 1 } }))
      (strR n 8) 1) n

/-- `extra` bytes more do not fit into the 4 KiB staging queue. -/
def otherFull (c : StreamCore) (extra : Nat) : Bool := decide (4096 < stageNet c + extra)

/-- Offer a whole record of a TIU, DFC or context stream to its 4 KiB staging queue (R228). -/
def stageOther (s : State) (n ring : Nat) (typ : BitVec 4) (flags : BitVec 8) (words : List Word64)
    (first last : Word64) : State :=
  let c := getStr s n
  if c.loss.isSome || otherFull c (8 * (words.length + 1)) then otherDrop s n first
  else stageNew s n ring typ flags words first last

/-- Items join the open record of stream `n`, not a lane stream, as they are formed (R223); without one `fresh` opens it. A record
that does not fit is dropped whole (R228). -/
def otherAdd (s : State) (n : Nat) (k : Int) (fl : BitVec 8) (items : List Word64) (fresh : OpenRec) : State :=
  let c := getStr s n
  let isNew := c.openRec.isNone
  let o := c.openRec.getD { fresh with lost := c.loss.isSome }
  let o1 := { o with last := k, flags := o.flags ||| fl, items := o.items ++ items }
  let s1 := setStr s n { c with openRec := some o1 }
  if o1.lost then (if isNew then otherDrop s1 n o1.ts else s1)
  else if otherFull (getStr s1 n) 0 then otherDrop (modStr s1 n (fun c => { c with openRec := some { o1 with lost := true } })) n o1.ts
  else s1

/-! ### Ring descriptors (R235 to R237) -/

def ringExists (s : State) (r : Nat) : Bool := rdBit s (rR r 0) 31
def ringCompact (s : State) (r : Nat) : Bool := rdBit s (rR r 0) 30
def ringAuto (s : State) (r : Nat) : Bool := rdBit s (rR r 0) 29
def ringLog (s : State) (r : Nat) : Nat := rdF s (rR r 0) 16 6
def ringSize (s : State) (r : Nat) : Nat := 2 ^ ringLog s r
def ringBase (s : State) (r : Nat) : Nat := rd64 s (rR r 0x08)
def ringWR (s : State) (r : Nat) : Nat := rd64 s (rR r 0x10)
def ringRD (s : State) (r : Nat) : Nat := rd64 s (rR r 0x18)
def ringMARK (s : State) (r : Nat) : Nat := rd64 s (rR r 0x20)
def ringREL (s : State) (r : Nat) : Nat := rd64 s (rR r 0x28)
def ringSEGBASE (s : State) (r : Nat) : Nat := rd64 s (rR r 0x30)
def ringSeq (s : State) (r : Nat) : Nat := rdF s (rR r 0x44) 0 28

/-- `d(a, b)` of R236. -/
def ringDist (s : State) (r a b : Nat) : Nat := (b + 2 * ringSize s r - a) % (2 * ringSize s r)

/-- A pointer advanced by `n` words. -/
def ringStep (s : State) (r p n : Nat) : Nat := (p + n) % (2 * ringSize s r)

def ringUnread (s : State) (r : Nat) : Nat := ringDist s r (ringRD s r) (ringWR s r)
def ringHeld (s : State) (r : Nat) : Nat := ringDist s r (ringREL s r) (ringWR s r)

/-- Words free (R236). Doorbell operations come after the commits of their tick, so space they release is free from the next
tick (R247). -/
def ringFreeForCommit (s : State) (r : Nat) : Nat := ringSize s r - ringHeld s r

/-- The ring refuses records (R249). -/
def ringRefusing (s : State) (r : Nat) : Bool :=
  !(getRing s r).losses.isEmpty || !(getRing s r).batch.isEmpty

/-- RING_CFG.STATE (R237). -/
def ringState (s : State) (r : Nat) : Nat :=
  if !ringExists s r then 0
  else if (getRing s r).flush.isSome then 4
  else if ringRefusing s r then 3
  else if (streamsOfRing s r).isEmpty then 1 else 2

/-! ### Ring words in memory -/

/-- Memory word address of pointer `p` (R235). -/
def ringAddr (s : State) (r p : Nat) : Nat := ringBase s r + p % ringSize s r

/-- The word at word address `w` of the memory that ring `r` lies in. -/
def ringWordAt (s : State) (r w : Nat) : Word64 :=
  if ringCompact s r then memReadWord s.cirrus w else memReadWord s.stratus w

/-- That word is uncorrectable (R222), or has a single-bit error (R221). -/
def ringBadAt (s : State) (r w : Nat) : Bool :=
  if ringCompact s r then s.cirrusBad.contains w else s.stratusBad.contains w
def ringCorrAt (s : State) (r w : Nat) : Bool :=
  if ringCompact s r then s.cirrusCorr.contains w else s.stratusCorr.contains w

/-- Write a Stratus word; the new word carries its own check bits. -/
def stratusPut (s : State) (w : Nat) (v : Word64) (bad : Bool) : State :=
  { s with
    stratus := memWriteWord s.stratus w v
    stratusBad := if bad then setInsert s.stratusBad w else setErase s.stratusBad w
    stratusCorr := setErase s.stratusCorr w }

def cirrusPut (s : State) (w : Nat) (v : Word64) (bad : Bool) : State :=
  { s with
    cirrus := memWriteWord s.cirrus w v
    cirrusBad := if bad then setInsert s.cirrusBad w else setErase s.cirrusBad w
    cirrusCorr := setErase s.cirrusCorr w }

/-- Write a word at address `w` of ring `r`'s memory. The words of a spill queue that R239 keeps in registers of the ring manager
lie at their places in Cirrus here, where they read the same (DEDUCED, log 58). -/
def ringPutWord (s : State) (r w : Nat) (v : Word64) (bad : Bool) : State :=
  if ringCompact s r then cirrusPut s w v bad else stratusPut s w v bad

/-- Write words from pointer `p` up; `bad` numbers the words in error from `k`. -/
def ringPutWords (s : State) (r : Nat) : Nat → Nat → List Word64 → List Nat → State
  | _, _, [], _ => s
  | p, k, v :: vs, bad =>
    ringPutWords (ringPutWord s r (ringAddr s r p) v (bad.contains k)) r (p + 1) (k + 1) vs bad
termination_by structural _ _ vs _ => vs

/-- The Stratus channel of a word address (R224). -/
def stratusChannel (w : Nat) : Nat := (w / 32) % 16

/-- A Stratus word read is counted in its channel's counters; an uncorrectable one raises source 608 + c (R253). -/
def countChannel (s : State) (w : Nat) : State :=
  let c := stratusChannel w
  if s.stratusBad.contains w then raiseSrc (ctrAdd s (chUncorrR c) 1) (608 + c)
  else if s.stratusCorr.contains w then ctrAdd s (chCorrR c) 1 else s

/-- A ring word read is counted once (R253, R222). -/
def countRingRead (s : State) (r w : Nat) : State :=
  let g := r / 1024
  if ringBadAt s r w then
    let s1 := ctrAdd (ctrAdd16 s (rR r 0x54) 16 1) (grpUncorrR g) 1
    if ringCompact s r then strEvent (ctrAdd s1 STG_POISON_COUNT 1) 2 else countChannel s1 w
  else if ringCorrAt s r w then
    let s1 := ctrAdd (ctrAdd16 s (rR r 0x54) 0 1) (grpCorrR g) 1
    if ringCompact s r then ctrAdd s1 STG_CORR_COUNT 1 else countChannel s1 w
  else s

/-- The ring word at pointer `p` as a consumer reads it (R243), with its poison: at or beyond WR the idle item. -/
def ringRead (s : State) (r p : Nat) : Word64 × Bool :=
  if ringDist s r (ringRD s r) p < ringUnread s r || ringDist s r (ringREL s r) p < ringHeld s r then
    (ringWordAt s r (ringAddr s r p), ringBadAt s r (ringAddr s r p))
  else (idleItem (ringSeq s r), false)

/-- RING_HEAD (R243). -/
def ringHead (s : State) (r : Nat) : Word64 :=
  if ringRD s r = ringWR s r then idleItem (ringSeq s r) else ringWordAt s r (ringAddr s r (ringRD s r))

/-- HEAD_POISON (R237). -/
def ringHeadPoison (s : State) (r : Nat) : Bool :=
  ringRD s r != ringWR s r && ringBadAt s r (ringAddr s r (ringRD s r))

/-- A read of RING_HEAD fetches the word at RD and counts it (R32, R253). -/
def ringHeadFetch (s : State) (r : Nat) : State :=
  if ringExists s r && ringRD s r != ringWR s r then countRingRead s r (ringAddr s r (ringRD s r)) else s

/-! ### Notices (R242) -/

/-- A notice falls due: pending bit set, UNNOTICED cleared. -/
def ringNotice (s : State) (r : Nat) : State :=
  modRing (wrF (ringPend s r) (rR r 0x3C) 0 16 0) r (fun c => { c with oldest := none })

def ringThresh (s : State) (r : Nat) : Nat := rdF s (rR r 0x38) 0 16
def ringTimer (s : State) (r : Nat) : Nat := rdF s (rR r 0x38) 16 16
def ringUnnoticed (s : State) (r : Nat) : Nat := rdF s (rR r 0x3C) 0 16

/-- TIMER microseconds have passed since the commit of the oldest unnoticed record. -/
def ringTimerPassed (s : State) (r : Nat) : Bool :=
  match (getRing s r).oldest with
  | some t => decide (ringTimer s r ≠ 0) && decide (t + 1000 * ringTimer s r ≤ now s)
  | none => false

/-- The notice state is due by count or by time. -/
def ringNoticeDue (s : State) (r : Nat) : Bool :=
  (decide (ringThresh s r ≠ 0) && decide (ringThresh s r ≤ ringUnnoticed s r)) || ringTimerPassed s r

/-! ### Commits (R241) and loss (R249) -/

/-- Set bits of RING_STATUS by hardware; FULL (bit 2) or HDR_LOST (bit 4) becoming set sets the pending bit (R242). -/
def ringStatusSet (s : State) (r : Nat) (m : Word) : State :=
  let new := m &&& ~~~ rd s (rR r 4) &&& 0x14
  let s1 := hwOr s (rR r 4) m
  if new = 0 then s1 else ringPend s1 r

/-- Commit a record that fits: words, header with SEQ, WR, counters and the notice count. -/
def ringCommit (s : State) (r : Nat) (rec : Rec) : State :=
  let wrp := ringWR s r
  let len := rec.words.length
  let flags := if rec.bad.isEmpty then rec.flags else rec.flags ||| flagPOISON
  let s1 := ringPutWords s r (wrp + 1) 0 rec.words rec.bad
  let s2 := ringPutWord s1 r (ringAddr s1 r wrp) (headerWord rec.typ flags len rec.source (ringSeq s r)) false
  let s3 := wr64 s2 (rR r 0x10) (ringStep s r wrp (len + 1))
  let s4 := wrF s3 (rR r 0x44) 0 28 (ringSeq s r + 1)
  let s5 := fldAdd (ctrAdd64 s4 (rR r 0x58) 1) (rR r 0x3C) 0 16 1
  let s6 := modRing s5 r (fun c => { c with commitAt := some (now s), oldest := c.oldest.or (some (now s)) })
  let s7 := if rec.typ = tyGAP && rec.words.getD 2 0 &&& 0xF = 4 then ringPend s6 r else s6
  if decide (ringThresh s7 r ≠ 0) && decide (ringThresh s7 r ≤ ringUnnoticed s7 r) then ringNotice s7 r else s7

/-- A loss with one more record: of a lane stream the interval covers the record's ticks, of any other stream it runs to the
record's timestamp (R249). -/
def lossJoin (l : Loss) (rec : Rec) : Loss :=
  if isLaneStream l.stream then
    { l with first := if rec.firstTs.ult l.first then rec.firstTs else l.first
             last := if l.last.ult rec.lastTs then rec.lastTs else l.last, count := l.count + 1 }
  else { l with last := rec.lastTs, count := l.count + 1 }

/-- Add a lost record to the losses of its stream (R249): to the GAP record being committed, else to a new loss. -/
def lossAdd : List Loss → Rec → List Loss
  | [], rec => [{ stream := rec.source, first := rec.firstTs, last := rec.lastTs, count := 1 }]
  | l :: ls, rec =>
    if l.stream = rec.source then lossJoin l rec :: ls
    else if rec.source < l.stream then
      { stream := rec.source, first := rec.firstTs, last := rec.lastTs, count := 1 } :: l :: ls
    else l :: lossAdd ls rec

/-- Drop a record that does not fit (R249). -/
def ringDrop (s : State) (r : Nat) (rec : Rec) : State :=
  let s1 := modRing s r (fun c =>
    if c.batch.any (fun l => decide (l.stream = rec.source)) then { c with batch := lossAdd c.batch rec }
    else { c with losses := lossAdd c.losses rec })
  ringStatusSet (wrBit (ctrAdd s1 (rR r 0x50) 1) (rR r 4) 1 true) r 0x4

/-- Raise a pointer to REL where REL has passed it. -/
def ringRaise (s : State) (r o oldRel newRel : Nat) : State :=
  let p := rd64 s (rR r o)
  if ringDist s r oldRel p < ringDist s r oldRel newRel then wr64 s (rR r o) newRel else s

/-- Move REL from its present value to `newRel`, and SEGBASE with it where REL passes it (R251). -/
def ringSetRel (s : State) (r newRel : Nat) : State :=
  let oldRel := ringREL s r
  wr64 (ringRaise s r 0x30 oldRel newRel) (rR r 0x28) newRel

/-- Release whole records from REL until `need` words are free (R250); false where that is not possible. `fuel` bounds
the records released: each frees at least a word. -/
def ringAutoRelease (s : State) (r need : Nat) : Nat → State × Bool
  | 0 => (s, decide (need ≤ ringFreeForCommit s r))
  | fuel + 1 =>
    if need ≤ ringFreeForCommit s r then (s, true)
    else if ringREL s r = ringWR s r || ringREL s r != ringSEGBASE s r || (getRing s r).hdrStop then (s, false)
    else
      let rel := ringREL s r
      let w := ringAddr s r rel
      let s1 := countRingRead s r w
      if ringBadAt s r w then
        (modRing (ringStatusSet s1 r 0x10) r (fun c => { c with hdrStop := true }), false)
      else
        let n := hdrLen (ringWordAt s r w) + 1
        let newRel := ringStep s r rel n
        let markMoves := ringDist s r rel (ringMARK s r) < n
        let s2 := ringSetRel (ringRaise (ringRaise s1 r 0x20 rel newRel) r 0x18 rel newRel) r newRel
        let s3 := modRing s2 r (fun c => { c with markRaise := if markMoves then some (now s) else c.markRaise })
        ringAutoRelease s3 r need fuel

/-- One record reaches the ring (R241, R249, R250). A record for a ring that no longer exists is lost with it (R240). -/
def ringOffer (s : State) (r : Nat) (rec : Rec) : State :=
  if !ringExists s r then s
  else
    let need := rec.words.length + 1
    if ringRefusing s r then ringDrop s r rec
    else if need ≤ ringFreeForCommit s r then ringCommit s r rec
    else if ringAuto s r && capState s == capARMED then
      let (s1, ok) := ringAutoRelease s r need (need + 1)
      if ok then ringCommit s1 r rec else ringDrop s1 r rec
    else ringDrop s r rec

/-- COUNT of a cause 4 GAP record (R249): ticks for a lane stream, lost records for any other. -/
def lossCount (l : Loss) : Nat :=
  if isLaneStream l.stream then (l.last.toNat + 2 ^ 64 - l.first.toNat) % 2 ^ 64 / 256 + 1 else l.count

/-- The ring is free for a commit on this tick (R241). -/
def ringCommitFree (s : State) (r : Nat) : Bool := (getRing s r).commitAt != some (now s)

/-- RING_GAP_COMMIT (R249): one GAP record of the losses whose space has returned; GAP_PEND clears after the last. -/
def ringGapCommit (s : State) (r : Nat) : State :=
  if ringExists s r && ringCommitFree s r && ringRefusing s r then
    let c := getRing s r
    let s1 :=
      if c.batch.isEmpty && decide (4 * c.losses.length ≤ ringFreeForCommit s r) then
        setRing s r { c with batch := c.losses, losses := [] }
      else s
    match (getRing s1 r).batch with
    | [] => s1
    | l :: ls =>
      if 4 ≤ ringFreeForCommit s1 r then
        let (o, s2) := takeOrd s1
        let s3 := modRing s2 r (fun c => { c with batch := ls })
        let s4 := ringCommit s3 r (gapRec l.stream r o l.first l.last (lossCount l) 4)
        let s5 := if strBound s4 l.stream && !ringCompact s4 r then ctrAdd64 s4 MEM_CAP_BYTES 32 else s4
        if ringRefusing s5 r then s5 else wrBit s5 (rR r 4) 1 false
      else s1
  else s

/-! ### Consumer operations (R246, R247) -/

/-- A consumer operation writes MARK; where auto-release raised it on this tick the host value stands, with FORCED (R247). -/
def ringSetMark (s : State) (r p : Nat) : State :=
  let s1 := wr64 s (rR r 0x20) p
  if (getRing s r).markRaise = some (now s) then hwOr s1 (rR r 4) 1 else s1

/-- One operation against the pointers (R246). -/
def ringDoorbellOp (s : State) (r : Nat) (v : Word) : State :=
  let op := fld v 28 4
  let count := fld v 0 24
  let rdp := ringRD s r
  if op = 0 then s
  else if op = 1 then
    if count ≤ ringUnread s r then wr64 s (rR r 0x18) (ringStep s r rdp count) else hwOr s (rR r 4) 8
  else if op = 2 then ringSetMark s r rdp
  else if op = 3 then wr64 s (rR r 0x18) (ringMARK s r)
  else if op = 4 then ringSetRel s r (ringMARK s r)
  else if op = 5 then
    if count ≤ ringUnread s r then
      let p := ringStep s r rdp count
      ringSetRel (ringSetMark (wr64 s (rR r 0x18) p) r p) r p
    else hwOr s (rR r 4) 8
  else hwOr s (rR r 4) 8

/-- A doorbell write to ring `r` (R246) is accepted behind the operations not yet applied. A ring that does not exist ignores
it. -/
def ringDoorbell (s : State) (r : Nat) (v : Word) : State :=
  if ringExists s r then modRing s r (fun c => { c with ops := c.ops ++ [v] }) else s

/-- The second step of the ring manager's tick (R247): after the commits, the oldest operation accepted and not yet applied. -/
def ringApply (s : State) (r : Nat) : State :=
  let c := getRing s r
  match c.ops with
  | [] => s
  | v :: vs => ringDoorbellOp (setRing s r { c with ops := vs }) r v

/-- A notice that a write of RING_NOTICE made due on the tick before (R242). -/
def ringTick (s : State) (r : Nat) : State :=
  let c := getRing s r
  if c.noticeWr then
    let s1 := setRing s r { c with noticeWr := false }
    if ringExists s1 r && ringNoticeDue s1 r then ringNotice s1 r else s1
  else s

/-! ### Creating and deleting (R238 to R240) -/

/-- The descriptor of ring `r` at its reset values. -/
def ringClear (s : State) (r : Nat) : State :=
  setRing { s with regs := s.regs.filter (fun p => !(decide (rR r 0 ≤ p.1) && decide (p.1 < rR r 0x80))) } r RingCore.init

/-- Remove the descriptor and the pending bit of ring `r`; its records are lost. -/
def ringDelete (s : State) (r : Nat) : State := hwClr (ringClear s r) (pendR r) (bit (r % 32))

/-- A new ring: every pointer and counter 0, READY (R238). -/
def ringCreate (s : State) (r base log : Nat) (auto compact : Bool) (thresh timer : Nat) : State :=
  let s1 := ringClear s r
  let s2 := wr s1 (rR r 0)
    (BitVec.ofNat 32 (2 ^ 31 + b2n compact * 2 ^ 30 + b2n auto * 2 ^ 29 + log * 2 ^ 16))
  let s3 := wr64 s2 (rR r 8) base
  wr s3 (rR r 0x38) (BitVec.ofNat 32 (timer * 2 ^ 16 + thresh))

/-- The rings that exist, rising. -/
def ringsExisting (s : State) : List Nat :=
  (s.regs.filter (fun p => decide (0x00800000 ≤ p.1) && decide (p.1 < 0x00C00000) && p.1 % 0x80 == 0 && bitAt p.2 31)).map
    (fun p => (p.1 - 0x00800000) / 0x80)

/-- Two word areas overlap. -/
def areasOverlap (a n b m : Nat) : Bool := decide (a < b + m) && decide (b < a + n)

/-! ### From staging to the ring -/

/-- Words in single-bit error in staging are corrected on the way out and counted; uncorrectable ones set POISON (R221,
R222). -/
def stageCount (s : State) (n : Nat) (rec : Rec) : State :=
  let k := rec.bad.length
  let s1 := if k = 0 then s else strEvent (ctrAdd s STG_POISON_COUNT k) 2
  let c := (getStr s1 n).corr
  if c = 0 then s1 else ctrAdd (modStr s1 n (fun x => { x with corr := 0 })) STG_CORR_COUNT c

/-- The oldest staged record of stream `n` is the next of its ring in the order of closing (R220). -/
def stageIsNext (s : State) (rec : Rec) : Bool :=
  s.stream.all (fun p => match p.2.staged with
    | [] => true
    | q :: _ => decide (q.ring ≠ rec.ring) || decide (rec.ord ≤ q.ord))

/-- SEGBASE follows to WR in each ring whose records of the completed segment are all committed (R251): none is staged, and
none is still to come from a unit behind the record former. -/
def segBaseCheck (s : State) : State :=
  let fin (ts : Word64) : Int := ((ts.toNat / 256 : Nat) : Int)
  let ready (m : Nat × Word64) : Bool :=
    s.stream.all (fun p =>
      p.2.staged.all (fun q => decide (q.ring ≠ m.1) || decide (m.2 < q.firstTs)) &&
      (match p.2.openRec with
       | some o => isLaneStream p.1 || decide (o.ring ≠ m.1) || decide (m.2 < o.ts)
       | none => true)) &&
    s.capture.owed.all (fun t => !t.rings.contains m.1) &&
    (streamsOfRing s m.1).all (fun n => n < 0x240 || 0x280 ≤ n || !dfcBehind s (n - 0x240) (fin m.2))
  let s1 := { s with capture := { s.capture with segMarks := s.capture.segMarks.filter (fun m => !ready m) } }
  forEach (s.capture.segMarks.filter ready) s1 (fun s m =>
    if ringExists s m.1 then wr64 s (rR m.1 0x30) (ringWR s m.1) else s)

/-- A record of a Deflate engine waits for room in its ring; a job drops none of its output (R310). -/
def jobWaits (s : State) (n : Nat) (rec : Rec) : Bool :=
  decide (0x290 ≤ n) && decide (n < 0x2A0) && ringExists s rec.ring &&
  (ringRefusing s rec.ring || decide (ringFreeForCommit s rec.ring < rec.words.length + 1))

/-- A record whose ring has been deleted is lost with it (R240); one of a decimation chain is counted (R295). -/
def recordLost (s : State) (n : Nat) : State :=
  if decide (0x240 ≤ n) && decide (n < 0x280) then dfcEvent (ctrAdd s (dfcR (n - 0x240) 0x34) 1) (n - 0x240) 0x20 else s

/-- RECORD_COMMIT: the memory scheduler has written the oldest staged record of stream `n`; the ring manager commits it
(R223, R241), and MEM_CAP_BYTES counts it where it is a capture record written to Stratus (R234). -/
def recordCommit (s : State) (n : Nat) : State :=
  match (getStr s n).staged with
  | [] => s
  | rec :: rest =>
    if ringCommitFree s rec.ring && stageIsNext s rec && domReady s domRing && !jobWaits s n rec then
      let s1 := stageCount (modStr s n (fun c => { c with staged := rest, drained := c.drained - 1000 * recBytes rec })) n rec
      let before := ringWR s1 rec.ring
      let s2 := ringOffer s1 rec.ring rec
      let s3 :=
        if streamBindable n && strBound s2 n && ringExists s2 rec.ring && !ringCompact s2 rec.ring &&
            ringWR s2 rec.ring != before then
          ctrAdd64 s2 MEM_CAP_BYTES (recBytes rec)
        else s2
      segBaseCheck (if ringExists s3 rec.ring then s3 else recordLost s3 n)
    else s

end Sys2Proof.Machine
end

