-- ==== Sys2Proof/Machine/Staging.lean ====
section
/-! DEFINITION. Cirrus staging between the record former and the rings: the charges of the streams (R24, R229), the drain of the
memory scheduler (R21, R224), the banks that take the lanes' lines (R354), and the end of a loss (R228). -/

namespace Sys2Proof.Machine

/-- The configured format of lane `n`: 0 OFF, 1 D16, 2 V8, 3 A2 (R98). -/
def laneFmt (s : State) (n : Nat) : Nat := rdF s (lR n 0) 4 2
def laneState (s : State) (n : Nat) : Nat := rdF s (lR n 0) 0 4

/-! ### Charges -/

/-- Division rounded up. -/
def ceilDiv (a b : Nat) : Nat := (a + b - 1) / b

/-- SAMPLE charge of a lane format in MB/s. -/
def sampleCharge (fmt : Nat) : Nat := if fmt = 0 then 0 else if fmt = 3 then 8000 else 4000

/-- Charge of a lane stream in MB/s, from its format, mode, activity and duty in parts per million (R24, R229). -/
def laneCharge (fmt mode act duty : Nat) : Nat :=
  if fmt = 0 ∨ mode = 0 then 0
  else if mode = 1 then sampleCharge fmt
  else if mode = 2 then ceilDiv (8000 * act) 1000000
  else ceilDiv (sampleCharge fmt * duty * 1000000 + 8000 * act * (1000000 - duty)) (1000000 * 1000000)

/-- Charge of stream `n`. -/
def streamCharge (s : State) (n : Nat) : Nat :=
  let c := getStr s n
  if isLaneStream n then laneCharge (laneFmt s n) (strModeOf s n) c.activity.toNat c.duty.toNat else c.rate.toNat

/-- The write budget in MB/s, which is as many thousandths of a byte per tick (R21, R24). -/
def writeBudget : Nat := 480000

/-! ### The drain (R224) -/

/-- A staging area with data: its stream, what it holds, and what its share drains on this tick, in thousandths of a byte. -/
structure Area where
  stream : Nat
  held   : Nat
  share  : Nat
deriving DecidableEq, Repr

/-- The staging areas and queues that hold data. A stream that is not bound has no share. -/
def stageAreas (s : State) : List Area :=
  (s.stream.filter (fun p => streamBindable p.1 && decide (0 < stageHeld p.2))).map (fun p =>
    { stream := p.1, held := stageHeld p.2, share := min (stageHeld p.2) (if strBound s p.1 then streamCharge s p.1 else 0) })

/-- Insert an area into a list, the one that holds most beyond its share first. -/
def areaInsert (a : Area) : List Area → List Area
  | [] => [a]
  | b :: r => if b.held - b.share < a.held - a.share then a :: b :: r else b :: areaInsert a r

/-- Hand out the bandwidth left, the fullest area first: what each area drains in all. -/
def areaSpare : Nat → List Area → List (Nat × Nat)
  | _, [] => []
  | left, a :: r =>
    let g := min left (a.held - a.share)
    (a.stream, a.share + g) :: areaSpare (left - g) r
termination_by structural _ l => l

/-- What each area drains on a tick: its share, and of the bandwidth that no share uses, the fullest first (R224). -/
def drainShares (s : State) : List (Nat × Nat) :=
  let l := stageAreas s
  areaSpare (writeBudget - (l.map Area.share).foldl (· + ·) 0) (l.foldl (fun r a => areaInsert a r) [])

/-- The streams whose shown fill or drain rate differs from what a tick leaves. -/
def stageStale (s : State) : List Nat :=
  (s.stream.filter (fun p => streamBindable p.1 &&
    (decide (p.2.drainRate ≠ 0) || decide ((stageFill p.2 + 1023) / 1024 ≠ rdF s (strR p.1 0xC) 0 9)))).map Prod.fst

/-- The drain of one tick, as it ends. -/
def drainTick (s : State) : State :=
  let l := drainShares s
  let s1 := forEach (stageStale s) s (fun s n => modStr s n (fun c => { c with drainRate := 0 }))
  let s2 := forEach l s1 (fun s p => modStr s p.1 (fun c => { c with drained := c.drained + p.2, drainRate := p.2 }))
  forEach (stageStale s2) s2 stageShow

/-! ### The end of a loss (R228) -/

/-- Where the records of stream `n` go: the bound ring, or the ring its unit's command named (R203). -/
def streamDest (s : State) (n : Nat) : Nat :=
  if strBound s n then strRingOf s n
  else if n < 0x240 then (getTiu s (n - 0x200)).ring
  else (getDfc s (n - 0x240)).ring.toNat

/-- The GAP record of a staging loss of a stream other than a lane stream, once its queue holds 2 KiB or less (R228);
written only while the capture records (R217). -/
def stageResume (s : State) (n : Nat) : State :=
  let c := getStr s n
  match c.loss with
  | none => s
  | some l =>
    if !isLaneStream n && decide (stageFill c ≤ 2048) then
      let s1 := modStr s n (fun c => { c with loss := none })
      if capActive s1 then
        let g := gapRec n (streamDest s1 n) 0 l.first l.last l.count 3
        stageNew s1 n g.ring g.typ 0 g.words l.first l.last
      else s1
    else s

/-! ### Cirrus banks (R354) -/

/-- The lanes with a line waiting for bank `b`. -/
def bankLanes (s : State) (b : Nat) : List Nat :=
  (s.stream.filter (fun p => isLaneStream p.1 && p.2.lines.contains b)).map Prod.fst

/-- Bank `b` takes a line of one lane, round-robin; the other lanes' lines wait, and the record former's counter counts them. -/
def bankGrant (s : State) (b : Nat) : State :=
  let l := bankLanes s b
  let ptr := tabGet 0 s.lineRr b
  match (l.find? (fun n => decide (ptr ≤ n))).or l.head? with
  | none => s
  | some n =>
    let s1 := modStr s n (fun c => { c with lines := c.lines.erase b })
    let s2 := { s1 with lineRr := tabSet 0 s1.lineRr b ((n + 1) % 256) }
    if l.length = 1 then s2 else ctrAdd s2 0xB080 (l.length - 1)

/-- The banks as a tick begins. -/
def lineTick (s : State) : State :=
  if s.stream.any (fun p => !p.2.lines.isEmpty) then forN 64 s bankGrant else s

/-- The staging of every stream as a tick ends. -/
def stagingEnd (s : State) : State :=
  let s1 := drainTick s
  forEach ((s1.stream.filter (fun p => p.2.loss.isSome)).map Prod.fst) s1 stageResume

end Sys2Proof.Machine
end

