-- ==== Sys2Proof/Machine/Capture.lean ====
section
/-! DEFINITION. The capture state machine (R63 to R66), closing records (R206, R207, R230, R231), and the trigger arbiter
(R151 to R154). -/

namespace Sys2Proof.Machine

/-! ### Closing open records -/

/-- Two 32-bit items to a word, the first in the low half, zero beyond the end (R214, R216). -/
def packPairs : List Word64 → List Word64
  | [] => []
  | [a] => [a]
  | a :: b :: r => (a ||| (b <<< 32)) :: packPairs r

/-- The payload of an open record (R214 to R216, R280); `head` holds word 1 without the COUNT. -/
def openWords (o : OpenRec) : List Word64 :=
  if o.typ = tyTRANS then o.ts :: o.items
  else if o.typ = tySTAMP then
    let kind := fld64 o.head 60 4
    let n := if kind = 1 ∨ kind = 2 ∨ kind = 3 then o.items.length / 2 else o.items.length
    o.ts :: (o.head ||| BitVec.ofNat 64 n) :: o.items
  else
    let h := o.head ||| BitVec.ofNat 64 o.items.length
    if o.typ = tySAMPLE || o.head.getLsbD 30 then o.ts :: h :: packPairs o.items else o.ts :: h :: o.items

/-- Honoured triggers whose tick lies in the span of the record (R211). -/
def spanHasTrigger (s : State) (first last : Int) : Bool :=
  s.capture.trigs.any (fun t => decide (first ≤ t.t) && decide (t.t ≤ last)) ||
  s.capture.ends.any (fun e => decide (first ≤ e.t) && decide (e.t ≤ last))

/-- Close the open record of stream `n`, with further flags `fl` (TRUNC, CONT). Its payload is in staging already; the header
enters now (R223). A record that did not fit its staging queue vanishes (R228). -/
def closeOpen (s : State) (n : Nat) (fl : BitVec 8) : State :=
  let c := getStr s n
  match c.openRec with
  | none => s
  | some o =>
    let trig := if o.typ != tySTAMP && spanHasTrigger s o.first o.last then flagTRIG else 0
    let s1 := setStr s n { c with openRec := none }
    if isLaneStream n then
      stageRec s1 n o.ring o.typ (o.flags ||| fl ||| trig) (openWords o) o.ts
        (o.ts + BitVec.ofInt 64 ((o.last - o.first) * 256)) 1
    else if o.lost then s1
    else if otherFull c 8 then otherDrop s1 n o.ts
    else stageRec s1 n o.ring o.typ (o.flags ||| fl ||| trig) (openWords o) o.ts o.ts 1

/-- Timestamp of lane `n`'s slice of record tick `k` (R89). -/
def sliceTs (s : State) (n : Nat) (k : Int) : Word64 :=
  BitVec.ofInt 64 (k * 256 - ((getLane s n).lat % 256 : Nat))

/-- A GAP record of lane stream `n` from record tick `f` over `cnt` ticks (R217). -/
def stageGap (s : State) (n : Nat) (f : Int) (cnt cause : Nat) : State :=
  let a := sliceTs s n f
  let b := sliceTs s n (f + cnt - 1)
  stageNew s n (strRingOf s n) tyGAP 0 [a, b, BitVec.ofNat 64 (min cnt 0xFFFFFFFF * 2 ^ 32 + cause)] a b

/-- The GAP record of a CAUSE 3 loss of lane stream `n`: none for a loss without a tick (R227). -/
def stageLoss (s : State) (n : Nat) (l : Loss) : State :=
  if l.count = 0 then s
  else stageNew s n (strRingOf s n) tyGAP 0
    [l.first, l.last, BitVec.ofNat 64 (min l.count 0xFFFFFFFF * 2 ^ 32 + 3)] l.first l.last

/-- Write the CAUSE 3 GAP record of the loss under way, if any (R227). -/
def endLoss (s : State) (n : Nat) : State :=
  let c := getStr s n
  match c.loss with
  | none => s
  | some l => stageLoss (setStr s n { c with loss := none, refNext := true }) n l

/-- End the lost time: the closing GAP record, then a reference slice (R95, R208). -/
def endDead (s : State) (n : Nat) : State :=
  match (getStr s n).dead with
  | none => s
  | some (f, cnt) =>
    let s1 := modStr s n (fun c => { c with dead := none, refNext := true })
    if cnt = 0 then s1 else stageGap s1 n f cnt 2

/-- All that lane stream `n` has open ends. -/
def endStream (s : State) (n : Nat) : State := endLoss (endDead (closeOpen s n 0) n) n

/-! ### Segments and coverage -/

/-- T + P of an honoured trigger (R64). -/
def trigEnd (s : State) (t : Trig) : Int := t.t + s.capture.depth

/-- The segment that record tick `k` falls in, counted from the arm: the segments that ended before `k`. -/
def segOfTick (s : State) (k : Int) : Nat :=
  segDone s - (s.capture.ends.filter (fun e => decide (k ≤ e.fin))).length +
    (s.capture.trigs.filter (fun t => decide (trigEnd s t < k))).length

/-- The capture records record tick `k` (R204, R231): it covers it, no halt cuts it, and a segment is left for it. -/
def covers (s : State) (k : Int) : Bool :=
  (capActive s || capState s == capHALTED) && decide (s.capture.recFrom ≤ k) &&
  (match s.capture.haltAt with | some q => decide (k < q) | none => true) &&
  decide (segOfTick s k < s.capture.segs)

/-- SYS_CAPTURE.STATE becomes `v`. -/
def setCapState (s : State) (v : Nat) : State := wrF s SYS_CAPTURE 0 3 v

/-- Record ticks `j` and `k` lie in one segment. -/
def sameSegment (s : State) (j k : Int) : Bool := decide (segOfTick s j = segOfTick s k)

/-! ### Halting (R63, R65, R66, R231) -/

/-- SYS_CAPTURE shows HALTED with `cause`; live engines stop. -/
def showHalted (s : State) (cause : Nat) : State :=
  captureEvent (engsHalt (wrF (setCapState s capHALTED) SYS_CAPTURE 4 4 cause)) evHalted

/-- A halt acts on this tick with `cause` (2 to 5). Where the oldest honoured segment is already full, SYS_CAPTURE shows
the halt with that segment's end (R65). DESIGN CHOICE (log 50): a second halt that acts while a first one waits for that end changes
nothing, and a CAPTURE_STOP then answers OK with its own tick. Open records close as the record former reaches them. -/
def captureHalt (s : State) (cause : Nat) : State :=
  if capActive s && s.capture.haltAt.isNone then
    let q : Int := (now s : Int) - s.lrel
    let s1 := { s with capture := { s.capture with haltAt := some q, haltCause := cause } }
    let s2 := if cause = 5 then s1 else loopSendHalt s1 cause
    let full := match s.capture.trigs with | t :: _ => decide (trigEnd s t ≤ q - 1) | [] => false
    if full then s2 else showHalted s2 cause
  else s

/-! ### The trigger arbiter (R151 to R154) -/

/-- A lane feeding engine `e` or its consist has record tick `t` in a lost interval (R93, R211). -/
def trigGapped (s : State) (e : Nat) (t : Int) : Bool :=
  (engMembers s e).any (fun n =>
    decide (laneFmt s n ≠ 0) &&
    (match (getLane s n).hist.find? (fun x => decide ((x.tick : Int) = t + s.lrel)) with
     | some x => x.bad.isSome || !x.live
     | none => true))

/-- As the record former passes record tick T, the verdicts on the lanes of an engine's trigger are known (R92, R93). -/
def trigsJudge (s : State) : State :=
  if s.capture.trigs.all (fun t => t.gapped.isSome || decide ((now s : Int) < t.t + s.lrel + 80)) then s
  else
    let judge (t : Trig) : Trig :=
      if t.gapped.isSome || decide ((now s : Int) < t.t + s.lrel + 80) then t
      else { t with gapped := some (t.src < 256 && trigGapped s t.src t.t) }
    { s with capture := { s.capture with trigs := s.capture.trigs.map judge } }

/-- The TRIG record of an honoured trigger in stream `n` (R218). As a record lost to a full ring, that of a lane stream stands for
the lane's own slice of record tick T (R249). -/
def stageTrig (s : State) (n : Nat) (t : Trig) : State :=
  let gap := if t.gapped.getD (t.src < 256 && trigGapped s t.src t.t) then flagGAPPED else 0
  let at_ := if isLaneStream n then sliceTs s n t.t else tsOf t.t
  stageNew s n (strRingOf s n) tyTRIG gap
    [tsOf t.t, BitVec.ofNat 64 (t.seg * 2 ^ 48 + t.origin * 2 ^ 16 + t.src), BitVec.ofNat 64 s.capture.depth,
     BitVec.ofNat 64 t.decided] at_ at_

/-- The rings bound to streams of the capture, each once. -/
def captureRings (s : State) : List Nat := ((captureStreams s).map (strRingOf s)).eraseDups

/-- The lowest stream bound to ring `r` (R218). -/
def lowestStream (s : State) (r : Nat) : Nat := (streamsOfRing s r).headD 0

/-- Write the TRIG records that trigger `t` still owes to the rings `pick` accepts. -/
def writeTrigs (s : State) (t : Trig) (pick : Nat → Bool) : State :=
  let s1 := forEach (t.rings.filter pick) s (fun s r => stageTrig s (lowestStream s r) t)
  let paid (u : Trig) : Trig := if u.seg = t.seg then { u with rings := u.rings.filter (fun r => !pick r) } else u
  { s1 with
    capture := { s1.capture with
      trigs := s1.capture.trigs.map paid
      owed := (s1.capture.owed.map paid).filter (fun u => !u.rings.isEmpty) } }

/-- The triggers that may still owe TRIG records, oldest first. -/
def trigsOwing (s : State) : List Trig := s.capture.owed ++ s.capture.trigs

/-- Before a record of stream `n` with timestamp `ts` the ring receives the TRIG records of earlier triggers (R220). -/
def trigsBefore (s : State) (n : Nat) (ts : Int) : State :=
  forEach ((trigsOwing s).filter (fun t => decide (t.t * 256 < ts))) s (fun s t =>
    writeTrigs s t (fun r => decide (lowestStream s r = n)))

/-- The windows that the record former has not passed yet. -/
def windowsKept (s : State) (ws : List Window) : List Window :=
  ws.filter (fun w => match w.stop with | some e => decide ((now s : Int) - 82 - s.lrel ≤ e) | none => true)

/-- Open the AUTO_WIN window of a stream for trigger `t` (R209). -/
def autoWin (s : State) (t : Int) (n : Nat) : State :=
  if isLaneStream n && rdBit s (strR n 0) 25 then
    let pre := min 64 (rdF s (strR n 0) 16 7)
    let post := rdF s (strR n 0) 0 16
    modStr s n (fun c => { c with autoWins := windowsKept s c.autoWins ++ [{ start := t - pre, stop := some (t + post), post := post }] })
  else s

/-- The arbiter honours a trigger for the segment it is armed for. -/
def honour (s : State) (t : Int) (src origin : Nat) : State :=
  let c := s.capture
  let tr : Trig := { t := t, src := src, origin := origin, decided := now s, seg := c.segIdx, shown := false,
                     rings := captureRings s, gapped := none }
  let s1 := { s with
    capture := { c with trigs := c.trigs ++ [tr], segIdx := c.segIdx + 1, first := t + c.depth + 1,
                        lastTs := tsOf t, lastSrc := src } }
  forEach (captureStreams s1) s1 (fun s n => autoWin s t n)

/-- The arbiter may honour a trigger for record tick `t` (R151, R65). -/
def arbiterOpen (s : State) (t : Int) : Bool :=
  (capActive s || (capState s == capHALTED && s.capture.haltAt.isSome)) &&
  decide (s.capture.segIdx < s.capture.segs) && decide (s.capture.first ≤ t) &&
  (match s.capture.haltAt with | some q => decide (t ≤ q) | none => true)

/-- A trigger of tick `t` at Loop line position `pos` comes before the honoured trigger `u` of the same segment (R124). -/
def trigBefore (s : State) (t : Int) (pos : Nat) (u : Trig) : Bool :=
  decide (t < u.t) || (decide (t = u.t) && decide (pos < (if u.src = 0x101 then u.origin else loopPos s)))

/-- The earlier trigger takes the place of the one honoured for segment `seg` (R124). -/
def replaceTrig (s : State) (seg : Nat) (t : Int) (src origin : Nat) : State :=
  match s.capture.trigs.find? (fun u => u.seg == seg) with
  | none => s
  | some u =>
    let c := s.capture
    let s1 := { s with
      capture := { c with
        trigs := c.trigs.map (fun v => if v.seg = seg then { v with t := t, src := src, origin := origin, decided := now s, gapped := none } else v)
        first := if c.segIdx = seg + 1 then t + c.depth + 1 else c.first
        lastTs := if c.segIdx = seg + 1 then tsOf t else c.lastTs
        lastSrc := if c.segIdx = seg + 1 then src else c.lastSrc } }
    forEach (captureStreams s1) s1 (fun s n =>
      autoWin (modStr s n (fun x => { x with
        autoWins := x.autoWins.filter (fun w => !(decide (u.t ≤ w.start + 64) && w.stop == some (u.t + w.post))) })) t n)

/-- An assertion for tick `t` precedes a Loop line trigger already honoured for the latest segment. -/
def assertReplaces (s : State) (t : Int) : Bool :=
  match s.capture.trigs.getLast? with
  | some u => u.src == 0x101 && trigBefore s t (loopPos s) u && decide (s.capture.recFrom ≤ t) &&
      s.capture.trigs.all (fun v => v.seg == u.seg || decide (trigEnd s v < t))
  | none => false

/-- The better of two assertions: the earlier tick, then the lower source (an engine before 0x100). -/
def betterAssert (a b : Assertion) : Assertion :=
  if decide (b.t < a.t) || (decide (b.t = a.t) && decide (b.src < a.src)) then b else a

/-- Count an assertion that is not honoured, where an engine made it (R151). -/
def ignoreAssert (s : State) (a : Assertion) : State := if a.src < 256 then trigIgnored s a.src else s

/-- Decide the assertions whose decision tick `t + l_rel + 3` has come: honour the best one still open, ignore the
others (R151, R152). `fuel` bounds the segments honoured in one step. -/
def decideDue (s : State) : Nat → State
  | 0 => s
  | fuel + 1 =>
    let due := s.capture.asserts.filter (fun a => decide (a.t + s.lrel + 3 ≤ (now s : Int)))
    let can := due.filter (fun a => arbiterOpen s a.t || assertReplaces s a.t)
    match can with
    | [] =>
      let s1 := { s with capture := { s.capture with asserts := s.capture.asserts.filter (fun a => !due.contains a) } }
      forEach due s1 ignoreAssert
    | a :: r =>
      let w := r.foldl betterAssert a
      let s1 := { s with capture := { s.capture with asserts := s.capture.asserts.erase w } }
      let s2 := if assertReplaces s1 w.t then replaceTrig s1 (s1.capture.segIdx - 1) w.t w.src w.origin
        else honour s1 w.t w.src w.origin
      let s3 := if capActive s2 && s2.capture.haltAt.isNone && decide (w.src ≠ 0x101) then
          loopSendTrigger s2 w.t (s2.capture.segIdx - 1) w.src else s2
      decideDue s3 fuel

/-- TRIGGER_DECIDE (R152). -/
def triggerDecide (s : State) : State := decideDue s (s.capture.asserts.length + 1)

/-- An engine asserts the trigger on this tick for record tick `t` (R151). -/
def assertTrigger (s : State) (e : Nat) (t : Int) : State :=
  if capActive s then
    { s with capture := { s.capture with asserts := s.capture.asserts ++ [{ t := t, src := e, origin := 0 }] } }
  else trigIgnored s e

/-- CAP_TRIG as a word of this tick sees it (R130, R152). -/
def capTrigSeen (s : State) : Bool :=
  s.capture.trigs.any (fun t =>
    decide (t.t + s.lrel + 7 ≤ (now s : Int)) &&
    (decide (s.capture.segs ≤ t.seg + 1) || decide ((now s : Int) < trigEnd s t + 1 + s.lrel)))

/-- SYS_CAPTURE shows TRIGGERED for the oldest honoured trigger whose broadcast tick T + l_rel + 6 has come (R152). -/
def showTriggered (s : State) : State :=
  match s.capture.trigs with
  | [] => s
  | t :: r =>
    if capState s == capARMED && !t.shown && decide (t.t + s.lrel + 6 ≤ (now s : Int)) && s.capture.haltAt.isNone then
      captureEvent (setCapState { s with capture := { s.capture with trigs := { t with shown := true } :: r } }
        capTRIGGERED) evTriggered
    else s

/-! ### The end of a segment (R152, R230) -/

/-- Close what lane stream `n` still has open of segment `seg`, which ends with record tick `fin`. A loss or lost time under way is
divided there. -/
def closeSegment (s : State) (seg : Nat) (fin : Int) (n : Nat) : State :=
  if (getStr s n).seg ≤ seg then
    let s1 := closeOpen s n 0
    let c := getStr s1 n
    let s2 :=
      match c.dead with
      | some (f, k) =>
        if k = 0 then s1
        else
          stageGap (setStr s1 n { c with dead := some (f + k, 0) }) n f k 2
      | none => s1
    let s3 := match (getStr s2 n).loss with
      | some l => stageLoss (modStr s2 n (fun c => { c with loss := some { l with count := 0 } })) n l
      | none => s2
    let cut (w : Window) : Window :=
      if w.start ≤ fin && (match w.stop with | some e => decide (fin < e) | none => true) then
        { w with stop := some fin } else w
    modStr s3 n (fun c =>
      { c with seg := seg + 1, refNext := true, windows := c.windows.map cut, autoWins := c.autoWins.map cut })
  else s

/-- Restart the engines with SEG_RESTART (R154). -/
def segRestart (s : State) : State :=
  forEach (engsKnown s) s (fun s e =>
    if rdBit s (eR e 0xC) 11 && engBusy s e && !engReplay s e then engStart s e runRUNNING else s)

/-- The segment ends that a unit behind the record former may not have reached: the largest lead of a chain is below 40,000
ticks. -/
def endsKept (s : State) : List SegEnd :=
  s.capture.ends.filter (fun e => decide ((now s : Int) < e.fin + s.lrel + 40000))

/-- The trigger at the head of the list leaves it: what its rings still lack is kept. -/
def trigDone (s : State) (fin : Int) : Capture :=
  match s.capture.trigs with
  | [] => s.capture
  | t :: r =>
    { s.capture with
      trigs := r, ends := { t := t.t, fin := fin } :: endsKept s
      owed := if t.rings.isEmpty then s.capture.owed else s.capture.owed ++ [t] }

/-- SEGMENT_END: on the tick on which SYS_CAPTURE shows the end of the oldest honoured segment (R152) every lane record open at
T + P is closed, and the capture returns to ARMED or enters HALTED. SYS_CAPTURE shows TRIGGERED first where a trigger known late has
not shown it (R153). The other streams close their records of the segment as their data passes T + P. -/
def segmentEnd (sIn : State) : State :=
  match sIn.capture.trigs with
  | [] => sIn
  | t :: r =>
    let fin := trigEnd sIn t
    let q := sIn.capture.haltAt
    let full := match q with | some q => decide (fin ≤ q - 1) | none => true
    if capActive sIn && full && decide (fin + 1 + sIn.lrel + 80 ≤ (now sIn : Int)) then
      let s := showTriggered sIn
      let s1 := writeTrigs s t (fun r => isLaneStream (lowestStream s r))
      let s2 := forEach ((captureStreams s1).filter isLaneStream) s1 (fun s n => closeSegment s t.seg fin n)
      let done := segDone s2 + 1
      let s3 := { s2 with
        capture := { trigDone s2 fin with
          segMarks := s2.capture.segMarks ++ (captureRings s2).map (fun g => (g, tsOf fin)) } }
      let s4 := captureEvent (wrF s3 SYS_CAPTURE 15 17 done) evSegment
      let s5 :=
        if s2.capture.segs ≤ done then showHalted (if q.isNone then loopSendHalt s4 1 else s4) 1
        else
          match q with
          | some _ =>
            let again := match r with | t2 :: _ => decide (trigEnd s t2 ≤ q.getD 0 - 1) | [] => false
            if again then s4 else showHalted s4 s.capture.haltCause
          | none => segRestart (captureEvent (setCapState s4 capARMED) evArmed)
      segBaseCheck (showTriggered s5)
    else sIn

/-! ### Arming (R63, R204, R251) -/

/-- The capture enters ARMED on this tick. What an earlier capture has not written yet is closed; SEGBASE of a ring whose completed
segment is not all committed still follows later (R251). -/
def enterArmed (sIn : State) (segs depth : Nat) : State :=
  let sT := forEach (trigsOwing sIn) sIn (fun s t => writeTrigs s t (fun _ => true))
  let s := forEach (captureStreams sT) sT (fun s n => if isLaneStream n then endStream s n else closeOpen s n 0)
  let from_ : Int := (now s : Int) - s.lrel
  let s1 := { s with
    capture := { s.capture with
      segs := segs, depth := depth, recFrom := from_, first := from_, segIdx := 0, asserts := [], trigs := [], ends := [],
      owed := [], haltAt := none, haltCause := 0 } }
  let sH := forEach (s1.ring.map Prod.fst) s1 (fun s r => modRing s r (fun c => { c with hdrStop := false }))
  let s2 := forEach (captureRings sH) sH (fun s r => wr64 s (rR r 0x30) (ringWR s r))
  let s3 := forEach (captureStreams s2) s2 (fun s n =>
    let s := modStr s n (fun c =>
      { c with openRec := none, loss := none, dead := none, refNext := true, prevQual := true, prevWin := false,
               windows := [], autoWins := [], seg := 0, doneK := none })
    if streamBindable n then
      wrF s (strR n 0xC) 16 9 ((stageFill (getStr s n) + 1023) / 1024) else s)
  let s4 := forEach (engsKnown s3) s3 (fun s e => if engStarts s e then engStart s e runRUNNING else s)
  captureEvent (wrF (setCapState s4 capARMED) SYS_CAPTURE 15 17 0) evArmed

end Sys2Proof.Machine
end

