-- ==== Sys2Proof/Machine/RecordFormer.lean ====
section
/-! DEFINITION. The record former (R92, R204 to R209, R214 to R219, R227): one slice of one lane, 80 ticks after it reached the
lane input. -/

namespace Sys2Proof.Machine

/-- Some channel changes in the slice, or against the last sample of the slice before it (R207). -/
def sliceChanges (fmt : Nat) (prev cur : Word) : Bool :=
  if fmt = 1 then fld cur 0 16 != fld prev 16 16 || fld cur 16 16 != fld cur 0 16
  else if fmt = 2 then
    fld cur 0 8 != fld prev 24 8 || fld cur 8 8 != fld cur 0 8 || fld cur 16 8 != fld cur 8 8 ||
      fld cur 24 8 != fld cur 16 8
  else cur != prev

/-- One ANALOG slot of an A2 slice (R216): channel sample, range code and over-range bit of the accepted status. -/
def analogSlot (sample range : Nat) (ovr : Bool) : Nat :=
  b2n (ovr || sample == 0x7FFF || sample == 0x8000) * 2 ^ 31 + range * 2 ^ 24 + sample

def analogItem (s : State) (n : Nat) (p : Word) : Word64 :=
  let st := rd s (lR n 0xC)
  BitVec.ofNat 64 (analogSlot (fld p 0 16) (fld st 0 2) (bitAt st 4) +
    2 ^ 32 * analogSlot (fld p 16 16) (fld st 2 2) (bitAt st 5))

/-- A slot of the item has OVR set. -/
def analogOvr (w : Word64) : Bool := w.getLsbD 31 || w.getLsbD 63

/-- Record tick `k` lies inside an open window (R209). -/
def inWindow (c : StreamCore) (k : Int) : Bool :=
  (c.windows ++ c.autoWins).any (fun w =>
    decide (w.start ≤ k) && (match w.stop with | some e => decide (k ≤ e) | none => true))

/-- Store qualification of a slice (R205): what its word, or a pause in its place, left; else on. -/
def sliceQual (x : Slice) : Bool := x.qual.getD true

/-- The staging limit for data records of a lane stream in bytes (R227); a Compact ring takes records without staging
limits (R239). -/
def dataLimit (s : State) (n : Nat) : Option Nat := if ringCompact s (strRingOf s n) then none else some 129024

/-- A MARK record of a live engine (R219), for the slice of record tick `k`. It is dropped once it would use more than the first
1 KiB of the reserve (R227). -/
def stageMark (s : State) (n : Nat) (k : Int) (m : MarkAct) : State :=
  let ts := sliceTs s n k
  let words := ts :: BitVec.ofNat 64 (m.pc.toNat * 2 ^ 32 + m.level.toNat * 2 ^ 16 + m.eng * 2 ^ 8 + m.id.toNat) ::
    (if m.id = 0xFF then m.cnts.map (fun c => BitVec.ofNat 64 c.toNat) else [])
  if (dataLimit s n).isSome && decide (130048 < stageNet (getStr s n) + 8 * (words.length + 1)) then s
  else stageNew s n (strRingOf s n) tyMARK (if trigGapped s m.eng k then flagGAPPED else 0) words ts ts

/-- The MARK records of a slice. -/
def stageMarks (s : State) (n : Nat) (k : Int) (x : Option Slice) : State :=
  match x with
  | some x => forEach x.marks s (fun s m => stageMark s n k m)
  | none => s

/-- The TRIG records due at record tick `k` in the rings whose lowest stream is `n`, then the slice's MARK records. -/
def stageActions (s : State) (n : Nat) (k : Int) (x : Option Slice) : State :=
  let s1 := forEach ((trigsOwing s).filter (fun t => decide (t.t ≤ k))) s (fun s t =>
    writeTrigs s t (fun r => decide (lowestStream s r = n)))
  stageMarks s1 n k x

/-- Count one dropped tick of lane stream `n`. -/
def dropTick (s : State) (n : Nat) (k : Int) : State :=
  let ts := sliceTs s n k
  let c := getStr s n
  match c.loss with
  | some l =>
    ctrAdd (setStr s n { c with loss := some { l with first := if l.count = 0 then ts else l.first, last := ts, count := l.count + 1 } })
      (strR n 8) 1
  | none =>
    stageOvf (ctrAdd (setStr s n { c with loss := some { stream := n, first := ts, last := ts, count := 1 } })
      (strR n 8) 1) n

/-- The stream has no room for `w` more words (R227, R354): its area would exceed the limit, or its line buffer is full. -/
def laneFull (s : State) (n w : Nat) : Bool :=
  (match dataLimit s n with | some lim => decide (lim < stageNet (getStr s n) + 8 * w) | none => false) ||
  (hasLines s n && lineFull (getStr s n) w)

/-- The first slice of a new record will find room on the next tick, by the drain of this one. -/
def nextFits (s : State) (n : Nat) : Bool := !laneFull (lineTick (drainTick (closeOpen s n 0))) n 3

/-- The slice after record tick `k` continues the run (R206): it has arrived, is good, stored, and no boundary or loss lies
between. -/
def runContinues (s : State) (n : Nat) (k : Int) : Bool :=
  covers s (k + 1) && sameSegment s k (k + 1) && nextFits s n &&
  (match (getLane s n).hist.find? (fun x => decide ((x.tick : Int) = k + 1 + s.lrel)) with
   | some y =>
     y.live && y.valid && y.bad.isNone &&
       (if strModeOf s n == 1 then sliceQual y else inWindow (getStr s n) (k + 1))
   | none => false)

/-- Add an item to the open record of stream `n`, starting one where none is open. -/
def addItem (s : State) (n : Nat) (k : Int) (typ : BitVec 4) (head : Word64) (fl : BitVec 8) (it : Word64) : State :=
  let c := getStr s n
  let o : OpenRec := match c.openRec with
    | some o => { o with last := k, flags := o.flags ||| fl, items := o.items ++ [it] }
    | none =>
      { typ := typ, first := k, last := k, ts := sliceTs s n k, flags := fl, head := head, items := [it]
        ring := strRingOf s n, at_ := now s, lost := false }
  setStr s n { c with openRec := some o }

/-- Bytes the open record of stream `n` holds. -/
def openHeld (s : State) (n : Nat) : Nat := match (getStr s n).openRec with | some o => openBytes o | none => 0

/-- Place a data item: its words go through the lane's line buffer into the staging area, where both have room; else the slice is
dropped (R223, R227, R354). -/
def placeItem (s : State) (n : Nat) (k : Int) (typ : BitVec 4) (head : Word64) (fl : BitVec 8) (it : Word64) : State :=
  let s1 := addItem s n k typ head fl it
  let w := (openHeld s1 n - openHeld s n) / 8
  if laneFull s n w then dropTick (closeOpen s n 0) n k
  else if hasLines s n then modStr s1 n (lineWords w) else s1

/-- Items in the open record. -/
def openCount (s : State) (n : Nat) : Nat := match (getStr s n).openRec with | some o => o.items.length | none => 0

/-- Store a good slice of lane `n` as SAMPLE or ANALOG (R206, R214, R216). -/
def storeSample (s : State) (n : Nat) (k : Int) (p : Word) : State :=
  let fmt := laneFmt s n
  let s1 :=
    if fmt = 3 then
      let it := analogItem s n p
      placeItem s n k tyANALOG (BitVec.ofNat 64 (256 * 2 ^ 32)) (if analogOvr it then flagOVR else 0) it
    else placeItem s n k tySAMPLE (BitVec.ofNat 64 (fmt * 2 ^ 16)) 0 (BitVec.ofNat 64 p.toNat)
  if openCount s1 n ≥ 1024 then closeOpen s1 n (if runContinues s1 n k then flagCONT else 0) else s1

/-- A TRANS entry (R215), and the closing of a full or expired record (R207). -/
def storeTrans (s : State) (n : Nat) (k : Int) (p : Word) (entry ref : Bool) : State :=
  let s0 := if ref then closeOpen s n 0 else s
  let first := match (getStr s0 n).openRec with | some o => o.first | none => k
  let s1 :=
    if entry then
      placeItem s0 n k tyTRANS 0 (if ref then flagREF else 0)
        (BitVec.ofNat 64 (p.toNat * 2 ^ 32 + (k - first).toNat % 4096))
    else modStr s0 n (fun c => { c with openRec := c.openRec.map (fun o => { o with last := k }) })
  match (getStr s1 n).openRec with
  | some o => if o.items.length ≥ 1024 || decide (o.first + 4095 ≤ k) then closeOpen s1 n 0 else s1
  | none => s1

/-- A good slice of a recording stream. -/
def formGood (s : State) (n : Nat) (k : Int) (x : Slice) : State :=
  let c := getStr s n
  let mode := strModeOf s n
  let fmt := laneFmt s n
  let win := mode == 3 && inWindow c k
  let qual := sliceQual x
  let sample := mode == 1 || win
  let stored := qual || win
  let ref := c.refNext || (qual && !c.prevQual) || (c.prevWin && !win)
  let changed := match c.prev with | some p => sliceChanges fmt p x.payload | none => false
  let dataTy := if sample then (if fmt = 3 then tyANALOG else tySAMPLE) else tyTRANS
  let s1 := setStr s n { c with refNext := ref, prevQual := qual, prevWin := win, prev := some x.payload }
  let ends := match c.openRec with | some o => o.typ != dataTy || !stored | none => false
  let s2 := if ends then closeOpen s1 n 0 else s1
  let s4 := stageActions s2 n k (some x)
  if !stored then s4
  else if sample then storeSample (modStr s4 n (fun c => { c with refNext := false })) n k x.payload
  else
    let ref := (getStr s4 n).refNext
    storeTrans (modStr s4 n (fun c => { c with refNext := false })) n k x.payload (ref || changed) ref

/-- A tick within a staging overflow (R217, R227): it is counted whatever its slice holds, so that the interval has no hole. -/
def formLost (s : State) (n : Nat) (k : Int) (x : Option Slice) : State :=
  let s1 := dropTick (stageActions s n k x) n k
  match x with
  | some x => if x.live && x.valid then modStr s1 n (fun c => { c with prev := some x.payload }) else s1
  | none => s1

/-- The overflow of stream `n` goes on with this slice (R227): the area holds more than 64 KiB, or the slice stands inside a bad
superframe, whose one GAP record covers all its ticks. -/
def stillLost (s : State) (n : Nat) (x : Option Slice) : Bool :=
  let c := getStr s n
  let inside := match x with
    | some x => x.live && (match x.bad with | some f => decide (x.tick ≠ f) | none => false)
    | none => false
  c.loss.isSome && (decide (65536 < stageFill c) || inside)

/-- One tick of lost time of a lane that is not LIVE (R95): a GAP record per 65,536 ticks. -/
def formDead (s : State) (n : Nat) (k : Int) (x : Option Slice) : State :=
  let s1 := stageActions (closeOpen s n 0) n k x
  let (f, cnt) := match (getStr s1 n).dead with
    | some (f, c) => (f, c + 1)
    | none => (k, 1)
  if cnt = 65536 then stageGap (modStr s1 n (fun c => { c with dead := some (k + 1, 0) })) n f cnt 2
  else modStr s1 n (fun c => { c with dead := some (f, cnt) })

/-- A slice of a bad superframe (R92): one CAUSE 1 GAP record for its 64 ticks. -/
def formBad (s : State) (n : Nat) (k : Int) (x : Slice) (first : Tick) : State :=
  let s1 := closeOpen s n 0
  let s2 :=
    if (getStr s1 n).badSf = some first then s1
    else stageGap (modStr s1 n (fun c => { c with badSf := some first })) n ((first : Int) - s.lrel) 64 1
  let s3 := stageActions s2 n k (some x)
  modStr s3 n (fun c => { c with refNext := true, prev := if x.valid then some x.payload else c.prev })

/-- The end of recording at a halt: what is still open ends at the last kept tick (R231). -/
def formHalt (s : State) (n : Nat) (k : Int) : State := stageActions (endStream s n) n k none

/-- The slice of record tick `k` outside an overflow. -/
def formSlice (s : State) (n : Nat) (k : Int) (x : Option Slice) : State :=
  match x with
  | none => formDead s n k none
  | some x =>
    if !x.live then formDead s n k (some x)
    else
      match x.bad with
      | some f => if (getStr s n).dead.isSome then formDead s n k (some x) else formBad s n k x f
      | none =>
        let s2 := endDead s n
        if x.valid then formGood s2 n k x
        else modStr (stageActions (closeOpen s2 n 0) n k (some x)) n (fun c => { c with refNext := true })

/-- RECORD_FORMER_SLICE for lane `n`: record tick `now - 80 - l_rel`. -/
def recordFormerSlice (s : State) (n : Nat) : State :=
  let k : Int := (now s : Int) - 80 - s.lrel
  let fresh := match (getStr s n).doneK with | some d => decide (d < k) | none => true
  if !(fresh && strBound s n && strModeOf s n != 0 && laneFmt s n != 0 && domReady s domCirrus && domReady s domTimebase)
  then s
  else if covers s k then
    let s0 := modStr s n (fun c => { c with doneK := some k })
    let s1 := forEach (s0.capture.trigs.filter (fun t => decide (trigEnd s0 t < k))) s0 (fun s t =>
      closeSegment s t.seg (trigEnd s t) n)
    let x := (getLane s1 n).hist.find? (fun x => decide ((x.tick : Int) = k + s1.lrel))
    if stillLost s1 n x then formLost s1 n k x else formSlice (endLoss s1 n) n k x
  else
    match s.capture.haltAt with
    | some q =>
      if decide (q ≤ k) && decide (s.capture.recFrom ≤ k) && capState s == capHALTED then
        formHalt (modStr s n (fun c => { c with doneK := some k })) n k
      else s
    | none => s

/-- A WIN action of a word on the slice of record tick `a` (R161, R209): open or close the window of stream `n`. -/
def windowAction (s : State) (n : Nat) (a : Int) (isOpen : Bool) : State :=
  let c := getStr s n
  let pre := min 64 (rdF s (strR n 0) 16 7)
  let post := rdF s (strR n 0) 0 16
  let cut (w : Window) : Bool := s.capture.trigs.any (fun t => decide (w.start ≤ trigEnd s t) && decide (trigEnd s t < a))
  let fresh : Window := { start := a - pre, stop := none, post := post }
  match c.windows.reverse with
  | [] => if isOpen then setStr s n { c with windows := [fresh] } else s
  | w :: ws =>
    if isOpen then
      match w.stop with
      | none => if cut w then setStr s n { c with windows := c.windows ++ [fresh] } else s
      | some e =>
        if decide (a ≤ e) && !cut w then setStr s n { c with windows := (({ w with stop := none } : Window) :: ws).reverse }
        else setStr s n { c with windows := windowsKept s c.windows ++ [fresh] }
    else
      match w.stop with
      | none => setStr s n { c with windows := (({ w with stop := some (a + w.post) } : Window) :: ws).reverse }
      | some _ => s

/-- The forced close of a flush (R252): on tick f + 64 the records that were open on tick f and still are, of the streams bound to
the ring, close with TRUNC; a SAMPLE or ANALOG record carries CONT as well. -/
def flushClose (s : State) (cmd : RunCmd) : State :=
  match cmd.wait with
  | .flush r f t u =>
    if now s = f + 64 && capActive s then
      let open_ := (streamsOfRing s r).filter (fun n =>
        match (getStr s n).openRec with | some o => decide (o.at_ ≤ f) && !o.lost | none => false)
      let s1 := forEach open_ s (fun s n =>
        let cont := match (getStr s n).openRec with | some o => o.typ == tySAMPLE || o.typ == tyANALOG | none => false
        closeOpen s n (if cont then flagTRUNC ||| flagCONT else flagTRUNC))
      { s1 with
        running := s1.running.map (fun c => if c = cmd then { c with wait := .flush r f (t || !open_.isEmpty) u } else c) }
    else s
  | _ => s

/-- RING_FLUSH_FORCED_CLOSE for ring `r`. What it has not closed by the end of the tick, `sliceTickEnd` closes. -/
def flushForcedClose (s : State) (r : Nat) : State :=
  match s.running.find? (fun c => match c.wait with | .flush q _ _ _ => q == r | _ => false) with
  | some cmd => flushClose s cmd
  | none => s

/-! ### The streams behind no lane -/

/-- The bound lane streams whose lanes are OFF: they bring no slices, and the record former writes their TRIG and MARK records as
it passes each tick (R218, R219). -/
def offLanes (s : State) : List Nat := (captureStreams s).filter (fun n => isLaneStream n && decide (laneFmt s n = 0))

/-- The MARK records of the OFF lanes as a tick begins. -/
def offLaneTick (s : State) : State :=
  let k : Int := (now s : Int) - 80 - s.lrel
  if covers s k then
    forEach (offLanes s) s (fun s n =>
      stageMarks s n k ((getLane s n).hist.find? (fun x => decide ((x.tick : Int) = k + s.lrel))))
  else s

/-- Stream `n`, whose records are not formed by a lane's slices, has passed record tick `t` (R220): a chain brings no more outputs of
it, and no open STAMP record began before it. -/
def streamPassed (s : State) (n : Nat) (t : Int) : Bool :=
  if 0x240 ≤ n && n < 0x280 then !dfcBehind s (n - 0x240) t
  else if 0x200 ≤ n && n < 0x240 then
    (match (getStr s n).openRec with | some o => decide ((tsOf t).toNat ≤ o.ts.toNat) | none => true)
  else true

/-- The TRIG records owed to rings whose lowest stream brings no slices, once record tick T has passed the record former and the
stream itself (R218, R220). -/
def trigRecordsDue (s : State) : State :=
  forEach (trigsOwing s) s (fun s t =>
    if decide (t.t + s.lrel + 80 ≤ (now s : Int)) then
      writeTrigs s t (fun r =>
        let n := lowestStream s r
        (!isLaneStream n || decide (laneFmt s n = 0)) && streamPassed s n t.t)
    else s)

end Sys2Proof.Machine
end

