-- ==== Sys2Proof/Machine/Budget.lean ====
section
/-! DEFINITION. The budget check (R24, R25, R59, R229), the domains a capture needs (R27), and BUDGET_CHECK. -/

namespace Sys2Proof.Machine

/-- The total write charge. -/
def totalCharge (s : State) : Nat := ((captureStreams s).map (streamCharge s)).foldl (· + ·) 0

/-- Bytes of the rings that lie in Stratus. -/
def stratusRingBytes (s : State) : Nat :=
  (((ringsExisting s).filter (fun r => !ringCompact s r)).map (fun r => 8 * ringSize s r)).foldl (· + ·) 0

/-- The budget check on the state a command would produce (R25): the failure, if any. -/
def budgetFail (s : State) : Option Fail :=
  let t := totalCharge s
  let b := stratusRingBytes s
  if writeBudget < t then some { status := stBUDGET, res := [1, t, writeBudget] }
  else if capGib s * 2 ^ 30 < b then some { status := stBUDGET, res := [2, ceilDiv b (2 ^ 20), capGib s * 1024] }
  else none

/-- The budget triple of OK (R59). -/
def budgetTriple (s : State) : List Nat := [0, totalCharge s, writeBudget - totalCharge s]

/-- The domains a capture of the present configuration needs (R27). -/
def captureDomains (s : State) : List Nat :=
  let str := captureStreams s
  let lanes := str.filter isLaneStream
  let engs := (engsKnown s).filter (fun e => engStarts s e)
  [domTimebase] ++ ([3, 4, 5, 6, 7, 8, 9, 10].filter (lanes.map domLink).contains) ++ ([11, 12, 13, 14].filter ((engs.flatMap (engMembers s)).map domSeq).contains) ++
  (if str.contains 0x280 then [domCtx] else []) ++ [domCirrus] ++
  (if compactMem s then [] else [17, 18]) ++
  (if str.any (fun n => decide (0x200 ≤ n) && decide (n < 0x240)) then [domTiu] else []) ++
  (if str.any (fun n => decide (0x240 ≤ n) && decide (n < 0x280)) then [domAnalog] else []) ++ [domRing]

/-- The capture in progress uses domain `d` (R27): the Stratus domains only in the Full Memory configuration. -/
def captureUses (s : State) (d : Nat) : Bool :=
  (captureDomains s).contains d && (!(d == 17 || d == 18) || (domReady s 17 && domReady s 18))

/-- BUDGET_CHECK (R59, R69). -/
def budgetCheckCmd (s : State) (m : Nat) : State :=
  checked s m [noSched s m, budgetFail s] (fun s => completeCmd s m stOK (budgetTriple s))

def execBudgetCheck (m : Fin 16) (s : State) : Out := .next (fwRow s m.val 0x0504 (fun s => budgetCheckCmd s m.val))

end Sys2Proof.Machine
end

