-- ==== Sys2Proof/Machine/Sha.lean ====
section
/-! DEFINITION. HMAC-SHA-256 (R382), as RFC 2104 and FIPS 180-4 give; byte lists, first byte first. The constants are computed
as FIPS 180-4 defines them, from the roots of the first primes. -/

namespace Sys2Proof.Machine

/-! ### Constants -/

/-- The first 64 primes; a factor of a number below 324 is below 18. -/
def shaPrimes : List Nat :=
  (List.range 312).filter (fun n => decide (2 ≤ n) && (List.range 16).all (fun i => decide (n ≤ i + 2) || n % (i + 2) != 0))

/-- The first 32 bits of the fraction of the `k`-th root of `n`, found from its highest bit down. -/
def rootBits (k n : Nat) : Word :=
  let top := n * 2 ^ (32 * k)
  BitVec.ofNat 32 ((List.range 35).foldl (fun r i =>
    let t := r + 2 ^ (34 - i)
    if t ^ k ≤ top then t else r) 0)

/-- One constant a round: cube roots. -/
def shaRoundWords : List Word := shaPrimes.map (rootBits 3)

/-! ### The rounds -/

/-- The eight working words; also a hash value. -/
structure Hash where
  a : Word
  b : Word
  c : Word
  d : Word
  e : Word
  f : Word
  g : Word
  h : Word
deriving DecidableEq, Repr

def Hash.words (v : Hash) : List Word := [v.a, v.b, v.c, v.d, v.e, v.f, v.g, v.h]

/-- The value a message starts from: square roots. -/
def hashStart : Hash :=
  let r (i : Nat) : Word := rootBits 2 (shaPrimes.getD i 0)
  { a := r 0, b := r 1, c := r 2, d := r 3, e := r 4, f := r 5, g := r 6, h := r 7 }

/-- Exclusive or of `x` turned right by each count of `l`. -/
def turns (x : Word) (l : List Nat) : Word := l.foldl (fun y n => y ^^^ x.rotateRight n) 0

/-- A round with the message word and constant already added. -/
def hashRound (v : Hash) (kw : Word) : Hash :=
  let choose := v.g ^^^ (v.e &&& (v.f ^^^ v.g))
  let most := (v.a &&& v.b) ||| (v.c &&& (v.a ||| v.b))
  let x := kw + v.h + choose + turns v.e [6, 11, 25]
  { a := x + most + turns v.a [2, 13, 22], b := v.a, c := v.b, d := v.c, e := v.d + x, f := v.e, g := v.f, h := v.g }

/-- The message word 16 places after the first of the window `w`. -/
def nextWord (w : List Word) : Word :=
  let near := w.getD 1 0
  let far := w.getD 14 0
  w.headD 0 + w.getD 9 0 + (turns near [7, 18] ^^^ near >>> 3) + (turns far [17, 19] ^^^ far >>> 10)

/-- The rounds of one block, with a window of 16 message words that moves on by one a round. -/
def hashRounds : List Word → List Word → Hash → Hash
  | [], _, v => v
  | k :: ks, w, v => hashRounds ks (w.tail ++ [nextWord w]) (hashRound v (k + w.headD 0))

/-! ### Messages -/

/-- The number whose digits to base 256 are the bytes `l`, the highest first. -/
def bigEndian (l : List Byte) : Nat := l.foldl (fun n b => n * 256 + b.toNat) 0

/-- Its `k` lowest digits. -/
def bigEndianBytes (k n : Nat) : List Byte := (List.range k).map (fun i => BitVec.ofNat 8 (n / 256 ^ (k - 1 - i)))

/-- Block `i` of a padded message. -/
def hashBlock (m : List Byte) (v : Hash) (i : Nat) : Hash :=
  let w := (List.range 16).map (fun j => BitVec.ofNat 32 (bigEndian ((m.drop (64 * i + 4 * j)).take 4)))
  let n := hashRounds shaRoundWords w v
  { a := v.a + n.a, b := v.b + n.b, c := v.c + n.c, d := v.d + n.d, e := v.e + n.e, f := v.f + n.f, g := v.g + n.g, h := v.h + n.h }

/-- A message with its padding to whole blocks: a bit 1, zeros, and its length in bits. -/
def shaPadded (m : List Byte) : List Byte :=
  m ++ 0x80 :: List.replicate (63 - (m.length + 8) % 64) 0 ++ bigEndianBytes 8 (8 * m.length)

/-- SHA-256 of a byte list. -/
def sha256 (m : List Byte) : List Byte :=
  let p := shaPadded m
  ((List.range (p.length / 64)).foldl (hashBlock p) hashStart).words.flatMap (fun w => bigEndianBytes 4 w.toNat)

/-- HMAC-SHA-256 with a key of at most 64 bytes. -/
def hmacSha256 (key msg : List Byte) : List Byte :=
  let mask (x : Byte) : List Byte := (List.range 64).map (fun i => key.getD i 0 ^^^ x)
  sha256 (mask 0x5C ++ sha256 (mask 0x36 ++ msg))

end Sys2Proof.Machine
end

