-- ==== Sys2Proof/Machine/Gates.lean ====
section
/-! DEFINITION. Service and customer gates (chapter 19): the gate commands, the maker block on the flash, and the service
range. -/

namespace Sys2Proof.Machine

/-! ### Gate states (R388) -/

/-- FUSE_STATUS.RESTRICTED (R356): no usable key. -/
def fuseRestricted (s : State) : Bool := !(s.fuses.aOk || s.fuses.bOk) || (s.fuses.aOk && s.fuses.bOk && !s.fuses.agree)

/-- State code of the customer gate. -/
def custState (s : State) : Nat :=
  if s.gates.custRestricted then 2 else if s.gates.pwd.isNone then 3 else if s.gates.custOpen then 1 else 0

/-- The customer gate is closed: only with a password, or RESTRICTED (R380, R385). -/
def custClosed (s : State) : Bool := custState s == 0 || custState s == 2

/-- A command needs the customer gate (1) or the Service gate (0) open (R56 check 2). -/
def needCust (s : State) (needs : Bool) : Option Fail := failIf (needs && custClosed s) stLOCKED [1]
def needSvc (s : State) (needs : Bool) : Option Fail := failIf (needs && !s.gates.svcOpen) stLOCKED [0]

/-! ### The maker block (R385, R386) -/

/-- GATE_MAKER_CFG. -/
def makerCfg (s : State) : List Word := (List.range 64).map (fun w => rd s (gateCfgR w))

def copyGen (c : Copy) : Option Nat := match c with | .valid g _ _ => some g | _ => none

/-- The copy in force: valid, with the higher generation count. -/
def makerCopy (f : Flash) : Option (BitVec 128 × List Word) :=
  match f.a, f.b with
  | .valid ga pa ca, .valid gb pb cb => if ga < gb then some (pb, cb) else some (pa, ca)
  | .valid _ pa ca, _ => some (pa, ca)
  | _, .valid _ pb cb => some (pb, cb)
  | _, _ => none

/-- The flash holds the present password and GATE_MAKER_CFG. -/
def gateSaved (s : State) : Bool :=
  !s.gates.saving && (match makerCopy s.flash with
    | some (p, c) => p == s.gates.savedPwd && c == makerCfg s
    | none => false)

/-- GATE_STATUS as the firmware keeps it (R389). -/
def gateWord (s : State) : Nat :=
  b2n s.gates.svcOpen + 2 * b2n (fuseRestricted s) + 4 * b2n s.gates.nonce.isSome + 256 * b2n s.gates.pwd.isSome +
  512 * b2n (!custClosed s) + 1024 * b2n s.gates.custRestricted + 2048 * b2n (gateSaved s)

/-- Bring the GATE_STATUS register up to date. -/
def gateShow (s : State) : State := wr s GATE_STATUS (BitVec.ofNat 32 (gateWord s))

def setGates (s : State) (g : Gates) : State := gateShow { s with gates := g }

/-- The gates and GATE_MAKER_CFG as a boot leaves them (R385). `cold`: GATE_PWD is written from the flash. -/
def gateBoot (s : State) (cold : Bool) : State :=
  let copy := makerCopy s.flash
  let cfg := match copy with | some (_, c) => c | none => []
  let s1 := forN 64 s (fun s w => wr s (gateCfgR w) (cfg.getD w 0))
  let pw : BitVec 128 := match copy with | some (p, _) => p | none => 0
  let g := { s.gates with
    svcOpen := false, custOpen := false, nonce := none, saving := false
    custRestricted := if cold then copy.isNone && !(s.flash.a == Copy.erased && s.flash.b == Copy.erased)
      else s.gates.custRestricted
    pwd := if cold then (if pw = 0 then none else some pw) else s.gates.pwd
    savedPwd := pw }
  setGates s1 g

/-- GATE_SAVE: the older copy is overwritten, with a generation count one higher (R386). -/
def gateSave (s : State) (verifies : Bool) : State :=
  if s.gates.saving && fwReady s then
    let ga := copyGen s.flash.a
    let gb := copyGen s.flash.b
    let gen := max (ga.getD 0) (gb.getD 0) + 1
    let new : Copy := if verifies then .valid gen s.gates.savedPwd (makerCfg s) else .damaged
    let intoB := match ga, gb with
      | some x, some y => decide (y ≤ x)
      | some _, none => true
      | _, _ => false
    let f := if intoB then { s.flash with b := new } else { s.flash with a := new }
    setGates { s with flash := f } { s.gates with saving := false }
  else s

/-! ### Bytes of words -/

/-- Bytes of a list of words, byte j of a word in its bits [8j + 7 : 8j]. -/
def bytesOfWords (l : List Word) : List Byte := l.flatMap (fun w => (List.range 4).map (fun j => w.extractLsb' (8 * j) 8))

/-- The 32 bytes of a nonce or key, byte 0 in its low bits. -/
def bytes256 (n : BitVec 256) : List Byte := (List.range 32).map (fun i => n.extractLsb' (8 * i) 8)

def argBytes (s : State) (m n : Nat) : List Byte := bytesOfWords ((List.range n).map (fun i => rd s (argR m i)))

/-- The 128-bit password in ARG0 to ARG3 (R387). -/
def argPassword (s : State) (m : Nat) : BitVec 128 := BitVec.ofNat 128 (arg64 s m 0 + 2 ^ 64 * arg64 s m 2)

/-! ### Commands -/

def gateBusy (s : State) : Option Fail := needFree s [.gates]

/-- GATE_CHALLENGE (R382 to R384). -/
def gateChallengeCmd (s : State) (m : Nat) : State :=
  checked s m [noSched s m, needState (!fuseRestricted s) 12 0 2, needState (!s.gates.svcOpen) 12 0 1, gateBusy s]
    (fun s =>
      let (d, s1) := drawFree s
      let n := Config.nonce d
      let s2 := setGates s1 { s1.gates with nonce := some n, nonceAt := s.ns }
      completeCmd s2 m stOK ((List.range 8).map (fun k => (n.extractLsb' (32 * k) 32).toNat)))

/-- GATE_RESPONSE (R382, R383). -/
def gateResponseCmd (s : State) (m : Nat) : State :=
  checked s m [noSched s m, needState s.gates.nonce.isSome 12 0 4, gateBusy s]
    (fun s =>
      let n := s.gates.nonce.getD 0
      let ok := argBytes s m 8 == hmacSha256 (bytes256 Config.fuseKey) (bytes256 n)
      if ok then
        let s1 := setGates s { s.gates with nonce := none, svcOpen := true }
        completeCmd s1 m stOK [gateWord s1]
      else completeCmd (ctrAdd (setGates s { s.gates with nonce := none }) GATE_FAIL 1) m stLOCKED [0])

/-- GATE_PASSWORD_SET (R387). -/
def gatePasswordSetCmd (s : State) (m : Nat) : State :=
  let p := argPassword s m
  let svc := s.gates.svcOpen
  checked s m [noSched s m, needArg (svc || p != 0) 0,
    needState (svc || (s.gates.pwd.isNone && !s.gates.custRestricted)) 12 1 (custState s), gateBusy s]
    (fun s =>
      let g := { s.gates with savedPwd := p, saving := true }
      completeCmd (setGates s (if svc then g else { g with pwd := some p, custOpen := false })) m stOK [])

/-- GATE_UNLOCK (R387, R388). -/
def gateUnlockCmd (s : State) (m : Nat) : State :=
  checked s m [noSched s m, needState (!s.gates.custRestricted) 12 1 2, needState s.gates.pwd.isSome 12 1 3, gateBusy s]
    (fun s =>
      if s.gates.pwd = some (argPassword s m) then
        let s1 := setGates s { s.gates with custOpen := true }
        completeCmd s1 m stOK [gateWord s1]
      else completeCmd (ctrAdd s GATE_FAIL 1) m stLOCKED [1])

/-- The 64 words the flash holds; zero where no copy is valid. -/
def savedCfg (s : State) : List Word :=
  match makerCopy s.flash with | some (_, c) => c | none => List.replicate 64 0

/-- GATE_LOCK (R386, R387). -/
def gateLockCmd (s : State) (m : Nat) : State :=
  let a := arg s m 0
  checked s m [noSched s m, needArg (a ≤ 1) 0, gateBusy s]
    (fun s =>
      let s1 := if a = 0 then setGates s { s.gates with svcOpen := false, nonce := none }
        else setGates s { s.gates with custOpen := false, saving := s.gates.saving || makerCfg s != savedCfg s }
      completeCmd s1 m stOK [gateWord s1])

/-- SERVICE_COMMAND with the Service gate closed (R56, R380). -/
def serviceLocked (s : State) (m : Nat) : State := completeCmd (startCmd s m) m stLOCKED [0]

/-- NONCE_EXPIRY: 10 s after it was issued (R383). -/
def nonceExpiry (s : State) : State :=
  if s.gates.nonce.isSome && decide (s.gates.nonceAt + 10000000000 ≤ s.ns) then setGates s { s.gates with nonce := none }
  else s

/-! ### Meanings of the rows -/

def execGateChallenge (m : Fin 16) (s : State) : Out := .next (fwRow s m.val 0x0C01 (fun s => gateChallengeCmd s m.val))
def execGateResponse (m : Fin 16) (s : State) : Out := .next (fwRow s m.val 0x0C02 (fun s => gateResponseCmd s m.val))
def execGatePasswordSet (m : Fin 16) (s : State) : Out :=
  .next (fwRow s m.val 0x0C03 (fun s => gatePasswordSetCmd s m.val))
def execGateUnlock (m : Fin 16) (s : State) : Out := .next (fwRow s m.val 0x0C04 (fun s => gateUnlockCmd s m.val))
def execGateLock (m : Fin 16) (s : State) : Out := .next (fwRow s m.val 0x0C05 (fun s => gateLockCmd s m.val))

/-- SERVICE_COMMAND: LOCKED while the Service gate is closed; with it open the spec gives the opcodes no effect. -/
def execServiceCommand (m : Fin 16) (s : State) : Out :=
  if fwStarts s m.val && serviceOp (cmdOpcode s m.val) then
    if s.gates.svcOpen then .refused .serviceEffectNotGiven else .next (serviceLocked s m.val)
  else .next (fwRow s m.val 0x0C80 (fun s => s))

def execNonceExpiry (s : State) : Out := .next (nonceExpiry s)
def execGateSave (verifies : Bool) (s : State) : Out := .next (gateSave s verifies)

end Sys2Proof.Machine
end

