-- ==== Sys2Proof/Machine/Context.lean ====
section
/-! DEFINITION. The keyed context store (chapter 08): placement, ranks, operations, arbitration, sweep, clear and dump. -/

namespace Sys2Proof.Machine

/-! ### Placement (R178) -/

def ctxHash (key seed : Word64) : Nat :=
  let x := key ^^^ seed
  let x := x ^^^ (x >>> 29)
  let x := x * 0x8F3A6C15E2D94B7D
  let x := x ^^^ (x >>> 32)
  let x := x * 0xA7C219E55B3D6F91
  let x := x ^^^ (x >>> 27)
  x.toNat % 2 ^ 18

def ctxBank (set : Nat) : Nat := set % 64
def ctxRow (set : Nat) : Nat := set / 64

def ctxSeed (s : State) : Word64 := BitVec.ofNat 64 (rd64 s CTX_SEED)
def ctxAgeLimit (s : State) : Nat := (rd s CTX_AGE_LIMIT).toNat
def ctxStep (s : State) : Nat := (rd s CTX_SWEEP_STEP).toNat

/-! ### Context request operations (R162) -/

def opLOOKUP : Nat := 1
def opINSERT : Nat := 2
def opUPDATE : Nat := 3
def opDELETE : Nat := 4
def opLOOKUPINSERT : Nat := 5
/-- The host path's row read of CTX_DUMP, the model's own code; its key is the set number. -/
def opDUMP : Nat := 6

/-- Masters 256 and 257 (R188). -/
def mTURNTABLE : Nat := 256
def mHOST : Nat := 257

/-! ### Ranks (R182) -/

/-- Remove way `w`: the ways ranked above it move down. -/
def rankRemove (ways : List CtxEntry) (w : Nat) : List CtxEntry :=
  let old := (ways.getD w CtxEntry.empty).rank
  let l := ways.map (fun e => if e.valid && old.ult e.rank then { e with rank := e.rank - 1 } else e)
  l.set w { (l.getD w CtxEntry.empty) with valid := false, rank := 0 }

/-- Use way `w`, valid before the use. -/
def rankUse (ways : List CtxEntry) (w : Nat) : List CtxEntry :=
  let old := (ways.getD w CtxEntry.empty).rank
  let l := ways.map (fun e => if e.valid && e.rank.ult old then { e with rank := e.rank + 1 } else e)
  l.set w { (l.getD w CtxEntry.empty) with rank := 0 }

/-- Put a new entry into invalid way `w`. -/
def rankNew (ways : List CtxEntry) (w : Nat) (e : CtxEntry) : List CtxEntry :=
  (ways.map (fun x => if x.valid then { x with rank := x.rank + 1 } else x)).set w { e with valid := true, rank := 0 }

/-- The oldest way: the valid one with the highest rank. -/
def rankOldest (ways : List CtxEntry) : Nat :=
  (List.range 4).foldl (fun b w =>
    if (ways.getD w CtxEntry.empty).valid && (ways.getD b CtxEntry.empty).rank.ult (ways.getD w CtxEntry.empty).rank then w
    else b) 0

def freeWay (ways : List CtxEntry) : Option Nat :=
  (List.range 4).find? (fun w => !(ways.getD w CtxEntry.empty).valid)

def findWay (ways : List CtxEntry) (key : Word64) : Option Nat :=
  (List.range 4).find? (fun w => (ways.getD w CtxEntry.empty).valid && decide ((ways.getD w CtxEntry.empty).key = key))

/-! ### Records (R194, R195) -/

/-- The VA byte of an entry (R181). -/
def ctxVA (e : CtxEntry) : Nat := b2n e.valid * 128 + e.rank.toNat * 32

def ctxWords (ts : Word64) (e : CtxEntry) (reason way set : Nat) : List Word64 :=
  [ts, e.key, BitVec.ofNat 64 (e.st.toNat * 2 ^ 48 + e.stamp.toNat),
   BitVec.ofNat 64 (e.user.toNat * 2 ^ 32 + ctxVA e * 2 ^ 24 + reason * 2 ^ 20 + way * 2 ^ 18 + set)]

def ctxStream : Nat := 0x280

/-- A reason 1 to 4 record, where the context stream records (R195, R204). -/
def ctxRecord (s : State) (r : Int) (e : CtxEntry) (reason way set : Nat) : State :=
  if strBound s ctxStream && strModeOf s ctxStream != 0 && capActive s && covers s r then
    stageOther (trigsBefore s ctxStream (r * 256)) ctxStream (strRingOf s ctxStream) tyCTX 0 (ctxWords (tsOf r) e reason way set) (tsOf r) (tsOf r)
  else s

/-! ### Rows (R183, R185) -/

def ctxSet (s : State) (set : Nat) : List CtxEntry := tabGet ctxSetEmpty s.ctx.sets set
def ctxPut (s : State) (set : Nat) (ways : List CtxEntry) : State :=
  { s with ctx := { s.ctx with sets := tabSet ctxSetEmpty s.ctx.sets set ways } }

/-- Read a row: errors corrected, or the row lost (R183). `r`: the record tick of a lost row's record. -/
def ctxRead (s : State) (set : Nat) (r : Int) : State :=
  let err := tabGet 0 s.ctx.rowErr set
  if err = 0 then s
  else
    let s1 := { s with ctx := { s.ctx with rowErr := tabDel s.ctx.rowErr set } }
    if err = 1 then ctxEvent (ctrAdd s1 CTX_ECC_CORR_COUNT 1) 1
    else
      let s2 := ctxPut s1 set ctxSetEmpty
      ctxRecord (ctxEvent (ctrAdd s2 CTX_ROW_LOST_COUNT 1) 2) r CtxEntry.empty 4 0 set

/-- Age of an entry against record tick `r` (R185). -/
def ctxAge (e : CtxEntry) (r : Int) : Nat := ((r - (e.stamp.toNat : Int)) % 2 ^ 48).toNat

/-- Purge way `w` of a set as expired, with the record's reason. -/
def ctxPurgeWay (s : State) (set : Nat) (r : Int) (reason w : Nat) : State :=
  let ways := ctxSet s set
  let s1 := ctxRecord s r (ways.getD w CtxEntry.empty) reason w set
  ctxEvent (ctrAdd (ctxPut s1 set (rankRemove ways w)) CTX_EXPIRE_COUNT 1) 0x10

/-- Purge every entry of the set whose age against `r` exceeds the limit `lim` by more than `margin`. -/
def ctxPurge (s : State) (set : Nat) (r : Int) (reason lim margin : Nat) : State :=
  if lim = 0 then s
  else forN 4 s (fun s w =>
    let e := (ctxSet s set).getD w CtxEntry.empty
    if e.valid && e.stamp != 0 && decide (lim + margin < ctxAge e r) then ctxPurgeWay s set r reason w else s)

/-! ### Operations (R184) -/

/-- The stamp a write stores (R181): never 0 for a stamped entry. -/
def stampOf (r : Int) : BitVec 48 := if BitVec.ofInt 48 r = 0 then 1 else BitVec.ofInt 48 r

/-- The fields a request writes into a new entry (R162). -/
def ctxNew (q : CtxReq) : CtxEntry :=
  { key := q.key, st := if q.mask.getLsbD 0 then q.imm else 0, stamp := if q.mask.getLsbD 1 then q.stamp else 0,
    user := if q.mask.getLsbD 2 then q.user else 0, valid := true, rank := 0 }

/-- The fields a request changes in a present entry. -/
def ctxChange (q : CtxReq) (e : CtxEntry) : CtxEntry :=
  { e with
    st := if q.mask.getLsbD 0 then q.imm else e.st
    stamp := if q.mask.getLsbD 1 then q.stamp else e.stamp
    user := if q.mask.getLsbD 2 then q.user else e.user }

/-- What an operation found: HIT, FULL, STATE before it (R186). -/
structure CtxAns where
  hit  : Bool
  full : Bool
  st   : BitVec 16
deriving DecidableEq, Repr

/-- Insert an absent key (R184): a free way, or a full set under the policy. -/
def ctxInsert (s : State) (set : Nat) (q : CtxReq) : State × CtxAns :=
  let ways := ctxSet s set
  match freeWay ways with
  | some w => (ctxPut s set (rankNew ways w (ctxNew q)), { hit := false, full := false, st := 0 })
  | none =>
    let s1 := ctxEvent (ctrAdd s CTX_FULL_COUNT 1) 4
    let ans : CtxAns := { hit := false, full := true, st := 0 }
    if s1.ctx.policy then
      let w := rankOldest ways
      let s2 := ctxRecord s1 q.recTick (ways.getD w CtxEntry.empty) 3 w set
      let s3 := ctxEvent (ctrAdd s2 CTX_EVICT_COUNT 1) 8
      (ctxPut s3 set (rankNew (rankRemove ways w) w (ctxNew q)), ans)
    else (s1, ans)

/-- One granted operation on its row, after the expiry check. -/
def ctxOperate (s : State) (set : Nat) (q : CtxReq) : State × CtxAns :=
  let ways := ctxSet s set
  match findWay ways q.key with
  | some w =>
    let e := ways.getD w CtxEntry.empty
    let ans : CtxAns := { hit := true, full := false, st := e.st }
    if q.op = opINSERT then
      (ctxPut s set (rankUse (ways.set w { ctxNew q with rank := e.rank }) w), ans)
    else if q.op = opUPDATE then (ctxPut s set (rankUse (ways.set w (ctxChange q e)) w), ans)
    else if q.op = opDELETE then (ctxPut s set (rankRemove ways w), ans)
    else (ctxPut s set (rankUse ways w), ans)
  | none =>
    if q.op = opINSERT || q.op = opLOOKUPINSERT then ctxInsert s set q
    else (s, { hit := false, full := false, st := 0 })

/-! ### Arbitration (R188 to R190) -/

def ctxExtQ (s : State) (m : Nat) : List CtxReq := tabGet [] s.ctx.extQ m

/-- The request queue of master `m`. -/
def ctxQueue (s : State) (m : Nat) : List CtxReq := if m < 256 then (getEng s m).reqQ else ctxExtQ s m

/-- The request of master `m` that competes on this tick: issued earlier, room for its result, no grant yet. -/
def ctxCompetes (s : State) (m : Nat) : Option CtxReq :=
  match ctxQueue s m with
  | [] => none
  | q :: _ =>
    if decide (q.issued < now s) && tabGet 0 s.ctx.granted (64 + m) != now s + 1 &&
        (decide (256 ≤ m) || decide ((getEng s m).resQ.length < 16)) then some q else none

/-- The set a request reads. -/
def reqSet (s : State) (q : CtxReq) : Nat :=
  if q.op = opDUMP then q.key.toNat % 2 ^ 18 else ctxHash q.key (ctxSeed s)

/-- Masters that may compete at all. -/
def ctxMasters (s : State) : List Nat :=
  (s.eng.filter (fun p => !p.2.reqQ.isEmpty)).map Prod.fst ++ [mTURNTABLE, mHOST]

/-- The masters competing for bank `b`. -/
def ctxContenders (s : State) (b : Nat) : List Nat :=
  (ctxMasters s).filter (fun m => match ctxCompetes s m with
    | some q => ctxBank (reqSet s q) == b
    | none => false)

/-- Distance from the round-robin pointer. -/
def rrDist (ptr m : Nat) : Nat := (m + 258 - ptr) % 258

/-- Master `m` is first at or after the pointer of bank `b`. -/
def ctxWins (s : State) (b m : Nat) : Bool :=
  let ptr := tabGet 0 s.ctx.rr b
  (ctxContenders s b).all (fun k => decide (rrDist ptr m ≤ rrDist ptr k))

/-- A tick lost by master `m` (R188, R198, R199). -/
def ctxLose (s : State) (m : Nat) : State :=
  if m < 256 then ctrAdd s (eR m 0xC0C) 1
  else if m = mTURNTABLE then ctrAdd s CTX_TT_CONFLICT 1 else ctrAdd s CTX_HOST_CONFLICT 1

/-- Take the head request off its queue. -/
def ctxPop (s : State) (m : Nat) : State :=
  if m < 256 then modEng s m (fun c => { c with reqQ := c.reqQ.drop 1 })
  else { s with ctx := { s.ctx with extQ := tabSet [] s.ctx.extQ m ((ctxExtQ s m).drop 1) } }

/-- The result of the request engine `m` was granted on tick `g` is on its way: it is visible on g + 5 (R187). -/
def ctxAwait (s : State) (m : Nat) (q : CtxReq) : State :=
  if m < 256 then
    modEng s m (fun c =>
      { c with resQ := c.resQ ++ [{ hit := false, full := false, st := 0, issued := q.issued, visible := now s + 5 }] })
  else s

/-- The result of a grant on tick `g` is formed, unless the engine has discarded it (R170, R187). -/
def ctxReturn (s : State) (m g : Nat) (q : CtxReq) (a : CtxAns) : State :=
  if decide (m < 256) && (getEng s m).resQ.any (fun r => r.visible == g + 5) then
    let s1 := modEng s m (fun c =>
      { c with resQ := c.resQ.map (fun r =>
          if r.visible = g + 5 then { r with hit := a.hit, full := a.full, st := a.st } else r) })
    wr s1 (eR m 0xC18) (BitVec.ofNat 32 (max (rdF s1 (eR m 0xC18) 0 16) (min 0xFFFF (g + 5 - q.issued))))
  else s

/-- Bank `b` may grant master `m` on this tick. -/
def ctxMayGrant (s : State) (b m : Nat) : Bool :=
  domReady s domCtx && tabGet 0 s.ctx.granted b != now s + 1 && ctxWins s b m

/-- Bank `b` grants the head request of master `m`: the losers' counts, the pointer, the queue (R188). The operation is done on
g + 3 (R187). -/
def ctxServe (s : State) (b m : Nat) (q : CtxReq) (set : Nat) : State :=
  let losers := (ctxContenders s b).filter (fun k => k != m)
  let s1 := forEach losers s ctxLose
  let s2 := { s1 with
    ctx := { s1.ctx with
      rr := tabSet 0 s1.ctx.rr b ((m + 1) % 258)
      granted := tabSet 0 (tabSet 0 s1.ctx.granted b (now s + 1)) (64 + m) (now s + 1) } }
  let s3 := ctrAdd64 (ctxPop s2 m) CTX_GRANTS 1
  let f : CtxFlight := { master := m, req := q, set := set, limit := ctxAgeLimit s, at_ := now s }
  { s3 with ctx := { s3.ctx with flight := s3.ctx.flight ++ [f] } }

/-- Grant master `m`'s head request, an operation `op`, on this tick (R187, R188); without the conditions nothing happens. -/
def ctxGrant (s : State) (m op : Nat) : State :=
  match ctxCompetes s m with
  | none => s
  | some q =>
    let set := reqSet s q
    let b := ctxBank set
    if decide (q.op = op) && ctxMayGrant s b m then ctxAwait (ctxServe s b m q set) m q else s

/-- A word issues a request on this tick (R162, R189). -/
def ctxIssue (s : State) (e : Nat) (q : CtxReq) : State :=
  let s1 := ctrAdd64 s (eR e 0xC00) 1
  let c := getEng s1 e
  if c.reqQ.length ≥ 16 || !domReady s domCtx then
    ctrAdd (setEng s1 e { c with dropped := true }) (eR e 0xC08) 1
  else
    let s2 := setEng s1 e { c with reqQ := c.reqQ ++ [q] }
    wrF s2 (eR e 0xC14) 8 5 (max (rdF s2 (eR e 0xC14) 8 5) (c.reqQ.length + 1))

/-- Master 256 or 257 queues a request. -/
def ctxExtIssue (s : State) (m : Nat) (q : CtxReq) : State :=
  { s with ctx := { s.ctx with extQ := tabSet [] s.ctx.extQ m (ctxExtQ s m ++ [q]) } }

/-- The tick's stall counts: head requests held back for want of a result slot (R190). -/
def ctxTick (s : State) : State :=
  forEach (s.eng.filter (fun p => !p.2.reqQ.isEmpty && decide (16 ≤ p.2.resQ.length))) s (fun s p =>
    ctrAdd s (eR p.1 0xC10) 1)

/-! ### Sweep, clear (R180, R192) -/

/-- CTX_SWEEP_ROW of bank `b`: due, and no master competes for the bank. -/
def ctxSweep (s : State) (b : Nat) : State :=
  let step := ctxStep s
  let last := tabGet 0 s.ctx.sweepAt b
  if domReady s domCtx && decide (step ≠ 0) && decide (last + step ≤ now s) && (ctxContenders s b).isEmpty &&
      tabGet 0 s.ctx.granted b != now s + 1 then
    let done := tabGet 0 s.ctx.sweepRow b
    let set := done % 4096 * 64 + b
    let r : Int := (now s : Int) - s.lrel
    let s1 := ctxPurge (ctxRead s set r) set r 2 (ctxAgeLimit s) 1024
    let s2 := { s1 with
      ctx := { s1.ctx with
        sweepRow := tabSet 0 s1.ctx.sweepRow b (done + 1)
        sweepAt := tabSet 0 s1.ctx.sweepAt b (now s) } }
    -- a pass is complete once the last of the banks has examined its last row
    if (done + 1) % 4096 = 0 && (List.range 64).all (fun k => decide (done + 1 ≤ tabGet 0 s2.ctx.sweepRow k)) then
      ctrAdd s2 CTX_SWEEP_PASS 1
    else s2
  else s

def setCtxState (s : State) (v : Nat) : State := wrF s CTX_STATUS 0 4 v

/-- Invalidate the entries of row `row` in every bank. -/
def ctxClearRow (s : State) (row : Nat) : State :=
  { s with
    ctx := { s.ctx with
      sets := s.ctx.sets.filter (fun p => ctxRow p.1 != row)
      rowErr := s.ctx.rowErr.filter (fun p => ctxRow p.1 != row) } }

/-- A clear starts on this tick (R180). -/
def ctxStartClear (s : State) (switchOn : Bool) : State :=
  ctxClearRow (setCtxState { s with ctx := { s.ctx with clear := some { from_ := now s, switchOn := switchOn } } } 2) 0

/-- The clear's rows of the latest `d` ticks. -/
def ctxClearTick (s : State) (d : Nat) : State :=
  match s.ctx.clear with
  | some c =>
    let k := now s - c.from_
    forN d s (fun s i => if i < k && k < 4096 + i then ctxClearRow s (k - i) else s)
  | none => s

/-- The clear under way has taken its 4,096 ticks. -/
def ctxClearDone (s : State) : Bool :=
  match s.ctx.clear with | some c => decide (c.from_ + 4096 ≤ now s) | none => false

/-- The store at switch-on (R180): cleared, seed 0 in drawn mode, policy report, no age limit, no sweep. -/
def ctxSwitchOn (s : State) : State :=
  let s1 := { s with ctx := CtxStore.init }
  let s2 := wr64 (wr (wr (wr s1 CTX_STATUS 0) CTX_AGE_LIMIT 0) CTX_SWEEP_STEP 0) CTX_SEED 0
  ctxStartClear s2 true

/-- The store loses its contents at switch-off; requests not granted and results in flight are dropped (R189). -/
def ctxSwitchOff (s : State) : State :=
  let s1 := forEach (engsKnown s) s (fun s e =>
    let c := getEng s e
    let keep := c.resQ.filter (fun r => decide (r.visible ≤ now s + 1))
    let n := c.reqQ.length + (c.resQ.length - keep.length)
    if n = 0 then s
    else ctrAdd (setEng s e { c with reqQ := [], resQ := keep, dropped := true }) (eR e 0xC08) n)
  wr64 (wr (wr (wr { s1 with ctx := CtxStore.init } CTX_STATUS 0) CTX_AGE_LIMIT 0) CTX_SWEEP_STEP 0) CTX_SEED 0

/-- CTX_VALID_COUNT (R199). -/
def ctxValidCount (s : State) : Nat :=
  s.ctx.sets.foldl (fun n p => n + (p.2.filter (fun e => e.valid)).length) 0

/-! ### Dump (R196) -/

/-- The request that reads set `set` for a dump whose record tick is `r`. -/
def dumpReq (s : State) (set : Nat) (r : Int) : CtxReq :=
  { op := opDUMP, key := BitVec.ofNat 64 set, mask := 0, user := 0, imm := 0, stamp := 0, recTick := r, issued := now s }

/-- The records of the valid entries of a set, in ascending way order. -/
def dumpRecs (s : State) (ring : Nat) (ts : Word64) (set : Nat) : State × List Rec :=
  (List.range 4).foldl (fun p w =>
    let e := (ctxSet p.1 set).getD w CtxEntry.empty
    if e.valid then
      let (o, s1) := takeOrd p.1
      (s1, p.2 ++ [{ typ := tyCTX, flags := 0, source := ctxStream, words := ctxWords ts e 0 w set, bad := [],
                     ring := ring, ord := o, firstTs := ts, lastTs := ts }])
    else p) (s, [])

/-- Replace what command `c` waits for. -/
def runWait (s : State) (c : RunCmd) (w : Wait) : State :=
  { s with running := s.running.map (fun x => if x = c then { x with wait := w } else x) }

/-- The dump goes on: the request for the next set, or after the last one its end. -/
def dumpNext (s : State) (c : RunCmd) (ring : Nat) (ts : Word64) (next n : Nat) (r : Int) : State :=
  if next < 262144 then runWait (ctxExtIssue s mHOST (dumpReq s next r)) c (.dump ring ts next n [])
  else completeCmd (wrF s CTX_STATUS 0 4 1) c.m stOK [n]

/-- The rows of a dump's read are formed into its records: the operation of a granted dump request (R196). -/
def dumpForm (s : State) (set : Nat) (r : Int) (limit : Nat) : State :=
  match s.running.find? (fun c => match c.wait with | .dump .. => true | _ => false) with
  | none => s
  | some c =>
    match c.wait with
    | .dump ring ts next n _ =>
      let (s1, rs) := dumpRecs (ctxPurge s set r 1 limit 0) ring ts set
      if rs.isEmpty then dumpNext s1 c ring ts (next + 1) n r
      else runWait s1 c (.dump ring ts (next + 1) (n + rs.length) rs)
    | _ => s

/-- The operation of a grant, as one indivisible step on its row (R187, R191): the row read, the expiry check of an engine's
request, and the result. -/
def ctxPerform (s : State) (f : CtxFlight) : State :=
  let q := f.req
  let s1 := ctxRead s f.set q.recTick
  if q.op = opDUMP then dumpForm s1 f.set q.recTick f.limit
  else
    let s2 := if f.master < 256 then ctxPurge s1 f.set q.recTick 1 f.limit 0 else s1
    let (s3, a) := ctxOperate s2 f.set q
    ctxReturn s3 f.master f.at_ q a

/-- The operations granted three ticks ago act as a tick begins, in grant order (R187, R191; log 16). -/
def ctxFlightTick (s : State) : State :=
  let due := s.ctx.flight.filter (fun f => decide (f.at_ + 3 ≤ now s))
  let rest := s.ctx.flight.filter (fun f => decide (now s < f.at_ + 3))
  forEach due { s with ctx := { s.ctx with flight := rest } } ctxPerform

/-- One tick of a dump under way: a record goes into the ring, or the bank of the next set grants the host path. -/
def dumpTick (s : State) (c : RunCmd) : State :=
  match c.wait with
  | .dump ring ts next n recs =>
    let r : Int := (ts.toNat / 256 : Nat) - (s.lrel : Int)
    match recs with
    | x :: xs =>
      if ringCommitFree s ring && domReady s domRing then
        let s1 := ringOffer s ring x
        if xs.isEmpty then dumpNext s1 c ring ts next n r else runWait s1 c (.dump ring ts next n xs)
      else s
    | [] =>
      match ctxCompetes s mHOST with
      | none => s
      | some q =>
        if q.op = opDUMP && ctxMayGrant s (ctxBank next) mHOST then ctxServe s (ctxBank next) mHOST q next else s
  | _ => s

/-- CTX_DUMP to `ring` starts: the dump tick is this one. -/
def dumpStart (s : State) (m ring : Nat) (held : List Res) : State :=
  let r : Int := (now s : Int) - s.lrel
  holdCmd (ctxExtIssue (wrF s CTX_STATUS 0 4 3) mHOST (dumpReq s 0 r)) m (.dump ring (tsOf (now s)) 0 0 []) held

end Sys2Proof.Machine
end

