-- ==== Sys2Proof/Machine/Microcode.lean ====
section
/-! DEFINITION. The microword (R155 to R164), the vendor library (R171), the loader's checks (R164, R177) and loading (R176). -/

namespace Sys2Proof.Machine

/-- Bits [lo + w - 1 : lo] of a microword. -/
def mF (u : MicroWord) (lo w : Nat) : Nat := (u.toNat / 2 ^ lo) % 2 ^ w

/-! ### Fields (R156) -/

def uNA (u : MicroWord) : Nat := mF u 0 4
def uCOND (u : MicroWord) : Nat := mF u 4 6
def uTARGET (u : MicroWord) : Nat := mF u 10 11
def uSAFE (u : MicroWord) : Bool := u.getLsbD 21
def uACTQ (u : MicroWord) : Nat := mF u 22 2
def uCNT (u : MicroWord) (i : Nat) : Nat := mF u (24 + 3 * i) 3
def uTMR (u : MicroWord) (k : Nat) : Nat := mF u (48 + 2 * k) 2
def uPUBV (u : MicroWord) : Nat := mF u 56 4
def uPUBE (u : MicroWord) : Nat := mF u 60 4
def uSTORE (u : MicroWord) : Nat := mF u 64 2
def uTRIG (u : MicroWord) : Bool := u.getLsbD 66
def uMARK (u : MicroWord) : Bool := u.getLsbD 67
def uMARKID (u : MicroWord) : Nat := mF u 68 8
def uWIN (u : MicroWord) : Nat := mF u 76 2
def uCTXOP (u : MicroWord) : Nat := mF u 78 3
def uCTXKEY (u : MicroWord) : Nat := mF u 81 1
def uCTXDSEL (u : MicroWord) : Nat := mF u 82 3
def uCTXMASK (u : MicroWord) : Nat := mF u 85 3
def uCTXIMM (u : MicroWord) : Nat := mF u 88 16
def uLVLOP (u : MicroWord) : Nat := mF u 104 2
def uLVLVAL (u : MicroWord) : Nat := mF u 106 5
def uEVT (u : MicroWord) : Bool := u.getLsbD 111
def uTIUREQ (u : MicroWord) : Bool := u.getLsbD 112
def uTIUIN (u : MicroWord) : Nat := mF u 113 6
def uSPARE (u : MicroWord) : Nat := mF u 119 73

/-- The action fields are zero (R158, R262). -/
def uNoActions (u : MicroWord) : Bool := mF u 24 95 == 0

/-- Next-address operations (R157). -/
def naINC : Nat := 0
def naJUMP : Nat := 1
def naBRT : Nat := 2
def naBRF : Nat := 3
def naCALL : Nat := 4
def naRET : Nat := 5
def naDISPATCH : Nat := 6
def naWAIT : Nat := 7

/-! ### Building words -/

/-- A word of the vendor library: every one has SAFE set and ACT_Q 0; `acts` are its action fields. -/
def safeWord (na cond target acts : Nat) : MicroWord :=
  BitVec.ofNat 192 (na + cond * 2 ^ 4 + target * 2 ^ 10 + 2 ^ 21 + acts)

/-- The parking word of address `a` (R155). -/
def parking (a : Nat) : MicroWord := safeWord naJUMP 0 a 0

/-- Action fields of a context request. -/
def actCtx (op mask imm : Nat) : Nat := op * 2 ^ 78 + mask * 2 ^ 85 + imm * 2 ^ 88

/-- Action fields: operation `op` on counter `i`, or on timer `k`. -/
def actCnt (i op : Nat) : Nat := op * 2 ^ (24 + 3 * i)
def actTmr (k op : Nat) : Nat := op * 2 ^ (48 + 2 * k)

/-- Word `i` of a self-test block at `b`: condition `cond` is tested, `up` and `down` change its counter or timer and take the
change back, and the condition must stand as it stood before; else the routine goes to its failure exit. -/
def selftestBlock (b cond i : Nat) (up down : MicroWord) : MicroWord :=
  if i = 0 then safeWord naBRT cond (b + 5) 0
  else if i = 1 ∨ i = 5 then up
  else if i = 2 ∨ i = 6 then down
  else if i = 3 then safeWord naBRF cond (b + 9) 0
  else if i = 7 then safeWord naBRT cond (b + 9) 0
  else safeWord naJUMP 0 0x7E8 0

/-- VX_SELFTEST (R171): counters 6 and 7 and timer 3 are put to zero and each is changed and changed back, counter 6 within a
CALL; eight calls in all exercise the return stack. Every path that passes takes 160 words. -/
def selftestWord (a : Nat) : MicroWord :=
  if a = 0x7C0 then safeWord naINC 0 0 (actCnt 6 5 + actCnt 7 5 + actTmr 3 1)
  else if a = 0x7C1 then safeWord naINC 0 0 (actCnt 6 3 + actCnt 7 3 + actTmr 3 2)
  else if 0x7C2 ≤ a ∧ a < 0x7CB then
    selftestBlock 0x7C2 39 (a - 0x7C2) (safeWord naCALL 0 0x7EA 0) (safeWord naINC 0 0 (actCnt 6 2))
  else if 0x7CB ≤ a ∧ a < 0x7D4 then
    selftestBlock 0x7CB 40 (a - 0x7CB) (safeWord naINC 0 0 (actCnt 7 1)) (safeWord naINC 0 0 (actCnt 7 2))
  else if 0x7D4 ≤ a ∧ a < 0x7DD then
    selftestBlock 0x7D4 44 (a - 0x7D4) (safeWord naINC 0 0 (actTmr 3 1)) (safeWord naINC 0 0 (actTmr 3 2))
  else if 0x7DD ≤ a ∧ a < 0x7E4 then safeWord naCALL 0 0x7EC 0
  else if 0x7E4 ≤ a ∧ a < 0x7E7 then safeWord naINC 0 0 0
  else if a = 0x7E7 then safeWord naRET 0 0 (2 ^ 104)
  else if a = 0x7E8 then safeWord naINC 0 0 (actCnt 6 3 + actCnt 7 3 + actTmr 3 1)
  else if a = 0x7E9 then safeWord naRET 0 0 (actTmr 3 2 + 2 ^ 104 + 31 * 2 ^ 106 + 2 ^ 111)
  else if a = 0x7EA then safeWord naINC 0 0 (actCnt 6 1)
  else if a = 0x7EB then safeWord naRET 0 0 0
  else if 0x7EC ≤ a ∧ a ≤ 0x7FD then safeWord naINC 0 0 0
  else if a = 0x7FE then safeWord naRET 0 0 0
  else parking a

/-- The vendor library (R171): words that have the effects and the timing of its table (DESIGN CHOICE, log 20). -/
def vendorWord (a : Nat) : MicroWord :=
  if a = 0x600 then safeWord naWAIT 45 0x601 0
  else if a = 0x601 ∨ a = 0x606 ∨ a = 0x60A ∨ a = 0x60E ∨ a = 0x611 then safeWord naRET 0 0 0
  else if a = 0x604 then safeWord naINC 0 0 (actCtx 5 3 1)
  else if a = 0x605 then safeWord naWAIT 45 0x606 0
  else if a = 0x608 then safeWord naINC 0 0 (actCtx 4 0 0)
  else if a = 0x609 then safeWord naWAIT 45 0x60A 0
  else if a = 0x60C then safeWord naINC 0 0 (actCtx 3 2 0)
  else if a = 0x60D then safeWord naWAIT 45 0x60E 0
  else if a = 0x610 then safeWord naINC 0 0 (2 ^ 67 + 0xFF * 2 ^ 68)
  else selftestWord a

/-- The entry points of R171. -/
def vendorEntry (a : Nat) : Bool := [0x600, 0x604, 0x608, 0x60C, 0x610, 0x7C0].contains a

/-! ### The control store -/

/-- The word at address `a` of an engine's control store. -/
def csWord (c : EngCore) (a : Nat) : MicroWord := tabGet (parking a) c.cs a
def csPut (cs : Tab MicroWord) (a : Nat) (u : MicroWord) : Tab MicroWord := tabSet (parking a) cs a u

/-- Write words from address `a` up. -/
def csPutAll : Tab MicroWord → Nat → List MicroWord → Tab MicroWord
  | cs, _, [] => cs
  | cs, a, u :: us => csPutAll (csPut cs a u) (a + 1) us
termination_by structural _ _ us => us

def vendorLibrary : List MicroWord := (List.range 0x200).map (fun i => vendorWord (0x600 + i))

/-! ### Malformed words (R164) -/

def malformed (a : Nat) (u : MicroWord) : Bool :=
  uSPARE u != 0 || decide (8 ≤ uNA u) || uACTQ u == 3 || (List.range 8).any (fun i => uCNT u i == 7) ||
  uSTORE u == 3 || uWIN u == 3 || decide (6 ≤ uCTXOP u) || decide (6 ≤ uCTXDSEL u) || uLVLOP u == 3 ||
  (uNA u == naDISPATCH && uTARGET u % 32 != 0) ||
  (uLVLVAL u != 0 && uLVLOP u != 1) ||
  (uMARKID u != 0 && !uMARK u) ||
  (uTIUIN u != 0 && !uTIUREQ u) ||
  ((uCTXOP u == 0 || uCTXOP u == 1 || uCTXOP u == 4) && (uCTXDSEL u != 0 || uCTXMASK u != 0 || uCTXIMM u != 0)) ||
  (decide (a < 0x600) && decide (0xF0 ≤ uMARKID u))

/-! ### The path check (R172, R177) -/

/-- Where a path may go from a word at `a`, the words after calls apart. `top`: the first address above the region; PC + 1
beyond it leaves the region. -/
def uNexts (top a : Nat) (u : MicroWord) : List Nat :=
  let up := if a + 1 < top then a + 1 else 0x800
  let na := uNA u
  if na = naINC then [up]
  else if na = naJUMP then [uTARGET u]
  else if na = naBRT ∨ na = naBRF ∨ na = naCALL then [uTARGET u, up]
  else if na = naRET then [up]
  else if na = naDISPATCH then (List.range 32).map (fun j => uTARGET u / 32 * 32 + j)
  else [a, uTARGET u]

/-- A path that reaches the word is at a safe point. -/
def uStops (u : MicroWord) : Bool := uSAFE u || (uNA u == naCALL && vendorEntry (uTARGET u))

/-- The word leaves the customer region other than through an entry point (R177). -/
def uLeaves (p : Nat × MicroWord) : Bool :=
  (uNexts 0x600 p.1 p.2).any (fun t => decide (0x600 ≤ t) && !vendorEntry t)

/-- One more word of path: the addresses (as bits) from which a path can run on from `bad`. -/
def pathGrow (lo top : Nat) (ws : List (Nat × MicroWord)) (bad : Nat) : Nat :=
  let afterCall := ws.any (fun p => uNA p.2 == naCALL && decide (p.1 + 1 < top) && bad.testBit (p.1 + 1))
  ws.foldl (fun acc p =>
    if !uStops p.2 && ((uNexts top p.1 p.2).any (fun t => decide (lo ≤ t) && decide (t < top) && bad.testBit t) ||
        (uNA p.2 == naRET && afterCall)) then acc ||| 2 ^ p.1 else acc) 0

/-- `k` more words. -/
def pathGrowN (lo top : Nat) (ws : List (Nat × MicroWord)) : Nat → Nat → Nat
  | 0, bad => bad
  | k + 1, bad => pathGrowN lo top ws k (pathGrow lo top ws bad)

/-- Words not at a safe point. -/
def openPathBits (ws : List (Nat × MicroWord)) : Nat :=
  ws.foldl (fun acc p => if uStops p.2 then acc else acc ||| 2 ^ p.1) 0

/-- Addresses whose paths reach a word that leaves the region before a safe point, that word's own address included. -/
def leaveBits (ws : List (Nat × MicroWord)) : Nat :=
  let out := ws.foldl (fun acc p => if uLeaves p then acc ||| 2 ^ p.1 else acc) 0
  (List.range 32).foldl (fun acc _ => acc ||| pathGrow 0 0x600 ws acc) out

/-- The lowest starting word of a failing path over the words `ws` of the region [lo, top). -/
def pathFails (lo top : Nat) (ws : List (Nat × MicroWord)) : Option Nat :=
  let bad := pathGrowN lo top ws 32 (openPathBits ws) ||| (if lo = 0 then leaveBits ws else 0)
  (ws.map Prod.fst).find? (fun a => bad.testBit a)

/-- The words of a region after a load. -/
def regionWords (cs : Tab MicroWord) (lo n : Nat) : List (Nat × MicroWord) :=
  (List.range n).map (fun i => (lo + i, tabGet (parking (lo + i)) cs (lo + i)))

/-! ### Loading (R176) -/

/-- The control store as a load leaves it: the vendor library first on an engine's first load. -/
def csLoaded (c : EngCore) (at_ : Nat) (ws : List MicroWord) : Tab MicroWord :=
  csPutAll (if c.loaded then c.cs else csPutAll c.cs 0x600 vendorLibrary) at_ ws

/-- The first check that fails for an engine: address and reason (R176). -/
def loadCheck (c : EngCore) (at_ : Nat) (image : List (BitVec 256)) : Option (Nat × Nat) :=
  let ws := image.map (fun b => b.extractLsb' 0 192)
  let numbered := (List.range image.length).zip image
  match numbered.find? (fun p => p.2.extractLsb' 192 64 != 0) with
  | some p => some (at_ + p.1, 3)
  | none =>
    match ((List.range ws.length).zip ws).find? (fun p => malformed (at_ + p.1) p.2) with
    | some p => some (at_ + p.1, 2)
    | none =>
      let cs := csLoaded c at_ ws
      let cust := if at_ < 0x600 then pathFails 0 0x600 (regionWords cs 0 0x600) else none
      let vend := if 0x600 < at_ + ws.length then pathFails 0x600 0x800 (regionWords cs 0x600 0x200) else none
      match cust with
      | some a => some (a, 1)
      | none => vend.map (fun a => (a, 1))

/-- Write an image that passed into engine `e`, which enters STOPPED; a follower shows FOLLOWER. -/
def loadEngine (s : State) (at_ : Nat) (image : List (BitVec 256)) (e : Nat) : State :=
  let ws := image.map (fun b => b.extractLsb' 0 192)
  let err (c : EngCore) : Tab Nat :=
    c.csErr.filter (fun p => !(decide (at_ ≤ p.1) && decide (p.1 < at_ + ws.length)) && (c.loaded || decide (p.1 < 0x600)))
  let s1 := modEng s e (fun c => { c with cs := csLoaded c at_ ws, csErr := err c, loaded := true })
  if (getEng s1 e).lead != e && !engReplay s1 e then setRun s1 e runFOLLOWER else engEnter s1 e runSTOPPED

end Sys2Proof.Machine
end

