-- ==== Sys2Proof/Machine/Resources.lean ====
section
/-! DEFINITION. What an engine's resources find in a slice (R128 to R136, R139): recognisers, edge detectors, clock qualifier,
bus word, range comparators; Junction inputs and matchers (R141 to R143); key extractors. -/

namespace Sys2Proof.Machine

/-! ### Sample images (R79, R131) -/

/-- Image width of a format: 1 D16, 2 V8, 3 A2; 0 where the lane is OFF. -/
def imgWidth (fmt : Nat) : Nat := if fmt = 1 then 16 else if fmt = 2 then 8 else if fmt = 3 then 32 else 0

/-- Samples per tick. -/
def imgCount (fmt : Nat) : Nat := if fmt = 1 then 2 else if fmt = 2 then 4 else if fmt = 3 then 1 else 0

def slcImages (fmt : Nat) (p : Word) : List Nat :=
  (List.range (imgCount fmt)).map (fun j => fld p (j * imgWidth fmt) (imgWidth fmt))

/-- A slice of each consist member, with the member's format. A slice with VALID 0 is evaluated as all zero. -/
structure MemberSlice where
  fmt     : Nat
  payload : Word
  valid   : Bool
deriving DecidableEq, Repr

def MemberSlice.sample (m : MemberSlice) : LaneSample :=
  { images := slcImages m.fmt (if m.valid then m.payload else 0), valid := m.valid }

/-! ### Clock qualifier (R135, R136) -/

/-- What the qualifier found: the accepted edge's sample index, ignored edges, samples since the last accepted edge, and the
valid samples before the one at hand back to the last gap. -/
structure QclkRes where
  at_  : Option Nat
  nover : Nat
  since : Option Nat
  avail : Nat
deriving DecidableEq, Repr

/-- Samples of member `k` back to the last slice with VALID 0 (R135). -/
def availOf (recent : List (List LaneSample)) (k : Nat) : Nat :=
  ((recent.map (fun r => r.getD k { images := [], valid := false })).takeWhile (fun l => l.valid)).foldl
    (fun n l => n + l.images.length) 0

/-- One sample: previous level, level, index in the slice. -/
def qclkStep (edge off : Nat) (r : QclkRes × Option Bool) (jl : Nat × Bool) : QclkRes × Option Bool :=
  let (q, prev) := r
  let lv := jl.2
  let isEdge := match prev with
    | some p => p != lv && (edge == 2 || (lv == (edge == 0)))
    | none => false
  let since := q.since.map (fun n => min 4 (n + 1))
  let base : QclkRes := { q with since := since, avail := q.avail + 1 }
  if isEdge && decide (off ≤ q.avail) then
    if since.any (fun n => decide (n < 4)) then ({ base with nover := q.nover + 1 }, some lv)
    else ({ base with at_ := some jl.1, since := some 0 }, some lv)
  else (base, some lv)

def bitsOf (ch : Nat) (images : List Nat) : List (Nat × Bool) :=
  (List.range images.length).zip (images.map (fun i => i.testBit ch))

/-- The last sample of the slice before, where that slice was valid. -/
def lastLevel (recent : List (List LaneSample)) (k ch : Nat) : Option Bool :=
  match recent with
  | [] => none
  | r :: _ =>
    match r[k]? with
    | some l => if l.valid then l.images.getLast?.map (fun i => i.testBit ch) else none
    | none => none

/-- The clock qualifier on the members' slices `ms`, after the slices of `recent`. -/
def qclkRun (cfg : Word) (ms : List MemberSlice) (recent : List (List LaneSample)) (since : Option Nat) : QclkRes :=
  let idle : QclkRes := { at_ := none, nover := 0, since := none, avail := 0 }
  let k := fld cfg 8 4
  let off := fld cfg 16 4
  let edge := fld cfg 12 2
  match ms[k]? with
  | some m =>
    if bitAt cfg 0 && edge != 3 && decide (off ≤ 8) && (m.fmt == 1 || m.fmt == 2) then
      if m.valid then
        ((bitsOf (fld cfg 1 4) m.sample.images).foldl (qclkStep edge off)
          ({ idle with since := since, avail := availOf recent k }, lastLevel recent k (fld cfg 1 4))).1
      else
        { idle with since := since.map (fun n => min 4 (n + imgCount m.fmt)) }
    else idle
  | none => idle

/-- Sample `s - off` of member `k`, counted from the slice's sample `j`. -/
def stateSample (recent : List (List LaneSample)) (k : Nat) (cur : LaneSample) (j off : Nat) : Nat :=
  let n := cur.images.length
  if off ≤ j then cur.images.getD (j - off) 0
  else
    let back := off - j - 1
    match recent[back / max 1 n]? with
    | some r => ((r.getD k { images := [], valid := false }).images.reverse).getD (back % max 1 n) 0
    | none => 0

/-! ### Word recognisers (R131) -/

/-- Every masked channel of the image equals VALUE. -/
def imgEq (w : Nat) (val mask : Word) (i : Nat) : Bool :=
  let m := mask.toNat % 2 ^ w
  (i &&& m) == (val.toNat &&& m)

/-- Every masked channel equals VALUE in at least one image. -/
def imgAny (w : Nat) (val mask : Word) (l : List Nat) : Bool :=
  (List.range w).all (fun b => !bitAt mask b || l.any (fun i => i.testBit b == bitAt val b))

/-- The images a recogniser with configuration `cfg` looks at. -/
def recImages (cfg : Word) (cur : LaneSample) (st : Option Nat) : List Nat :=
  if bitAt cfg 2 then (match st with | some i => [i] | none => []) else cur.images

/-- The per-image results of EXISTS. -/
def recExists (w : Nat) (val mask cfg : Word) (cur : LaneSample) (st : Option Nat) : List Bool :=
  (recImages cfg cur st).map (imgEq w val mask)

/-- One member's own result. -/
def recOwn (w : Nat) (val mask cfg : Word) (cur : LaneSample) (st : Option Nat) : Bool :=
  let l := recImages cfg cur st
  if l.isEmpty then false
  else if fld cfg 0 2 = 0 then (recExists w val mask cfg cur st).any id
  else if fld cfg 0 2 = 1 then imgAny w val mask l
  else if fld cfg 0 2 = 2 then l.all (imgEq w val mask)
  else false

/-- Recogniser `i` of lead `e` over its members: slices, and state samples where the qualifier took an edge. -/
def recognise (s : State) (e i : Nat) (mem : List (Nat × MemberSlice × Option Nat)) : Bool :=
  let vo (n : Nat) : Nat := eR n (0x200 + 0x10 * i)
  let cfg := rd s (vo e + 8)
  let sel := if mem.length ≤ 1 then mem
    else mem.filter (fun p => bitAt cfg (16 + (p.1 - e)))
  let or_ := decide (1 < mem.length) && bitAt cfg 4
  let own (p : Nat × MemberSlice × Option Nat) : Bool :=
    recOwn (imgWidth p.2.1.fmt) (rd s (vo p.1)) (rd s (vo p.1 + 4)) (rd s (vo p.1 + 8)) p.2.1.sample p.2.2
  let exi (p : Nat × MemberSlice × Option Nat) : List Bool :=
    recExists (imgWidth p.2.1.fmt) (rd s (vo p.1)) (rd s (vo p.1 + 4)) (rd s (vo p.1 + 8)) p.2.1.sample p.2.2
  let raw :=
    if sel.isEmpty then !or_
    else if or_ then sel.any own
    else if fld cfg 0 2 = 0 then
      let n := (sel.map (fun p => (exi p).length)).foldl max 0
      (List.range n).any (fun j => sel.all (fun p => if fld (rd s (vo p.1 + 8)) 0 2 = 0 then (exi p).getD j false else own p))
    else sel.all own
  raw != bitAt cfg 3

/-! ### Edge detectors (R132) -/

/-- What a detector found: fired, edges that failed to qualify, the edge under qualification, and the level. -/
structure EdgeRes where
  fired  : Bool
  glitch : Nat
  pend   : Option (Bool × Nat)
  level  : Option Bool
deriving DecidableEq, Repr

def edgeStep (edge w : Nat) (r : EdgeRes) (lv : Bool) : EdgeRes :=
  let start (r : EdgeRes) : EdgeRes :=
    if edge == 2 || lv == (edge == 0) then
      if w ≤ 1 then { r with fired := true, pend := none, level := some lv }
      else { r with pend := some (lv, 1), level := some lv }
    else { r with pend := none, level := some lv }
  match r.level with
  | none => { r with level := some lv }
  | some p =>
    if p == lv then
      match r.pend with
      | some (l, n) =>
        if w ≤ n + 1 then { r with fired := true, pend := none } else { r with pend := some (l, n + 1) }
      | none => r
    else
      match r.pend with
      | some _ => start { r with glitch := r.glitch + 1 }
      | none => start r

/-- A detector that found nothing and keeps no history. -/
def edgeNone : EdgeRes := { fired := false, glitch := 0, pend := none, level := none }

/-- A detector with configuration `cfg` on the slice `m`, after the level `prev`. -/
def edgeRun (cfg : Word) (m : MemberSlice) (prev : Option Bool) (pend : Option (Bool × Nat)) : EdgeRes :=
  if fld cfg 4 2 = 3 || !(m.fmt == 1 || m.fmt == 2) || !m.valid then edgeNone
  else
    m.sample.images.foldl (fun r i => edgeStep (fld cfg 4 2) (max 1 (fld cfg 16 8)) r (i.testBit (fld cfg 0 4)))
      { edgeNone with pend := pend, level := prev }

/-- The edge under qualification in detector `i` of engine `e`. -/
def edgePend (s : State) (e i : Nat) : Option (Bool × Nat) := tabGet none ((getEng s e).edges.map (fun p => (p.1, some p.2))) i

/-- The detectors of member `k` of lead `e`, engine `e + k`, on its own lane with its own registers (R140). A detector of the
lead that selects another member leaves the lead's lane alone. -/
def memberEdges (s : State) (e k : Nat) (m : MemberSlice) (recent : List (List LaneSample)) : List EdgeRes :=
  (List.range 8).map (fun i =>
    let cfg := rd s (eR (e + k) (0x300 + 8 * i))
    if k = 0 && fld cfg 24 4 != 0 then edgeNone
    else edgeRun cfg m (lastLevel recent k (fld cfg 0 4)) (edgePend s (e + k) i))

/-- ED_i of lead `e`: the detector `i` of the member that the lead's own detector selects (R132, R140; log 19). -/
def edgeFired (s : State) (e i : Nat) (l : List (List EdgeRes)) : Bool :=
  match l[rdF s (eR e (0x300 + 8 * i)) 24 4]? with
  | some r => (r.getD i edgeNone).fired
  | none => false

/-! ### Bus word and range comparators (R133, R134) -/

/-- Concatenate images, member 0 least significant, cut at 64 bits. -/
def busConcat : List (Nat × Nat) → Nat → Nat
  | [], _ => 0
  | (w, i) :: r, sh => i * 2 ^ sh + busConcat r (sh + w)

def busWordOf (cfg : Word) (ms : List MemberSlice) : Word64 :=
  BitVec.ofNat 64 (busConcat (ms.map (fun m =>
    (imgWidth m.fmt, m.sample.images.getD (fld cfg 1 2 % max 1 m.sample.images.length) 0))) 0)

/-- A value of `w` bits as two's complement. -/
def signedOf (w n : Nat) : Int := if n < 2 ^ (w - 1) then n else (n : Int) - (2 ^ w : Nat)

def rangeHolds (s : State) (e i : Nat) (bus : Word64) : Bool :=
  let o := eR e (0x400 + 0x20 * i)
  let cfg := rd s (o + 0x10)
  let w := fld cfg 8 6 + 1
  let f := fld64 bus (fld cfg 16 6) w
  let lo := rd64 s o
  let hi := rd64 s (o + 8)
  let sg := bitAt cfg 2
  let le (a b : Nat) (wa wb : Nat) : Bool :=
    if sg then decide (signedOf wa a ≤ signedOf wb b) else decide (a ≤ b)
  let ge_lo := le lo f 64 w
  let le_hi := le f hi w 64
  match fld cfg 0 2 with
  | 0 => ge_lo && le_hi
  | 1 => !ge_lo || !le_hi
  | 2 => ge_lo && le f lo w 64
  | _ => false

/-! ### One slice (R128) -/

/-- What the resources of `e` found, with the history after it and the events it counts. -/
structure EvalRes where
  ev     : Eval
  /-- The detectors of each member. -/
  edges  : List (List EdgeRes)
  qclk   : QclkRes
  bus    : Word64
  recent : List (List LaneSample)
deriving DecidableEq, Repr

/-- Evaluate the slices `ms` of engine `e` and its consist. `tick` is the slice's tick on the engine's clock. -/
def evalSlices (s : State) (e : Nat) (tick : Tick) (recTick : Int) (ms : List MemberSlice) (last : Bool) : EvalRes :=
  let c := getEng s e
  let cfg := rd s (eR e 0x44)
  let q := qclkRun cfg ms c.recent c.qclkSince
  let samples := ms.map MemberSlice.sample
  let sts : List (Option Nat) := match q.at_ with
    | some j => ((List.range ms.length).zip samples).map (fun p => some (stateSample c.recent p.1 p.2 j (fld cfg 16 4)))
    | none => samples.map (fun _ => none)
  let mem : List (Nat × MemberSlice × Option Nat) := ((List.range ms.length).map (fun k => e + k)).zip (ms.zip sts)
  let wr := (List.range 16).foldl (fun v i => v + b2n (recognise s e i mem) * 2 ^ i) 0
  let eds := ((List.range ms.length).zip ms).map (fun p => memberEdges s e p.1 p.2 c.recent)
  let ed := (List.range 8).foldl (fun v i => v + b2n (edgeFired s e i eds) * 2 ^ i) 0
  let bcfg := rd s (eR e 0x40)
  let hold := match q.at_ with
    | some _ => BitVec.ofNat 64 (busConcat ((ms.zip sts).map (fun p => (imgWidth p.1.fmt, p.2.getD 0))) 0)
    | none => c.busHold
  let bus := if bitAt bcfg 0 then hold else busWordOf bcfg ms
  let rcOn := !bitAt bcfg 0 || q.at_.isSome
  let rc := (List.range 8).foldl (fun v i => v + b2n (rcOn && rangeHolds s e i bus) * 2 ^ i) 0
  let own := ms.headD { fmt := 0, payload := 0, valid := false }
  { ev := { tick := tick, recTick := recTick, payload := if own.valid then own.payload else 0, valid := own.valid,
            cvalid := ms.all (fun m => m.valid), wr := BitVec.ofNat 16 wr, ed := BitVec.ofNat 8 ed,
            rc := BitVec.ofNat 8 rc, qclk := q.at_.isSome, bus := bus, last := last }
    edges := eds
    qclk := q
    bus := hold
    recent := samples :: c.recent.take 8 }

/-- Keep the edges under qualification of engine `e`, and count those that failed to qualify, by detector (R132). -/
def keepEdges (s : State) (e : Nat) (l : List EdgeRes) : State :=
  let s1 := modEng s e (fun c =>
    { c with edges := ((List.range 8).zip l).filterMap (fun p => p.2.pend.map (fun x => (p.1, x))) })
  forEach ((List.range 8).zip l) s1 (fun s p => if p.2.glitch = 0 then s else ctrAdd s (eR e (0x304 + 8 * p.1)) p.2.glitch)

/-- The resources of engine `e` evaluate the slices of a tick: the result waits for the word that treats them. -/
def evalEngine (s : State) (e : Nat) (tick : Tick) (recTick : Int) (ms : List MemberSlice) (last : Bool) : State :=
  let r := evalSlices s e tick recTick ms last
  let s1 := modEng s e (fun c =>
    { c with
      evals := r.ev :: c.evals.take 7
      qclkSince := r.qclk.since
      busHold := r.bus
      recent := r.recent })
  let s2 := forEach ((List.range ms.length).zip r.edges) s1 (fun s p => keepEdges s (e + p.1) p.2)
  if r.qclk.nover = 0 then s2 else engEvent (ctrAdd s2 (eR e 0x28) r.qclk.nover) e 8

/-- The result a word of clock tick `x - L_e` sees; a tick before the kept ones reads as VALID 0 (R131). -/
def evalAt (s : State) (e : Nat) (tick : Int) (ms : List MemberSlice) : Eval :=
  match (getEng s e).evals.find? (fun v => decide ((v.tick : Int) = tick)) with
  | some v => v
  | none => (evalSlices s e tick.toNat (tick - s.lrel) (ms.map (fun m => { m with valid := false })) false).ev

/-! ### Junction (R141, R143) -/

/-- Engine `n`'s published bits as its job or the live engines see them on clock tick `x`: published two ticks before. -/
def pubSeen (c : EngCore) (x : Nat) : Nat :=
  match c.pub.find? (fun p => decide (p.1 + 2 ≤ x)) with
  | some p => p.2.toNat
  | none => 0

/-- Source `code` at a Junction input of engine `e` on clock tick `x` (R143); in replay only engines of the same job
(R254). -/
def junctionBit (s : State) (e code x : Nat) : Bool :=
  if code < 1024 then
    let n := code / 4
    let visible := if engReplay s e then engReplay s n && (getEng s n).job == (getEng s e).job else !engReplay s n
    visible && (pubSeen (getEng s n) x).testBit (code % 4)
  else if code < 1088 then !engReplay s e && s.glb.visPrev.getLsbD (code - 1024)
  else false

/-- J[31:0] as the word of clock tick `x` uses it: the inputs visible on tick `x - 1` (R129), chosen by the selectors as that
tick's evaluation found them (R127). -/
def junction (s : State) (e x : Nat) : Word :=
  BitVec.ofNat 32 ((List.range 32).foldl (fun v m =>
    v + b2n (junctionBit s e (fld (rdEval s (eR e (0x100 + 4 * m))) 0 11) (x - 1)) * 2 ^ m) 0)

def junctionMatch (s : State) (e k : Nat) (j : Word) : Bool :=
  let o := eR e (0x180 + 0x10 * k)
  let v := rdEval s o
  let m := rdEval s (o + 4)
  let cfg := rdEval s (o + 8)
  let hit := if bitAt cfg 0 then (~~~(j ^^^ v) &&& m) != 0 else ((j ^^^ v) &&& m) == 0
  hit != bitAt cfg 1

/-! ### Key extractors (R139) -/

/-- Byte `b` of a number. -/
def byteN (n b : Nat) : Nat := (n / 256 ^ b) % 256

/-- Counter, timer and LEVEL values after all updates of the tick before (R129, R162). -/
def cntBefore (s : State) (e i : Nat) : Nat := rd64Before s (cntR e i) % 2 ^ 48
def tmrBefore (s : State) (e k : Nat) : Nat :=
  let o := tmrR e k
  let old : Nat := match (getEng s e).tmrOld.find? (fun p => p.1 == k) with
    | some (_, _, v) => v
    | none => rd64 s o
  ((tabGet (BitVec.ofNat 32 old) s.cycHost o).toNat +
    2 ^ 32 * (tabGet (BitVec.ofNat 32 (old / 2 ^ 32)) s.cycHost (o + 4)).toNat) % 2 ^ 48
def levelBefore (s : State) (e : Nat) : Nat := fld (rdBefore s (eR e 4)) 0 5

def keyByte (s : State) (e x b sel konst : Nat) (v : Eval) : Nat :=
  if sel < 8 then byteN v.bus.toNat sel
  else if sel < 0xC then byteN v.payload.toNat (sel - 8)
  else if 0x10 ≤ sel ∧ sel ≤ 0x15 then byteN (cntBefore s e 0) (sel - 0x10)
  else if 0x18 ≤ sel ∧ sel ≤ 0x1D then byteN (cntBefore s e 1) (sel - 0x18)
  else if sel = 0x20 then e
  else if sel = 0x21 then levelBefore s e
  else if 0x22 ≤ sel ∧ sel ≤ 0x25 then byteN (junction s e x).toNat (sel - 0x22)
  else if sel = 0x30 then byteN konst b
  else 0

/-- The key of extractor `j` of engine `e` for the slice that the word of clock tick `x` treats. -/
def keyOf (s : State) (e x j : Nat) (v : Eval) : Word64 :=
  let o := eR e (0x700 + 0x20 * j)
  let sel := rd64Eval s o
  let konst := rd64Eval s (o + 0x10)
  let raw := (List.range 8).foldl (fun k b => k + keyByte s e x b (byteN sel b) konst v * 256 ^ b) 0
  BitVec.ofNat 64 raw &&& BitVec.ofNat 64 (rd64Eval s (o + 8))

end Sys2Proof.Machine
end

