-- ==== Sys2Proof/Machine/Engines.lean ====
section
/-! DEFINITION. The sequencer engines: conditions, one microword, notices, engine reset and timers (R126 to R149, R155 to
R174, R254, R255, R375). Within a tick the host's writes come before the engines' words (log 21). -/

namespace Sys2Proof.Machine

/-! ### Conditions (R130) -/

/-- A result is waiting on this tick (R187). -/
def ctxWaiting (s : State) (e : Nat) : Bool :=
  match (getEng s e).resQ with | r :: _ => decide (r.visible ≤ now s) | [] => false

def cntHolds (s : State) (e i : Nat) : Bool :=
  let v := cntBefore s e i
  let t := rd64Before s (cntR e i + 0x10) % 2 ^ 48
  if bitAt (rdBefore s (cntR e i + 0x18)) 8 then v == t else decide (t ≤ v)

/-- The job of a replay engine. -/
def engJob (s : State) (e : Nat) : Job := match (getEng s e).job with | some j => getJob s j | none => Job.free

/-- Value of condition source `k` for the word of this tick: `v` the treated slice, `j` the Junction inputs. -/
def condVal (s : State) (e : Nat) (v : Eval) (j : Word) (k : Nat) : Bool :=
  let c := getEng s e
  let rep := engReplay s e
  if k = 0 then true
  else if k ≤ 16 then v.wr.getLsbD (k - 1)
  else if k ≤ 24 then v.ed.getLsbD (k - 17)
  else if k ≤ 32 then v.rc.getLsbD (k - 25)
  else if k ≤ 40 then cntHolds s e (k - 33)
  else if k ≤ 44 then tmrBefore s e (k - 41) == tmrLimit s e (k - 41)
  else if k = 45 then ctxWaiting s e
  else if k = 46 then (match c.lastRes with | some r => r.hit | none => false)
  else if k = 47 then (match c.lastRes with | some r => r.full | none => false)
  else if k = 48 then c.dropped
  else if k = 49 then v.valid
  else if k = 50 then v.qclk
  else if k = 51 then v.cvalid
  else if k ≤ 59 then junctionMatch s e (k - 52) j
  else if k = 60 then rep || s.capture.prevState == capARMED
  else if k = 61 then
    if rep then (match (engJob s e).trigAt with | some t => decide (t < engClock s e) | none => false) else capTrigSeen s
  else if k = 62 then rep && v.last
  else bitAt (rdBefore s (eR e 0x18)) 0

/-! ### Counters and timers (R137, R138, R159, R166) -/

def sat48 : Nat := 2 ^ 48 - 1

/-- One tick of counter `i`: the word's operation `op` (0 none) and auto-count. A host write of the tick discards a clear, a
load and a decrement, and the increments are added to it (R45, R166). -/
def cntStep (s : State) (e i op : Nat) (auto : Bool) : State :=
  let o := cntR e i
  let v := cntVal s e i
  let inc := b2n auto + (if op = 1 then 1 else 0)
  if op = 0 && !auto then s
  else if hostWrote48 s o then wr48 s o (min sat48 (v + inc))
  else
    let base := if op = 2 then v - 1 else if op = 3 then 0 else if op = 4 then rd64Before s (o + 8) % 2 ^ 48 else v
    let s1 := modEng (wr48 s o (min sat48 (base + inc))) e (fun c => { c with cntOld := tabPut c.cntOld i v })
    { s1 with cycInc := tabSet 0 s1.cycInc o (tabGet 0 s1.cycInc o + inc) }

/-- What timer `k` kept for this tick, where its count has been replaced or done. -/
def tmrKept (s : State) (e k : Nat) : Option (Bool × Nat) := ((getEng s e).tmrOld.find? (fun p => p.1 == k)).map Prod.snd

/-- Timer `k` as it stood before the operation or the count of this tick. -/
def tmrRestore (s : State) (e k : Nat) : State :=
  match tmrKept s e k with
  | some (was, v) => wrBit (wr48 s (tmrR e k) v) (tmrR e k + 0x10) 1 was
  | none => s

/-- A word's operation on timer `k`; the count of its tick is replaced (R138). -/
def tmrStep (s : State) (e k op : Nat) : State :=
  let o := tmrR e k
  if op = 0 || hostWrote48 s o then s
  else
    let s0 := tmrRestore s e k
    let s1 := modEng s0 e (fun c => { c with tmrOld := tabPut c.tmrOld k (tmrRunning s0 e k, tmrVal s0 e k) })
    if op = 1 then wrBit (wr48 s1 o 0) (o + 0x10) 1 true
    else wrBit s1 (o + 0x10) 1 (op == 3)

/-- The value of a running timer after the count of one tick, and whether it runs on (R138): at LIMIT one with AUTO_RESTART
goes to 0, unless the host loaded it on this tick (`host`); one without stops on reaching LIMIT. -/
def tmrNext (v lim : Nat) (auto host : Bool) : Nat × Bool :=
  if auto && !host && v == lim then (0, true)
  else ((v + 1) % 2 ^ 48, auto || (v + 1) % 2 ^ 48 != lim)

/-- The count of one tick of timer `k`. -/
def tmrCount (s : State) (e k : Nat) : State :=
  let o := tmrR e k
  if tmrRunning s e k && (tmrKept s e k).isNone then
    let r := tmrNext (tmrVal s e k) (tmrLimit s e k) (tmrAuto s e k) (hostWrote48 s o)
    wrBit (wr48 s o r.1) (o + 0x10) 1 r.2
  else s

/-- Every running timer of the engine counts. -/
def tmrTick (s : State) (e : Nat) : State := forN 4 s (fun s k => tmrCount s e k)

/-- The timers of the engine count on this tick: a replay engine's count fed ticks (R138, R254). -/
def engCounts (s : State) (e : Nat) : Bool :=
  match (getEng s e).job with
  | some j => (getJob s j).lastFed == some (now s) && (getJob s j).drain == 0
  | none => !engReplay s e

/-- TIMER_LIMIT: timer `k` of engine `e` reaches its limit on this tick, or goes on from it (R138): its count of the tick comes
now. A word's operation of the tick replaces it. -/
def timerLimit (s : State) (e k : Nat) : State :=
  let v := tmrVal s e k
  let l := tmrLimit s e k
  if tmrRunning s e k && (tmrKept s e k).isNone && engCounts s e && (v + 1 == l || (tmrAuto s e k && v == l)) then
    modEng (tmrCount s e k) e (fun c => { c with tmrOld := tabPut c.tmrOld k (true, v) })
  else s

/-- Auto-count of counter `i` on this tick. -/
def autoOn (s : State) (e i : Nat) (held : BitVec 8) (cond : Nat → Bool) : Bool :=
  let cfg := rdBefore s (cntR e i + 0x18)
  bitAt cfg 7 && !held.getLsbD i && cond (fld cfg 0 6)

/-! ### Notices (R147, R173) -/

/-- ENG_NOTICE bits [4:0] as they read: SNAPSHOT, STOP, FORCE_LEVEL, RESUME (always 0), PAUSE. -/
def noticeBits (s : State) (e : Nat) : Nat :=
  let n := (getEng s e).notices
  16 * b2n n.snap.isSome + 8 * b2n n.stop.isSome + 4 * b2n n.level.isSome + b2n n.pause.isSome

/-- Load the ENG_SNAP registers (R148): the state after the word, its timers with the count of the word's tick (R173). A paused
engine's snapshot is the state its tick finds (log 49). -/
def snapLoad (s : State) (e : Nat) (paused : Bool) : State :=
  let after := if paused || !engCounts s e then s else tmrTick s e
  let s1 := wr64 s (eR e 0x800) (now s)
  let s2 := wr s1 (eR e 0x808)
    (BitVec.ofNat 32 (engPublish s e * 2 ^ 24 + engLevel s e * 2 ^ 16 + rdF s (eR e 0) 21 11))
  let s3 := forN 8 s2 (fun s i => wr64 s (eR e (0x810 + 8 * i)) (cntVal s e i))
  forN 4 s3 (fun s k => wr64 s (eR e (0x850 + 8 * k)) (tmrVal after e k))

/-- The device takes a notice: its bit clears, unless the host set it again on this tick, and NOTICE is set. -/
def noticeTake (s : State) (e : Nat) (bitNo : Nat) (clr : Notices → Option Tick → Notices) : State :=
  let s1 := modEng s e (fun c =>
    { c with notices := clr c.notices (if c.notices.again.getLsbD bitNo then some (now s) else none) })
  engEvent s1 e 4

/-- STOP acts: the engine is STOPPED; a replay engine ends its job (R255). -/
def noticeStop (s : State) (e : Nat) : State :=
  match (getEng s e).job with
  | some j => modJob s j (fun b => { b with endReq := if b.endReq = 4 then 4 else 3 })
  | none => engEnter s e runSTOPPED

/-- Apply the notices accepted before tick `x`, in the order of R147. `paused`: the engine is paused already, and a
PAUSE notice is cleared without effect. -/
def noticesApply (s : State) (e : Nat) (x : Nat) (paused : Bool) : State :=
  let due (o : Option Tick) : Bool := match o with | some t => decide (t < x) | none => false
  let n := (getEng s e).notices
  let s1 := if due n.snap then noticeTake (snapLoad s e paused) e 4 (fun n v => { n with snap := v }) else s
  let s2 := if due n.level then
      noticeTake (engSetLevel s1 e (rdF s1 (eR e 8) 8 5)) e 2 (fun n v => { n with level := v }) else s1
  let s3 := if due n.pause then
      if paused then modEng s2 e (fun c => { c with notices := { c.notices with pause := none } })
      else if due n.stop then s2
      else noticeTake (setRun s2 e runPAUSED) e 0 (fun n v => { n with pause := v })
    else s2
  if due n.stop then noticeStop (noticeTake s3 e 3 (fun n v => { n with stop := v })) e else s3

/-- Some notice is pending. -/
def noticePending (s : State) (e : Nat) : Bool :=
  let n := (getEng s e).notices
  n.snap.isSome || n.level.isSome || n.stop.isSome || n.pause.isSome

/-- The host sets notice bits (R147): `m` bits 4 to 0. RESUME acts on the write itself. -/
def noticeWrite (s : State) (e : Nat) (m : Nat) : State :=
  let x := now s
  let set (o : Option Tick) (i : Nat) : Option Tick := if m.testBit i then o.or (some x) else o
  let s1 := modEng s e (fun c =>
    let n := c.notices
    let had (o : Option Tick) (i : Nat) : Nat := if m.testBit i && o.isSome then 2 ^ i else 0
    { c with
      notices := { snap := set n.snap 4, stop := set n.stop 3, level := set n.level 2, pause := set n.pause 0,
                   again := n.again ||| BitVec.ofNat 5 (had n.snap 4 + had n.stop 3 + had n.level 2 + had n.pause 0) } })
  if m.testBit 1 then
    if engRun s1 e = runPAUSED then
      let s2 := modEng s1 e (fun c => { c with lastExec := some (now s), resumedAt := some (now s), notices := { c.notices with pause := none } })
      engEvent (setRun s2 e (if (getEng s2 e).job.isSome then runREPLAY else runRUNNING)) e 4
    else if (getEng s e).notices.pause.isSome then
      engEvent (modEng s1 e (fun c => { c with notices := { c.notices with pause := none } })) e 4
    else s1
  else s1

/-- Notices of an engine whose program does not run are cleared without effect; a paused engine takes them (R173). Done as
a new tick begins. -/
def noticesTick (s : State) (e : Nat) : State :=
  let run := engRun s e
  let s1 :=
    if run = runPAUSED then noticesApply s e (now s) true
    else if noticePending s e && (run = runSTOPPED || run = runFOLLOWER || run = runFAULT) then engClearNotices s e
    else s
  let s2 := modEng s1 e (fun c => { c with notices := { c.notices with again := 0 } })
  wrBit s2 (eR e 0) 8 (noticePending s2 e)

/-! ### Store and record actions (R161) -/

/-- Change the slice of tick `t` in lane `n`'s history; `create` adds a slice that is not LIVE where none has come. -/
def sliceMod (s : State) (n : Nat) (t : Tick) (create : Bool) (f : Slice → Slice) : State :=
  let l := getLane s n
  if l.hist.any (fun x => x.tick == t) then
    setLane s n { l with hist := l.hist.map (fun x => if x.tick = t then f x else x) }
  else if create then
    setLane s n { l with
      hist := f { tick := t, payload := 0, valid := false, live := false, bad := none, qual := none, marks := [] } :: l.hist }
  else s

/-- The counters of the engine, for a MARK record with MARK_ID 0xFF (R219). -/
def markCounters (s : State) (e : Nat) : List (BitVec 48) := (List.range 8).map (fun i => BitVec.ofNat 48 (cntBefore s e i))

/-- A MARK record of replay engine `e` (R254, R219), from the state `s0` before the word. -/
def replayMark (s0 s : State) (e pc id : Nat) (recTick : Int) (trig : Bool) : State :=
  match (getEng s e).job with
  | none => s
  | some j =>
    let w1 := 2 ^ 63 + b2n trig * 2 ^ 62 + j * 2 ^ 48 + pc * 2 ^ 32 + levelBefore s0 e * 2 ^ 16 + e * 2 ^ 8 + id
    let ts := sliceTs s e recTick
    let words := ts :: BitVec.ofNat 64 w1 ::
      (if id = 0xFF then (markCounters s0 e).map (fun c => BitVec.ofNat 64 c.toNat) else [])
    let s1 := stageNew s (0x100 + e) (getJob s j).result tyMARK 0 words ts ts
    modJob s1 j (fun b => { b with marks := b.marks + 1 })

/-- The word's store, window, record and trigger actions on the slice it treats; `s0` is the state before the word. -/
def recordActions (s0 s : State) (e pc : Nat) (u : MicroWord) (v : Eval) : State :=
  if engReplay s e then
    let s1 := if uMARK u then replayMark s0 s e pc (uMARKID u) v.recTick false else s
    if uTRIG u then
      let s2 := replayMark s0 s1 e pc 0 v.recTick true
      match (getEng s2 e).job with
      | some j => modJob s2 j (fun b => { b with trigAt := b.trigAt.or (some b.fedTick) })
      | none => s2
    else s1
  else
    let mem := engMembers s e
    let s1 := if uMARK u then
        let act : MarkAct := { id := BitVec.ofNat 8 (uMARKID u), pc := BitVec.ofNat 11 pc,
                               level := BitVec.ofNat 5 (levelBefore s0 e), eng := e, cnts := markCounters s0 e }
        sliceMod s e v.tick true (fun x => { x with marks := x.marks ++ [act] })
      else s
    let s2 := if uWIN u = 1 || uWIN u = 2 then
        forEach mem s1 (fun s n => windowAction s n v.recTick (uWIN u = 1))
      else s1
    if uTRIG u then assertTrigger s2 e v.recTick else s2

/-- Store qualification: the word sets it, and every slice the engine treats carries it. -/
def storeAction (s : State) (e : Nat) (store : Nat) (v : Eval) : State :=
  if engReplay s e then s
  else
    let q := if store = 1 then true else if store = 2 then false else (getEng s e).qual
    let s1 := if q = (getEng s e).qual then s else modEng s e (fun c => { c with qual := q })
    forEach (engMembers s1 e) s1 (fun s n => sliceMod s n v.tick false (fun x => { x with qual := some q }))

/-- The USER field of a request (R162). -/
def ctxUser (s : State) (e x : Nat) (u : MicroWord) (v : Eval) : Nat :=
  match uCTXDSEL u with
  | 0 => cntBefore s e 0
  | 1 => cntBefore s e 1
  | 2 => v.bus.toNat
  | 3 => v.bus.toNat / 2 ^ 32
  | 4 => tmrBefore s e 0
  | 5 => (keyOf s e x (1 - uCTXKEY u) v).toNat
  | _ => 0

def contextAction (s0 s : State) (e x : Nat) (u : MicroWord) (v : Eval) : State :=
  if uCTXOP u = 0 then s
  else ctxIssue s e
    { op := uCTXOP u, key := keyOf s0 e x (uCTXKEY u) v, mask := BitVec.ofNat 3 (uCTXMASK u),
      user := BitVec.ofNat 32 (ctxUser s0 e x u v), imm := BitVec.ofNat 16 (uCTXIMM u), stamp := stampOf v.recTick,
      recTick := v.recTick, issued := now s }

/-- The LEVEL a word writes (R163), where it writes one. -/
def levelAction (u : MicroWord) (res : Option CtxRes) : Option Nat :=
  if uLVLOP u = 1 then some (uLVLVAL u)
  else if uLVLOP u = 2 then
    some (match res with | some r => if r.hit then r.st.toNat % 32 else 0 | none => 0)
  else none

/-! ### The word (R149, R157, R158, R165 to R170) -/

/-- Next address and stack, and whether the stack faulted (R157, R167). -/
def nextAddr (s : State) (e : Nat) (c : EngCore) (u : MicroWord) (cv : Bool) : BitVec 11 × List (BitVec 11) × Bool :=
  let up := c.pc + 1
  let tgt := BitVec.ofNat 11 (uTARGET u)
  let na := uNA u
  if na = naJUMP then (tgt, c.stack, false)
  else if na = naBRT then (if cv then tgt else up, c.stack, false)
  else if na = naBRF then (if cv then up else tgt, c.stack, false)
  else if na = naCALL then
    if cv then (tgt, up :: c.stack.take 3, decide (4 ≤ c.stack.length)) else (up, c.stack, false)
  else if na = naRET then
    if cv then
      match c.stack with
      | a :: r => (a, r, false)
      | [] => (BitVec.ofNat 11 (rdF s (eR e 0xC) 0 11), [], true)
    else (up, c.stack, false)
  else if na = naDISPATCH then (BitVec.ofNat 11 (uTARGET u / 32 * 32 + levelBefore s e), c.stack, false)
  else if na = naWAIT then (if cv then tgt else c.pc, c.stack, false)
  else (up, c.stack, false)

/-- An engine executes on this tick: it runs, has not executed yet, and a replay engine's job feeds it (R165, R261). -/
def engExecutes (s : State) (e : Nat) : Bool :=
  let c := getEng s e
  domReady s (domSeq e) && c.lead == e && c.lastExec != some (now s) &&
  (match c.job with
   | some j =>
     let b := getJob s j
     engRun s e == runREPLAY && b.lastFed == some (now s) && decide (engLat s e < b.fedTick) && decide (b.drain ≤ engLat s e)
   | none => !engReplay s e && (engRun s e == runRUNNING || engRun s e == runWAITING))

/-- A double-bit control-store error (R149): a live engine's streams close their records with TRUNC (R231). -/
def engFault (s : State) (e : Nat) : State :=
  let s1 := engEvent (engEnter s e runFAULT) e 0x20
  match (getEng s e).job with
  | some j => modJob s1 j (fun b => { b with endReq := 4 })
  | none =>
    if engReplay s e || !capActive s then s1
    else captureHalt (forEach (engMembers s e) s1 (fun s n => closeOpen s n flagTRUNC)) 4

/-- Formats of the members' lanes as the resources take them. -/
def memberFmts (s : State) (e : Nat) : List Nat :=
  (engMembers s e).map (fun n =>
    match (getEng s e).job with
    | some j => tabGet 0 (getJob s j).fmts n
    | none => laneFmt s n)

/-- The word at the engine's PC executes with its actions. -/
def execWord (s : State) (e : Nat) (u : MicroWord) : State :=
  let c := getEng s e
  let x := engClock s e
  let v := evalAt s e ((x : Int) - engLat s e) ((memberFmts s e).map (fun f => { fmt := f, payload := 0, valid := false }))
  let j := junction s e x
  let cond := condVal s e v j
  let cv := cond (uCOND u)
  let act := uACTQ u = 0 || (uACTQ u = 1 && cv) || (uACTQ u = 2 && !cv)
  let (nxt, stack, stackErr) := nextAddr s e c u cv
  let taken := uCOND u = 45 && cv
  let res := if taken then c.resQ.head? else c.lastRes
  let held := (List.range 8).foldl (fun (h : BitVec 8) i =>
    if act && uCNT u i = 5 then h ||| BitVec.ofNat 8 (2 ^ i)
    else if act && uCNT u i = 6 then h &&& ~~~(BitVec.ofNat 8 (2 ^ i)) else h) c.held
  -- the conditions every auto-count of the tick sees
  let autos := (List.range 8).map (fun i => autoOn s e i held cond)
  let conds := (List.range 64).foldl (fun n k => n + b2n (cond k) * 2 ^ k) 0
  let s1 := setEng s e
    { c with
      pc := nxt, stack := stack, held := held, lastRes := res, lastExec := some (now s),
      resQ := if taken then c.resQ.drop 1 else c.resQ,
      dropped := if uCOND u = 48 then false else c.dropped,
      lastCond := BitVec.ofNat 64 conds,
      settled := nxt == c.pc && (!act || uNoActions u) && c.reqQ.isEmpty && c.resQ.isEmpty }
  let s2 := if stackErr then engEvent s1 e 0x40 else s1
  let s3 := forEach ((List.range 8).zip autos) s2 (fun s p => cntStep s e p.1 (if act then uCNT u p.1 else 0) p.2)
  let s4 := if act then forN 4 s3 (fun s k => tmrStep s e k (uTMR u k)) else s3
  let s5 := if act && uPUBE u != 0 then
      engPub s4 e ((engPublish s4 e &&& (15 - uPUBE u)) ||| (uPUBV u &&& uPUBE u)) else s4
  let s6 := storeAction s5 e (if act then uSTORE u else 0) v
  let s7 := if act then recordActions s s6 e c.pc.toNat u v else s6
  let s8 := if act then contextAction s s7 e x u v else s7
  let s9 := match (if act then levelAction u res else none) with
    | some l => engSetLevel s8 e l
    | none => s8
  let s10 := if act && uEVT u then engEvent s9 e 1 else s9
  let s11 := if act && uTIUREQ u && !engReplay s e then
      modTiu s10 (uTIUIN u) (fun t => { t with reqIn := t.reqIn ++ [(e, now s + 2)] }) else s10
  let s12 := wrF s11 (eR e 0) 21 11 c.pc.toNat
  let s13 := if c.job.isSome then s12
    else setRun s12 e (if uNA u = naWAIT && !cv then runWAITING else runRUNNING)
  if uSAFE u then noticesApply s13 e (now s) false else s13

/-- Engine `e` executes the word at its PC if that word's next-address operation is `op`. -/
def engineWord (s : State) (e op : Nat) : State :=
  let c := getEng s e
  let a := c.pc.toNat
  if engExecutes s e then
    let err := tabGet 0 c.csErr a
    if uNA (csWord c a) = op then
      if err = 2 then engFault s e
      else if err = 1 then execWord (engEvent (ctrAdd s (eR e 0x24) 1) e 0x10) e (csWord c a)
      else execWord s e (csWord c a)
    else s
  else s

/-! ### Engine reset (R375) -/

/-- A write of ENG_RESET.RESET. -/
def engReset (s : State) (e : Nat) : State :=
  let run := engRun s e
  if (getEng s e).lead != e || run = runREPLAY || !domReady s (domSeq e) || (getEng s e).job.isSome then s
  else
    let s1 := engStartValues s e
    let s2 := if run = runFAULT then engDiscard (engClearNotices s1 e) e else engEnter s1 e runSTOPPED
    modEng s2 e (fun c => { c with resetAt := some (now s), qual := true })

/-! ### The engines' tick -/

/-- The engine is paused on this tick: no word of it executes up to the tick after RESUME (R147). -/
def engPaused (s : State) (e : Nat) : Bool :=
  let c := getEng s e
  (engRun s e == runPAUSED && c.lastExec != some (now s)) || c.resumedAt == some (now s)

/-- A paused engine's store qualification keeps its last value for the slice a word of this tick would treat (R147). -/
def pausedQual (s : State) (e : Nat) : State :=
  let c := getEng s e
  if engPaused s e && !engReplay s e then
    forEach (engMembers s e) s (fun s n => sliceMod s n (now s - engLat s e) false (fun x => { x with qual := some c.qual }))
  else s

/-- A paused engine's counters still auto-count, up to the tick before its next word (R147). -/
def pausedCount (s : State) (e : Nat) : State :=
  let c := getEng s e
  if engPaused s e && c.job.isNone then
    let x := now s
    let v := evalAt s e ((x : Int) - engLat s e) ((memberFmts s e).map (fun f => { fmt := f, payload := 0, valid := false }))
    let j := junction s e x
    forN 8 s (fun t i => cntStep t e i 0 (autoOn s e i c.held (condVal s e v j)))
  else s

/-- The slice of member lane `n` that reached its lane input on tick `t`. -/
def memberSlice (s : State) (n : Nat) (t : Tick) : MemberSlice :=
  match (getLane s n).hist.find? (fun x => x.tick == t) with
  | some x => { fmt := laneFmt s n, payload := x.payload, valid := x.valid }
  | none => { fmt := laneFmt s n, payload := 0, valid := false }

/-- The resources of live engine `e`, alone or the lead of its consist, take the slices of this tick (R128, R146); a lane without
one gives VALID 0. Done where they matter: the engine holds microcode, a slice is valid, or a history is to be discarded. -/
def engHear (s : State) (e : Nat) : State :=
  let c := getEng s e
  let ms := (engMembers s e).map (fun n => memberSlice s n (now s))
  if c.lead == e && !engReplay s e && domReady s (domSeq e) &&
      (c.loaded || ms.any (fun m => m.valid) || c.recent.any (fun r => r.any (fun l => l.valid)) ||
        c.qclkSince.any (fun n => decide (n < 4))) then
    evalEngine s e (now s) ((now s : Int) - s.lrel) ms false
  else s

/-- The engines whose lanes brought a slice on this tick. -/
def engsHearing (s : State) : List Nat :=
  (s.lane.filter (fun p => (p.2.hist.take 4).any (fun x => x.tick == now s))).map (fun p => (getEng s p.1).lead)

/-- The end of a tick for engine `e`: auto-count while paused, and the timers. -/
def engTickEnd (s : State) (e : Nat) : State :=
  let s1 := pausedCount (pausedQual s e) e
  let s2 := if engCounts s1 e then tmrTick s1 e else s1
  modEng s2 e (fun c => { c with tmrOld := [], cntOld := [], resetAt := none, resumedAt := none })

/-! ### Meanings of the rows -/

def execInc (e : Fin 256) (s : State) : Out := .next (engineWord s e.val naINC)
def execJump (e : Fin 256) (s : State) : Out := .next (engineWord s e.val naJUMP)
def execBrt (e : Fin 256) (s : State) : Out := .next (engineWord s e.val naBRT)
def execBrf (e : Fin 256) (s : State) : Out := .next (engineWord s e.val naBRF)
def execCall (e : Fin 256) (s : State) : Out := .next (engineWord s e.val naCALL)
def execRet (e : Fin 256) (s : State) : Out := .next (engineWord s e.val naRET)
def execDispatch (e : Fin 256) (s : State) : Out := .next (engineWord s e.val naDISPATCH)
def execWait (e : Fin 256) (s : State) : Out := .next (engineWord s e.val naWAIT)
def execTimerLimit (e : Fin 256) (k : Fin 4) (s : State) : Out := .next (timerLimit s e.val k.val)

/-- The context store's grants: the head request of the master, an operation of the row's kind (R184, R187, R188). -/
def execLookup (master : Fin 258) (s : State) : Out := .next (ctxGrant s master.val opLOOKUP)
def execInsert (master : Fin 258) (s : State) : Out := .next (ctxGrant s master.val opINSERT)
def execUpdate (master : Fin 258) (s : State) : Out := .next (ctxGrant s master.val opUPDATE)
def execDelete (master : Fin 258) (s : State) : Out := .next (ctxGrant s master.val opDELETE)
def execLookupInsert (master : Fin 258) (s : State) : Out := .next (ctxGrant s master.val opLOOKUPINSERT)
def execCtxSweepRow (bank : Fin 64) (s : State) : Out := .next (ctxSweep s bank.val)

def execRecordFormerSlice (n : Fin 256) (s : State) : Out := .next (recordFormerSlice s n.val)
def execSegmentEnd (s : State) : Out := .next (segmentEnd s)
def execRecordCommit (stream : Fin 4096) (s : State) : Out := .next (recordCommit s stream.val)
def execRingFlushForcedClose (r : Fin 32768) (s : State) : Out := .next (flushForcedClose s r.val)

end Sys2Proof.Machine
end

