-- ==== Sys2Proof/Machine/Globals.lean ====
section
/-! DEFINITION. The Global group and the TRIG pins (R142, R144, R145). -/

namespace Sys2Proof.Machine

/-- A change of a Global bit, visible at the Junction inputs on tick `due`. A level set for an earlier tick than one already on
its way is the newer state of its source and takes that one's place. -/
def globalQueue (s : State) (due bitNo : Nat) (k : GKind) : State :=
  let older (g : GEv) : Bool := g.bit == bitNo && g.val != .pulse && k != .pulse && decide (due ≤ g.due)
  { s with glb := { s.glb with pipe := s.glb.pipe.filter (fun g => !older g) ++ [{ due := due, bit := bitNo, val := k }] } }

/-- A Global bit takes `v` at the Junction inputs on tick `due`. -/
def globalAt (s : State) (due bitNo : Nat) (v : Bool) : State := globalQueue s due bitNo (.level v)

/-- A one-tick pulse. -/
def globalPulse (s : State) (due bitNo : Nat) : State := globalQueue s due bitNo .pulse

/-- Set bit `i` of a 64-bit word. -/
def putBit64 (w : Word64) (i : Nat) (v : Bool) : Word64 :=
  if v then w ||| BitVec.ofNat 64 (2 ^ i) else w &&& ~~~(BitVec.ofNat 64 (2 ^ i))

/-- Set bit `i` of the pins' byte. -/
def putBit8 (w : BitVec 8) (i : Nat) (v : Bool) : BitVec 8 :=
  if v then w ||| BitVec.ofNat 8 (2 ^ i) else w &&& ~~~(BitVec.ofNat 8 (2 ^ i))

/-- The level of TRIG_IN pin `p` as sampled on tick `t`. -/
def pinSampled (s : State) (p : Nat) (t : Int) : Bool :=
  match (s.glb.sampled.find? (fun q => decide ((q.1 : Int) ≤ t))).or s.glb.sampled.getLast? with
  | some q => q.2.getLsbD p
  | none => false

/-- Global bit `p` on this tick (R144): the pin's level sampled 3 + DELAY ticks before, behind EN and INVERT. -/
def trigInBit (s : State) (p : Nat) : Bool :=
  rdBit s (trigInR p) 0 &&
    (pinSampled s p ((now s : Int) - 3 - rdF s (trigInR p) 8 8) != rdBit s (trigInR p) 1)

/-- GLB_GLOBAL as it reads (R142); the bit of a disabled pin is 0. -/
def globalView (s : State) : Word64 :=
  (List.range 8).foldl (fun w p => if rdBit s (trigInR p) 0 then w else putBit64 w p false) s.glb.vis

/-- The Global bits as a new tick begins: the levels due in the order in which their sources changed, the pulses of this tick,
and the TRIG_IN pins. -/
def globalTick (s : State) : State :=
  let due := s.glb.pipe.filter (fun g => decide (g.due ≤ now s))
  let level := due.foldl (fun w g => match g.val with | .level v => putBit64 w g.bit v | .pulse => w) s.glb.level
  let pulsed := due.foldl (fun w g => match g.val with | .level _ => w | .pulse => putBit64 w g.bit true) level
  let vis := (List.range 8).foldl (fun w p => putBit64 w p (trigInBit s p)) pulsed
  { s with
    glb := { s.glb with visPrev := s.glb.vis, vis := vis, level := level,
                        pipe := s.glb.pipe.filter (fun g => decide (now s < g.due)) } }

/-- The pins' levels are sampled, once per tick, as it ends (R144). A change older than the longest delay is forgotten once a
later one is as old. -/
def trigInSample (s : State) : State :=
  if s.glb.pins = (match s.glb.sampled with | q :: _ => q.2 | [] => 0) then s
  else
    let (young, old) := s.glb.sampled.span (fun q => decide (now s < q.1 + 260))
    { s with glb := { s.glb with sampled := (now s, s.glb.pins) :: (if s.glb.sampled.isEmpty then [(0, 0)] else young ++ old.take 1) } }

/-- TRIG_IN: pin `p` stands at `level` from now on. -/
def trigIn (s : State) (p : Nat) (level : Bool) : State := { s with glb := { s.glb with pins := putBit8 s.glb.pins p level } }

/-- A write of ENG_GFORCE reaches Global bits 56 to 63 two ticks later (R142). -/
def gforceWrite (s : State) (v : BitVec 8) : State :=
  let s1 := { s with glb := { s.glb with gforce := v } }
  forN 8 s1 (fun t i => if v.getLsbD i = s.glb.gforce.getLsbD i then t else globalAt t (now s + 2) (56 + i) (v.getLsbD i))

/-! ### TRIG_OUT (R145) -/

/-- Ticks from a source's change to the pin. -/
def trigOutDelay (s : State) (code : Nat) : Nat :=
  if code < 1024 then (if (getEng s (code / 4)).csize = 0 then 36 else 35) else 34

/-- Level of the source `code` on this tick, before INVERT; the trigger pulse comes with the trigger itself. -/
def trigOutSource (s : State) (code : Nat) : Bool :=
  if code < 1024 then !engReplay s (code / 4) && (engPublish s (code / 4)).testBit (code % 4)
  else if code < 1088 then (globalView s).getLsbD (code - 1024)
  else false

/-- Queue a change of pin `p`'s source level, ± 1 tick (log 3), and not before a change of the same pin already queued. -/
def trigOutQueue (s : State) (p due : Nat) (v : Bool) : State :=
  let (n, s1) := drawFree s
  let last := (s1.trigOut.pipe.filter (fun g => g.bit == p)).foldl (fun t g => max t g.due) 0
  let at_ := max last (due + (Config.trigOutJitter n).toNat % 3 - 1)
  { s1 with trigOut := { s1.trigOut with pipe := s1.trigOut.pipe ++ [{ due := at_, bit := p, val := .level v }] } }

/-- The source of pin `p` is sampled at the end of a tick. -/
def trigOutSample (s : State) (p : Nat) : State :=
  let code := rdF s (trigOutR p) 0 11
  let v := trigOutSource s code
  if v = s.trigOut.src.getLsbD p then s
  else trigOutQueue { s with trigOut := { s.trigOut with src := putBit8 s.trigOut.src p v } } p (now s + trigOutDelay s code) v

/-- The trigger pulse of an honoured trigger with lane-input tick `t` (R145), on every pin whose SOURCE is 0x7FE. -/
def trigOutPulse (s : State) (t : Nat) : State :=
  forN 8 s (fun s p =>
    if rdF s (trigOutR p) 0 11 = 0x7FE then
      trigOutQueue (trigOutQueue s p (t + 38) true) p (t + 39 + Config.trigPulseWidth) false
    else s)

/-- Drive pin `p` to `v`. -/
def pinSet (s : State) (p : Nat) (v : Bool) : State := { s with trigOut := { s.trigOut with pin := putBit8 s.trigOut.pin p v } }

/-- Pin `p` follows its result (R145): the source level that has reached it behind INVERT, or in pulse mode a pulse of WIDTH ticks
from each rise. -/
def pinFollow (s : State) (p : Nat) : State :=
  let r := rd s (trigOutR p)
  let high := s.trigOut.at_.getLsbD p != bitAt r 11
  let rise := high && !s.trigOut.high.getLsbD p
  let s1 := { s with trigOut := { s.trigOut with high := putBit8 s.trigOut.high p high } }
  if !bitAt r 12 then pinSet { s1 with trigOut := { s1.trigOut with pulse := tabDel s1.trigOut.pulse p } } p high
  else if rise then
    pinSet { s1 with trigOut := { s1.trigOut with pulse := tabPut s1.trigOut.pulse p (now s + max 1 (fld r 16 8)) } } p true
  else pinSet s1 p (s1.trigOut.pulse.any (fun q => q.1 == p))

/-- The pins as a new tick begins. -/
def trigOutTick (s : State) : State :=
  let due := s.trigOut.pipe.filter (fun g => decide (g.due ≤ now s))
  let at_ := due.foldl (fun w g => match g.val with | .level v => putBit8 w g.bit v | .pulse => w) s.trigOut.at_
  let rest := s.trigOut.pipe.filter (fun g => decide (now s < g.due))
  forN 8 { s with trigOut := { s.trigOut with at_ := at_, pipe := rest } } pinFollow

/-- TRIG_OUT_PULSE_END: WIDTH ticks have passed since the pulse on pin `p` began. -/
def trigPulseEnd (s : State) (p : Nat) : State :=
  if s.trigOut.pulse.any (fun q => q.1 == p && decide (q.2 ≤ now s)) then
    let s1 := pinSet s p false
    { s1 with trigOut := { s1.trigOut with pulse := tabDel s1.trigOut.pulse p } }
  else s

/-- What pin TRIG_OUT[p] drives: nothing at high impedance, with DRIVE 0 (R145). -/
def trigOutPin (s : State) (p : Nat) : Option Bool :=
  if rdBit s (trigOutR p) 31 then some (s.trigOut.pin.getLsbD p) else none

/-- The end of a tick on pin `p`: a pulse that is over ends, and the source is sampled. -/
def trigOutEnd (s : State) (p : Nat) : State := trigOutSample (trigPulseEnd s p) p

/-- The arbiter decides, and the trigger pulse of each trigger it honours is on its way. -/
def decideTriggers (s : State) : State :=
  let s1 := triggerDecide s
  forEach (s1.capture.trigs.filter (fun t => decide (s.capture.segIdx ≤ t.seg))) s1 (fun s t =>
    trigOutPulse s (t.t + s.lrel).toNat)

def execTriggerDecide (s : State) : Out := .next (decideTriggers s)
def execTrigIn (p : Fin 8) (level : Bool) (s : State) : Out := .next (trigIn s p.val level)
def execTrigOutPulseEnd (p : Fin 8) (s : State) : Out := .next (trigPulseEnd s p.val)

end Sys2Proof.Machine
end

