-- ==== Sys2Proof/Machine/Tiu.lean ====
section
/-! DEFINITION. The time-interval unit (chapter 12). Stamps and results are held in sub-ticks with 8 fractional bits (q). -/

namespace Sys2Proof.Machine

/-- The input states of R268. -/
def tiuNOCLOCK : Nat := 0
def tiuIDLE : Nat := 1
def tiuCALIBRATING : Nat := 2
def tiuMEASURING : Nat := 3
def tiuSTOPINPUT : Nat := 4
def tiuSTAMPWAIT : Nat := 5

def tiuState (s : State) (i : Nat) : Nat := rdF s (tiuR i 0) 0 3
def setTiuState (s : State) (i v : Nat) : State := wrF s (tiuR i 0) 0 3 v
def tiuPrescale (s : State) (i : Nat) : Nat := rdF s (tiuR i 0) 8 2
def tiuEdgeSel (s : State) (i : Nat) : Nat := rdF s (tiuR i 0) 10 2

/-- The measurement types of R271. -/
def tySTAMPs : Nat := 0
def tyINTERVAL : Nat := 1
def tyPERIOD : Nat := 2
def tyWIDTH : Nat := 3
def tyFREQ : Nat := 4

/-! ### Arithmetic -/

/-- Nearest integer, halves up (R269). -/
def roundQ (q : Int) : Int := (q + 128) / 256

/-- Nearest integer to `n / d`. -/
def roundDiv (n d : Nat) : Nat := (2 * n + d) / (2 * d)

/-- Integer square root, bit by bit. -/
def isqrt (n : Nat) : Nat :=
  (List.range (n.log2 / 2 + 1)).reverse.foldl (fun r b => if (r + 2 ^ b) * (r + 2 ^ b) ≤ n then r + 2 ^ b else r) 0

/-- Nearest integer to the square root of `n / d`. -/
def roundSqrt (n d : Nat) : Nat :=
  let r := isqrt (n / d)
  if (2 * r + 1) * (2 * r + 1) * d ≤ 4 * n then r + 1 else r

/-- The stamp of an edge in q units (R269), the skew apart: coarse edge `c2`, raw code `n`. -/
def tiuRaw (s : State) (i : Nat) (c2 : Nat) (n : Nat) : Int × State :=
  let cal := rd s (tiuR i 0x18)
  let n1 : Int := fld cal 0 16
  let n2 : Int := fld cal 16 16
  let n0 := 2 * n1 - n2
  let (k, s1) := drawFree s
  let tau : Int :=
    if n2 = n1 then ((Config.tiuValue k).toNat : Int)
    else
      let num := 64 * 256 * ((n : Int) - n0)
      let den := n2 - n1
      let lo := num.fdiv den
      if num = lo * den then lo else if Config.tiuRound k then lo + 1 else lo
  (64 * 256 * (c2 : Int) - tau, s1)

/-- What TIU_SKEW takes off the stamps that are formed on this tick, in q units (R269). -/
def tiuSkew (s : State) (i : Nat) : Int := signedOf 16 (fld (rdBefore s (tiuR i 0x14)) 0 16) * 256

/-- A 64-bit register value of a q number's rounding. -/
def wordOfQ (q : Int) : Word64 := BitVec.ofInt 64 (roundQ q)

/-! ### Global events (R279) -/

/-- The TIU selectors with the given KIND and INPUT. -/
def gselOf (s : State) (kind i : Nat) : List Nat :=
  (List.range 16).filter (fun g => rdF s (tiuGselR g) 0 3 == kind && rdF s (tiuGselR g) 8 6 == i)

def tiuPulse (s : State) (kind i due : Nat) : State :=
  forEach (gselOf s kind i) s (fun s g => globalPulse s due (8 + g))

/-! ### Records (R203, R204, R280, R281) -/

def tiuStream (i : Nat) : Nat := 0x200 + i

/-- A record of TIU stream `i` that starts at timestamp `ts` may be written (R203, R204). -/
def tiuWrites (s : State) (i : Nat) (ts : Int) : Bool :=
  if strBound s (tiuStream i) then capActive s && covers s (recTickOf ts) else true

/-- The head word of a STAMP record, COUNT apart. -/
def stampHead (s : State) (i kind stop eng : Nat) : Word64 :=
  BitVec.ofNat 64 (kind * 2 ^ 60 + i * 2 ^ 54 + stop * 2 ^ 48 + tiuPrescale s i * 2 ^ 46 + eng * 2 ^ 24)

/-- Words of one entry of an open STAMP record. -/
def stampWidth (o : OpenRec) : Nat :=
  let kind := fld64 o.head 60 4
  if kind = 1 ∨ kind = 2 ∨ kind = 3 then 2 else 1

/-- The entries of a STAMP record of `w` words each. `fuel` bounds them. -/
def stampEntries (w : Nat) : Nat → List Word64 → List (List Word64)
  | 0, _ => []
  | _, [] => []
  | fuel + 1, l => l.take w :: stampEntries w fuel (l.drop w)

/-- Record tick of an entry, by its first word. -/
def entryTick (e : List Word64) : Int := recTickOf (e.headD 0).toInt

/-- Record tick `x` may hold records of TIU stream `i`. -/
def tiuCovers (s : State) (i : Nat) (x : Int) : Bool := !strBound s (tiuStream i) || covers s x

/-- Record tick `x` belongs to the record that begins at record tick `f`: within 4,095 ticks, in one segment of the capture. -/
def stampBelongs (s : State) (i : Nat) (f x : Int) : Bool :=
  decide (x ≤ f + 4095) && (!strBound s (tiuStream i) || (sameSegment s f x && covers s x))

/-- The open STAMP record with the entries `es`; none without entries. -/
def stampOpen (s : State) (i : Nat) (o : OpenRec) (es : List (List Word64)) : State :=
  modStr s (tiuStream i) (fun c =>
    { c with
      openRec := match es with
        | [] => none
        | e :: _ => some { o with
            first := entryTick e, ts := e.headD 0, last := entryTick (es.getLastD e), items := es.flatten } })

/-- The record former has passed record tick `k`: what the open STAMP record of input `i` holds is recorded or dropped by the bounds
of the capture (R230, R231), and the record closes at its 1,024th entry, behind record tick f + 4,095, or at the end of its segment
(R280). The entries behind that start the next record. -/
def stampForm (s : State) (i : Nat) (k : Int) : State :=
  match (getStr s (tiuStream i)).openRec with
  | none => s
  | some o =>
    let all := (stampEntries (stampWidth o) o.items.length o.items).filter (fun e => decide (k < entryTick e) || tiuCovers s i (entryTick e))
    let f := entryTick (all.headD [])
    let rec_ := (all.takeWhile (fun e => decide (entryTick e ≤ k) && stampBelongs s i f (entryTick e))).take 1024
    let rest := all.drop rec_.length
    let ended := decide (rec_.length = 1024) || decide (f + 4095 ≤ k) || !stampBelongs s i f (k + 1) ||
      (match rest with | e :: _ => decide (entryTick e ≤ k) | [] => false)
    let s1 := stampOpen s i o all
    if rec_.isEmpty || !ended then s1
    else
      let s2 := closeOpen (trigsBefore (stampOpen s1 i o rec_) (tiuStream i) (((all.headD []).headD 0).toNat : Int)) (tiuStream i) 0
      stampOpen s2 i { o with at_ := now s, lost := false } rest

/-- Add words as one entry to the STAMP record of measurement `i`; `ts`: its stamp. -/
def stampEntry (s : State) (i : Nat) (ts : Int) (kind : Nat) (ws : List Word64) : State :=
  let n := tiuStream i
  let t := getTiu s i
  let stop := if kind = tyINTERVAL then t.stopIn else 0
  if (getStr s n).openRec.isSome || tiuWrites s i ts then
    let fresh : OpenRec :=
      { typ := tySTAMP, first := recTickOf ts, last := recTickOf ts, ts := BitVec.ofInt 64 ts, flags := 0
        head := stampHead s i kind stop 0, items := [], ring := streamDest s n, at_ := now s, lost := false }
    let s1 := otherAdd s n (recTickOf ts) 0 ws fresh
    if strBound s n then s1 else stampForm s1 i (recTickOf ts)
  else s

/-- A whole record of TIU stream `i` reaches its staging queue. -/
def tiuStage (s : State) (i : Nat) (r : TiuRec) : State :=
  let ts := r.words.headD 0
  stageOther s (tiuStream i) (streamDest s (tiuStream i)) r.typ 0 r.words ts ts

/-- A whole record of TIU stream `i`: at once, or for a stream of the capture when the record former has passed its record tick. -/
def tiuRecord (s : State) (i : Nat) (typ : BitVec 4) (ts : Int) (words : List Word64) : State :=
  let r : TiuRec := { recTick := recTickOf ts, typ := typ, words := words }
  if strBound s (tiuStream i) then
    if capActive s then modTiu s i (fun t => { t with hold := t.hold ++ [r] }) else s
  else tiuStage s i r

/-- The open STAMP record of measurement `i` ends with the measurement: at once, or, with a record of no words as the mark, when the
record former has passed its last entry. -/
def stampEnd (s : State) (i : Nat) : State :=
  match (getStr s (tiuStream i)).openRec with
  | none => s
  | some o =>
    if strBound s (tiuStream i) then
      modTiu s i (fun t => { t with hold := t.hold ++ [{ recTick := o.last, typ := tySTAMP, words := [] }] })
    else closeOpen s (tiuStream i) 0

/-- One record of the hold of input `i` is passed by the record former. -/
def holdPass (s : State) (i : Nat) (r : TiuRec) : State :=
  if r.words.isEmpty then
    match (getStr s (tiuStream i)).openRec with
    | some o => closeOpen (trigsBefore s (tiuStream i) (o.ts.toNat : Int)) (tiuStream i) 0
    | none => s
  else if tiuCovers s i r.recTick then
    tiuStage (trigsBefore s (tiuStream i) ((r.words.headD 0).toNat : Int)) i r
  else s

/-- The records on hold that the record former has passed, in order. -/
def holdTick (s : State) (i : Nat) (k : Int) : State :=
  let h := (getTiu s i).hold
  let due := h.takeWhile (fun r => decide (r.recTick ≤ k))
  forEach due (modTiu s i (fun t => { t with hold := h.drop due.length })) (fun s r => holdPass s i r)

/-! ### The end of a measurement (R272, R276, R277, R281) -/

/-- Frequency and residual of the regression: 32.32 Hz and q units, with NO_RESULT. -/
def regression (t : TiuCore) (free : Word64) : Word64 × Nat × Bool :=
  let k : Int := t.stampsK
  if t.stampsK < 2 then (0, 0, true)
  else
    let a := k * t.sumYY - t.sumY * t.sumY
    let b := k * t.sumXY - t.sumX * t.sumY
    let c := k * t.sumXX - t.sumX * t.sumX
    let f : Word64 :=
      if b ≤ 0 then free
      else BitVec.ofNat 64 (roundDiv (256000000000 * 256 * 2 ^ 32 * c.toNat) b.toNat)
    (f, roundSqrt ((a * c - b * b).toNat) ((k * k * c).toNat), false)

/-- Mean and SD in q units (R276). -/
def tiuMean (t : TiuCore) : Nat := if t.results = 0 then 0 else roundDiv t.sumR.toNat t.results
def tiuSd (t : TiuCore) : Nat :=
  if t.results = 0 then 0
  else roundSqrt ((t.results : Int) * t.sumR2 - t.sumR * t.sumR).toNat (t.results * t.results)

/-- Words of the STATS record. -/
def statsWords (s : State) (i cause : Nat) (freq : Word64) (resid : Nat) (noRes : Bool) : List Word64 :=
  let t := getTiu s i
  let kind := t.typ
  let stat := kind = tyINTERVAL || kind = tyPERIOD || kind = tyWIDTH
  let pick (a b : Nat) : Word64 := BitVec.ofNat 64 (if stat then a else if kind = tyFREQ then b else 0)
  let stop := if kind = tyINTERVAL then t.stopIn else 0
  [tsOf t.gateTick,
   BitVec.ofNat 64 (kind * 2 ^ 60 + i * 2 ^ 54 + stop * 2 ^ 48 + tiuPrescale s i * 2 ^ 46 + b2n t.winChg * 2 ^ 45 +
     cause * 2 ^ 42 + b2n noRes * 2 ^ 41),
   BitVec.ofNat 64 ((rd s (tiuR i 0x64)).toNat * 2 ^ 32 + rdF s (tiuR i 0x58) 0 25),
   BitVec.ofNat 64 ((rd s (tiuR i 0x5C)).toNat * 2 ^ 32 + (rd s (tiuR i 0x60)).toNat),
   if kind = tyFREQ then freq else pick (tiuMean t) 0,
   pick (tiuSd t) resid,
   pick (rd64 s (tiuR i 0x40)) t.lastX,
   pick (rd64 s (tiuR i 0x48)) t.stampsK]

/-- The inputs of measurement `i`. -/
def tiuInputs (s : State) (i : Nat) : List Nat :=
  let t := getTiu s i
  if t.typ = tyINTERVAL then [i, t.stopIn] else [i]

/-- Measurement `i` ends with cause `cause`; its inputs go to state `st` (R272). An interval still open closes without a
result (R273). -/
def tiuEnd (s : State) (i cause st : Nat) : State :=
  let s0 := if (getTiu s i).typ = tyINTERVAL && (getTiu s i).openAt.isSome && cause = 2 then
      ctrAdd s (tiuR i 0x6C) 1 else s
  let (k, s1) := drawFree s0
  let t := getTiu s1 i
  let (freq, resid, none_) := regression t (Config.tiuFreq k)
  let noRes := if t.typ = tyFREQ then none_ else t.typ != tySTAMPs && t.results == 0
  let s2 := stampEnd s1 i
  let s3 := tiuRecord s2 i tySTATS ((t.gateTick : Int) * 256) (statsWords s2 i cause freq resid noRes)
  let s4 := if t.typ = tyFREQ then wr64 s3 (tiuR i 0x50) freq.toNat else s3
  let s5 := tiuEvent (wrF s4 (tiuR i 0) 25 3 cause) i 2
  let s6 := tiuPulse s5 6 i (now s + 2)
  let s7 := forEach (tiuInputs s6 i) s6 (fun s k => modTiu (setTiuState s k st) k (fun t => { t with stopOf := none }))
  modTiu s7 i (fun t => { t with openAt := none, pairAt := none, queue := [] })

/-- The gate of measurement `i` opens on the next tick: counters, statistics and END cleared (R272, R283). -/
def tiuGateOpen (s : State) (i : Nat) : State :=
  let clear (s : State) (k : Nat) : State :=
    let s1 := ((List.range 19).map (fun j => 0x30 + 4 * j)).foldl (fun s o => wr s (tiuR k o) 0) s
    wrF s1 (tiuR k 0) 25 3 0
  let t := getTiu s i
  let s1 := forEach (tiuInputs s i) s clear
  let s2 := wrF (wrF (wrF (setTiuState s1 i tiuMEASURING) (tiuR i 0) 4 3 t.typ) (tiuR i 0) 24 1 0) (tiuR i 0) 16 6
    (if t.typ = tyINTERVAL then t.stopIn else rdF s (tiuR i 0) 16 6)
  let s3 := modTiu s2 i (fun t =>
    { t with
      gateTick := now s + 1, openAt := none, openWin := false, pairAt := none, results := 0, sumR := 0, sumR2 := 0,
      minR := 0, maxR := 0, xCount := 0, stampsK := 0, firstY := 0, sumX := 0, sumY := 0, sumXX := 0, sumXY := 0,
      sumYY := 0, lastX := 0, winChg := false })
  if t.typ = tyINTERVAL then modTiu (setTiuState s3 t.stopIn tiuSTOPINPUT) t.stopIn (fun u => { u with stopOf := some i })
  else s3

/-! ### Results (R273, R275, R276) -/

/-- One more result or stamp counted; the measurement ends with the N-th. -/
def tiuCount (s : State) (i : Nat) : State :=
  let s1 := wrF s (tiuR i 0x58) 0 25 (rdF s (tiuR i 0x58) 0 25 + 1)
  let t := getTiu s1 i
  if t.typ != tyFREQ && decide (t.n ≤ rdF s1 (tiuR i 0x58) 0 25) then tiuEnd s1 i 1 tiuIDLE else s1

/-- An accepted result `d` (q units) of measurement `i` whose interval began at stamp `st`. -/
def tiuResult (s : State) (i : Nat) (st d : Int) (coin win : Bool) : State :=
  let t0 := getTiu s i
  let r := (roundQ d).toNat
  let first := t0.results = 0
  let t : TiuCore := { t0 with
    results := t0.results + 1, sumR := t0.sumR + d, sumR2 := t0.sumR2 + d * d,
    minR := if first then r else min t0.minR r, maxR := if first then r else max t0.maxR r }
  let w := b2n coin * 2 ^ 63 + b2n win * 2 ^ 62 + r % 2 ^ 48
  let s1 := wr64 (setTiu s i t) (tiuR i 0x28) w
  let s2 := wr64 (wr64 s1 (tiuR i 0x30) (tiuMean t)) (tiuR i 0x38) (tiuSd t)
  let s3 := wr64 (wr64 s2 (tiuR i 0x40) t.minR.toNat) (tiuR i 0x48) t.maxR.toNat
  let s4 := if coin then ctrAdd s3 (tiuR i 0x64) 1 else s3
  let lim := (rdBefore s (tiuR i 0x1C)).toNat < r
  let s5 := tiuEvent s4 i (if lim then 9 else 1)
  let s6 := tiuPulse s5 3 i (now s + 3)
  let s7 := if lim then tiuPulse s6 4 i (now s + 3) else s6
  let s8 := if t.each then stampEntry s7 i (roundQ st) t.typ [wordOfQ st, BitVec.ofNat 64 w] else s7
  tiuCount s8 i

/-- A limit of measurement `i`'s window was written on this tick: an interval open now is flagged (R274). -/
def winWrote (s : State) (i : Nat) : Bool := hostWrote s (tiuR i 0xC) || hostWrote s (tiuR i 0x10)

/-- A stop stamp `p` of measurement `i` (R273), judged by the limits as they stood before the writes of this tick (R274). -/
def tiuStopEdge (s : State) (i : Nat) (p : Int) : State :=
  let t := getTiu s i
  match t.openAt with
  | none => ctrAdd s (tiuR i 0x70) 1
  | some st =>
    let delta := p - st
    let coin := decide (-256 < delta) && decide (delta < 256)
    let d := if coin then 0 else delta
    let reject (o : Nat) : State := tiuPulse (tiuEvent (ctrAdd s (tiuR i o) 1) i 4) 5 i (now s + 3)
    if delta ≤ -256 then reject 0x60
    else if d < (rdBefore s (tiuR i 0xC)).toNat * 256 * 256 || (rdBefore s (tiuR i 0x10)).toNat * 256 * 256 < d then reject 0x5C
    else tiuResult (setTiu s i { t with openAt := none, openWin := false }) i st d coin t.openWin

/-- An edge that ends the pair begun by the edge before it (R275); `opens`: it may begin a pair itself. -/
def tiuPairEdge (s : State) (i : Nat) (p : Int) (opens : Bool) : State :=
  let t := getTiu s i
  let s1 := setTiu s i { t with pairAt := if opens then some p else none, openWin := opens && winWrote s i }
  match t.pairAt with
  | some st => tiuResult s1 i st (p - st) false t.openWin
  | none => s1

/-- A stamp of a FREQUENCY measurement (R277). -/
def tiuFreqEdge (s : State) (i : Nat) (p : Int) : State :=
  let s1 := modTiu s i (fun t =>
    if t.stampsK = 0 then { t with stampsK := 1, firstY := p, xCount := 0, lastX := 0 }
    else
      let x : Int := t.xCount + 1
      let y := p - t.firstY
      { t with
        stampsK := t.stampsK + 1, xCount := t.xCount + 1, lastX := t.xCount + 1, sumX := t.sumX + x, sumY := t.sumY + y,
        sumXX := t.sumXX + x * x, sumXY := t.sumXY + x * y, sumYY := t.sumYY + y * y })
  tiuCount s1 i

/-- A stamped edge of the start input of measurement `i`. -/
def tiuStartEdge (s : State) (i : Nat) (p : Int) (rising : Bool) : State :=
  let t := getTiu s i
  if t.typ = tySTAMPs then tiuCount (stampEntry s i (roundQ p) tySTAMPs [wordOfQ p]) i
  else if t.typ = tyINTERVAL then
    if t.openAt.isSome then ctrAdd s (tiuR i 0x74) 1 else setTiu s i { t with openAt := some p, openWin := winWrote s i }
  else if t.typ = tyPERIOD then tiuPairEdge s i p true
  else if t.typ = tyWIDTH then
    if rising = (tiuEdgeSel s i == 0) then setTiu s i { t with pairAt := some p, openWin := winWrote s i }
    else tiuPairEdge s i p false
  else tiuFreqEdge s i p

/-- The end of a stamp request (R278): `p` the stamp, none at a timeout, whose tick is x + 65,537. -/
def stampRequestEnd (s : State) (i : Nat) (p : Option Int) : State :=
  let t := getTiu s i
  let (eng, at_) := t.req.getD (0, 0)
  let ts : Int := match p with | some q => roundQ q | none => ((at_ + 65535 : Nat) : Int) * 256
  let s1 := setTiuState (setTiu s i { t with req := none }) i tiuIDLE
  let s2 := tiuEvent s1 i 0x10
  if strBound s2 (tiuStream i) then
    let ent := match p with | some q => [wordOfQ q] | none => []
    tiuRecord s2 i tySTAMP ts
      (BitVec.ofInt 64 ts :: (stampHead s2 i 5 0 eng ||| BitVec.ofNat 64 ent.length) :: ent)
  else s2

/-! ### Edges -/

/-- A stamp within the dead time is not kept (R267): it is counted, breaks a pair, and is one more cycle of a FREQUENCY measurement
(R275, R277). -/
def tiuSkip (s : State) (i : Nat) : State :=
  modTiu (ctrAdd s (tiuR i 0x68) 1) i (fun t =>
    { t with pairAt := none, openWin := if t.pairAt.isSome then false else t.openWin
             xCount := if t.stampsK = 0 then t.xCount else t.xCount + 1 })

/-- An edge of input `i` is stamped and judged, on the tick after it arrived (R267, R269, R273, R279). The dead time is judged before
the skew. -/
def tiuJudgeEdge (s : State) (i : Nat) (e : TiuEdge) : State :=
  let st := tiuState s i
  if st = tiuMEASURING || st = tiuSTOPINPUT || st = tiuSTAMPWAIT then
    let (raw, s1) := tiuRaw s i e.c2 e.code
    let near := match (getTiu s1 i).lastEdge with
      | some l => decide (raw - l < 512 * 256) && decide (l - raw < 512 * 256)
      | none => false
    if near then tiuSkip s1 i
    else
      let p := raw - tiuSkew s i
      let s2 := wr64 (modTiu s1 i (fun t => { t with lastEdge := some raw })) (tiuR i 0x20) (wordOfQ p).toNat
      let s3 := tiuPulse s2 1 i (now s + 3)
      if st = tiuSTAMPWAIT then stampRequestEnd s3 i (some p)
      else if st = tiuSTOPINPUT then
        match (getTiu s3 i).stopOf with
        | some m => tiuStopEdge s3 m p
        | none => s3
      else tiuStartEdge s3 i p e.rising
  else s

/-- The edges of earlier ticks on input `i` are judged. -/
def tiuJudge (s : State) (i : Nat) : State :=
  let t := getTiu s i
  let due := t.queue.filter (fun e => decide (e.tick < now s))
  if due.isEmpty then s
  else
    forEach due (setTiu s i { t with queue := t.queue.filter (fun e => !decide (e.tick < now s)) }) (fun s e => tiuJudgeEdge s i e)

/-- The edges of earlier ticks: start inputs before stop inputs (R273). -/
def tiuJudgeAll (s : State) : State :=
  let l := (s.tiu.filter (fun p => !p.2.queue.isEmpty)).map Prod.fst
  let (stops, starts) := l.partition (fun i => tiuState s i == tiuSTOPINPUT)
  forEach stops (forEach starts s tiuJudge) tiuJudge

/-- The selector levels at the end of a tick: the prescaler outputs of KIND 2 (R279). -/
def tiuLevels (s : State) : BitVec 16 :=
  (List.range 16).foldl (fun v g =>
    if rdF s (tiuGselR g) 0 3 == 2 && (getTiu s (rdF s (tiuGselR g) 8 6)).lvl then v ||| BitVec.ofNat 16 (2 ^ g) else v) 0

/-- Prescaler outputs are sampled once per tick, as it ends, and reach the Junction inputs four ticks after (R279). A write of
TIU_GSEL shows with the sample of its tick. -/
def tiuSample (s : State) : State :=
  let v := tiuLevels s
  if v = s.glb.tiuLvl then s
  else
    forN 16 { s with glb := { s.glb with tiuLvl := v } } (fun t g =>
      if v.getLsbD g = s.glb.tiuLvl.getLsbD g then t else globalAt t (now s + 4) (8 + g) (v.getLsbD g))

/-- The end of a tick in the TIU. -/
def tiuTickEnd (s : State) : State := tiuSample (tiuJudgeAll s)

/-- Edges are counted for what input `i` is doing: the selected polarity, and both for WIDTH (R266, R275). -/
def tiuPolarity (s : State) (i : Nat) (rising : Bool) : Bool :=
  let e := tiuEdgeSel s i
  e == 2 || rising == (e == 0) || (tiuState s i == tiuMEASURING && (getTiu s i).typ == tyWIDTH)

/-- The input takes stamps on this tick: a measurement whose gate is open, its stop input, or a request. -/
def tiuTakes (s : State) (i : Nat) : Bool :=
  let st := tiuState s i
  let gate (m : Nat) : Bool := decide ((getTiu s m).gateTick ≤ now s) && decide (now s < (getTiu s m).gateTick + (getTiu s m).gate)
  (st == tiuMEASURING && gate i) ||
  (st == tiuSTOPINPUT && (match (getTiu s i).stopOf with | some m => gate m | none => false)) ||
  (st == tiuSTAMPWAIT && (match (getTiu s i).req with
    | some r => decide (r.2 ≤ now s) && decide (now s ≤ r.2 + 65535) | none => false))

/-- The level of input `i`'s prescaler output after an edge (R279): the input's own at ÷1; behind a longer count the polarity of the
edge it has just passed on, and a free value between those. -/
def tiuLevel (s : State) (i : Nat) (rising passed : Bool) : State :=
  if tiuPrescale s i = 0 then modTiu s i (fun t => { t with lvl := rising })
  else if passed then modTiu s i (fun t => { t with lvl := rising })
  else
    let (k, s1) := drawFree s
    modTiu s1 i (fun t => { t with lvl := Config.tiuPrescaled k })

/-- PTI_EDGE: an edge at the ball of input `i` (R266, R269). The prescaler counts it and passes on every P-th; that one is stamped on
the next tick. -/
def ptiEdge (s : State) (i : Nat) (rising : Bool) (phase code : Nat) : State :=
  let st := tiuState s i
  if !domReady s domTiu then s
  else if st = tiuNOCLOCK || st = tiuCALIBRATING then (if tiuPrescale s i = 0 then tiuLevel s i rising false else s)
  else
    let counts := tiuPolarity s i rising
    let n := (getTiu s i).edges + 1
    let passed := counts && decide (2 ^ tiuPrescale s i ≤ n)
    let s1 := tiuLevel s i rising passed
    let s2 := if counts then modTiu s1 i (fun t => { t with edges := if passed then 0 else n }) else s1
    if passed && tiuTakes s i then
      modTiu s2 i (fun t => { t with queue := t.queue ++ [{ c2 := 4 * now s + phase, code := code, rising := rising, tick := now s }] })
    else s2

/-- TIU_GATE_CLOSE: the gate of measurement `i` closes after tick G + gate - 1, behind the edges that arrived
by then. -/
def tiuGateClose (sIn : State) (i : Nat) : State :=
  let s := tiuJudgeAll sIn
  let t := getTiu s i
  if domReady s domTiu && tiuState s i = tiuMEASURING && t.gateTick + t.gate ≤ now s then tiuEnd s i 2 tiuIDLE else s

/-- TIU_NO_STOP: the open interval's elapsed time exceeds WIN_CLOSE (R273), and no edge that arrived
before this tick has closed it. -/
def tiuNoStop (sIn : State) (i : Nat) : State :=
  let s := tiuJudgeAll sIn
  let t := getTiu s i
  match t.openAt with
  | some st =>
    if tiuState s i = tiuMEASURING && t.typ = tyINTERVAL &&
        (rd s (tiuR i 0x10)).toNat * 256 * 256 < (now s : Int) * 256 * 256 - st then
      ctrAdd (setTiu s i { t with openAt := none, openWin := false }) (tiuR i 0x6C) 1
    else s
  | none => s

/-- TIU_WIN_OPEN or TIU_WIN_CLOSE was written on this tick (R274). -/
def tiuWinChanged (s : State) (i : Nat) : State :=
  if tiuState s i = tiuMEASURING then
    let s1 := tiuEvent (wrF s (tiuR i 0) 24 1 1) i 0x80
    modTiu s1 i (fun t => { t with winChg := true, openWin := t.openWin || t.openAt.isSome || t.pairAt.isSome })
  else s

/-- STAMP_REQUEST_TIMEOUT: no edge came by the end of tick x + 65,537 (R278). -/
def stampTimeout (sIn : State) (i : Nat) : State :=
  let s := tiuJudgeAll sIn
  match (getTiu s i).req with
  | some r => if tiuState s i = tiuSTAMPWAIT && r.2 + 65536 ≤ now s then stampRequestEnd s i none else s
  | none => s

/-- A calibration of input `i` completes with mean codes `n1`, `n2` (R270); the input is IDLE again. -/
def tiuCalDone (s : State) (i n1 n2 : Nat) : State :=
  let d : Int := (n2 : Int) - n1
  let n0 : Int := 2 * (n1 : Int) - n2
  let ok := decide (48 * 256 ≤ d) && decide (d ≤ 80 * 256) && decide (-(16 * 256) ≤ n0) && decide (n0 ≤ 16 * 256)
  let s1 := setTiuState (modTiu s i (fun t => { t with calFail := !ok })) i tiuIDLE
  if ok then wr s1 (tiuR i 0x18) (BitVec.ofNat 32 (n2 * 2 ^ 16 + n1)) else tiuEvent s1 i 0x40

/-- The input starts a calibration on this tick. -/
def tiuCalStart (s : State) (i : Nat) : State :=
  modTiu (setTiuState s i tiuCALIBRATING) i (fun t => { t with calFrom := now s, calFail := false })

/-- Its 16,384 ticks have passed. -/
def tiuCalDue (s : State) (i : Nat) : Bool :=
  tiuState s i == tiuCALIBRATING && decide ((getTiu s i).calFrom + 16384 ≤ now s) && domReady s domTiu

/-- The TIU PLL declares lock: every input calibrates (R268). -/
def tiuLocked (s : State) : State := forN 64 s tiuCalStart

/-- A command that waits for the calibration of its inputs fails with the first of them (R57, R58, R367). -/
def tiuCmdFault (s : State) (c : RunCmd) : State :=
  match c.wait with
  | .tiuCal is _ => completeCmd s c.m stHW_FAULT [unitWord 4 (is.headD 0) (tiuState s (is.headD 0))]
  | _ => s

/-- Drop `n` stamp requests to input `i` (R278). -/
def requestDrop (s : State) (i n : Nat) : State := if n = 0 then s else tiuEvent (ctrAdd s (tiuR i 0x78) n) i 0x20

/-- The request that input `i` holds is lost with its clock; it is counted as a dropped one (log 51). -/
def requestLost (s : State) (i : Nat) : State :=
  if (getTiu s i).req.isSome then requestDrop (modTiu s i (fun t => { t with req := none })) i 1 else s

/-- The TIU loses its clock: measurements end with END 4 (R272), held requests and calibrations with it. -/
def tiuNoClock (s : State) : State :=
  let s1 := forN 64 s (fun s i => if tiuState s i = tiuMEASURING then tiuEnd s i 4 tiuNOCLOCK else s)
  let s2 := forN 64 s1 (fun s i => modTiu (setTiuState (requestLost s i) i tiuNOCLOCK) i (fun t => { t with queue := [] }))
  forEach s2.running s2 tiuCmdFault

/-- An input's unit is gone: nothing is written; a running measurement shows END 4 and DONE (R272). Requests on their way find the
input without a clock. -/
def tiuInputOff (s : State) (i : Nat) : State :=
  let s1 := if tiuState s i = tiuMEASURING then tiuEvent (wrF s (tiuR i 0) 25 3 4) i 2 else s
  let s2 := requestLost s1 i
  let s3 := setTiu s2 i { TiuCore.init with reqIn := (getTiu s2 i).reqIn }
  setTiuState (modStr s3 (tiuStream i) (fun c => { c with openRec := none })) i tiuNOCLOCK

/-- The TIU domain is switched off. -/
def tiuOff (s : State) : State :=
  let s1 := forN 64 s tiuInputOff
  forEach s1.running s1 tiuCmdFault

/-- Stamp requests reach the TIU (R278): the lowest-numbered engine of a tick wins an IDLE input. -/
def tiuRequests (s : State) (i : Nat) : State :=
  let t := getTiu s i
  let due := t.reqIn.filter (fun r => decide (r.2 ≤ now s))
  if due.isEmpty then s
  else
    let s1 := setTiu s i { t with reqIn := t.reqIn.filter (fun r => decide (now s < r.2)) }
    let w := due.foldl (fun a r => if r.1 < a.1 then r else a) (due.headD (0, 0))
    let idle := domReady s domTiu && tiuState s i = tiuIDLE
    let lost := if idle then due.length - 1 else due.length
    let s2 := requestDrop s1 i lost
    if idle then modTiu (setTiuState s2 i tiuSTAMPWAIT) i (fun t => { t with req := some w }) else s2

/-- Input `i` as a new tick begins: its prescaler starts anew as the gate opens (R266), requests arrive, and what the record former has
passed is recorded. -/
def tiuInputTick (s : State) (i : Nat) : State :=
  let s1 := if tiuTakes s i && (getTiu s ((getTiu s i).stopOf.getD i)).gateTick == now s && tiuState s i != tiuSTAMPWAIT then
      modTiu s i (fun t => { t with edges := 0 }) else s
  let k : Int := (now s : Int) - 80 - s.lrel
  holdTick (stampForm (tiuRequests s1 i) i k) i k

/-- The TIU as a new tick begins. -/
def tiuTick (s : State) : State := forEach (s.tiu.map Prod.fst) s tiuInputTick

def execPtiEdge (i : Fin 64) (rising : Bool) (phase : BitVec 4) (code : BitVec 16) (s : State) : Out :=
  .next (ptiEdge s i.val rising phase.toNat code.toNat)
def execTiuGateClose (i : Fin 64) (s : State) : Out := .next (tiuGateClose s i.val)
def execTiuNoStop (i : Fin 64) (s : State) : Out := .next (tiuNoStop s i.val)
def execStampRequestTimeout (i : Fin 64) (s : State) : Out := .next (stampTimeout s i.val)

end Sys2Proof.Machine
end

