-- ==== Sys2Proof/Machine/Dfc.lean ====
section
/-! DEFINITION. The decimation chains (chapter 13), and a slice at a lane input (R128, R146, R288). Positions are in 2^-24
ticks (R292). -/

namespace Sys2Proof.Machine

/-! ### Thresholds (R296 to R298) -/

def thrLevelR (j t : Nat) : Nat := dfcR j (0x10 + 8 * t)
def thrCfgR (j t : Nat) : Nat := dfcR j (0x14 + 8 * t)

/-- The settings in the registers of chain `j`. -/
def thrSettings (s : State) (j : Nat) : List ThrSet :=
  (List.range 2).map (fun t => { level := rd s (thrLevelR j t), cfg := rd s (thrCfgR j t) })

/-- The setting that threshold `t` of chain `j` acts under: the one of the latest output compared (R298). -/
def thrInForce (s : State) (j t : Nat) : ThrSet := (getDfc s j).thr.getD t { level := 0, cfg := 0 }

/-- The Global bit a setting routes to. -/
def thrBit (x : ThrSet) : Nat := fld x.cfg 24 6

/-- Threshold `t` of chain `j` is enabled, active and routed to Global bit `b`. -/
def thrDrives (s : State) (j t b : Nat) : Bool :=
  bitAt (thrInForce s j t).cfg 31 && rdBit s (dfcR j 0) (4 + t) && thrBit (thrInForce s j t) == b

/-- The OR of the thresholds routed to bit `b`. -/
def thrOr (s : State) (b : Nat) : Bool := (List.range 64).any (fun j => thrDrives s j 0 b || thrDrives s j 1 b)

/-- Global bit `b` follows a change of the thresholds between states `s0` and `s`, one tick after it (R297). -/
def thrGlobal (s0 s : State) (b : Nat) : State :=
  if thrOr s0 b = thrOr s b then s else globalAt s (now s + 1) b (thrOr s b)

/-- A setting takes effect (R298): a threshold that stays enabled on its bit keeps its state, any other starts inactive. -/
def thrApply (s : State) (j t : Nat) (x : ThrSet) : State :=
  let old := thrInForce s j t
  let same := bitAt old.cfg 31 && bitAt x.cfg 31 && thrBit old == thrBit x
  let s1 := modDfc s j (fun c => { c with thr := ([0, 1].map (fun u => if u = t then x else thrInForce s j u)) })
  let s2 := if same then s1 else wrBit s1 (dfcR j 0) (4 + t) false
  thrGlobal s s2 (thrBit old)

/-- Compare a settled output `v` with threshold `t` (R296). -/
def thrCompare (s : State) (j : Nat) (v : Int) (t : Nat) : State :=
  let x := thrInForce s j t
  if !bitAt x.cfg 31 then s
  else
    let level := signedOf 32 x.level.toNat
    let hyst : Int := fld x.cfg 0 24
    let act := rdBit s (dfcR j 0) (4 + t)
    let fall := bitAt x.cfg 30
    let on := if fall then decide (v < level) else decide (level < v)
    let off := if fall then decide (level + hyst < v) else decide (v < level - hyst)
    let new := if act then !off else on
    if new = act then s
    else
      let s1 := wrBit s (dfcR j 0) (4 + t) new
      let s2 := if new then dfcEvent s1 j (bit (1 + t)) else s1
      thrGlobal s s2 (thrBit x)

/-- An output reaches the thresholds: first the settings it was computed under, then the comparison where it is settled. -/
def thrOutput (s : State) (j : Nat) (c : ThrCmp) : State :=
  let s1 := forN 2 s (fun s t => match c.set[t]? with | some x => if x = thrInForce s j t then s else thrApply s j t x | none => s)
  match c.val with
  | some v => forN 2 s1 (fun s t => thrCompare s j v t)
  | none => s1

/-- The comparisons due on this tick (R297). -/
def thrTick (s : State) (j : Nat) : State :=
  let due := (getDfc s j).cmps.filter (fun c => decide (c.due ≤ now s))
  if due.isEmpty then s
  else
    forEach due (modDfc s j (fun c => { c with cmps := c.cmps.filter (fun x => decide (now s < x.due)) })) (fun s c => thrOutput s j c)

/-- Both thresholds of chain `j` turn inactive, and outputs not compared yet are not compared any more. -/
def thrInactive (s : State) (j : Nat) : State :=
  forN 2 (modDfc s j (fun c => { c with cmps := [] })) (fun s t =>
    if rdBit s (dfcR j 0) (4 + t) then thrGlobal s (wrBit s (dfcR j 0) (4 + t) false) (thrBit (thrInForce s j t)) else s)

/-! ### The arithmetic of the paths (R289 to R293) -/

/-- Insert into a rising list. -/
def sortInsert (x : Int) : List Int → List Int
  | [] => [x]
  | y :: ys => if x ≤ y then x :: y :: ys else y :: sortInsert x ys

def sortInts (l : List Int) : List Int := l.foldr sortInsert []

/-- The sample of record tick `k`; a cleared filter holds 0 for ticks before the reset. -/
def dfcSample (c : DfcCore) (k : Int) : Int :=
  match c.inputs.find? (fun i => decide (i.recTick = k)) with | some i => i.sample | none => 0

/-- The rank filter's output for tick `k` (R289). -/
def dfcRank (c : DfcCore) (k : Int) : Int :=
  if c.rankL = 0 then dfcSample c k
  else
    let h := (c.rankL - 1) / 2
    let l := (List.range c.rankL).map (fun (i : Nat) => dfcSample c (k - h + i))
    (sortInts l).getD ((if c.rankK = 0 then (c.rankL + 1) / 2 else c.rankK) - 1) 0

/-- The rank filter's outputs of `n` ticks from `a` up. -/
def rankRun (c : DfcCore) (a : Int) (n : Nat) : List Int := (List.range n).map (fun (i : Nat) => dfcRank c (a + (i : Int)))

def sumInts (l : List Int) : Int := l.foldl (· + ·) 0

/-- Running totals of a list, a zero in front. -/
def totals : Int → List Int → List Int
  | a, [] => [a]
  | a, x :: l => a :: totals (a + x) l

/-- The sums of every `r` neighbours. -/
def boxcar (r : Nat) (l : List Int) : List Int :=
  let p := totals 0 l
  List.zipWith (fun hi lo => hi - lo) (p.drop r) p

/-- A fifth-order CIC over `r` ticks: five boxcars, at every tick (R290, R292). -/
def cic5 (r : Nat) (l : List Int) : List Int := boxcar r (boxcar r (boxcar r (boxcar r (boxcar r l))))

/-- The ticks that one CIC output rests on. -/
def cicSpan (r : Nat) : Nat := 5 * (r - 1) + 1

/-- The CIC outputs that rest on the `n` newest starts at spacing `r`, newest first; the newest ends at record tick `e`. -/
def cicRun (c : DfcCore) (r : Nat) (e : Int) (n : Nat) : List Int :=
  let l := (cic5 r (rankRun c (e - ((r * (n - 1) + cicSpan r - 1 : Nat) : Int)) (r * (n - 1) + cicSpan r))).reverse
  (List.range n).map (fun i => l.getD (r * i) 0)

/-- Taps of FIR stage `g` of a preset, the newest sample's first: linear-phase (R290). The support bounds their number. -/
def firTaps (path g : Nat) : List Int :=
  let n := min (Config.dfcLen path g) 12
  (List.range n).map (fun i => (Config.dfcTap path g (min i (n - 1 - i))).toInt)

/-- Weighted sum of every `m`-th sample, the newest first. -/
def firSum (taps : List Int) (m : Nat) (l : List Int) : Int :=
  sumInts ((List.range taps.length).map (fun i => taps.getD i 0 * l.getD (m * i) 0))

/-- A FIR stage that decimates by 2: the outputs from the inputs, newest first. -/
def firStage (taps : List Int) : Nat → List Int → List Int
  | 0, _ => []
  | n + 1, l => firSum taps 1 l :: firStage taps n (l.drop 2)

/-- A quotient in output units, rounded either way, and the free value where 24 bits do not hold it. -/
def dfcRounded (s : State) (num : Int) (den : Nat) : Int × State :=
  let (k, s1) := drawFree s
  let lo := num.fdiv den
  let v := if num = lo * den then lo else if Config.dfcRound k then lo + 1 else lo
  (if decide (-8388608 ≤ v) && decide (v ≤ 8388607) then v else (Config.dfcOver k).toInt, s1)

/-- Paths 0 to 3 (R290): CIC by D / 4, then two FIR stages by 2, centred on record tick `r`; unity gain is 256 units. -/
def dfcPreset (s : State) (j : Nat) (r : Int) : Int × State :=
  let c := getDfc s j
  let path := dfcPath s j
  let q := presetD path / 4
  let t1 := firTaps path 1
  let t2 := firTaps path 2
  let n := t1.length + 2 * t2.length
  let reach := (q * (t1.length - 1) + 2 * q * (t2.length - 1) + cicSpan q - 1) / 2
  let y := firSum t2 1 (firStage t1 t2.length (cicRun c q (r + reach) n))
  let gain := sumInts t1 * sumInts t2
  dfcRounded s (y * 256 * gain.sign) (q ^ 5 * gain.natAbs)

/-- Path 4 (R292): CIC by M, then 32 taps of the two phases nearest to position `p`, weighted by its distance from them. -/
def dfcResample (s : State) (j : Nat) (p : Int) : Int × State :=
  let c := getDfc s j
  let m := dfcM s j
  let off := p - c.grid * 2 ^ 24
  let step : Int := ((m * 2 ^ 24 : Nat) : Int)
  let e := c.grid + (off.fdiv step + 18) * m
  let frac := (off.fmod step).toNat * 64
  let phase := frac / (m * 2 ^ 24)
  let w : Int := (frac % (m * 2 ^ 24) : Nat)
  let l := cicRun c m e 33
  let bank (ph : Nat) : List Int := (List.range 32).map (fun t => (Config.dfcPhase (64 * t + ph)).toInt)
  let y := firSum (bank phase) 1 l * (step - w) +
    (if phase = 63 then firSum (bank 0) 1 (l.drop 1) else firSum (bank (phase + 1)) 1 l) * w
  let gain := sumInts (bank phase) * (step - w) + sumInts (bank (if phase = 63 then 0 else phase + 1)) * w
  dfcRounded s (y * 256 * gain.sign) (m ^ 5 * gain.natAbs)

/-- Path 5 (R293): the mean of D samples. -/
def dfcBoxcar (s : State) (j : Nat) (p : Int) : Int × State :=
  let d := dfcD s j
  let first := (p - (((d - 1) * 2 ^ 23 : Nat) : Int)) / 2 ^ 24
  dfcRounded s (sumInts (rankRun (getDfc s j) first d) * 256) d

/-- Sample value of the output at position `p`, in output units. -/
def dfcValue (s : State) (j : Nat) (p : Int) : Int × State :=
  if dfcPath s j = 5 then dfcBoxcar s j p
  else if dfcPath s j = 4 then dfcResample s j p
  else dfcPreset s j (p / 2 ^ 24)

/-- Ticks before its support that the interpolator of path 4 still looks at. -/
def dfcMargin (s : State) (j : Nat) : Int := if dfcPath s j = 4 then ((2 * dfcM s j : Nat) : Int) else 0

/-! ### Outputs (R288, R291, R294, R297) -/

/-- The next output of chain `j`: its slot, its place on the way to the thresholds, and its place on hold. It is computed on tick
u + l_rel + 2, or on this one if that has passed. -/
def dfcCompute (s : State) (j : Nat) : State :=
  let c := getDfc s j
  let p := dfcPos s j c.outIdx
  let supp := dfcSupp s j p
  let upto := dfcUpto s j p
  let (v, s1) := dfcValue s j p
  let ins := c.inputs.filter (fun i => decide (supp ≤ i.recTick) && decide (i.recTick ≤ upto))
  let unsettled := decide (supp < c.grid)
  let ovr := ins.any (fun i => i.ovr)
  let susp := ins.any (fun i => i.missing || i.bad)
  let slot := BitVec.ofNat 32 (b2n ovr * 2 ^ 31 + b2n unsettled * 2 ^ 30 + b2n susp * 2 ^ 29 + (v % 2 ^ 24).toNat)
  let next := dfcSupp s j (dfcPos s j (c.outIdx + 1)) - dfcMargin s j
  let done := max (now s) (upto + s.lrel + 2).toNat
  let s2 := setDfc s1 j
    { c with
      outIdx := c.outIdx + 1
      inputs := c.inputs.filter (fun i => decide (next ≤ i.recTick) || decide (i.recTick = c.lastIn))
      cmps := c.cmps ++ [{ due := done + 1, val := if unsettled then none else some v, set := thrSettings s j }]
      held := c.held ++ [{ due := done + 80, lane := dfcLane s j, ring := c.ring, pos := p, supp := supp, upto := upto
                           slot := slot, period := rd s (dfcR j 0x20), close := false }] }
  let s3 := ctrAdd64 (wr s2 (dfcR j 0xC) slot) (dfcR j 0x38) 1
  let s4 := if ovr then dfcEvent (ctrAdd s3 (dfcR j 0x2C) 1) j 8 else s3
  if !unsettled && dfcState s4 j = dfcSETTLING then dfcEvent (setDfcState s4 j dfcRUNNING) j 1 else s4

/-- The last input of the chain's next output has come. -/
def dfcReady (s : State) (j : Nat) : Bool :=
  let c := getDfc s j
  dfcActive s j && decide (dfcUpto s j (dfcPos s j c.outIdx) ≤ c.lastIn)

/-- DFC_OUTPUT: the chain computes its next output; thresholds, events and Global bits follow on the ticks of R297. -/
def dfcOutput (s : State) (j : Nat) : State :=
  if domReady s domAnalog && dfcReady s j &&
      decide (dfcUpto s j (dfcPos s j (getDfc s j).outIdx) + s.lrel + 2 ≤ (now s : Int)) then dfcCompute s j
  else s

/-- A chain drops no output (R288): before a reset the outputs whose inputs have all come are computed. `fuel` bounds them. -/
def dfcDrain (s : State) (j : Nat) : Nat → State
  | 0 => s
  | fuel + 1 => if dfcReady s j then dfcDrain (dfcCompute s j) j fuel else s

/-- As many outputs as the inputs can bring. -/
def dfcOwed (s : State) (j : Nat) : Nat :=
  let c := getDfc s j
  (((c.lastIn - dfcUpto s j (dfcPos s j c.outIdx)) * 2 ^ 24) / dfcT s j + 2).toNat

/-! ### Resets (R286, R299) -/

/-- Clear the filter state and restart the grid at record tick `e`; the open record closes behind the outputs on hold. -/
def dfcRestart (s : State) (j : Nat) (e : Int) : State :=
  let s1 := modDfc s j (fun c =>
    { c with
      grid := e, inputs := [], lastIn := e - 1, outIdx := 0
      held := c.held ++ [{ due := now s + 80, lane := 0, ring := 0, pos := 0, supp := 0, upto := 0, slot := 0, period := 0
                           close := true }] })
  setDfcState s1 j dfcSETTLING

/-- A reset of chain `j` for record tick `e`. -/
def dfcReset (s : State) (j : Nat) (e : Int) : State :=
  dfcRestart (if dfcActive s j then dfcDrain s j (dfcOwed s j) else s) j e

/-- DFC_SYNC for a chain (R299): the reset acts on the slice of record tick `e`. -/
def dfcSyncAt (s : State) (j : Nat) (e : Int) : State :=
  if dfcActive s j then modDfc s j (fun c => { c with resets := c.resets ++ [e] }) else s

/-- The resets whose slices have come by record tick `k`. -/
def dfcResets (s : State) (j : Nat) (k : Int) : State :=
  let due := (getDfc s j).resets.filter (fun e => decide (e ≤ k))
  forEach due (modDfc s j (fun c => { c with resets := c.resets.filter (fun e => !decide (e ≤ k)) })) (fun s e => dfcReset s j e)

/-! ### Inputs (R288) -/

/-- The sample chain `j` takes for record tick `k`: `none` a missing one. -/
def dfcPush (s : State) (j : Nat) (k : Int) (x : Option (Int × Bool)) : State :=
  let s1 := dfcResets s j k
  let c := getDfc s1 j
  if c.lastIn < k then
    let last := match c.inputs with | i :: _ => i.sample | [] => 0
    let i : DfcIn := match x with
      | some (v, o) => { recTick := k, sample := v, missing := false, ovr := o, bad := false }
      | none => { recTick := k, sample := last, missing := true, ovr := false, bad := false }
    setDfc s1 j { c with inputs := i :: c.inputs, lastIn := k }
  else s1

/-- Record ticks that brought no slice before record tick `k` are missing samples. `fuel` bounds them. -/
def dfcFill (s : State) (j : Nat) (k : Int) : Nat → State
  | 0 => s
  | fuel + 1 =>
    let n := (getDfc s j).lastIn + 1
    if n < k then dfcFill (dfcPush s j n none) j k fuel else s

/-- A slice of the chain's lane reaches the lane input. -/
def dfcTake (s : State) (n : Nat) (k : Int) (valid : Bool) (p : Word) (j : Nat) : State :=
  let x : Option (Int × Bool) :=
    if valid && laneFmt s n == 3 then
      let ch := dfcChan s j
      let raw := fld p (16 * ch) 16
      some (signedOf 16 raw, raw == 0x7FFF || raw == 0x8000 || rdBit s (lR n 0xC) (4 + ch))
    else none
  let gap := (k - (getDfc s j).lastIn - 1).toNat
  dfcPush (dfcFill s j k gap) j k x

/-- The chains that take a lane. -/
def chainsOf (s : State) (n : Nat) : List Nat := (List.range 64).filter (fun j => dfcActive s j && dfcLane s j == n)

/-- A superframe of lane `n` whose first slice has record tick `f` was found bad: every output whose support includes one of
its slices carries SUSPECT (R288), those on hold from before a new configuration included. -/
def dfcMarkBad (s : State) (n : Nat) (f : Int) : State :=
  let markIn (s : State) (j : Nat) : State :=
    if dfcActive s j && dfcLane s j == n then
      modDfc s j (fun c => { c with
        inputs := c.inputs.map (fun i => if f ≤ i.recTick && i.recTick < f + 64 then { i with bad := true } else i) })
    else s
  forEach (s.dfc.map Prod.fst) s (fun s j => modDfc (markIn s j) j (fun c =>
    { c with
      held := c.held.map (fun o =>
        if !o.close && o.lane == n && decide (o.supp < f + 64) && decide (f ≤ o.upto) then
          { o with slot := o.slot ||| 0x20000000 } else o) }))

/-! ### Records (R213, R230, R294, R295) -/

/-- Close chain `j`'s open record with flags `fl`; one for a ring that no longer exists is dropped and counted (R295). -/
def dfcClose (s : State) (j : Nat) (fl : BitVec 8) : State :=
  let n := dfcStream j
  match (getStr s n).openRec with
  | none => s
  | some o =>
    if ringExists s o.ring then closeOpen (trigsBefore s n (o.last * 256 + 1)) n fl
    else dfcEvent (ctrAdd (modStr s n (fun c => { c with openRec := none })) (dfcR j 0x34) 1) j 0x20

/-- Chain `j`'s records are written for record tick `k` (R203, R204, R295): into the bound ring, or into the one of the DFC_CONFIG
under which the output was computed. -/
def dfcWrites (s : State) (j : Nat) (ring : Word) (k : Int) : Bool :=
  if strBound s (dfcStream j) then covers s k else ring != 0xFFFFFFFF

/-- An output of record tick `k` continues the run of the record that began at record tick `f`. -/
def dfcContinues (s : State) (j : Nat) (ring : Word) (f k : Int) : Bool :=
  dfcWrites s j ring k && (!strBound s (dfcStream j) || sameSegment s f k)

/-- What follows the output just released continues its run: the next one on hold, or, where none is on hold, the next one to be
computed, by what is known on this tick (log 52). -/
def dfcGoesOn (s : State) (j : Nat) (o : DfcOut) (f : Int) : Bool :=
  match (getDfc s j).held with
  | x :: _ => !x.close && dfcContinues s j x.ring f (recTickOf (dfcTs x.pos))
  | [] =>
    let k := recTickOf (dfcTs (dfcPos s j (getDfc s j).outIdx))
    dfcActive s j && (getDfc s j).resets.isEmpty && dfcContinues s j o.ring f k

/-- An output leaves the hold (R288, R294). -/
def dfcRelease (s : State) (j : Nat) (o : DfcOut) : State :=
  if o.close then dfcClose s j 0
  else
    let n := dfcStream j
    let s1 := if bitAt o.slot 29 then dfcEvent (ctrAdd s (dfcR j 0x30) 1) j 0x10 else s
    let s2 := if (getDfc s1 j).held.any (fun x => !x.close) then s1 else wr s1 (dfcR j 0xC) o.slot
    let ts := dfcTs o.pos
    let k := recTickOf ts
    let s3 := match (getStr s2 n).openRec with
      | some r =>
        if !dfcContinues s2 j o.ring r.first k then dfcClose s2 j 0
        else if r.first + 262143 < k then dfcClose s2 j flagCONT else s2
      | none => s2
    if dfcWrites s3 j o.ring k then
      let fresh : OpenRec :=
        { typ := tyANALOG, first := k, last := k, ts := BitVec.ofInt 64 ts, flags := 0
          head := BitVec.ofNat 64 (o.period.toNat * 2 ^ 32 + 2 ^ 30), items := []
          ring := if strBound s3 n then strRingOf s3 n else o.ring.toNat, at_ := now s3, lost := false }
      let s4 := otherAdd s3 n k (if bitAt o.slot 31 then flagOVR else 0) [BitVec.ofNat 64 o.slot.toNat] fresh
      match (getStr s4 n).openRec with
      | some r =>
        if 1024 ≤ r.items.length then dfcClose s4 j (if dfcGoesOn s4 j o r.first then flagCONT else 0) else s4
      | none => s4
    else s3

/-- The outputs of chain `j` that leave the hold on this tick, in order. `fuel` bounds them. -/
def dfcReleases (s : State) (j : Nat) : Nat → State
  | 0 => s
  | fuel + 1 =>
    match (getDfc s j).held with
    | [] => s
    | o :: r => if o.due ≤ now s then dfcReleases (dfcRelease (modDfc s j (fun c => { c with held := r })) j o) j fuel else s

/-- Chain `j` as a new tick begins: thresholds, outputs that leave the hold, and a missing sample for a tick without a slice. -/
def dfcChainTick (s : State) (j : Nat) : State :=
  let s2 := dfcReleases (thrTick s j) j ((getDfc s j).held.length)
  if dfcActive s2 j then
    let k : Int := (now s : Int) - s.lrel
    dfcFill s2 j k (k - (getDfc s2 j).lastIn - 1).toNat
  else s2

/-- The chains as a new tick begins. -/
def dfcTick (s : State) : State :=
  if domReady s domAnalog then forEach (s.dfc.map Prod.fst) s dfcChainTick else s

/-- The analog domain switched on or off (R287): chains IDLE or OFF, thresholds disabled and their Global bits 0 (R296). The
registers lie in the AON domain (R33) and are kept but for these. -/
def dfcSwitch (s : State) (on : Bool) : State :=
  let s1 := forN 64 s thrInactive
  forN 64 s1 (fun s j =>
    let s1 := modStr { s with dfc := tabDel s.dfc j } (dfcStream j) (fun c => { c with openRec := none })
    let s2 := ([0x10, 0x14, 0x18, 0x1C]).foldl (fun s o => wr s (dfcR j o) 0) s1
    wr s2 (dfcR j 0) (if on then 1 else 0))

/-! ### A slice at a lane input (R96, R128, R146) -/

def laneLIVE : Nat := 7

/-- SLICE_AT_LANE_INPUT: lane `n`'s slice of this tick. The engine's resources take it as the tick ends. -/
def sliceAtLaneInput (s : State) (n : Nat) (payload : Word) (marker : Bool) : State :=
  let t := now s
  if domReady s (domLink n) && domReady s domTimebase && !((getLane s n).hist.any (fun x => x.tick == t)) then
    let live := laneState s n == laneLIVE
    -- a superframe on the line says itself whether its marker was found (R96)
    let valid := live && marker && (match (getLane s n).sf.cur with
      | some c => c.found || decide (c.first + 64 ≤ t)
      | none => true)
    let x : Slice := { tick := t, payload := if valid then payload else 0, valid := valid,
                       live := live && decide ((getLane s n).liveFrom ≤ t), bad := none, qual := none, marks := [] }
    let s1 := modLane s n (fun l => { l with hist := x :: l.hist.take 159 })
    let s2 := wrBit s1 (lR n 0) 11 valid
    let k : Int := (t : Int) - s.lrel
    forEach (chainsOf s2 n) s2 (fun s j => dfcTake s n k valid x.payload j)
  else s

def execDfcOutput (j : Fin 64) (s : State) : Out := .next (dfcOutput s j.val)
def execSliceAtLaneInput (n : Fin 256) (payload : Word) (marker : Bool) (s : State) : Out :=
  .next (sliceAtLaneInput s n.val payload marker)

end Sys2Proof.Machine
end

