-- ==== Sys2Proof/Machine/Lanes.lean ====
section
/-! DEFINITION. Rail lanes (chapter 04): received superframes, lane states and training, return lanes, and the commands of
group 0x02. -/

namespace Sys2Proof.Machine

/-! ### Lane states (R86) -/

def laneOFF : Nat := 0
def laneUNTRAINED : Nat := 1
def lanePHASE (p : Nat) : Nat := if p = 6 then 10 else p + 1
def laneLOST : Nat := 8
def laneFAILED : Nat := 9

def setLaneState (s : State) (n v : Nat) : State := wrF s (lR n 0) 0 4 v

/-- The training phase of a lane in training, 0 otherwise. -/
def lanePhase (s : State) (n : Nat) : Nat :=
  let v := laneState s n
  if 2 ≤ v && v ≤ 6 then v - 1 else if v = 10 then 6 else 0

/-! ### Return lanes (R81 to R84) -/

/-- The lanes of return lane `k`. -/
def groupLanes (k : Nat) : List Nat := (List.range 8).map (fun i => 8 * k + i)

/-- Return lane `k` is out of electrical idle. -/
def retActive (s : State) (k : Nat) : Bool :=
  domReady s (domLink (8 * k)) && (groupLanes k).any (fun n => laneFmt s n != 0)

/-- The lane PLL and the timebase PLL behind lane `n` are locked: neither side of the lane's crossing runs on a safe clock
(R105, R116). -/
def laneClocked (s : State) (n : Nat) : Bool :=
  domReady s (domLink n) && domReady s domTimebase && (getPll s 0).locked && (getPll s (2 + n / 32)).locked

/-- Queue a control frame on return lane `k`. -/
def retQueue (s : State) (k : Nat) (f : RetFrame) : State :=
  let r := getRet s k
  setRet s k { r with queue := r.queue ++ [f] }

/-- A control frame header (R83). -/
def frameHeader (dest typ len seq op : Nat) : Word :=
  BitVec.ofNat 32 (dest * 2 ^ 28 + typ * 2 ^ 24 + len * 2 ^ 16 + seq * 2 ^ 8 + op)

/-- A TRAIN or FORMAT frame of the firmware (R83, R87); `sync` as in `RetFrame`. -/
def fwFrame (s : State) (k dest typ op : Nat) (body : List Word) (sync : List Nat) : State :=
  let (d, s1) := drawFree s
  retQueue s1 k
    { words := frameHeader dest typ body.length (Config.frameSeq d).toNat op :: body, waiter := none, sync := sync, go := false }

def frTRAIN : Nat := 4
def frFORMAT : Nat := 3

/-- A frame to lane `n` alone. -/
def fwLaneFrame (s : State) (n typ op : Nat) (body : List Word) : State := fwFrame s (n / 8) (n % 8) typ op body []

/-- The 20 words of a return superframe before scrambling (R82). -/
def retWords (rseq : BitVec 16) (start : Bool) (payload : List Word) : List Word :=
  let hdr := BitVec.ofNat 32 (rseq.toNat * 2 ^ 16 + b2n start * 256 + payload.length)
  let mid := hdr :: (payload ++ List.replicate (16 - payload.length) 0) ++ [0]
  let crc := crc32 (mid.flatMap (fun w => bitsMsb 32 w.toNat))
  0x3A5F0C96 :: mid ++ [BitVec.ofNat 32 crc]

/-- Scramble a word. -/
def scrambleWord (scr : BitVec 58) (w : Word) : BitVec 58 × Word :=
  let (scr1, bits) := codeBits scramble scr (bitsMsb 32 w.toNat)
  (scr1, BitVec.ofNat 32 (natOfBits bits))

def scrambleWords : BitVec 58 → List Word → BitVec 58 × List Word
  | scr, [] => (scr, [])
  | scr, w :: ws =>
    let (scr1, v) := scrambleWord scr w
    let (scr2, vs) := scrambleWords scr1 ws
    (scr2, v :: vs)
termination_by structural _ x => x

/-- The next frame of the queue goes into transmission; a SYNC frame once every return lane of its command can send its own. -/
def retLoad (r : RetCore) : RetCore × Bool :=
  if r.busy then (r, false)
  else match r.queue with
    | [] => (r, false)
    | f :: q =>
      if !f.sync.isEmpty && !f.go then (r, false)
      else ({ r with queue := q, busy := true, part := f.words, waiter := f.waiter, seq := (f.words.headD 0).extractLsb' 8 8 }, true)

/-- Return lane `k` has nothing before the SYNC frame of the lanes `ks`, or is in electrical idle and sends none. -/
def syncReady (s : State) (ks : List Nat) (k : Nat) : Bool :=
  !retActive s k ||
  (!(getRet s k).busy && (match (getRet s k).queue with | f :: _ => f.sync == ks | [] => true))

/-- The SYNC frame at the head of return lane `k` goes out on all its lanes in this return superframe, if all can (R87). -/
def syncGo (s : State) (k : Nat) : State :=
  match (getRet s k).queue with
  | f :: _ =>
    if !f.sync.isEmpty && !f.go && f.sync.all (syncReady s f.sync) then
      forEach f.sync s (fun s i =>
        let r := getRet s i
        match r.queue with
        | g :: q => if g.sync = f.sync then setRet s i { r with queue := { g with go := true } :: q } else s
        | [] => s)
    else s
  | [] => s

/-- RETURN_SUPERFRAME: return lane `k` sends the superframe that starts on this tick (R81 to R83). LANE_RET_STATUS shows its
RSEQ from its start (DESIGN CHOICE, log 54). -/
def returnSuperframe (s0 : State) (k : Nat) : State :=
  let s := syncGo s0 k
  if retActive s k && laneClocked s (8 * k) && now s % 64 == 0 &&
      (match (getRet s k).lastAt with | some t => decide (t + 64 ≤ now s) | none => true) then
    let (r, start) := retLoad (getRet s k)
    let rseq := r.rseq + 1
    let words := retWords rseq start (r.part.take 16)
    let (scr, line) := scrambleWords r.scr (words.drop 1)
    let s1 := setRet s k { r with rseq := rseq, part := r.part.drop 16, scr := scr, lastAt := some (now s) }
    { s1 with retTx := (k, words.headD 0 :: line) :: s1.retTx }
  else s0

/-- The end of a return superframe: a frame whose last words it carried has been sent (R84). -/
def retTick (s : State) (k : Nat) : State :=
  let r := getRet s k
  if r.busy && r.part.isEmpty && decide (r.lastAt.getD (now s) + 64 ≤ now s) then
    let s1 := setRet s k { r with busy := false, lastSeq := r.seq, waiter := none }
    match r.waiter with
    | some m => completeCmd s1 m stOK [1]
    | none => s1
  else s

/-- LANE_RET_STATUS of lane `n` (R98). -/
def retStatus (s : State) (n : Nat) : Word :=
  let k := n / 8
  let r := getRet s k
  BitVec.ofNat 32 (r.rseq.toNat * 2 ^ 16 + r.lastSeq.toNat * 2 ^ 8 + b2n r.busy * 2 + b2n (retActive s k))

/-- Return lane `k` is in electrical idle: nothing is queued or sent, and a RETURN_SEND whose frame is lost completes with the
status its check for electrical idle gives (DESIGN CHOICE, log 54). -/
def retIdle (s : State) (k : Nat) : State :=
  if retActive s k then s
  else
    let r := getRet s k
    let ms := r.waiter.toList ++ r.queue.filterMap (fun f => f.waiter)
    forEach ms (setRet s k { r with queue := [], busy := false, part := [], waiter := none }) (fun s m =>
      completeCmd s m stBAD_STATE [unitWord 1 (8 * k) (laneState s (8 * k))])

/-! ### Bad superframes and lost lock (R91, R92, R94, R95) -/

/-- The slices of lane `n` from tick `t` up to the present are not those of a LIVE lane. -/
def unlive (s : State) (n : Nat) (t : Tick) : State :=
  modLane s n (fun l => { l with hist := l.hist.map (fun x => if t ≤ x.tick then { x with live := false } else x) })

/-- The superframe whose first slice reached the lane input on tick `f` is bad; `c` is its counter and `b` its cause. -/
def badSuperframe (s : State) (n : Nat) (f : Tick) (c : Nat) (b : Word) : State :=
  let s1 := modLane s n (fun l =>
    { l with hist := l.hist.map (fun x => if f ≤ x.tick && x.tick < f + 64 then { x with bad := some f } else x) })
  let s2 := laneEvent (ctrAdd s1 (lR n c) 1) n b
  let s3 := wr64 s2 (lR n 0x50) (sliceTs s2 n ((f : Int) - s.lrel)).toNat
  dfcMarkBad s3 n ((f : Int) - s.lrel)

def badCrc (s : State) (n : Nat) (f : Tick) : State := badSuperframe s n f 0x10 1
def badSync (s : State) (n : Nat) (f : Tick) : State := badSuperframe s n f 0x14 2
def badFmt (s : State) (n : Nat) (f : Tick) : State := badSuperframe s n f 0x18 4

/-- Lane `n` enters LOST in the superframe that starts on tick `f`; the superframes whose CRC never arrives are bad. -/
def laneLoseAt (s : State) (n : Nat) (f : Tick) : State :=
  let s1 := match (getLane s n).sf.pend with
    | some p => if p.first < f then badCrc s n p.first else s
    | none => s
  let s2 := badCrc s1 n f
  let s3 := modLane (unlive s2 n f) n (fun l => { l with sf := SfState.init, lossAt := none })
  let s4 := hwClr (setLaneState s3 n laneLOST) (lR n 0) 0x100
  laneEvent (ctrAdd s4 (lR n 0x1C) 1) n 8

/-- The first tick of the superframe that tick `now` lies in, as the lane's receiver counts superframes. -/
def sfStart (s : State) (n : Nat) : Tick :=
  match (getLane s n).sf.cur with
  | some c => if now s < c.first + 64 then c.first else c.first + 64
  | none => now s

/-- A loss of lock between superframes' events: CDR loss, wander, a relock (R94, R111, R112). A lane in training loses its
marker lock and the superframes it has counted. -/
def laneLose (s : State) (n : Nat) : State :=
  if laneState s n = laneLIVE then laneLoseAt s n (sfStart s n)
  else if lanePhase s n = 0 then s
  else hwClr (modLane s n (fun l => { l with sf := SfState.init, lossAt := none })) (lR n 0) 0x100

/-- Lane `n` loses CDR lock, or its wander exceeds 16 UI, on this tick: it is LOST on the tick after (R94). -/
def laneLosing (s : State) (n : Nat) : State :=
  if laneState s n == laneLIVE || lanePhase s n != 0 then modLane s n (fun l => { l with lossAt := l.lossAt.or (some (now s)) })
  else s

/-- As a tick begins: a loss of lock of the tick before takes effect. -/
def laneLossDue (s : State) (n : Nat) : State :=
  match (getLane s n).lossAt with
  | some t => if t < now s then laneLose (modLane s n (fun l => { l with lossAt := none })) n else s
  | none => s

/-! ### Received superframes (R70 to R78) -/

/-- A superframe off the line. -/
structure SfBits where
  marker  : Nat
  oh      : List Nat
  payload : List Bool
  scr     : BitVec 58
deriving DecidableEq, Repr

/-- Descramble ticks `k`, `k + 1`, … of a superframe: overhead bytes in order, and the payload bits. -/
def sfRead (k : Nat) (scr : BitVec 58) : List (BitVec 40) → List Nat × List Bool × BitVec 58
  | [] => ([], [], scr)
  | w :: ws =>
    let bits := bitsMsb 40 w.toNat
    let raw := if k < 4 then bits.take 8 else []
    let (scr1, out) := codeBits descramble scr (if k < 4 then bits.drop 8 else bits)
    let all := raw ++ out
    let (oh, pay, scr2) := sfRead (k + 1) scr1 ws
    (natOfBits (all.take 8) :: oh, all.drop 8 ++ pay, scr2)
termination_by structural x => x

/-- Bytes [i, i + w) of the overhead, most significant first. -/
def ohField (oh : List Nat) (i w : Nat) : Nat := ((oh.drop i).take w).foldl (fun a b => 256 * a + b) 0

def sfDecode (scr : BitVec 58) (line : List (BitVec 40)) : SfBits :=
  let (oh, pay, scr1) := sfRead 0 scr line
  { marker := ohField oh 0 4, oh := oh, payload := pay, scr := scr1 }

/-- The markers of R73. -/
def markerFound (m : Nat) : Bool := m == 0x4D1FB2C6 || m == 0xB2E04D39

/-- Load an accepted status word, with the causes its changes set (R78). -/
def acceptStatus (s : State) (n : Nat) (v : Word) : State :=
  let old := rd s (lR n 0xC)
  let m := (if bitAt old 31 != bitAt v 31 then (0x10 : Word) else 0) |||
    (if fld old 24 2 != fld v 24 2 then 0x20 else 0) ||| (if !bitAt old 30 && bitAt v 30 then 0x40 else 0) |||
    (if fld old 16 8 != fld v 16 8 then 0x80 else 0)
  let s1 := wr s (lR n 0xC) v
  if m = 0 then s1 else laneEvent s1 n m

/-- The verdict on the pending superframe `p`, whose CRC passed or failed (R91). One whose marker was not found counts as a CRC
failure even where its CRC matches (DESIGN CHOICE, log 54). -/
def sfVerdict (s : State) (n : Nat) (p : SfPend) (crcOk : Bool) : State :=
  let fmtOk := rdF s (lR n 0xC) 26 2 == laneFmt s n
  let pass := p.markerOk && crcOk && p.scrOk && p.seqOk && fmtOk
  let st := laneState s n
  if st = laneLIVE then
    if pass then ctrAdd64 s (lR n 0x20) 1
    else if !crcOk || !p.markerOk then badCrc s n p.first
    else if !p.scrOk || !p.seqOk then badSync s n p.first
    else badFmt s n p.first
  else if st = lanePHASE 6 then
    modLane s n (fun l => { l with sf := { l.sf with liveRun := if pass then l.sf.liveRun + 1 else 0 } })
  else s

/-- The receiver of the lane runs: phase 3 to LIVE. -/
def laneFramed (s : State) (n : Nat) : Bool := decide (3 ≤ lanePhase s n) || laneState s n == laneLIVE

/-- The wander the receiver tracks: LANE_WANDER, and WANDER_WARN beyond 12 UI, 76.8 sub-ticks (R71, R98). -/
def setWander (s : State) (n : Nat) (w : BitVec 16) : State :=
  wrBit (wrF s (lR n 0x48) 0 16 w.toNat) (lR n 0) 10 (decide (384 < 5 * w.toInt.natAbs))

/-- Wander beyond the 16 UI, 102.4 sub-ticks, that the receiver tracks (R71). -/
def wanderLost (w : BitVec 16) : Bool := decide (512 < 5 * w.toInt.natAbs)

/-- SUPERFRAME: the line bits of the superframe of lane `n` whose first slice reaches the lane input on this tick. The device
takes its fields on the ticks on which they are complete. -/
def superframe (s : State) (n : Nat) (line : List (BitVec 40)) (wander : BitVec 16) : State :=
  let sf := (getLane s n).sf
  let spaced := match sf.cur with | some c => decide (c.first + 64 ≤ now s) | none => true
  if laneClocked s n && laneFramed s n && spaced && line.length == 64 then
    let d := sfDecode sf.scr line
    let found := markerFound d.marker
    let rxSeq := BitVec.ofNat 16 (ohField d.oh 4 2)
    let cur : SfCur :=
      { first := now s, found := found, next := (match sf.cur with | some c => c.first + 64 == now s | none => false)
        seqOk := found && (match sf.seq with | some q => rxSeq == q + 1 | none => true)
        status := BitVec.ofNat 32 (ohField d.oh 6 4), crcIn := BitVec.ofNat 32 (ohField d.oh 10 4)
        scrOk := ohField d.oh 14 8 == 0, crc := BitVec.ofNat 32 (crc32 d.payload), taken := 0 }
    let s1 := setWander s n wander
    modLane (if wanderLost wander then laneLosing s1 n else s1) n (fun l =>
      { l with sf := { sf with
          scr := d.scr, seq := if found then some rxSeq else sf.seq.map (· + 1), cur := some cur } })
  else s

def modSf (s : State) (n : Nat) (f : SfState → SfState) : State := modLane s n (fun l => { l with sf := f l.sf })

/-- Marker lock holds or does not; a LIVE lane without it is LOST from the superframe that starts on tick `f` (R94). -/
def setLocked (s : State) (n : Nat) (v : Bool) (f : Tick) : State :=
  let s1 := wrBit s (lR n 0) 8 v
  if !v && laneState s1 n = laneLIVE then laneLoseAt s1 n f
  else if v then s1 else modSf s1 n (fun x => { x with pend := none })

/-- Tick 4: the marker has been found, or counts as missing (R73, R94). -/
def sfMarker (s : State) (n : Nat) (c : SfCur) : State :=
  let sf := (getLane s n).sf
  let miss := if c.found then 0 else sf.miss + 1
  let count := if c.found then (if c.next then sf.found else 0) + 1 else 0
  let s1 := modSf s n (fun x => { x with miss := miss, found := count })
  setLocked s1 n ((rdBit s (lR n 0) 8 || decide (4 ≤ count)) && decide (miss < 4)) c.first

/-- Tick 10: the status word is whole (R78). -/
def sfStatus (s : State) (n : Nat) (c : SfCur) : State :=
  let s1 := if c.found && (getLane s n).sf.status == some c.status then acceptStatus s n c.status else s
  modSf s1 n (fun x => { x with status := if c.found then some c.status else none })

/-- Tick 14: the CRC of the superframe before is whole, and its verdict falls (R75, R91); this one awaits its own. -/
def sfCrc (s : State) (n : Nat) (c : SfCur) : State :=
  let sf := (getLane s n).sf
  let ok := c.seqOk && (match sf.pend with | some p => c.crcIn == p.crc | none => false)
  let s1 := match sf.pend with | some p => sfVerdict s n p ok | none => s
  let p : SfPend := { first := c.first, markerOk := c.found, scrOk := c.scrOk, seqOk := c.seqOk, crc := c.crc }
  modSf s1 n (fun x =>
    { x with crcRun := x.crcRun + b2n (ok && sf.pend.isSome), pend := if rdBit s (lR n 0) 8 then some p else none })

/-- Tick 22: the SCR_SYNC check (R74, R94). -/
def sfScr (s : State) (n : Nat) (c : SfCur) : State :=
  let fail := if c.scrOk then 0 else (getLane s n).sf.scrFail + 1
  let s1 := wrBit (modSf s n (fun x => { x with scrFail := fail })) (lR n 0) 9 c.scrOk
  if decide (4 ≤ fail) then setLocked s1 n false c.first else s1

/-- The ticks after the first on which the fields of a superframe are taken. -/
def sfMoments : List Nat := [4, 10, 14, 22]

/-- Take the next field of the superframe under way, once it is complete. -/
def sfTake (s : State) (n : Nat) : State :=
  match (getLane s n).sf.cur with
  | none => s
  | some c =>
    if c.taken < 4 && c.first + sfMoments.getD c.taken 0 ≤ now s then
      let s1 := modSf s n (fun x => { x with cur := some { c with taken := c.taken + 1 } })
      match c.taken with
      | 0 => sfMarker s1 n c
      | 1 => sfStatus s1 n c
      | 2 => sfCrc s1 n c
      | _ => sfScr s1 n c
    else s

/-- The superframe fields of lane `n` complete on this tick. -/
def sfTick (s : State) (n : Nat) : State := forN 4 (laneLossDue s n) (fun s _ => sfTake s n)

/-! ### Training (R87 to R90) -/

/-- The lanes of the LANE_TRAIN or LANE_RETRAIN under way that trains lane `n`: mailbox, lanes, and whether it sets l_rel. -/
def trainCmd (s : State) (n : Nat) : Option (Nat × List Nat × Bool) :=
  s.running.findSome? (fun c =>
    match c.wait with
    | .train ls r => if ls.contains n then some (c.m, ls, r) else none
    | _ => none)

/-- Lane `n` enters training phase `p`. -/
def enterPhase (s : State) (n p : Nat) : State :=
  let s1 := modLane s n (fun l => { l with phaseAt := s.ns, ready3 := false, echo := none })
  wrF (setLaneState s1 n (lanePHASE p)) (lR n 0x44) 0 4 p

/-- Lane `n` fails its phase for `reason` (R87). -/
def laneFail (s : State) (n reason : Nat) : State :=
  let s1 := modLane s n (fun l => { l with ready3 := false, echo := none })
  laneEvent (wrF (setLaneState s1 n laneFAILED) (lR n 0x44) 8 4 reason) n 0x100

/-- Return lanes with one of `ls` to serve. -/
def groupsOf (ls : List Nat) : List Nat := (ls.map (fun n => n / 8)).eraseDups

/-- Phase 4 starts for the waiting lanes: one SYNC frame on every involved return lane, all in one return superframe. Its DEST
is the lane's own number where one lane of the return lane takes part, and 0xF where several do (DESIGN CHOICE, log 54). -/
def startPhase4 (s : State) (ls : List Nat) : State :=
  let go := ls.filter (fun n => laneState s n == lanePHASE 3)
  let ks := groupsOf go
  let s1 := forEach ks s (fun s k =>
    match go.filter (fun n => n / 8 == k) with
    | [n] => fwFrame s k (n % 8) frTRAIN 2 [] ks
    | _ => fwFrame s k 0xF frTRAIN 2 [] ks)
  forEach go s1 (fun s n => enterPhase s n 4)

/-- l_n (R89). -/
def laneLatency (s : State) (n : Nat) (e : Echo) : Int :=
  let tfe : Int := rdF s (lR n 0x40) 0 24
  tfe + ((e.rtt.toNat : Int) - fld e.turn 0 24).fdiv 2 + 3072

/-- Lane `n` enters phase 6: the FORMAT frame goes out; a format the front-end does not support fails it (R88). -/
def enterPhase6 (s : State) (n : Nat) : State :=
  let s1 := enterPhase s n 6
  let fmt := laneFmt s n
  if rdBit s (lR n 0x38) (15 + fmt) then
    modLane (fwLaneFrame s1 n frFORMAT fmt []) n (fun l => { l with sf := { l.sf with liveRun := 0 } })
  else laneFail s1 n 10

/-- The end of phase 5: l_rel, the results, and each waiting lane passes or fails (R87, R90). -/
def endPhase5 (s : State) (ls : List Nat) (setRel : Bool) : State :=
  let es := ls.filterMap (fun n =>
    match (getLane s n).echo with
    | some e => if laneState s n = lanePHASE 5 then some (n, e) else none
    | none => none)
  let top := (es.map (fun p => laneLatency s p.1 p.2 / 256)).foldl max 0
  let s1 := if setRel then { s with lrel := top.toNat } else s
  forEach es s1 (fun s p =>
    let n := p.1
    let l := laneLatency s n p.2
    let d : Int := (s.lrel : Int) - l / 256
    let s2 := wr s (lR n 0x28) (BitVec.ofNat 32 (l % 2 ^ 24).toNat)
    let s3 := wr s2 (lR n 0x2C) (BitVec.ofNat 32 (s.lrel % 256 * 2 ^ 16 + (d % 128).toNat))
    let s4 := wr (wr s3 (lR n 0x30) (BitVec.ofNat 32 p.2.rtt.toNat)) (lR n 0x3C) (p.2.turn &&& 0xFFFFFF)
    let s5 := modLane s4 n (fun x => { x with lat := l.toNat })
    if 0 ≤ d && d ≤ 64 then enterPhase6 s5 n else laneFail s5 n 9)

/-- The points at which the lanes of one command wait for each other, and its completion (R87). `fuel` bounds the points that
can follow in one step. -/
def trainCheck (s : State) (m : Nat) (ls : List Nat) (setRel : Bool) : Nat → State
  | 0 => s
  | fuel + 1 =>
    let over3 (n : Nat) : Bool :=
      decide (laneState s n = lanePHASE 3) && (getLane s n).ready3 || decide (4 ≤ lanePhase s n) || lanePhase s n == 0
    let over5 (n : Nat) : Bool :=
      decide (laneState s n = lanePHASE 5) && (getLane s n).echo.isSome || lanePhase s n == 6 || lanePhase s n == 0
    if ls.all over3 && ls.any (fun n => laneState s n == lanePHASE 3) then
      trainCheck (startPhase4 s ls) m ls setRel fuel
    else if ls.all over5 && ls.any (fun n => laneState s n == lanePHASE 5) then
      trainCheck (endPhase5 s ls setRel) m ls setRel fuel
    else if ls.all (fun n => lanePhase s n == 0) then
      let bad := ls.filter (fun n => laneState s n != laneLIVE)
      completeCmd s m (if bad.isEmpty then stOK else stTIMEOUT)
        (maskWords (ls.filter (fun n => laneState s n == laneLIVE)) ++
          [match bad with | n :: _ => rdF s (lR n 0x44) 0 4 | [] => 0])
    else s

/-- After lane `n` moved on. -/
def trainMoved (s : State) (n : Nat) : State :=
  match trainCmd s n with
  | some (m, ls, r) => trainCheck s m ls r 4
  | none => s

/-- Limit of a phase in ticks (R87). -/
def phaseLimit (p : Nat) : Nat :=
  match p with | 1 => 2000000 | 2 => 40000000 | 3 => 1000000 | 4 => 5000000 | 5 => 10000000 | _ => 5000000

/-- Lane `n` is at work in phase `p`, within its limit. -/
def inPhase (s : State) (n p : Nat) : Bool :=
  laneClocked s n && lanePhase s n == p && decide (s.ns ≤ (getLane s n).phaseAt + phaseLimit p)

/-- IDLE_DETECT: signal detected in phase 1. -/
def idleDetect (s : State) (n : Nat) : State := if inPhase s n 1 then enterPhase s n 2 else s

/-- CLOCK_DATA_RECOVERY: phase 2 passed; the FRAMED frame goes out. -/
def cdrDone (s : State) (n : Nat) : State :=
  if inPhase s n 2 then fwLaneFrame (enterPhase s n 3) n frTRAIN 1 [] else s

/-- A valid training block (R88). -/
def blockValid (b : List Word) : Bool :=
  b.length == 64 && b.getD 0 0 == 0x7A110E5C && fld (b.getD 2 0) 24 8 == 0 &&
  (b.getD 3 0 &&& ~~~(0x00070000 : Word)) == 0 && fld (b.getD 4 0) 16 15 == 0 && fld (b.getD 5 0) 24 8 == 0 &&
  (b.drop 6).all (fun w => w == 0)

/-- MARKER_LOCK: marker lock and four passing CRCs; the training block decides phase 3. -/
def markerLock (s : State) (n : Nat) (b : List Word) : State :=
  if inPhase s n 3 && !(getLane s n).ready3 && rdBit s (lR n 0) 8 && decide (4 ≤ (getLane s n).sf.crcRun) then
    if blockValid b then
      let s1 := wr (wr s (lR n 0x34) (b.getD 1 0)) (lR n 0x38) (b.getD 3 0)
      let s2 := wr s1 (lR n 0x40) (b.getD 2 0)
      trainMoved (modLane s2 n (fun l => { l with ready3 := true })) n
    else trainMoved (laneFail s n 5) n
  else s

/-- Lane `n` enters phase 5: the ECHO frame with its tag goes out. -/
def enterPhase5 (s : State) (n : Nat) : State :=
  let (d, s1) := drawFree s
  let tag := Config.echoTag d
  let s2 := modLane (enterPhase s1 n 5) n (fun l => { l with tag := tag })
  fwLaneFrame s2 n frTRAIN 3 [tag.setWidth 32]

/-- DESKEW: the SYNC-marked superframes have arrived on every lane still in phase 4 (R87). -/
def deskew (s : State) (arr : List (Fin 256 × Nat)) : State :=
  match arr with
  | [] => s
  | (n0, _) :: _ =>
    match trainCmd s n0.val with
    | none => s
    | some (m, ls, r) =>
      let go := ls.filter (fun n => laneState s n == lanePHASE 4)
      let at_ (n : Nat) : Option Nat := (arr.find? (fun p => p.1.val == n)).map Prod.snd
      if !go.isEmpty && go.all (fun n => inPhase s n 4 && (at_ n).isSome) then
        let ref := (go.filterMap at_).foldl max 0
        trainCheck (forEach go s (fun s n =>
          if (at_ n).getD 0 + 64 < ref then laneFail s n 7 else enterPhase5 s n)) m ls r 4
      else s

/-- LATENCY: echoes returned with their tags (R87, R89). -/
def latency (s : State) (es : List Echo) : State :=
  forEach es s (fun s e =>
    let n := e.lane.val
    let l := getLane s n
    if inPhase s n 5 && l.echo.isNone && e.tag == (0x80000000 ||| l.tag.setWidth 32) && fld e.turn 24 8 == 0 then
      trainMoved (setLane s n { l with echo := some e }) n
    else s)

/-- LIVE: 16 superframes in a row passed in the set format; the slices are released from the next whole superframe (R87, R95). -/
def laneGoLive (s : State) (n : Nat) : State :=
  let sf := (getLane s n).sf
  if inPhase s n 6 && decide (16 ≤ sf.liveRun) then
    let from_ := match sf.cur with | some c => c.first + 64 | none => now s
    let s1 := wrF (setLaneState (modLane s n (fun l => { l with liveFrom := from_ })) n laneLIVE) (lR n 0x44) 8 4 0
    trainMoved s1 n
  else s

/-- TRAINING_PHASE_LIMIT: the limit of the lane's phase has run out (R87); reason 2 falls due after 15 ms without CDR lock. -/
def trainingPhaseLimit (s : State) (n : Nat) (second : Bool) : State :=
  let p := lanePhase s n
  let l := getLane s n
  let waits := l.ready3 || l.echo.isSome
  let due :=
    if p = 2 then (if second then 0 else 15000000) else phaseLimit p
  let reason :=
    if p = 1 then 1 else if p = 2 then (if second then 3 else 2) else if p = 3 then (if second then 5 else 4)
    else if p = 4 then 6 else if p = 5 then 8 else 10
  if domReady s (domLink n) && p != 0 && !waits && decide (l.phaseAt + due ≤ s.ns) then trainMoved (laneFail s n reason) n
  else s

/-! ### Commands of group 0x02 -/

def linkDoms (ls : List Nat) : List Nat := (ls.map domLink).eraseDups

/-- The receiver of lane `n` starts over. -/
def laneUnlock (s : State) (n : Nat) : State :=
  let s1 := modLane s n (fun l => { l with sf := SfState.init, ready3 := false, echo := none, lossAt := none })
  hwClr s1 (lR n 0) 0xF00

/-- Set the format of lane `n` (R86, R97). -/
def laneSetFormat (s : State) (n fmt : Nat) : State :=
  let st := laneState s n
  let s1 := wrF s (lR n 0) 4 2 fmt
  if fmt = 0 then retIdle (setLaneState (laneUnlock s1 n) n laneOFF) (n / 8)
  else if st = laneOFF then setLaneState s1 n laneUNTRAINED
  else if st = laneLIVE then fwLaneFrame s1 n frFORMAT fmt []
  else s1

/-- LANE_FORMAT (R69, R97). -/
def laneFormatCmd (s : State) (m : Nat) : State :=
  let ls := argMask s m 0
  let fmt := arg s m 8
  let after := forEach ls s (fun s n => laneSetFormat s n fmt)
  checked s m [noSched s m, needArg (fmt ≤ 3) 8, needDoms s (linkDoms ls), needCap s [capOFF, capREADY],
    needFree s (ls.map Res.lane), budgetFail after]
    (fun _ => completeCmd after m stOK (budgetTriple after))

/-- Lane `n` starts training. -/
def laneStart (s : State) (n : Nat) : State :=
  let s1 := if laneState s n = laneLIVE then
      unlive s n (match (getLane s n).sf.pend with | some p => p.first | none => now s) else s
  let s2 := laneUnlock s1 n
  wrF (enterPhase s2 n 1) (lR n 0x44) 8 4 0

/-- LANE_TRAIN and LANE_RETRAIN (R87, R90). -/
def laneTrainCmd (s : State) (m : Nat) (caps : List Nat) : State :=
  let ls := argMask s m 0
  let setRel := (List.range 256).all (fun n => laneState s n != laneLIVE && laneState s n != laneLOST)
  checked s m [noSched s m, needDoms s (linkDoms ls), needCap s caps,
    needAll ls (fun n => needState (laneState s n != laneOFF) 1 n laneOFF), needFree s (ls.map Res.lane)]
    (fun s =>
      let s1 := holdCmd (forEach ls s laneStart) m (.train ls setRel) (ls.map Res.lane)
      trainCheck s1 m ls setRel 4)

/-- LANE_IDLE (R86). -/
def laneIdleCmd (s : State) (m : Nat) : State :=
  let ls := argMask s m 0
  checked s m [noSched s m, needDoms s (linkDoms ls), needCap s [capOFF, capREADY, capHALTED],
    needFree s (ls.map Res.lane)]
    (fun s =>
      completeCmd (forEach ls s (fun s n =>
        let v := laneState s n
        if v = laneLIVE || v = laneLOST || v = laneFAILED then setLaneState (laneUnlock s n) n laneUNTRAINED else s))
        m stOK [])

/-- RETURN_SEND (R83, R84). -/
def returnSendCmd (s : State) (m : Nat) : State :=
  let k := arg s m 0
  let h := rd s (argR m 2)
  let len := fld h 16 6
  let dest := fld h 28 4
  let typ := fld h 24 4
  let ls := if dest = 0xF then (groupLanes k).filter (fun n => laneFmt s n != 0) else [8 * k + dest]
  let typOk := typ == 1 || typ == 2 || decide (0xC ≤ typ)
  checked s m [noSched s m, needArg (arg s m 1 == len + 1) 1,
    needArg ((dest ≤ 7 || dest == 0xF) && typOk && fld h 22 2 == 0) 2, needRange (decide (k < 32)) 0,
    needDoms s [domLink (8 * k)], needState (retActive s k) 1 (8 * k) (laneState s (8 * k)),
    needFree s (ls.map Res.lane)]
    (fun s =>
      let words := (List.range (len + 1)).map (fun i => rd s (argR m (2 + i)))
      holdCmd (retQueue s k { words := words, waiter := some m, sync := [], go := false }) m (.returnSend k) (ls.map Res.lane))

/-! ### Meanings of the rows -/

def execLaneFormat (m : Fin 16) (s : State) : Out := .next (fwRow s m.val 0x0201 (fun s => laneFormatCmd s m.val))
def execLaneTrain (m : Fin 16) (s : State) : Out :=
  .next (fwRow s m.val 0x0202 (fun s => laneTrainCmd s m.val [capOFF, capREADY]))
def execLaneRetrain (m : Fin 16) (s : State) : Out :=
  .next (fwRow s m.val 0x0203 (fun s => laneTrainCmd s m.val [capOFF, capREADY, capARMED, capTRIGGERED, capHALTED]))
def execLaneIdle (m : Fin 16) (s : State) : Out := .next (fwRow s m.val 0x0204 (fun s => laneIdleCmd s m.val))
def execReturnSend (m : Fin 16) (s : State) : Out := .next (fwRow s m.val 0x0205 (fun s => returnSendCmd s m.val))
def execSuperframe (n : Fin 256) (line : List (BitVec 40)) (wander : BitVec 16) (s : State) : Out :=
  .next (superframe s n.val line wander)
def execCdrLockLoss (n : Fin 256) (s : State) : Out := .next (laneLosing s n.val)
def execIdleDetect (n : Fin 256) (s : State) : Out := .next (idleDetect s n.val)
def execClockDataRecovery (n : Fin 256) (s : State) : Out := .next (cdrDone s n.val)
def execMarkerLock (n : Fin 256) (block : List Word) (s : State) : Out := .next (markerLock s n.val block)
def execDeskew (arrivals : List (Fin 256 × Nat)) (s : State) : Out := .next (deskew s arrivals)
def execLatency (echoes : List Echo) (s : State) : Out := .next (latency s echoes)
def execLive (n : Fin 256) (s : State) : Out := .next (laneGoLive s n.val)
def execTrainingPhaseLimit (n : Fin 256) (second : Bool) (s : State) : Out := .next (trainingPhaseLimit s n.val second)
def execReturnSuperframe (k : Fin 32) (s : State) : Out := .next (returnSuperframe s k.val)

end Sys2Proof.Machine
end

