-- ==== Sys2Proof/Machine/UnitCmd.lean ====
section
/-! DEFINITION. Commands of groups 0x03 (engines), 0x04 (context store) and 0x05 (storage and rings), and the ring manager's
own rows. -/

namespace Sys2Proof.Machine

def engWord (s : State) (e : Nat) : Nat := unitWord 2 e (engRun s e)
def ringWord (s : State) (r : Nat) : Nat := unitWord 3 r (ringState s r)
def ctxWord (s : State) : Nat := unitWord 9 0 (rdF s CTX_STATUS 0 4)
def seqDoms (es : List Nat) : List Nat := (es.map domSeq).eraseDups

/-- An engine does not run a replay job. -/
def needIdleEng (s : State) (e : Nat) : Option Fail :=
  needState (getEng s e).job.isNone 2 e (engRun s e)

/-! ### Engines (R69, R140, R150, R176, R254) -/

/-- UCODE_LOAD: `image` is what the firmware's reads of host memory brought (R334). -/
def ucodeLoadCmd (s : State) (m : Nat) (image : ImageRead) : State :=
  let es := argMask s m 0
  let len := arg s m 10
  let at_ := arg s m 11
  let top := at_ + max len 1
  checked s m ([needSvc s (decide (0x600 < top)), needCust s (decide (at_ < 0x600)), noSched s m,
      needArg (!es.isEmpty) 0, needRange (1 ≤ len && len ≤ 2048) 10, needRange (at_ ≤ 0x7FF && at_ + len ≤ 2048) 11,
      needDoms s (seqDoms es), needCap s [capOFF, capREADY, capHALTED], needAll es (needIdleEng s),
      needFree s (es.map Res.engine), needMem s 2 (engWord s (es.headD 0))])
    (fun s =>
      match image with
      | .failed => completeCmd s m stHW_FAULT [engWord s (es.headD 0)]
      | .words ws =>
        let img := ws.take len ++ List.replicate (len - ws.length) 0
        match es.findSome? (fun e => (loadCheck (getEng s e) at_ img).map (fun f => (e, f))) with
        | some (e, a, reason) => completeCmd s m stUCODE_REJECT [e, a, reason]
        | none => completeCmd (forEach es s (fun s e => loadEngine s at_ img e)) m stOK [])

/-- Put engine `e` into live or replay mode: RUN of a replay engine without a job reads 0 (R254); FAULT stays (R149). -/
def engSetMode (s : State) (e : Nat) (replay : Bool) : State :=
  let s1 := wrBit s (eR e 0) 12 replay
  if engRun s e = runFAULT then s1
  else if replay || (getEng s e).lead = e then setRun s1 e runSTOPPED else setRun s1 e runFOLLOWER

/-- ENGINE_MODE (R254). -/
def engineModeCmd (s : State) (m : Nat) : State :=
  let es := argMask s m 0
  let mode := arg s m 8
  checked s m [noSched s m, needArg (mode ≤ 1) 8, needDoms s (seqDoms es), needCap s [capOFF, capREADY, capHALTED],
    needAll es (needIdleEng s), needFree s (es.map Res.engine)]
    (fun s => completeCmd (forEach es s (fun s e => engSetMode s e (mode == 1))) m stOK [])

/-- Samples of member `k` of each slice kept. -/
def recentOf (l : List (List LaneSample)) (k : Nat) : List (List LaneSample) :=
  l.map (fun r => [r.getD k { images := [], valid := false }])

/-- The slices that 2^k engines from `lead` kept, each for its own lane, as the lead keeps them. -/
def recentJoin (s : State) (lead k : Nat) : List (List LaneSample) :=
  (List.range (getEng s lead).recent.length).map (fun i => (List.range (2 ^ k)).map (fun j =>
    (((getEng s (lead + j)).recent.getD i []).headD { images := [], valid := false })))

/-- Dissolve the consist that holds engine `e`, if any (R140). An engine in FAULT stays there (R149). -/
def consistDissolve (s : State) (e : Nat) : State :=
  let lead := (getEng s e).lead
  let l := (getEng s lead).recent
  if (getEng s lead).csize = 0 then s
  else forEach (engMembers s lead) s (fun s n =>
    let s1 := modEng s n (fun c => { c with lead := n, csize := 0, recent := recentOf l (n - lead) })
    engEnterSound (wrF s1 (eR n 0) 9 3 0) n runSTOPPED)

/-- Engine `n` becomes a follower: it publishes nothing and its context counters read zero (R140, R198). -/
def consistFollow (s : State) (n : Nat) : State :=
  let s1 := engPub (engEnterSound s n (if engReplay s n then runSTOPPED else runFOLLOWER)) n 0
  [0xC00, 0xC04, 0xC08, 0xC0C, 0xC10].foldl (fun s o => wr s (eR n o) 0) s1

/-- Form a consist of 2^k engines at `lead`. -/
def consistForm (s : State) (lead k : Nat) : State :=
  let l := recentJoin s lead k
  forN (2 ^ k) s (fun s i =>
    let n := lead + i
    let s1 := modEng s n (fun c => { c with lead := lead, csize := k, recent := if i = 0 then l else c.recent })
    let s2 := wrF s1 (eR n 0) 9 3 k
    if i = 0 then s2 else consistFollow s2 n)

/-- The engines that CONSIST_SET over `es` changes: these and the other members of the consists it dissolves. -/
def consistTouched (s : State) (es : List Nat) : List Nat :=
  (List.range 256).filter (fun n => es.contains n || es.any (fun e => (getEng s e).lead == (getEng s n).lead))

/-- CONSIST_SET (R140). -/
def consistSetCmd (s : State) (m : Nat) : State :=
  let lead := arg s m 0
  let size := arg s m 1
  let es := (List.range (min size 16)).map (fun i => lead + i)
  let all := consistTouched s es
  let sized := [1, 2, 4, 8, 16].contains size
  checked s m [noSched s m, needArg (!sized || lead % size == 0) 0, needArg sized 1,
    needRange (decide (lead < 256)) 0, needDoms s (seqDoms es), needCap s [capOFF, capREADY],
    needAll all (needIdleEng s), needFree s (all.map Res.engine)]
    (fun s =>
      let s1 := forEach es s consistDissolve
      completeCmd (if size = 1 then s1 else consistForm s1 lead size.log2) m stOK [])

/-- ENGINE_SNAPSHOT (R150): the snapshot tick is 3 ticks after the broadcast. -/
def engineSnapshotCmd (s : State) (m : Nat) : State :=
  let es := argMask s m 0
  let r := arg s m 8
  checked s m [noSched s m, needRange (decide (r < 32768)) 8, needDoms s (seqDoms es ++ [domRing]),
    needState (ringExists s r) 3 r (ringState s r), needFree s (es.map Res.engine ++ [.ring r])]
    (fun s => holdCmd s m (.snapshot (now s + 3) r es) (es.map Res.engine ++ [.ring r]))

/-- The payload of the STATS record of engine `e` as it stands on this tick (R150). -/
def snapWords (s : State) (e : Nat) : List Word64 :=
  let w1 := BitVec.ofNat 64
    (engPublish s e * 2 ^ 40 + engRun s e * 2 ^ 32 + engLevel s e * 2 ^ 16 + rdF s (eR e 0) 21 11)
  let cs := (List.range 8).map (fun i => BitVec.ofNat 64 (cntVal s e i))
  let tms := (List.range 4).map (fun k => BitVec.ofNat 64 (tmrVal s e k))
  tsOf (now s) :: w1 :: cs ++ tms

/-- Write one STATS record of the snapshot of tick `t`, or complete where none is left (R150). -/
def snapshotWrite (s : State) (c : RunCmd) (t r : Nat) (l : List (Nat × List Word64)) : State :=
  match l with
  | [] => completeCmd s c.m stOK (words2 t)
  | (e, ws) :: rest =>
    let s1 := stageNew s (0x100 + e) r tySTATS 0 ws (tsOf t) (tsOf t)
    if rest.isEmpty then completeCmd s1 c.m stOK (words2 t)
    else { s1 with running := s1.running.map (fun d => if d.m = c.m then { d with wait := .stats t r rest } else d) }

/-- A waiting ENGINE_SNAPSHOT as a tick begins (R150): the snapshot tick takes every engine's state, and one record is written
per tick from it on, in ascending engine order. -/
def snapshotDue (s : State) (c : RunCmd) : State :=
  match c.wait with
  | .snapshot t r es => if t ≤ now s then snapshotWrite s c (now s) r (es.map (fun e => (e, snapWords s e))) else s
  | .stats t r l => snapshotWrite s c t r l
  | _ => s

/-! ### Context store (R179, R180, R192, R196, R200) -/

/-- Refused while CLEARING from a switch-on clear (R200). -/
def needCtxReady (s : State) : Option Fail :=
  needState (!(match s.ctx.clear with | some c => c.switchOn | none => false)) 9 0 2

/-- CTX_CONFIG. -/
def ctxConfigCmd (s : State) (m : Nat) : State :=
  let seed := arg64 s m 0
  let pol := arg s m 2
  checked s m [noSched s m, needArg (pol ≤ 1) 2, needDoms s [domCtx], needCap s [capOFF, capREADY], needCtxReady s,
    needFree s [.ctx], needMem s 1 (ctxWord s)]
    (fun s =>
      let drawn := seed == 0
      let keep := if drawn then s.ctx.drawn else (ctxSeed s).toNat == seed
      let s1 := { s with ctx := { s.ctx with policy := pol == 1, drawn := drawn } }
      let s2 := wrBit (wrBit s1 CTX_STATUS 5 (pol == 1)) CTX_STATUS 4 (!drawn)
      if keep then completeCmd s2 m stOK (words2 seed)
      else holdCmd (ctxStartClear (wr64 s2 CTX_SEED seed) false) m .clear [.ctx])

/-- CTX_CLEAR. -/
def ctxClearCmd (s : State) (m : Nat) : State :=
  checked s m [noSched s m, needDoms s [domCtx], needCap s [capOFF, capREADY, capHALTED], needCtxReady s,
    needFree s [.ctx], needMem s 1 (ctxWord s)]
    (fun s => holdCmd (ctxStartClear s false) m .clear [.ctx])

/-- CTX_AGE. -/
def ctxAgeCmd (s : State) (m : Nat) : State :=
  let step := arg s m 0
  let lim := arg s m 1
  checked s m [noSched s m, needDoms s [domCtx], needFree s [.ctx], needMem s 1 (ctxWord s)]
    (fun s =>
      let s1 := wr (wr s CTX_SWEEP_STEP (BitVec.ofNat 32 step)) CTX_AGE_LIMIT (BitVec.ofNat 32 lim)
      let s2 := wrBit (wrBit s1 CTX_STATUS 6 (step != 0)) CTX_STATUS 7 (lim != 0)
      let s3 := { s2 with
        ctx := { s2.ctx with sweepAt := (List.range 64).foldl (fun t b => tabSet 0 t b (now s)) s2.ctx.sweepAt } }
      completeCmd s3 m stOK [])

/-- CTX_DUMP. -/
def ctxDumpCmd (s : State) (m : Nat) : State :=
  let r := arg s m 0
  checked s m [noSched s m, needRange (decide (r < 32768)) 0,
    needRange (!ringExists s r || decide (5242880 ≤ ringSize s r - ringHeld s r)) 0,
    needDoms s ([domCtx] ++ (if compactMem s then [] else [17, 18]) ++ [domRing]), needCap s [capREADY, capHALTED],
    needCtxReady s, needState (ringExists s r && (streamsOfRing s r).isEmpty) 3 r (ringState s r),
    needFree s [.ctx, .ring r], needMem s 1 (ctxWord s)]
    (fun s => dumpStart s m r [.ctx, .ring r])

/-! ### Rings and streams (R202, R238 to R240, R252) -/

/-- Words of the memory a new ring would lie in (R239). -/
def ringSpace (s : State) : Nat := if compactMem s then 2 ^ 22 else capGib s * 2 ^ 27

/-- The area of a new ring overlaps that of an existing one in the same memory. -/
def ringOverlaps (s : State) (base size : Nat) : Bool :=
  (ringsExisting s).any (fun q =>
    ringCompact s q == compactMem s && areasOverlap base size (ringBase s q) (ringSize s q))

/-- The domains a ring of the present memory configuration needs, one Stratus domain off and one on included (R22). -/
def ringDoms (s : State) : List Nat := (if compactMem s then [domCirrus] else [17, 18]) ++ [domRing]

/-- RING_CREATE. -/
def ringCreateCmd (s : State) (m : Nat) : State :=
  let r := arg s m 0
  let base := arg64 s m 1
  let log := arg s m 3
  let pol := arg s m 4
  let compact := compactMem s
  let logOk := decide (6 ≤ log) && decide (log ≤ (if compact then 22 else 36))
  let size := if logOk then 2 ^ log else 1
  let baseOk := base % 32 == 0 && decide (base + size ≤ ringSpace s) && !ringOverlaps s base size
  checked s m [noSched s m, needArg (pol ≤ 1) 4, needRange (decide (r < 32768)) 0, needRange baseOk 1, needRange logOk 3,
    needRange (decide (arg s m 5 < 65536)) 5, needRange (decide (arg s m 6 < 65536)) 6, needDoms s (ringDoms s),
    needCap s [capOFF, capREADY, capHALTED],
    needState (!ringExists s r && (streamsOfRing s r).isEmpty) 3 r (ringState s r), needFree s [.ring r],
    needMem s 3 (ringWord s r)]
    (fun s => completeCmd (ringCreate s r base log (pol == 1) compact (arg s m 5) (arg s m 6)) m stOK [])

/-- The unit whose stream it is (R54). -/
def streamRes (n : Nat) : Res :=
  if n < 0x100 then .lane n else if n < 0x240 then .tiu (n - 0x200) else if n < 0x280 then .chain (n - 0x240) else .ctx

/-- Set the mode of stream `n` (R202, R233). -/
def streamSet (s : State) (n mode ring act duty rate : Nat) : State :=
  let s0 := if isLaneStream n then s else closeOpen s n 0
  let s1 := wrBit (wrF s0 (strR n 0) 26 2 mode) (strR n 0) 31 (mode != 0)
  let s2 := if mode = 0 then s1 else wrF s1 (strR n 4) 0 15 ring
  modStr s2 n (fun c =>
    if isLaneStream n then { c with activity := BitVec.ofNat 32 act, duty := BitVec.ofNat 32 duty }
    else { c with rate := BitVec.ofNat 32 rate })

/-- STREAM_MODE. -/
def streamModeCmd (s : State) (m : Nat) : State :=
  let n := arg s m 0
  let mode := arg s m 1
  let r := arg s m 2
  let lane := isLaneStream n
  let after := streamSet s n mode r (arg s m 3) (arg s m 4) (arg s m 5)
  let rings := (if mode = 0 then [] else [Res.ring r]) ++
    (if strBound s n && (mode == 0 || strRingOf s n != r) then [Res.ring (strRingOf s n)] else [])
  checked s m [noSched s m, needArg (streamBindable n) 0, needArg (mode ≤ 3 && (lane || mode ≤ 1)) 1,
    needRange (mode == 0 || decide (r < 32768)) 2, needRange (!lane || decide (arg s m 3 ≤ 1000000)) 3,
    needRange (!lane || decide (arg s m 4 ≤ 1000000)) 4, if mode = 0 then none else needDoms s [domRing],
    needCap s [capOFF, capREADY], needState (mode == 0 || ringExists s r) 3 r (ringState s r),
    needFree s (streamRes n :: rings), budgetFail after]
    (fun _ => completeCmd after m stOK (budgetTriple after))

/-- RING_FLUSH: posted to the hardware on this tick (R252). -/
def ringFlushCmd (s : State) (m : Nat) : State :=
  let r := arg s m 0
  checked s m [noSched s m, needRange (decide (r < 32768)) 0, needDoms s [domRing],
    needCap s [capARMED, capTRIGGERED, capHALTED], needState (ringExists s r) 3 r (ringState s r), needFree s [.ring r],
    needMem s 3 (ringWord s r)]
    (fun s => holdCmd (modRing s r (fun c => { c with flush := some m })) m (.flush r (now s) false none) [.ring r])

/-- A record closed before the mark `o` still waits for ring `r`. -/
def flushPending (s : State) (r o : Nat) : Bool :=
  s.stream.any (fun p => p.2.staged.any (fun q => decide (q.ring = r) && decide (q.ord < o)))

/-- A flush under way as a tick begins: the one after f + 64 marks the records it brings in, those closed on f + 64 included; it
completes once they and the GAP records due are committed, or with TIMEOUT after 100 us. -/
def flushTick (s : State) (c : RunCmd) : State :=
  match c.wait with
  | .flush r f trunc upto =>
    let done (s : State) (st : Nat) (res : List Nat) : State :=
      completeCmd (modRing s r (fun x => { x with flush := none })) c.m st res
    match upto with
    | none =>
      if f + 65 ≤ now s then
        { s with running := s.running.map (fun x => if x = c then { x with wait := .flush r f trunc (some s.recOrd) } else x) }
      else s
    | some o =>
      if !flushPending s r o && !ringRefusing s r then done s stOK [b2n trunc]
      else if f + 100000 ≤ now s then done s stTIMEOUT [] else s
  | _ => s

/-- RING_NOTICE_TIMER (R242). -/
def ringNoticeTimer (s : State) (r : Nat) : State :=
  if domReady s domRing && ringExists s r && ringTimerPassed s r then ringNotice s r else s

/-! ### Meanings of the rows -/

def execUcodeLoad (m : Fin 16) (image : ImageRead) (s : State) : Out :=
  .next (fwRow s m.val 0x0301 (fun s => ucodeLoadCmd s m.val image))
def execEngineMode (m : Fin 16) (s : State) : Out := .next (fwRow s m.val 0x0302 (fun s => engineModeCmd s m.val))
def execConsistSet (m : Fin 16) (s : State) : Out := .next (fwRow s m.val 0x0303 (fun s => consistSetCmd s m.val))
def execEngineSnapshot (m : Fin 16) (s : State) : Out := .next (fwRow s m.val 0x0304 (fun s => engineSnapshotCmd s m.val))
def execCtxConfig (m : Fin 16) (s : State) : Out := .next (fwRow s m.val 0x0401 (fun s => ctxConfigCmd s m.val))
def execCtxClear (m : Fin 16) (s : State) : Out := .next (fwRow s m.val 0x0402 (fun s => ctxClearCmd s m.val))
def execCtxAge (m : Fin 16) (s : State) : Out := .next (fwRow s m.val 0x0403 (fun s => ctxAgeCmd s m.val))
def execCtxDump (m : Fin 16) (s : State) : Out := .next (fwRow s m.val 0x0404 (fun s => ctxDumpCmd s m.val))
def execRingCreate (m : Fin 16) (s : State) : Out := .next (fwRow s m.val 0x0501 (fun s => ringCreateCmd s m.val))
def execStreamMode (m : Fin 16) (s : State) : Out := .next (fwRow s m.val 0x0503 (fun s => streamModeCmd s m.val))
def execRingFlush (m : Fin 16) (s : State) : Out := .next (fwRow s m.val 0x0505 (fun s => ringFlushCmd s m.val))
def execRingGapCommit (r : Fin 32768) (s : State) : Out :=
  .next (if domReady s domRing then ringGapCommit s r.val else s)
def execRingNoticeTimer (r : Fin 32768) (s : State) : Out := .next (ringNoticeTimer s r.val)

end Sys2Proof.Machine
end

