-- ==== Sys2Proof/Machine/CaptureCmd.lean ====
section
/-! DEFINITION. The capture commands of group 0x06 (R60 to R67, R69, R153, R175, R179), local or over the Loop line. -/

namespace Sys2Proof.Machine

def capWord (s : State) : Nat := unitWord 0 0 (capState s)

/-- The engines that start at arm have ENG_START.ADDR in the customer region (R175). -/
def needStarts (s : State) : Option Fail :=
  match (engsKnown s).find? (fun e => engStarts s e && decide (0x600 ≤ rdF s (eR e 0xC) 0 11)) with
  | some e => some { status := stBAD_STATE, res := [engWord s e] }
  | none => none

/-- A drawn seed needs the store cleared at arm (R179). -/
def armClears (s : State) : Bool := s.ctx.drawn && domReady s domCtx

/-- Ticks an execution tick must lie ahead (R61, R179). -/
def armLead (s : State) : Nat := if armClears s then 4096 else 3

/-- The checks of CAPTURE_ARM from power on; `free` the resources beside the capture. -/
def armChecks (s : State) (free : List Res) : List (Option Fail) :=
  [needDoms s (captureDomains s), needCap s [capREADY, capHALTED], needStarts s,
   needFree s ([Res.capture] ++ (if armClears s then [Res.ctx] else []) ++ free), budgetFail s, needMem s 0 (capWord s)]

def stopChecks (s : State) (free : List Res) : List (Option Fail) :=
  [needCap s [capARMED, capTRIGGERED], needFree s (.capture :: free)]

def forceChecks (s : State) (free : List Res) : List (Option Fail) :=
  [needCap s [capARMED], needFree s (.capture :: free)]

/-- The firmware draws a seed and starts the clear of an arm in drawn mode (R179). -/
def armDraw (s : State) : State :=
  if armClears s then
    let (d, s1) := drawFree s
    let seed := if Config.seed d = 0 then 1 else Config.seed d
    ctxStartClear (wr64 s1 CTX_SEED seed.toNat) false
  else s

/-- CAPTURE_FORCE_TRIGGER acts for record tick `t` (R153). -/
def forceTrigger (s : State) (t : Int) : State :=
  { s with capture := { s.capture with asserts := s.capture.asserts ++ [{ t := t, src := 0x100, origin := 0 }] } }

/-- Resources a scheduled command holds besides its own (R54). -/
def schedRes (s : State) (m : Nat) : List Res := if cmdSched s m then [.timebase] else []

/-- The firmware posts the command to the hardware on this tick, to act on its execution tick (R60, R61). -/
def postScheduled (s : State) (m : Nat) (held : List Res) : State :=
  holdCmd (wr64 s (mR m 0x20) (now s)) m (.scheduled (cmdExecTick s m)) held

def armResult (s : State) : List Nat := budgetTriple s ++ words2 (ctxSeed s).toNat

/-! ### The commands -/

/-- CAPTURE_PREPARE. -/
def capturePrepareCmd (s : State) (m : Nat) : State :=
  let str := captureStreams s
  let leads := ((str.filter isLaneStream).map (fun n => (getEng s n).lead)).filter (fun e => !engReplay s e)
  let oneFormat (e : Nat) : Bool := (engMembers s e).all (fun n => laneFmt s n == laneFmt s e)
  checked s m [noSched s m, needDoms s (captureDomains s), needCap s [capOFF], needState (!str.isEmpty) 0 0 (capState s),
    needAll str (fun n => needState (ringExists s (strRingOf s n)) 3 (strRingOf s n) (ringState s (strRingOf s n))),
    needAll leads (fun e => needState (getEng s e).loaded 2 e (engRun s e)),
    needAll ((engsKnown s).filter (fun e => (getEng s e).lead == e && !engReplay s e)) (fun e =>
      needState (oneFormat e) 2 e (engRun s e)),
    needStarts s, needFree s [.capture], budgetFail s, needMem s 0 (capWord s)]
    (fun s => completeCmd (setCapState s capREADY) m stOK (budgetTriple s))

/-- CAPTURE_ARM. -/
def captureArmCmd (s : State) (m : Nat) : State :=
  let depth := arg64 s m 1
  let held : List Res := .capture :: (if armClears s then [.ctx] else []) ++ schedRes s m
  checked s m ([schedBits s m, schedRange s m (now s) (armLead s), needRange (decide (depth < 2 ^ 48)) 2] ++
      armChecks s (schedRes s m))
    (fun s =>
      let s1 := armDraw s
      if cmdSched s m then postScheduled s1 m held
      else if armClears s then holdCmd s1 m (.armClear (now s + 4096)) held
      else
        let s2 := enterArmed s1 (arg s m 0 % 65536 + 1) depth
        completeCmd s2 m stOK (armResult s2))

/-- CAPTURE_STOP. -/
def captureStopCmd (s : State) (m : Nat) : State :=
  checked s m ([schedBits s m, schedRange s m (now s) 3] ++ stopChecks s (schedRes s m))
    (fun s =>
      if cmdSched s m then postScheduled s m (.capture :: schedRes s m)
      else completeCmd (captureHalt s 2) m stOK (words2 (now s)))

/-- CAPTURE_FORCE_TRIGGER. -/
def captureForceCmd (s : State) (m : Nat) : State :=
  checked s m ([schedBits s m, schedRange s m (now s) 3] ++ forceChecks s (schedRes s m))
    (fun s =>
      if cmdSched s m then postScheduled s m (.capture :: schedRes s m)
      else completeCmd (forceTrigger s (now s)) m stOK (words2 (now s * 256)))

/-- CAPTURE_RELEASE: what is still open is closed. -/
def captureReleaseCmd (s : State) (m : Nat) : State :=
  checked s m [noSched s m, needCap s [capREADY, capHALTED], needFree s [.capture]]
    (fun s =>
      let s1 := forEach (captureStreams s) s (fun s n => closeOpen s n 0)
      completeCmd { setCapState s1 capOFF with capture := { s1.capture with haltAt := none, asserts := [], trigs := [] } }
        m stOK [])

/-- CAPTURE_STATUS. -/
def captureStatusCmd (s : State) (m : Nat) : State :=
  checked s m [noSched s m, needFree s [.capture]]
    (fun s => completeCmd s m stOK
      ([capState s + 16 * rdF s SYS_CAPTURE 4 4] ++ words2 s.capture.lastTs.toNat ++ [s.capture.lastSrc, segDone s]))

/-! ### Clears that end (R179, R180) -/

/-- What a command that waited for the clear does at its end. -/
def clearWaiter (s : State) (c : RunCmd) : State :=
  match c.wait with
  | .clear => completeCmd s c.m stOK (if c.op = 0x0401 then words2 (ctxSeed s).toNat else [])
  | .armClear _ =>
    match firstFail [needCap s [capREADY, capHALTED]] with
    | some f => completeCmd s c.m f.status f.res
    | none =>
      let s1 := enterArmed s (arg s c.m 0 % 65536 + 1) (arg64 s c.m 1)
      completeCmd s1 c.m stOK (armResult s1)
  | _ => s

/-- CONTEXT_STORE_CLEAR_END: the clear has taken its 4,096 ticks. -/
def contextStoreClearEnd (s : State) : State :=
  if domReady s domCtx && ctxClearDone s then
    let s1 := setCtxState { s with ctx := { s.ctx with clear := none } } 1
    forEach s1.running s1 clearWaiter
  else s

/-! ### Meanings of the rows -/

def execCapturePrepare (m : Fin 16) (s : State) : Out := .next (fwRow s m.val 0x0601 (fun s => capturePrepareCmd s m.val))
def execCaptureArm (m : Fin 16) (s : State) : Out := .next (fwRow s m.val 0x0602 (fun s => captureArmCmd s m.val))
def execCaptureStop (m : Fin 16) (s : State) : Out := .next (fwRow s m.val 0x0603 (fun s => captureStopCmd s m.val))
def execCaptureForceTrigger (m : Fin 16) (s : State) : Out :=
  .next (fwRow s m.val 0x0604 (fun s => captureForceCmd s m.val))
def execCaptureRelease (m : Fin 16) (s : State) : Out := .next (fwRow s m.val 0x0605 (fun s => captureReleaseCmd s m.val))
def execCaptureStatus (m : Fin 16) (s : State) : Out := .next (fwRow s m.val 0x0606 (fun s => captureStatusCmd s m.val))
def execContextStoreClearEnd (s : State) : Out := .next (contextStoreClearEnd s)

end Sys2Proof.Machine
end

