-- ==== Sys2Proof/Machine/Inflate.lean ====
section
/-! DEFINITION. Deflate streams (R302, R303): the expansion of RFC 1951 and RFC 1950, Adler-32, stored blocks. The spec names
these formats and does not restate them (PRESUMED, log 22). Bits of a byte are taken least significant first. -/

namespace Sys2Proof.Machine

/-- The bits of bytes, in stream order. -/
def streamBits (l : List Byte) : List Bool := l.flatMap (fun b => (List.range 8).map (fun i => b.getLsbD i))

/-- The number that bits spell, least significant first. -/
def natOfLsb : List Bool → Nat
  | [] => 0
  | b :: l => b2n b + 2 * natOfLsb l

/-- Bytes of a bit list whose length is a multiple of 8. -/
def bytesOfBits : Nat → List Bool → List Byte
  | 0, _ => []
  | n + 1, l => BitVec.ofNat 8 (natOfLsb (l.take 8)) :: bytesOfBits n (l.drop 8)

/-- What a step of the expansion found: more input is needed, an error, or a value. -/
inductive Inf (α : Type) where
  | more
  | bad
  | val (v : α)
deriving DecidableEq, Repr

/-- The next `n` bits as a number, with the bits behind them. -/
def infBits (n : Nat) (l : List Bool) : Inf (Nat × List Bool) :=
  if l.length < n then .more else .val (natOfLsb (l.take n), l.drop n)

/-! ### Huffman codes -/

/-- A canonical code: how many codes of each length 1 to 15, and the symbols by length, then number. -/
structure Huff where
  counts : List Nat
  syms   : List Nat
deriving DecidableEq, Repr

def huffOf (lens : List Nat) : Huff :=
  let of (n : Nat) : List Nat := (List.range lens.length).filter (fun i => lens.getD i 0 == n)
  { counts := (List.range 15).map (fun i => (of (i + 1)).length), syms := (List.range 15).flatMap (fun i => of (i + 1)) }

/-- Codes left unused; `none` where more codes are asked for than the lengths allow. -/
def huffLeft : List Nat → Nat → Option Nat
  | [], left => some left
  | c :: cs, left => if 2 * left < c then none else huffLeft cs (2 * left - c)

/-- The code is complete, or a single code of one bit, or empty where `empty`. -/
def huffOk (h : Huff) (empty : Bool) : Bool :=
  match huffLeft h.counts 1 with
  | none => false
  | some 0 => true
  | some _ => (h.syms.length == 1 && h.counts.headD 0 == 1) || (empty && h.syms.isEmpty)

/-- Decode one symbol. -/
def huffDecode (syms : List Nat) : List Nat → Nat → Nat → Nat → List Bool → Inf (Nat × List Bool)
  | [], _, _, _, _ => .bad
  | c :: cs, code, first, index, bits =>
    match bits with
    | [] => .more
    | b :: bs =>
      let code := code + b2n b
      if code < first + c then .val (syms.getD (index + (code - first)) 0, bs)
      else huffDecode syms cs (2 * code) (2 * (first + c)) (index + c) bs

def huffSym (h : Huff) (bits : List Bool) : Inf (Nat × List Bool) := huffDecode h.syms h.counts 0 0 0 bits

/-- The fixed codes. -/
def fixedLit : Huff :=
  huffOf (List.replicate 144 8 ++ List.replicate 112 9 ++ List.replicate 24 7 ++ List.replicate 8 8)
def fixedDist : Huff := huffOf (List.replicate 30 5)

/-- Base and extra bits of a length symbol 257 + `i`. -/
def lenBase (i : Nat) : Nat × Nat :=
  ([(3, 0), (4, 0), (5, 0), (6, 0), (7, 0), (8, 0), (9, 0), (10, 0), (11, 1), (13, 1), (15, 1), (17, 1), (19, 2), (23, 2),
    (27, 2), (31, 2), (35, 3), (43, 3), (51, 3), (59, 3), (67, 4), (83, 4), (99, 4), (115, 4), (131, 5), (163, 5),
    (195, 5), (227, 5), (258, 0)]).getD i (0, 0)

/-- Base and extra bits of a distance symbol. -/
def distBase (i : Nat) : Nat × Nat := if i < 4 then (i + 1, 0) else ((2 + i % 2) * 2 ^ (i / 2 - 1) + 1, i / 2 - 1)

/-- Repeat `n` bytes from distance `d`; `out` holds the bytes before, latest first. -/
def lzCopy (d : Nat) : Nat → List Byte → List Byte
  | 0, out => out
  | n + 1, out => lzCopy d n (out.getD (d - 1) 0 :: out)

/-- The expansion as far as it got: output so far, latest first, the bits left, blocks ended, and what came of it. -/
structure InfSt where
  out    : List Byte
  bits   : List Bool
  blocks : Nat
  /-- 0 more input needed, 1 the last block has ended, 2 an error. -/
  verdict : Nat
deriving DecidableEq, Repr

/-- The symbols of one block; the flag says that its end was read. `fuel`: each symbol takes a bit. -/
def infSyms (lit dist : Huff) : Nat → List Byte → List Bool → InfSt × Bool
  | 0, out, bits => ({ out := out, bits := bits, blocks := 0, verdict := 0 }, false)
  | fuel + 1, out, bits =>
    let stop (v : Nat) : InfSt × Bool := ({ out := out, bits := bits, blocks := 0, verdict := v }, false)
    match huffSym lit bits with
    | .more => stop 0
    | .bad => stop 2
    | .val (x, b1) =>
      if x < 256 then infSyms lit dist fuel (BitVec.ofNat 8 x :: out) b1
      else if x = 256 then ({ out := out, bits := b1, blocks := 1, verdict := 0 }, true)
      else if 285 < x then stop 2
      else
        match infBits (lenBase (x - 257)).2 b1 with
        | .more => stop 0
        | .bad => stop 2
        | .val (le, b2) =>
          match huffSym dist b2 with
          | .more => stop 0
          | .bad => stop 2
          | .val (y, b3) =>
            if 29 < y then stop 2
            else
              match infBits (distBase y).2 b3 with
              | .more => stop 0
              | .bad => stop 2
              | .val (de, b4) =>
                let d := (distBase y).1 + de
                if out.length < d ∨ 32768 < d then stop 2
                else infSyms lit dist fuel (lzCopy d ((lenBase (x - 257)).1 + le) out) b4

/-- The code lengths of a dynamic block, `need` in all; `acc` holds those read. -/
def infLens (h : Huff) (need : Nat) : Nat → List Nat → List Bool → Inf (List Nat × List Bool)
  | 0, _, _ => .bad
  | fuel + 1, acc, bits =>
    if need ≤ acc.length then (if acc.length = need then .val (acc, bits) else .bad)
    else
      match huffSym h bits with
      | .more => .more
      | .bad => .bad
      | .val (x, b1) =>
        if x < 16 then infLens h need fuel (acc ++ [x]) b1
        else if x = 16 && acc.isEmpty then .bad
        else
          let w := if x = 16 then 2 else if x = 17 then 3 else 7
          match infBits w b1 with
          | .more => .more
          | .bad => .bad
          | .val (r, b2) =>
            let v := if x = 16 then acc.getLastD 0 else 0
            let n := r + (if x = 18 then 11 else 3)
            infLens h need fuel (acc ++ List.replicate n v) b2

/-- Order of the code length codes. -/
def clOrder : List Nat := [16, 17, 18, 0, 8, 7, 9, 6, 10, 5, 11, 4, 12, 3, 13, 2, 14, 1, 15]

/-- The tables of a dynamic block. -/
def infTables (bits : List Bool) : Inf ((Huff × Huff) × List Bool) :=
  match infBits 14 bits with
  | .more => .more
  | .bad => .bad
  | .val (v, b1) =>
    let nl := v % 32 + 257
    let nd := v / 32 % 32 + 1
    let nc := v / 1024 + 4
    if 286 < nl then .bad
    else if b1.length < 3 * nc then .more
    else
      let cl (i : Nat) : Nat := natOfLsb ((b1.drop (3 * i)).take 3)
      let lens := (List.range 19).map (fun s => let i := clOrder.idxOf s; if i < nc then cl i else 0)
      let h := huffOf lens
      if huffLeft h.counts 1 ≠ some 0 then .bad
      else
        match infLens h (nl + nd) (nl + nd + 1) [] (b1.drop (3 * nc)) with
        | .more => .more
        | .bad => .bad
        | .val (l, b2) =>
          let lit := huffOf (l.take nl)
          let dist := huffOf (l.drop nl)
          if l.getD 256 0 = 0 || !huffOk lit false || !huffOk dist true then .bad else .val ((lit, dist), b2)

/-- Bits of the stream from `bits` up to the next byte boundary of a stream of `total` bits, removed. -/
def byteAlign (total : Nat) (bits : List Bool) : List Bool := bits.drop ((8 - (total - bits.length) % 8) % 8)

/-- A stored block behind its three header bits. -/
def infStored (total : Nat) (out : List Byte) (bits : List Bool) : InfSt × Bool :=
  let b0 := byteAlign total bits
  let stop (v : Nat) : InfSt × Bool := ({ out := out, bits := bits, blocks := 0, verdict := v }, false)
  match infBits 32 b0 with
  | .more => stop 0
  | .bad => stop 2
  | .val (v, b1) =>
    let n := v % 65536
    if v / 65536 ≠ 65535 - n then stop 2
    else if b1.length < 8 * n then
      let k := b1.length / 8
      ({ out := (bytesOfBits k b1).reverse ++ out, bits := [], blocks := 0, verdict := 0 }, false)
    else ({ out := (bytesOfBits n b1).reverse ++ out, bits := b1.drop (8 * n), blocks := 1, verdict := 0 }, true)

/-- Blocks up to the last; empty stored blocks and the final block are not counted (R315). `total`: bits of the stream, for byte boundaries. -/
def infBlocks (total : Nat) : Nat → InfSt → InfSt
  | 0, s => s
  | fuel + 1, s =>
    match infBits 3 s.bits with
    | .more => s
    | .bad => s
    | .val (v, b1) =>
      let r : InfSt × Bool :=
        if v / 2 = 0 then infStored total s.out b1
        else if v / 2 = 1 then infSyms fixedLit fixedDist (b1.length + 1) s.out b1
        else if v / 2 = 2 then
          match infTables b1 with
          | .more => ({ s with verdict := 0 }, false)
          | .bad => ({ s with verdict := 2 }, false)
          | .val ((lit, dist), b2) => infSyms lit dist (b2.length + 1) s.out b2
        else ({ s with verdict := 2 }, false)
      let plain := v % 2 = 0 && !(v / 2 == 0 && r.1.out.length == s.out.length)
      let s1 : InfSt := { r.1 with blocks := s.blocks + (if plain then r.1.blocks else 0) }
      if !r.2 then s1
      else if v % 2 = 1 then { s1 with verdict := 1 }
      else infBlocks total fuel s1

/-- Expand raw bits that follow the history `hist` (latest byte first). -/
def infRaw (hist : List Byte) (bits : List Bool) : InfSt :=
  infBlocks bits.length (bits.length + 1) { out := hist, bits := bits, blocks := 0, verdict := 0 }

/-! ### Adler-32 and the zlib wrapper (RFC 1950) -/

def adlerStep (v : Word) (b : Byte) : Word :=
  let a := (v.toNat % 65536 + b.toNat) % 65521
  let c := (v.toNat / 65536 + a) % 65521
  BitVec.ofNat 32 (c * 65536 + a)

def adler (v : Word) (l : List Byte) : Word := l.foldl adlerStep v

def adlerBytes (v : Word) : List Byte :=
  [v.extractLsb' 24 8, v.extractLsb' 16 8, v.extractLsb' 8 8, v.extractLsb' 0 8]

/-- A stream as an inflating engine takes it: bytes so far, blocks ended, verdict, and how many input bytes the stream has
where it has ended. -/
structure Expand where
  out    : List Byte
  blocks : Nat
  /-- 0 the stream goes on, 1 it has ended, 2 an error. -/
  verdict : Nat
  used   : Nat
deriving DecidableEq, Repr

/-- Expand the stream `l` (R303). -/
def expand (zlib : Bool) (l : List Byte) : Expand :=
  let more : Expand := { out := [], blocks := 0, verdict := 0, used := l.length }
  let body (skip trailer : Nat) : Expand :=
    let r := infRaw [] (streamBits (l.drop skip))
    let out := r.out.reverse
    if r.verdict = 1 then
      let ends := l.length - r.bits.length / 8
      if l.length < ends + trailer then { out := out, blocks := r.blocks, verdict := 0, used := l.length }
      else
        let good := trailer = 0 || (l.drop ends).take 4 == adlerBytes (adler 1 out)
        { out := out, blocks := r.blocks, verdict := if good then 1 else 2, used := ends + trailer }
    else { out := out, blocks := r.blocks, verdict := r.verdict, used := l.length }
  if zlib then
    match l with
    | c :: f :: _ =>
      let h := c.toNat * 256 + f.toNat
      if c.toNat % 16 = 8 ∧ c.toNat / 16 ≤ 7 ∧ h % 31 = 0 ∧ !f.getLsbD 5 then body 2 4
      else { more with verdict := 2 }
    | _ => more
  else body 0 0

/-! ### Blocks as a compressing engine writes them (R306 to R308) -/

/-- One stored block that is not final. -/
def storedBlock (l : List Byte) : List Byte :=
  let n := l.length
  [0, BitVec.ofNat 8 n, BitVec.ofNat 8 (n / 256), BitVec.ofNat 8 (65535 - n), BitVec.ofNat 8 ((65535 - n) / 256)] ++ l

/-- The input as stored blocks of at most 65,535 bytes. -/
def storedBlocks : Nat → List Byte → List Byte
  | 0, _ => []
  | fuel + 1, l => if l.isEmpty then [] else storedBlock (l.take 65535) ++ storedBlocks fuel (l.drop 65535)

/-- The bits of a coded block followed by the empty stored block of a sync point. -/
def syncBytes (bits : List Bool) : List Byte :=
  let n := bits.length + 3
  let pad := (8 - n % 8) % 8
  let all := bits ++ List.replicate (3 + pad) false
  bytesOfBits (all.length / 8) all ++ [0, 0, 0xFF, 0xFF]

/-- `bits` are one block of type `bt`, not final, that expands to `inp` behind the history `hist` (latest byte first). -/
def codesBlock (bt : Nat) (hist inp : List Byte) (bits : List Bool) : Bool :=
  bits.take 3 == [false, bt == 1, bt == 2] &&
  (let r := infBlocks bits.length 1 { out := hist, bits := bits, blocks := 0, verdict := 0 }
   r.blocks == 1 && r.bits.isEmpty && r.out == inp.reverse ++ hist)

end Sys2Proof.Machine
end

