-- ==== Sys2Proof/Machine/Deflate.lean ====
section
/-! DEFINITION. The Deflate and inflate engines (chapter 14): their jobs, blocks, record commits and ends. Output of a block is
made in one step; a tick later than its last commit or host write the job consumes the block's source words. -/

namespace Sys2Proof.Machine

/-- The engine states of R314. -/
def dflOFF : Nat := 0
def dflIDLE : Nat := 1
def dflDEFLATE : Nat := 2
def dflINFLATE : Nat := 3

def dflState (s : State) (k : Nat) : Nat := rdF s (dflR k 0) 0 3
def setDflState (s : State) (k v : Nat) : State := wrF s (dflR k 0) 0 3 v
def dflZlib (s : State) (k : Nat) : Bool := rdBit s (dflR k 0) 26
def dflDynamic (s : State) (k : Nat) : Bool := rdBit s (dflR k 0) 25
def dflHost (s : State) (k : Nat) : Bool := rdBit s (dflR k 0) 24
def dflSrc (s : State) (k : Nat) : Nat := rdF s (dflR k 4) 0 15
def dflDest (s : State) (k : Nat) : Nat := rdF s (dflR k 4) 16 15
def dflWord (s : State) (k : Nat) : Nat := unitWord 6 k (dflState s k)
def dflStream (k : Nat) : Nat := 0x290 + k

/-- The host DMA channel of job `k`, if it has one. -/
def dflChan (s : State) (k : Nat) : Option Nat :=
  if dflState s k = dflINFLATE then some (dflSrc s k)
  else if dflState s k = dflDEFLATE && dflHost s k then some (dflDest s k) else none

/-- The running job that holds channel `c`. -/
def chanHolder (s : State) (c : Nat) : Option Nat := (List.range 16).find? (fun k => dflChan s k == some c)

/-- Channel states of R327. -/
def dmaState (s : State) (c : Nat) : Nat := rdF s (dmaR c 0x18) 0 2
def dmaIDLE : Nat := 0
def dmaRUNNING : Nat := 1
def dmaSTOPPING : Nat := 2
def dmaHALTED : Nat := 3
def dmaHead (s : State) (c : Nat) : Nat := rdF s (dmaR c 0x10) 0 17
def dmaTail (s : State) (c : Nat) : Nat := rdF s (dmaR c 0x0C) 0 17

/-- DMA_STATUS.BOUND and ENGINE of channel `c`. -/
def dmaBind (s : State) (c : Nat) (k : Option Nat) : State :=
  wrF (wrBit s (dmaR c 0x18) 20 k.isSome) (dmaR c 0x18) 16 4 (k.getD 0)

/-! ### The end of a job (R314) -/

/-- Job `k` ends with `cause`; the engine goes to state `st`. A flush that waits is satisfied where `flushed`. -/
def dflEnd (s : State) (k cause st : Nat) (flushed : Bool) : State :=
  let s0 := match dflChan s k with | some c => dmaBind s c none | none => s
  let s1 := wrF (setDflState s0 k st) (dflR k 0) 28 4 cause
  let s2 := dflEvent { s1 with dfl := tabDel s1.dfl k } k (if cause = 1 then 1 else 3)
  match s2.running.find? (fun c => c.wait == .deflateFlush k) with
  | some c => if flushed then dflEvent (completeCmd s2 c.m stOK []) k 4 else completeCmd s2 c.m stHW_FAULT [dflWord s2 k]
  | none => s2

/-- Job `k` is aborted; records already staged for its ring go on. -/
def dflAbort (s : State) (k cause st : Nat) : State :=
  if 2 ≤ dflState s k then dflEnd s k cause st false else s

/-- A job of a ring that is deleted ends with END 6 (R240, R314). -/
def dflRingDeleted (s : State) (r : Nat) : State :=
  forN 16 s (fun s k =>
    let uses := (dflState s k == dflDEFLATE && (dflSrc s k == r || (!dflHost s k && dflDest s k == r))) ||
      (dflState s k == dflINFLATE && dflDest s k == r)
    if uses then dflAbort s k 6 dflIDLE else s)

/-- RING_DELETE (R240): a Deflate or inflate job of the ring ends with it (R314). -/
def ringDeleteCmd (s : State) (m : Nat) : State :=
  let r := arg s m 0
  checked s m [noSched s m, needRange (decide (r < 32768)) 0, needDoms s [domRing],
    needCap s [capOFF, capREADY, capHALTED],
    needState (ringExists s r && (streamsOfRing s r).isEmpty) 3 r (ringState s r), needFree s [.ring r],
    needMem s 3 (ringWord s r)]
    (fun s => completeCmd (ringDelete (dflRingDeleted s r) r) m stOK [])

/-! ### Reading the source ring (R305, R306, R313) -/

/-- The words of the record at pointer `p`, its header image with POISON where a payload word is uncorrectable, counted
as read; the flag says that one is. -/
def readRecord (s : State) (r p : Nat) : List Word64 × Bool × State :=
  let h := ringWordAt s r (ringAddr s r p)
  let n := hdrLen h + 1
  let ad (i : Nat) : Nat := ringAddr s r (ringStep s r p i)
  let bad := (List.range n).any (fun i => ringBadAt s r (ad i))
  let ws := (List.range n).map (fun i => ringWordAt s r (ad i))
  let h1 := if bad then h ||| BitVec.ofNat 64 (2 ^ 58) else h
  (h1 :: ws.drop 1, bad, forN n s (fun s i => countRingRead s r (ad i)))

/-- The output made so far is committed to the ring, or written to the host. -/
def dflDrained (s : State) (k : Nat) : Bool :=
  let c := getDfl s k
  if dflHost s k then
    c.outQ.isEmpty && (!(c.syncMark || c.endMark.isSome) || (getDma s (dflDest s k)).filled == 0)
  else (getStr s (dflStream k)).staged.isEmpty

/-- The last block's output is committed or written; what is left is the final block's (R305). -/
def dflBlockOut (s : State) (k : Nat) : Bool :=
  let c := getDfl s k
  if dflHost s k then decide (c.outQ.length ≤ c.finLen)
  else (getStr s (dflStream k)).staged.all (fun r => (r.words.getD 1 0).getLsbD 40)

/-- A block has ended and its input is not consumed yet. -/
def dflPending (s : State) (k : Nat) : Bool :=
  let c := getDfl s k
  c.buf.isEmpty && decide (0 < c.bufWords)

/-- The block under way ends before the next record: a flush waits, or it has been idle for 4,096 ticks (R306). -/
def dflEnding (s : State) (k : Nat) : Bool :=
  let c := getDfl s k
  !c.buf.isEmpty && (c.flushReq || decide (c.lastRead + 4096 ≤ now s))

/-- The job may read. -/
def dflReads (s : State) (k : Nat) : Bool :=
  let c := getDfl s k
  dflState s k == dflDEFLATE && domReady s domDeflate && domReady s domRing && ringExists s (dflSrc s k) &&
  c.endReq == 0 && c.endMark.isNone && !dflPending s k && dflDrained s k && decide (c.buf.length < 65536) &&
  !dflEnding s k &&
  (!dflHost s k || (dmaState s (dflDest s k) == dmaRUNNING && dmaHead s (dflDest s k) != dmaTail s (dflDest s k)))

/-- Read the next record, if one is whole in the ring. An uncorrectable header ends the reading. -/
def dflRead (s : State) (k : Nat) : State :=
  let r := dflSrc s k
  let c := getDfl s k
  if dflReads s k && c.readPtr != ringWR s r then
    let w := ringAddr s r c.readPtr
    if ringBadAt s r w then setDfl (countRingRead s r w) k { c with endReq := 5 }
    else
      let n := hdrLen (ringWordAt s r w) + 1
      if ringDist s r c.readPtr (ringWR s r) < n then s
      else
        let (ws, bad, s1) := readRecord s r c.readPtr
        let bytes := ws.flatMap bytesOfWord
        let ts := ws.getD 1 0
        let s2 := setDfl s1 k { c with
          buf := c.buf ++ bytes, bufRecs := c.bufRecs + 1, bufTs := if c.bufRecs = 0 then ts else c.bufTs,
          bufPoison := c.bufPoison || bad, bufWords := c.bufWords + n, readPtr := ringStep s r c.readPtr n, lastTs := ts,
          lastRead := now s }
        let s3 := wr (wr64 s2 (dflR k 0x10) (rd64 s2 (dflR k 0x10) + bytes.length)) (dflR k 0x2C)
          (adler (rd s2 (dflR k 0x2C)) bytes)
        if bad then dflEvent (ctrAdd s3 (dflR k 0x28) 1) k 8 else s3
  else s

/-! ### Output (R306, R307, R310, R311) -/

/-- Stage `bytes` as DEFLATE records of at most 32,744 bytes, joined with CONT. -/
def dflRecords (s : State) (k : Nat) (ts : Word64) (flags : BitVec 8) (btype : Nat) (final : Bool) :
    Nat → List Byte → State
  | 0, _ => s
  | fuel + 1, bytes =>
    let b := bytes.take 32744
    let rest := bytes.drop 32744
    let w1 := (getDfl s k).block % 65536 * 2 ^ 48 + btype * 2 ^ 42 + b2n (dflZlib s k) * 2 ^ 41 + b2n final * 2 ^ 40 +
      k * 2 ^ 32 + b.length
    let ws := (List.range ((b.length + 7) / 8)).map (fun i => BitVec.ofNat 64 (natOfBytes ((b.drop (8 * i)).take 8)))
    let fl := if rest.isEmpty then flags else flags ||| flagCONT
    let s1 := stageNew s (dflStream k) (dflDest s k) tyDEFLATE fl (ts :: BitVec.ofNat 64 w1 :: ws) ts ts
    if rest.isEmpty then s1 else dflRecords s1 k ts flags btype final fuel rest
termination_by structural fuel => fuel

/-- Output of job `k`: behind the zlib header where it is the first. -/
def dflPut (s : State) (k : Nat) (ts : Word64) (flags : BitVec 8) (btype : Nat) (final : Bool) (bytes : List Byte) :
    State :=
  let c := getDfl s k
  let all := (if dflZlib s k && !c.headerDone then [0x78, 0x01] else []) ++ bytes
  let s1 := setDfl s k { c with headerDone := true, outQ := if dflHost s k then c.outQ ++ all else c.outQ }
  let s2 := wr64 s1 (dflR k 0x18) (rd64 s1 (dflR k 0x18) + all.length)
  if dflHost s2 k then s2 else dflRecords s2 k ts flags btype final (all.length / 32744 + 1) all

/-- The engine reads the input of the block that is ending a second time (R253, R307). -/
def dflReread (s : State) (k : Nat) : State :=
  let r := dflSrc s k
  let c := getDfl s k
  forN c.bufWords s (fun s i => countRingRead s r (ringAddr s r (ringStep s r c.readPtr (2 * ringSize s r - c.bufWords + i))))

/-- The block of the input read so far, its BTYPE and bytes. The coding is a free value that expands to the input; where it
is not shorter, the input is read again and goes out stored. -/
def dflCode (s : State) (k : Nat) : Nat × List Byte × State :=
  let c := getDfl s k
  let (d, s1) := drawFree s
  let bits := Config.deflateCode d (dflDynamic s k) c.history c.buf
  let bt := if dflDynamic s k then 2 else 1
  if (bits.length + 7) / 8 < c.buf.length && codesBlock bt c.history c.buf bits then (bt, syncBytes bits, s1)
  else (0, storedBlocks (c.buf.length / 65535 + 1) c.buf, dflReread s1 k)

/-- End the block (R306). -/
def dflClose (s : State) (k : Nat) : State :=
  let c := getDfl s k
  let (bt, bytes, s1) := dflCode s k
  let fl : BitVec 8 := (if bt = 0 then flagSTORED else 0) ||| (if c.bufPoison then flagPOISON else 0)
  let s2 := dflPut s1 k c.bufTs fl bt false bytes
  let s3 := ctrAdd s2 (dflR k 0x20) 1
  let s4 := if bt = 0 then ctrAdd s3 (dflR k 0x24) 1 else s3
  modDfl s4 k (fun x =>
    { x with
      history := (c.buf.reverse ++ c.history).take 32768, buf := [], bufRecs := 0, bufPoison := false, block := x.block + 1,
      syncMark := x.flushReq, flushReq := false })

/-- DEFLATE_BLOCK_END: a record boundary at which the input has 65,536 bytes, or that a flush waits for. -/
def dflBlockEnd (s : State) (k : Nat) : State :=
  let c := getDfl s k
  if dflState s k = dflDEFLATE && !c.buf.isEmpty && (decide (65536 ≤ c.buf.length) || c.flushReq) then dflClose s k else s

/-- DEFLATE_BLOCK_IDLE_TIMEOUT: 4,096 ticks without a record read. -/
def dflIdle (s : State) (k : Nat) : State :=
  let c := getDfl s k
  if dflState s k = dflDEFLATE && !c.buf.isEmpty && c.lastRead + 4096 ≤ now s then dflClose s k else s

/-- A TIU or DFC stream still has records to bring of the ticks up to the halt. -/
def streamBehind (s : State) (n : Nat) : Bool :=
  if 0x200 ≤ n ∧ n < 0x240 then !(getTiu s (n - 0x200)).hold.isEmpty
  else if 0x240 ≤ n ∧ n < 0x280 then (match s.capture.haltAt with | some q => dfcBehind s (n - 0x240) q | none => false)
  else false

/-- No producer can add to ring `r` any more (R308). -/
def ringFinished (s : State) (r : Nat) : Bool :=
  (streamsOfRing s r).isEmpty ||
  (!capActive s && !ringRefusing s r &&
   (match s.capture.haltAt with | some q => decide (q + s.lrel + 80 ≤ (now s : Int)) | none => true) &&
   s.stream.all (fun p => p.2.staged.all (fun q => decide (q.ring ≠ r))) &&
   (streamsOfRing s r).all (fun n => (getStr s n).openRec.isNone && !streamBehind s n) &&
   s.capture.owed.all (fun t => !t.rings.contains r))

/-- DEFLATE_JOB_END: the ring is read to its end and finished, or its next header is poisoned. The final empty stored block
and the trailer follow the open block. -/
def dflJobEnd (s : State) (k : Nat) : State :=
  let c := getDfl s k
  let r := dflSrc s k
  let finished := c.endReq != 0 || (c.readPtr == ringWR s r && ringFinished s r)
  if dflState s k = dflDEFLATE && c.endMark.isNone && !dflPending s k && dflDrained s k && domReady s domRing && finished then
    let s1 := if c.buf.isEmpty then s else dflClose s k
    let fin : List Byte := [1, 0, 0, 0xFF, 0xFF] ++ (if dflZlib s k then adlerBytes (rd s (dflR k 0x2C)) else [])
    let s2 := dflPut s1 k c.lastTs 0 0 true fin
    modDfl s2 k (fun x => { x with endMark := some (if c.endReq = 0 then 1 else c.endReq), finLen := fin.length })
  else s

/-- Consume the source words of a block whose output is out (R305). -/
def dflConsume (s : State) (k : Nat) : State :=
  let c := getDfl s k
  let r := dflSrc s k
  if dflState s k = dflDEFLATE && dflPending s k && dflBlockOut s k then
    if ringStep s r (ringRD s r) c.bufWords != c.readPtr then dflEnd s k 6 dflIDLE c.syncMark
    else modDfl (ringDoorbell s r (BitVec.ofNat 32 (5 * 2 ^ 28 + c.bufWords))) k (fun x => { x with bufWords := 0 })
  else s

/-- Consume, then finish a flush or the job whose output is all out. -/
def dflSettle (s0 : State) (k : Nat) : State :=
  let s := dflConsume s0 k
  let c := getDfl s k
  if dflState s k = dflDEFLATE && dflDrained s k && !dflPending s k then
    match c.endMark with
    | some cause => dflEnd s k cause dflIDLE true
    | none =>
      if c.syncMark then
        let s2 := modDfl s k (fun x => { x with syncMark := false })
        match s2.running.find? (fun x => x.wait == .deflateFlush k) with
        | some x => dflEvent (completeCmd s2 x.m stOK []) k 4
        | none => s2
      else s
  else s

/-- The engines as a tick ends: output that is out is settled, and a job reads its next record. -/
def dflTick (s : State) : State := forEach (s.dfl.map Prod.fst) s (fun s k => dflRead (dflSettle s k) k)

/-! ### Expanding (R303, R312) -/

/-- What the stream bytes taken so far expand to. -/
def dflExpand (s : State) (k : Nat) : Expand := expand (dflZlib s k) (getDfl s k).inBytes

/-- The engine takes the bytes of a host buffer: how many, and whether the stream ends in it. -/
def dflTake (s : State) (k : Nat) (data : List Byte) : Nat × Bool × State :=
  let c := getDfl s k
  let old := dflExpand s k
  let x := expand (dflZlib s k) (c.inBytes ++ data)
  let taken := if x.verdict = 1 then x.used - c.inBytes.length else data.length
  let s1 := setDfl s k { c with inBytes := c.inBytes ++ data.take taken, outBytes := x.out }
  let s2 := wr64 s1 (dflR k 0x10) (rd64 s1 (dflR k 0x10) + taken)
  let s3 := ctrAdd s2 (dflR k 0x20) (x.blocks - old.blocks)
  (taken, x.verdict == 1, wr s3 (dflR k 0x2C) (adler 1 x.out))

/-- The header of the next record of the expanded bytes, where eight of them are there. -/
def dflNextHdr (s : State) (k : Nat) : Option Word64 :=
  let c := getDfl s k
  let rest := c.outBytes.drop c.committed
  if rest.length < 8 then none else some (BitVec.ofNat 64 (natOfBytes (rest.take 8)))

/-- Its TYPE is one a record may have. -/
def hdrGood (h : Word64) : Bool := decide (1 ≤ hdrType h) && decide (hdrType h ≤ 10)

/-- The next record, where it is whole. -/
def dflNextRec (s : State) (k : Nat) : Option Rec :=
  let c := getDfl s k
  match dflNextHdr s k with
  | none => none
  | some h =>
    let n := hdrLen h
    let rest := c.outBytes.drop (c.committed + 8)
    if hdrGood h && decide (8 * n ≤ rest.length) then
      let ws := (List.range n).map (fun i => BitVec.ofNat 64 (natOfBytes ((rest.drop (8 * i)).take 8)))
      some { typ := BitVec.ofNat 4 (hdrType h), flags := hdrFlags h, source := hdrSource h, words := ws, bad := [],
             ring := dflDest s k, ord := 0, firstTs := ws.headD 0, lastTs := ws.headD 0 }
    else none

/-- INFLATE_RECORD_COMMIT: the next whole record goes into the destination ring. -/
def inflateCommit (s : State) (k : Nat) : State :=
  let r := dflDest s k
  match dflNextRec s k with
  | none => s
  | some rec =>
    if dflState s k = dflINFLATE && domReady s domDeflate && domReady s domRing && ringExists s r && ringCommitFree s r &&
        !ringRefusing s r && decide (rec.words.length + 1 ≤ ringFreeForCommit s r) then
      let s1 := ringCommit s r rec
      let s2 := modDfl s1 k (fun x => { x with committed := x.committed + recBytes rec })
      wr64 s2 (dflR k 0x18) (rd64 s2 (dflR k 0x18) + recBytes rec)
    else s

/-- The job waits for room in its ring for a record that is whole, and takes no further input (R312). -/
def inflateWaits (s : State) (k : Nat) : Bool :=
  match dflNextRec s k with
  | some rec => ringRefusing s (dflDest s k) || decide (ringFreeForCommit s (dflDest s k) < rec.words.length + 1)
  | none => false

/-- The end cause of an inflating job that can commit no further record, if it has one. -/
def inflateCause (s : State) (k : Nat) : Option Nat :=
  if (dflNextRec s k).isSome then none
  else
    let badType := match dflNextHdr s k with | some h => !hdrGood h | none => false
    let x := dflExpand s k
    if badType then some 3
    else if x.verdict = 2 then some 2
    else if x.verdict = 1 then some (if x.out.length = (getDfl s k).committed then 1 else 3)
    else none

/-- INFLATE_STREAM_END. -/
def inflateEnd (s : State) (k : Nat) : State :=
  if dflState s k = dflINFLATE then
    match inflateCause s k with
    | some cause => dflEnd s k cause dflIDLE false
    | none => s
  else s

/-! ### Commands of group 0x0A -/

/-- A DMA channel that no other running job holds (R330). -/
def needChan (s : State) (c : Nat) : Option Fail :=
  match chanHolder s c with
  | some k => some { status := stBAD_STATE, res := [dflWord s k] }
  | none => none

/-- The job's own DMA channel, where it has one, is held by the job from its start (R330). -/
def dflBind (s : State) (k : Nat) : State :=
  match dflChan s k with | some c => dmaBind s c (some k) | none => s

/-- The job starts: status, rings and counters cleared. -/
def dflStart (s : State) (k state src dest : Nat) (zlib dynamic host : Bool) (readPtr : Nat) : State :=
  let s1 := ([0x10, 0x14, 0x18, 0x1C, 0x20, 0x24, 0x28]).foldl (fun s o => wr s (dflR k o) 0) s
  let s2 := wr (wr (wr s1 (dflR k 0x2C) 1) (dflR k 4) (BitVec.ofNat 32 (dest * 2 ^ 16 + src))) (dflR k 0)
    (BitVec.ofNat 32 (b2n zlib * 2 ^ 26 + b2n dynamic * 2 ^ 25 + b2n host * 2 ^ 24 + state))
  dflBind (setDfl s2 k { DflCore.init with readPtr := readPtr, lastRead := now s }) k

/-- A ring that a Deflate or inflate job may write to. -/
def needDest (s : State) (r : Nat) : Option Fail :=
  needState (ringExists s r && (streamsOfRing s r).isEmpty) 3 r (ringState s r)

/-- DEFLATE_JOB. -/
def deflateJobCmd (s : State) (m : Nat) : State :=
  let k := arg s m 0
  let src := arg s m 1
  let host := arg s m 4 == 1
  let d := arg s m 5
  let used := (List.range 16).any (fun j => dflState s j == dflDEFLATE && dflSrc s j == src)
  let auto := ringAuto s src && !(streamsOfRing s src).isEmpty && capActive s
  checked s m [noSched s m, needArg (decide (arg s m 2 ≤ 1)) 2, needArg (decide (arg s m 3 ≤ 1)) 3,
    needArg (decide (arg s m 4 ≤ 1)) 4, needArg (host || d != src) 5, needRange (decide (k ≤ 15)) 0,
    needRange (decide (src ≤ 32767)) 1, needRange (if host then decide (d ≤ 31) else decide (d ≤ 32767)) 5,
    needDoms s [domDeflate, domRing], needState (dflState s k == dflIDLE) 6 k (dflState s k),
    needState (ringExists s src && !used && !auto) 3 src (ringState s src),
    if host then needChan s d else needDest s d,
    needFree s ([Res.deflate k, Res.ring src] ++ (if host then [] else [Res.ring d])), needMem s 4 (dflWord s k)]
    (fun s =>
      completeCmd (dflStart s k dflDEFLATE src d (arg s m 3 == 1) (arg s m 2 == 1) host (ringRD s src)) m stOK [])

/-- INFLATE_JOB. -/
def inflateJobCmd (s : State) (m : Nat) : State :=
  let k := arg s m 0
  let c := arg s m 1
  let d := arg s m 3
  checked s m [noSched s m, needArg (decide (arg s m 2 ≤ 1)) 2, needRange (decide (k ≤ 15)) 0,
    needRange (decide (c ≤ 31)) 1, needRange (decide (d ≤ 32767)) 3, needDoms s [domDeflate, domRing],
    needState (dflState s k == dflIDLE) 6 k (dflState s k), needChan s c, needDest s d,
    needFree s [.deflate k, .ring d], needMem s 4 (dflWord s k)]
    (fun s => completeCmd (dflStart s k dflINFLATE c d (arg s m 2 == 1) false true 0) m stOK [])

/-- DEFLATE_FLUSH. -/
def deflateFlushCmd (s : State) (m : Nat) : State :=
  let k := arg s m 0
  checked s m [noSched s m, needRange (decide (k ≤ 15)) 0, needDoms s [domDeflate],
    needState (dflState s k == dflDEFLATE) 6 k (dflState s k), needFree s [.deflate k], needMem s 4 (dflWord s k)]
    (fun s =>
      if (getDfl s k).buf.isEmpty then dflEvent (completeCmd s m stOK []) k 4
      else holdCmd (modDfl s k (fun c => { c with flushReq := true })) m (.deflateFlush k) [.deflate k])

/-- DEFLATE_STATUS. -/
def deflateStatusCmd (s : State) (m : Nat) : State :=
  let k := arg s m 0
  checked s m [noSched s m, needRange (decide (k ≤ 15)) 0]
    (fun s =>
      completeCmd s m stOK ([dflState s k] ++ words2 (rd64 s (dflR k 0x10)) ++ words2 (rd64 s (dflR k 0x18))))

/-! ### Meanings of the rows -/

def execRingDelete (m : Fin 16) (s : State) : Out := .next (fwRow s m.val 0x0502 (fun s => ringDeleteCmd s m.val))
def execDeflateJob (m : Fin 16) (s : State) : Out := .next (fwRow s m.val 0x0A01 (fun s => deflateJobCmd s m.val))
def execInflateJob (m : Fin 16) (s : State) : Out := .next (fwRow s m.val 0x0A02 (fun s => inflateJobCmd s m.val))
def execDeflateFlush (m : Fin 16) (s : State) : Out := .next (fwRow s m.val 0x0A03 (fun s => deflateFlushCmd s m.val))
def execDeflateStatus (m : Fin 16) (s : State) : Out := .next (fwRow s m.val 0x0A04 (fun s => deflateStatusCmd s m.val))
def execDeflateBlockEnd (k : Fin 16) (s : State) : Out := .next (dflBlockEnd s k.val)
def execDeflateBlockIdleTimeout (k : Fin 16) (s : State) : Out := .next (dflIdle s k.val)
def execDeflateJobEnd (k : Fin 16) (s : State) : Out := .next (dflJobEnd s k.val)
def execInflateRecordCommit (k : Fin 16) (s : State) : Out := .next (inflateCommit s k.val)
def execInflateStreamEnd (k : Fin 16) (s : State) : Out := .next (inflateEnd s k.val)

end Sys2Proof.Machine
end

