-- ==== Sys2Proof/Machine/Timebase.lean ====
section
/-! DEFINITION. The timebase (chapter 05): reference detector, PLLs and relocks, the Timetable counter, leaving the Loop line,
and the commands of group 0x01. -/

namespace Sys2Proof.Machine

/-! ### Setting the Timetable counter (R113) -/

/-- A tick kept for later, moved with the counter. -/
def shiftTick (d : Int) (t : Tick) : Tick := ((t : Int) + d).toNat

/-- An optional kept tick. -/
def shiftOpt (d : Int) (o : Option Tick) : Option Tick := o.map (shiftTick d)

/-- What engine `c` keeps. A replay engine's input history counts fed ticks. -/
def shiftEng (d : Int) (c : EngCore) : EngCore :=
  let n := c.notices
  let live := c.job.isNone
  { c with
    pub := if live then c.pub.map (fun p => (shiftTick d p.1, p.2)) else c.pub
    evals := if live then c.evals.map (fun v => { v with tick := shiftTick d v.tick, recTick := v.recTick + d }) else c.evals
    reqQ := c.reqQ.map (fun q => { q with issued := shiftTick d q.issued })
    resQ := c.resQ.map (fun r => { r with issued := shiftTick d r.issued, visible := shiftTick d r.visible })
    notices := { n with snap := shiftOpt d n.snap, level := shiftOpt d n.level, stop := shiftOpt d n.stop, pause := shiftOpt d n.pause }
    lastExec := shiftOpt d c.lastExec, startAt := shiftOpt d c.startAt, resumedAt := shiftOpt d c.resumedAt
    lvlHw := shiftOpt d c.lvlHw, lvlHost := shiftOpt d c.lvlHost, resetAt := shiftOpt d c.resetAt }

def shiftWindow (d : Int) (w : Window) : Window := { w with start := w.start + d, stop := w.stop.map (fun k => k + d) }

def shiftStream (d : Int) (c : StreamCore) : StreamCore :=
  { c with
    openRec := c.openRec.map (fun o => { o with first := o.first + d, last := o.last + d, at_ := shiftTick d o.at_ })
    dead := c.dead.map (fun p => (p.1 + d, p.2)), windows := c.windows.map (shiftWindow d)
    autoWins := c.autoWins.map (shiftWindow d), badSf := shiftOpt d c.badSf, doneK := c.doneK.map (fun k => k + d) }

def shiftLane (d : Int) (l : LaneCore) : LaneCore :=
  { l with
    hist := l.hist.map (fun x => { x with tick := shiftTick d x.tick, bad := shiftOpt d x.bad })
    liveFrom := shiftTick d l.liveFrom, lossAt := shiftOpt d l.lossAt
    sf := { l.sf with
      pend := l.sf.pend.map (fun p => { p with first := shiftTick d p.first })
      cur := l.sf.cur.map (fun p => { p with first := shiftTick d p.first }) } }

/-- Stamps are in sub-ticks with 8 fractional bits, C2 in quarters of a tick. -/
def shiftTiu (d : Int) (t : TiuCore) : TiuCore :=
  let y (o : Option Int) : Option Int := o.map (fun v => v + d * 65536)
  { t with
    queue := t.queue.map (fun e => { e with c2 := ((e.c2 : Int) + 4 * d).toNat, tick := shiftTick d e.tick })
    hold := t.hold.map (fun r => { r with recTick := r.recTick + d })
    gateTick := shiftTick d t.gateTick, calFrom := shiftTick d t.calFrom
    openAt := y t.openAt, pairAt := y t.pairAt, lastEdge := y t.lastEdge, firstY := t.firstY + d * 65536
    reqIn := t.reqIn.map (fun p => (p.1, shiftTick d p.2)), req := t.req.map (fun p => (p.1, shiftTick d p.2)) }

/-- Positions are in 2^-24 ticks. -/
def shiftDfc (d : Int) (c : DfcCore) : DfcCore :=
  { c with
    grid := c.grid + d, resets := c.resets.map (fun r => r + d), lastIn := c.lastIn + d
    inputs := c.inputs.map (fun i => { i with recTick := i.recTick + d })
    held := c.held.map (fun o => { o with due := shiftTick d o.due, pos := o.pos + d * 2 ^ 24, supp := o.supp + d, upto := o.upto + d })
    cmps := c.cmps.map (fun x => { x with due := shiftTick d x.due }) }

def shiftTrig (d : Int) (u : Trig) : Trig := { u with t := u.t + d, decided := shiftTick d u.decided }

def shiftCapture (d : Int) (c : Capture) : Capture :=
  { c with
    recFrom := c.recFrom + d, first := c.first + d, asserts := c.asserts.map (fun a => { a with t := a.t + d })
    trigs := c.trigs.map (shiftTrig d), owed := c.owed.map (shiftTrig d)
    ends := c.ends.map (fun e => { t := e.t + d, fin := e.fin + d }), haltAt := c.haltAt.map (fun k => k + d) }

/-- A wait of so many ticks goes on; an execution tick is a value of the counter and stays. -/
def shiftWait (d : Int) (w : Wait) : Wait :=
  match w with
  | .flush r t b u => .flush r (shiftTick d t) b u
  | .armClear t => .armClear (shiftTick d t)
  | .snapshot t r es => .snapshot (shiftTick d t) r es
  | .stats t r l => .stats (shiftTick d t) r l
  | w => w

def shiftCtx (d : Int) (c : CtxStore) : CtxStore :=
  { c with
    clear := c.clear.map (fun x => { x with from_ := shiftTick d x.from_ })
    sweepAt := c.sweepAt.map (fun p => (p.1, shiftTick d p.2)), granted := c.granted.map (fun p => (p.1, shiftTick d p.2))
    flight := c.flight.map (fun f => { f with at_ := shiftTick d f.at_, req := { f.req with issued := shiftTick d f.req.issued } })
    extQ := c.extQ.map (fun p => (p.1, p.2.map (fun q => { q with issued := shiftTick d q.issued }))) }

def shiftRing (d : Int) (c : RingCore) : RingCore :=
  { c with oldest := shiftOpt d c.oldest, markRaise := shiftOpt d c.markRaise, commitAt := shiftOpt d c.commitAt }

def shiftEv (d : Int) (g : GEv) : GEv := { g with due := shiftTick d g.due }

/-- Apply `f` to every entry of a table. -/
def tabMap (f : α → α) (t : Tab α) : Tab α := t.map (fun p => (p.1, f p.2))

/-- The counter takes the value `v`. Every kept tick and record tick moves with it: what waits a number of ticks goes on waiting
that number (DEDUCED, log 29). -/
def timeLoad (s : State) (v : BitVec 56) : State :=
  let d : Int := (v.toNat : Int) - now s
  { s with
    time := v
    glb := { s.glb with pipe := s.glb.pipe.map (shiftEv d), sampled := s.glb.sampled.map (fun p => (shiftTick d p.1, p.2)) }
    trigOut := { s.trigOut with pipe := s.trigOut.pipe.map (shiftEv d), pulse := tabMap (shiftTick d) s.trigOut.pulse }
    ctx := shiftCtx d s.ctx
    capture := shiftCapture d s.capture
    eng := tabMap (shiftEng d) s.eng
    stream := tabMap (shiftStream d) s.stream
    lane := tabMap (shiftLane d) s.lane
    ret := tabMap (fun r => { r with lastAt := shiftOpt d r.lastAt }) s.ret
    ring := tabMap (shiftRing d) s.ring
    tiu := tabMap (shiftTiu d) s.tiu
    dfc := tabMap (shiftDfc d) s.dfc
    dfl := tabMap (fun c => { c with lastRead := shiftTick d c.lastRead }) s.dfl
    job := tabMap (fun b => { b with lastFed := shiftOpt d b.lastFed, lastAct := shiftOpt d b.lastAct }) s.job
    loop := { s.loop with
      txq := s.loop.txq.map (fun x => { x with from_ := shiftTick d x.from_ })
      line := s.loop.line.map (fun p => (shiftTick d p.1, p.2)) }
    running := s.running.map (fun c => { c with wait := shiftWait d c.wait }) }

/-! ### Loop line membership (R125) -/

/-- Membership ends; DISSOLVE goes out where `dissolve`. -/
def loopLeave (s : State) (dissolve : Bool) : State :=
  if loopMember s then
    let s1 := if dissolve then loopQueue s (mkFrame kDISSOLVE (loopPos s) 0 0 0 0 0) else s
    let s2 := tbEvent (wrBit s1 SYS_CAPTURE 3 false) 0x00400000
    { s2 with loop := { s2.loop with pos := none, n := 0, was := s2.loop.pos } }
  else s

/-! ### PLLs (R105 to R112) -/

def pllDom (k : Nat) : Nat := if k = 0 then domTimebase else if k = 1 then domTiu else if k < 10 then k + 1 else k + 7

def setPll (s : State) (k : Nat) (p : Pll) : State := { s with tb := { s.tb with plls := s.tb.plls.set k p } }
def modPll (s : State) (k : Nat) (f : Pll → Pll) : State := setPll s k (f (getPll s k))
def pllLocked (s : State) (k : Nat) : Bool := (getPll s k).locked

/-- Reference of PLL `k` in MHz. The timebase's follows from the settings in use, whose product is 4 GHz. -/
def pllRef (s : State) (k : Nat) : Nat :=
  if k = 0 then (if s.tb.crystal then 100 else 4000 * (getPll s 0).refdiv / (getPll s 0).fbdiv)
  else if k < 10 then 1000 else 100

def pllVco (k : Nat) : Nat := if k < 2 then 4000 else if k < 10 then 20000 else 6400

/-- Ranges of REFDIV and FBDIV. -/
def pllRange (k : Nat) : (Nat × Nat) × (Nat × Nat) :=
  if k = 0 then ((1, 10), (40, 400)) else if k = 1 then ((4, 15), (16, 60)) else if k < 10 then ((4, 15), (80, 300))
  else ((1, 4), (64, 256))

def pllDefaultBw (k : Nat) : Nat := if k = 0 then 2 else 4

/-- Default settings for a reference of `mhz` (R105). -/
def pllDefaults (k mhz : Nat) : Nat × Nat :=
  if k = 0 then (1, if mhz = 10 then 400 else 40) else if k = 1 then (4, 16) else if k < 10 then (4, 80) else (1, 64)

/-- The least phase-detector frequency of a bandwidth code in MHz (R107). -/
def bwLimit (bw : Nat) : Nat := if bw ≤ 2 then 10 else if bw = 3 then 20 else 40

/-- Settings of ARG1 (R106): REFDIV, FBDIV, bandwidth code. -/
def pllSettings (s : State) (k a : Nat) : Nat × Nat × Nat :=
  if a = 0 then ((pllDefaults k (pllRef s k)).1, (pllDefaults k (pllRef s k)).2, pllDefaultBw k)
  else
    let bw := a / 2 ^ 16 % 16
    (a / 2 ^ 12 % 16, a % 1024, if bw = 0 then pllDefaultBw k else bw)

/-- ARG1 is a defined encoding. -/
def pllArgOk (a : Nat) : Bool :=
  a == 0 || (a / 2 ^ 20 == 0 && a / 2 ^ 10 % 4 == 0 && decide (a / 2 ^ 16 % 16 ≤ 4) && a / 2 ^ 12 % 16 != 0)

/-- The settings are within the ranges, hit the VCO frequency, and keep the bandwidth limit. -/
def pllLegal (s : State) (k : Nat) (x : Nat × Nat × Nat) : Bool :=
  let r := (pllRange k).1
  let f := (pllRange k).2
  decide (r.1 ≤ x.1) && decide (x.1 ≤ r.2) && decide (f.1 ≤ x.2.1) && decide (x.2.1 ≤ f.2) &&
  pllRef s k * x.2.1 == pllVco k * x.1 && decide (bwLimit x.2.2 * x.1 ≤ pllRef s k)

/-- PLL `k` is released to lock with its present settings, once the ramp of its domain is over. -/
def pllRelease (s : State) (k : Nat) : State :=
  modPll s k (fun p => { p with locked := false, relock := true, since := max s.ns (tabGet 0 s.ramp (pllDom k)) })

/-- A timebase relock (R111): dependent PLLs gated, LIVE lanes LOST, TIU measurements ended, Loop line left. -/
def timebaseRelock (s : State) : State :=
  let s1 := pllRelease s 0
  let s2 := ([1, 2, 3, 4, 5, 6, 7, 8, 9]).foldl (fun s k => if domOn s (pllDom k) then pllRelease s k else s) s1
  loopLeave (tiuNoClock (forN 256 s2 laneLose)) true

/-- Relock PLL `k` with its present settings (R110, R111). -/
def pllRelock (s : State) (k : Nat) : State :=
  if k = 0 then timebaseRelock s
  else if k = 1 then tiuNoClock (pllRelease s k)
  else if k < 10 then forN 32 (pllRelease s k) (fun s i => laneLose s (32 * (k - 2) + i))
  else pllRelease s k

/-- The commands that wait for PLL `k`: several may, of a memory PLL. -/
def pllWaiters (s : State) (k : Nat) : List RunCmd :=
  s.running.filter (fun c => match c.wait with | .pll j => j == k | _ => false)

/-- The ramp of domain `d` is over. -/
def ramped (s : State) (d : Nat) : Bool := decide (tabGet 0 s.ramp d ≤ s.ns)

/-- The PLL that clocks domain `d` alone, if any (R105). -/
def domPll (d : Nat) : Option Nat :=
  if d = domTimebase then some 0 else if d = domTiu then some 1 else if 3 ≤ d ∧ d ≤ 10 then some (d - 1)
  else if d = 17 ∨ d = 18 then some (d - 7) else none

/-- The timebase and the link domains have neither memory nor initialisation. -/
def noBist (d : Nat) : Bool := d == domTimebase || (decide (3 ≤ d) && decide (d ≤ 10))

/-- Domain `d` becomes ready once its ramp is over, its PLL has locked and its BIST or initialisation has passed (R357,
R364, R369). A trip stops its clocks for good (R371). -/
def readyCheck (s : State) (d : Nat) : State :=
  let lock := match domPll d with | some k => pllLocked s k | none => true
  let init := noBist d || s.inits.contains d
  if domOn s d && ramped s d && lock && init && !domReady s d && !thermTripped s then wrBit s PWR_READY d true else s

/-- The clock that PLL `k` takes its reference from runs: the tick for PLLs 1 to 9 (R105, R111). -/
def pllFed (s : State) (k : Nat) : Bool := k == 0 || decide (10 ≤ k) || pllLocked s 0

/-- PLL `k` is acquiring. -/
def pllLocking (s : State) (k : Nat) : Bool :=
  (getPll s k).relock && domOn s (pllDom k) && ramped s (pllDom k) && pllFed s k

/-- The limit within which a PLL locks, in ns (R108). -/
def lockLimit : Nat := 5000000

/-- Once the tick returns, the PLLs it feeds are released (R111). -/
def fedRelease (s : State) : State :=
  forEach [1, 2, 3, 4, 5, 6, 7, 8, 9] s (fun s k =>
    modPll s k (fun q => if q.relock then { q with since := max s.ns (tabGet 0 s.ramp (pllDom k)) } else q))

/-- PLL_LOCK: 1,024 comparisons in lock within 5 ms (R108, R110 to R113). A domain made ready by its lock alone becomes ready; the
TIU calibrates; the waiting commands complete. -/
def pllLock (s : State) (k : Nat) (cycles : Nat) : State :=
  let p := getPll s k
  if pllLocking s k && decide (s.ns ≤ p.since + lockLimit) && decide (1024 ≤ cycles) then
    let s1 := setPll s k { p with locked := true, relock := false }
    let ws := pllWaiters s k
    let s2 := if k = 0 then
        fedRelease (if ws.any (fun c => c.op == 0x0101) then
          { s1 with tb := { s1.tb with holdover := false, refLost := false } } else s1)
      else s1
    let s3 := readyCheck s2 (pllDom k)
    let s4 := if k = 1 && domReady s3 domTiu then tiuLocked s3 else s3
    forEach ws s4 (fun t c => completeCmd t c.m stOK [if c.op = 0x0101 then s.tb.refClass else cycles])
  else s

/-- PLL_LOCK_TIMEOUT: no lock within 5 ms; the domain stays on its safe clock (R108, R112). TB_REF_SELECT completes with TIMEOUT
as PLL_CONFIG does (DESIGN CHOICE, log 55). -/
def pllLockTimeout (s : State) (k : Nat) : State :=
  let p := getPll s k
  if pllLocking s k && decide (p.since + lockLimit ≤ s.ns) then
    forEach (pllWaiters s k) (setPll s k { p with relock := false }) (fun t c => completeCmd t c.m stTIMEOUT [])
  else s

/-- UNLOCK: PLL `k` in use becomes unlocked (R112). One whose domain is not ready yet clocks nothing and is not in use (DEDUCED,
log 55). -/
def pllUnlock (s : State) (k : Nat) : State :=
  if pllLocked s k && domReady s (pllDom k) && !(k == 0 && s.tb.holdover) then
    let s1 := tbEvent s (bit k)
    let s2 := if k = 0 || 10 ≤ k then captureHalt s1 4 else s1
    pllRelock s2 k
  else s

/-! ### The reference (R100 to R103) -/

/-- Class of a window's edge count: 0 none, 1 10 MHz, 2 100 MHz. -/
def refClassOf (edges : Nat) : Nat :=
  if 9998 ≤ edges ∧ edges ≤ 10002 then 1 else if 99980 ≤ edges ∧ edges ≤ 100020 then 2 else 0

/-- REF_DETECT_WINDOW: a window of the frequency detector ends (R100). REF_RETURN is set where the class changes from none: a loss
that never showed as none sets nothing (DEDUCED, log 55). -/
def refDetectWindow (s : State) (edges : Nat) : State :=
  let c := refClassOf edges
  let agree := c == s.tb.prevWin
  let s1 := { s with tb := { s.tb with prevWin := c, refClass := if agree then c else s.tb.refClass } }
  if agree && s.tb.refClass == 0 && c != 0 && s.tb.refLost then tbEvent s1 0x00080000 else s1

/-- REF_LOST: four periods without a single edge while locked to REF_IN. -/
def refLost (s : State) : State :=
  if domReady s domTimebase && !s.tb.crystal && pllLocked s 0 && !s.tb.holdover then
    let s1 := tbEvent { s with tb := { s.tb with refLost := true, holdover := true } } 0x00140000
    loopLeave s1 true
  else s

/-! ### REF_OUT (R104) -/

/-- Period of REF_OUT in ticks; 0 off. -/
def refOutPeriod (s : State) : Nat := if s.tb.refOut = 1 then 100 else if s.tb.refOut = 2 then 10 else 0

/-- REF_OUT rises on this tick: on the multiples of its period in ticks, or from the crystal while the timebase is not locked. -/
def refOutRises (s : State) : Bool :=
  let p := refOutPeriod s
  p != 0 && decide (s.tb.refEdge + p ≤ s.ns) && (!pllLocked s 0 || now s % p == 0)

/-- As a tick begins. -/
def refOutTick (s : State) : State := if refOutRises s then { s with tb := { s.tb with refEdge := s.ns } } else s

/-- The level of REF_OUT: high for the first half of each period. -/
def refOutLevel (s : State) : Bool :=
  domReady s domTimebase && refOutPeriod s != 0 && decide (s.ns < s.tb.refEdge + refOutPeriod s / 2)

/-! ### Commands of group 0x01 -/

def allCaps : List Nat := [capOFF, capREADY, capARMED, capTRIGGERED, capHALTED]

/-- TB_REF_SELECT (R103). -/
def tbRefSelectCmd (s : State) (m : Nat) : State :=
  let src := arg s m 0
  checked s m [noSched s m, needArg (src ≤ 1) 0, needDoms s [domTimebase], needCap s [capOFF],
    needOpen s (src == 1 || s.tb.refClass != 0) 8, needFree s [.timebase]]
    (fun s =>
      let mhz := if src = 0 && s.tb.refClass = 1 then 10 else 100
      let d := pllDefaults 0 mhz
      let s1 := modPll { s with tb := { s.tb with crystal := src == 1 } } 0 (fun p =>
        { p with refdiv := d.1, fbdiv := d.2, bw := 2 })
      holdCmd (timebaseRelock s1) m (.pll 0) [.timebase])

/-- The domain of PLL `k` is on: it counts as off until its BIST or initialisation has passed (R20, R357), but not for want of
the PLL's own lock. -/
def pllPowered (s : State) (k : Nat) : Bool :=
  let d := pllDom k
  domOn s d && (domReady s d || noBist d || s.inits.contains d)

/-- PLL_CONFIG (R105 to R110). -/
def pllConfigCmd (s : State) (m : Nat) : State :=
  let k := arg s m 0
  let a := arg s m 1
  let spread := arg s m 2
  let x := pllSettings s k a
  let lanes := if 2 ≤ k && k < 10 then (List.range 32).map (fun i => 32 * (k - 2) + i) else []
  let state : List (Option Fail) :=
    if k = 0 then [needCap s [capOFF]]
    else if k = 1 then
      [needAll (List.range 64) (fun i => needState (!(tiuState s i == tiuMEASURING)) 4 i (tiuState s i))]
    else if k < 10 then [needAll lanes (fun n => needState (laneState s n == laneOFF) 1 n (laneState s n))]
    else [needCap s [capOFF, capREADY]]
  let held : List Res :=
    if k = 0 then [.timebase] else if k = 1 then (List.range 64).map Res.tiu else lanes.map Res.lane
  checked s m ([noSched s m, needArg (k ≤ 11) 0, needArg (pllArgOk a) 1,
      needArg (spread ≤ 2 && (spread == 0 || decide (10 ≤ k))) 2, needRange (pllLegal s k x) 1,
      failIf (!pllPowered s k) stNOT_POWERED [pllDom k]] ++
      state ++ [needFree s held])
    (fun s =>
      let s1 := modPll s k (fun p => { p with refdiv := x.1, fbdiv := x.2.1, bw := x.2.2, spread := spread })
      holdCmd (pllRelock s1 k) m (.pll k) held)

/-- REF_OUT_SET (R104). -/
def refOutSetCmd (s : State) (m : Nat) : State :=
  let v := arg s m 0
  checked s m [noSched s m, needArg (v ≤ 2) 0, if v = 0 then none else needDoms s [domTimebase]]
    (fun s => completeCmd { s with tb := { s.tb with refOut := v } } m stOK [])

/-- TB_STATUS. -/
def tbStatusCmd (s : State) (m : Nat) : State :=
  checked s m [noSched s m] (fun s =>
    let locks := ((List.range 12).map (fun k => if pllLocked s k then 2 ^ k else 0)).foldl (· + ·) 0
    completeCmd s m stOK [b2n s.tb.refLost + 2 * b2n s.tb.holdover + 4 * b2n s.tb.crystal, s.tb.refClass, locks])

/-- TIME_SET: the result is the tick of the counter on which the value was loaded. -/
def timeSetCmd (s : State) (m : Nat) : State :=
  let v := arg64 s m 0
  checked s m [noSched s m, needArg (v % 256 == 0) 0, needDoms s [domTimebase], needCap s [capOFF],
    needOpen s (!loopMember s) 7, needFree s [.timebase]]
    (fun s => completeCmd (timeLoad s (BitVec.ofNat 56 (v / 256))) m stOK (words2 (now s)))

/-! ### Meanings of the rows -/

def execTbRefSelect (m : Fin 16) (s : State) : Out := .next (fwRow s m.val 0x0101 (fun s => tbRefSelectCmd s m.val))
def execPllConfig (m : Fin 16) (s : State) : Out := .next (fwRow s m.val 0x0102 (fun s => pllConfigCmd s m.val))
def execRefOutSet (m : Fin 16) (s : State) : Out := .next (fwRow s m.val 0x0103 (fun s => refOutSetCmd s m.val))
def execTbStatus (m : Fin 16) (s : State) : Out := .next (fwRow s m.val 0x0104 (fun s => tbStatusCmd s m.val))
def execTimeSet (m : Fin 16) (s : State) : Out := .next (fwRow s m.val 0x0105 (fun s => timeSetCmd s m.val))
def execRefDetectWindow (edges : Nat) (s : State) : Out := .next (refDetectWindow s edges)
def execRefLost (s : State) : Out := .next (refLost s)
def execPllLock (k : Fin 12) (cycles : Word) (s : State) : Out := .next (pllLock s k.val cycles.toNat)
def execPllLockTimeout (k : Fin 12) (s : State) : Out := .next (pllLockTimeout s k.val)
def execUnlock (k : Fin 12) (s : State) : Out := .next (pllUnlock s k.val)

end Sys2Proof.Machine
end

