-- ==== Sys2Proof/Machine/TiuCmd.lean ====
section
/-! DEFINITION. Commands of groups 0x08 (time-interval unit) and 0x09 (decimation chains), the calibrations that end, and the
window writes. -/

namespace Sys2Proof.Machine

def tiuWord (s : State) (i : Nat) : Nat := unitWord 4 i (tiuState s i)
def chainWord (s : State) (j : Nat) : Nat := unitWord 5 j (dfcState s j)

/-- The ring of an argument exists, or the stream `n` is bound and the argument unused (R203, R271, R286). -/
def needOwnRing (s : State) (n r : Nat) : Option Fail :=
  needState (strBound s n || ringExists s r) 3 r (ringState s r)

/-! ### Time-interval unit (R266 to R272) -/

/-- TIU_CONFIG: the input takes its settings and calibrates. -/
def tiuConfigCmd (s : State) (m : Nat) : State :=
  let i := arg s m 0
  let p := arg s m 1
  let e := arg s m 2
  checked s m [noSched s m, needArg (p ≤ 3) 1, needArg (e ≤ 2 && (e != 2 || p == 0)) 2, needRange (i ≤ 63) 0,
    needDoms s [domTiu], needState (tiuState s i == tiuIDLE) 4 i (tiuState s i), needFree s [.tiu i],
    needMem s 5 (tiuWord s i)]
    (fun s =>
      let s1 := wrF (wrF s (tiuR i 0) 8 2 p) (tiuR i 0) 10 2 e
      holdCmd (tiuCalStart s1 i) m (.tiuCal [i] false) [.tiu i])

/-- TIU_MEASURE: the inputs calibrate, then the gate opens (R271, R272). -/
def tiuMeasureCmd (s : State) (m : Nat) : State :=
  let i := arg s m 0
  let j := arg s m 1
  let a := arg s m 2
  let n := arg s m 3
  let gate := arg64 s m 4
  let r := arg s m 6
  let typ := a % 8
  let each := a / 256 % 2
  let ok := a == typ + 256 * each && decide (typ ≤ 4) && (each == 0 || (decide (1 ≤ typ) && decide (typ ≤ 3)))
  let edge := decide (63 < i) || !(tyPERIOD ≤ typ && (tiuEdgeSel s i == 2 || (typ == tyWIDTH && tiuPrescale s i != 0)))
  let inter := typ == tyINTERVAL
  let ins := if inter then [i, j] else [i]
  let held := ins.map Res.tiu ++ (if strBound s (tiuStream i) then [] else [Res.ring r])
  checked s m [noSched s m, needArg (!inter || i != j) 1, needArg (ok && edge) 2, needRange (i ≤ 63) 0,
    needRange (!inter || j ≤ 63) 1, needRange (decide (1 ≤ n) && decide (n ≤ 16777216)) 3,
    needRange (decide (1000 ≤ gate) && decide (gate ≤ 10000000000)) 4, needRange (r ≤ 32767) 6, needDoms s [domTiu],
    needAll ins (fun k => needState (tiuState s k == tiuIDLE) 4 k (tiuState s k)), needOwnRing s (tiuStream i) r,
    needFree s held, needMem s 5 (tiuWord s i)]
    (fun s =>
      let s1 := modTiu s i (fun t => { t with typ := typ, each := each == 1, n := n, gate := gate, stopIn := j, ring := r })
      holdCmd (forEach ins s1 tiuCalStart) m (.tiuCal ins true) held)

/-- TIU_STOP. -/
def tiuStopCmd (s : State) (m : Nat) : State :=
  let i := arg s m 0
  checked s m [noSched s m, needRange (i ≤ 63) 0, needDoms s [domTiu],
    needState (tiuState s i == tiuMEASURING) 4 i (tiuState s i), needFree s [.tiu i]]
    (fun s =>
      let s1 := tiuJudgeAll s
      completeCmd (if tiuState s1 i = tiuMEASURING then tiuEnd s1 i 3 tiuIDLE else s1) m stOK [])

/-- The command whose inputs have all calibrated: HW_FAULT names the first that failed (R270); else TIU_MEASURE opens its
gate on the next tick. -/
def tiuCalWaiter (s : State) (c : RunCmd) : State :=
  match c.wait with
  | .tiuCal is measure =>
    if is.any (fun i => tiuState s i == tiuCALIBRATING) then s
    else match is.find? (fun i => (getTiu s i).calFail) with
    | some i => completeCmd s c.m stHW_FAULT [tiuWord s i]
    | none =>
      if measure then completeCmd (tiuGateOpen s (is.headD 0)) c.m stOK [is.headD 0] else completeCmd s c.m stOK []
  | _ => s

/-- TIU_CALIBRATION: the calibration of input `i` ends with the mean codes `n1` and `n2` (R270). -/
def tiuCalibration (s : State) (i n1 n2 : Nat) : State :=
  if tiuCalDue s i then
    let s1 := tiuCalDone s i n1 n2
    forEach s1.running s1 tiuCalWaiter
  else s

/-! ### Decimation chains (R285 to R299) -/

/-- ARG2 is a defined rank filter (R289). -/
def rankOk (a : Nat) : Bool :=
  let l := a % 16
  let k := a / 256 % 16
  a == l + 256 * k && [0, 3, 5, 7, 9].contains l && decide (k ≤ l)

/-- The path parameters are defined encodings (R286, R292). -/
def pathArgs (path a4 a5 : Nat) : List (Option Fail) :=
  [needArg (path ≤ 5) 3, needArg (!(path ≤ 3) || a4 == 0) 4, needArg (!(path ≤ 3) || a5 == 0) 5,
   needArg (path != 4 || decide (a4 < 2 ^ 24)) 4, needArg (path != 4 || decide (a5 < 2 ^ 27)) 5]

/-- They lie in their ranges (R292, R293). -/
def pathRanges (path a4 a5 : Nat) : List (Option Fail) :=
  let t := a5 % 2 ^ 16 * 2 ^ 24 + a4 % 2 ^ 24
  let d := a5 / 2 ^ 16 % 2 ^ 11
  [needRange (path != 5 || (decide (1 ≤ a4) && decide (a4 ≤ 65536))) 4, needRange (path != 5 || a5 == 0) 5,
   needRange (path != 4 || (decide (1 ≤ d) && decide (d ≤ 1024) && decide (d * 2 ^ 24 ≤ t) && decide (t < 2 * d * 2 ^ 24))) 5]

/-- The chain returns to IDLE: its open record closes behind the outputs on hold, its thresholds turn inactive. -/
def dfcIdle (s : State) (j : Nat) : State :=
  let s1 := modDfc (dfcReset s j 0) j (fun c => { c with resets := [] })
  thrInactive (setDfcState s1 j dfcIDLE) j

/-- The chain takes a configuration and restarts its grid on this tick; outputs under way leave under the old one. -/
def dfcApply (sIn : State) (j src rank path a4 a5 ring : Nat) : State :=
  let s := if dfcActive sIn j then dfcDrain sIn j (dfcOwed sIn j) else sIn
  let s1 := wrF (wrF (wrF s (dfcR j 0) 16 8 (src / 256)) (dfcR j 0) 12 1 (src % 2)) (dfcR j 0) 8 3 path
  let s2 := modDfc s1 j (fun c =>
    { c with
      resets := [], rankL := rank % 16, rankK := rank / 256 % 16, param0 := BitVec.ofNat 32 a4, param1 := BitVec.ofNat 32 a5
      ring := BitVec.ofNat 32 ring })
  let t := (dfcT s2 j).toNat
  let s3 := wr (wr s2 (dfcR j 0x20) (BitVec.ofNat 32 (t / 2 ^ 16))) (dfcR j 0x24) (BitVec.ofNat 32 (t % 2 ^ 24))
  let s4 := wr s3 (dfcR j 0x28) (BitVec.ofNat 32 ((if path = 4 then dfcM s3 j else 0) * 2 ^ 16 + t / 2 ^ 24 % 2 ^ 16))
  dfcRestart s4 j (now s4)

/-- The capture states that admit DFC_CONFIG (R69). -/
def dfcStates : List Nat := [capOFF, capREADY, capHALTED]

/-- DFC_CONFIG (R285, R286). -/
def dfcConfigCmd (s : State) (m : Nat) : State :=
  let j := arg s m 0
  let src := arg s m 1
  let rank := arg s m 2
  let path := arg s m 3
  let a4 := arg s m 4
  let a5 := arg s m 5
  let r := arg s m 6
  let lane := src / 256
  if src = noWord then
    checked s m [noSched s m, needRange (j ≤ 63) 0, needDoms s [domAnalog], needCap s dfcStates, needFree s [.chain j],
        needMem s 5 (chainWord s j)]
      (fun s => completeCmd (dfcIdle s j) m stOK [])
  else
    checked s m ([noSched s m, needArg (decide (lane < 256) && src == lane * 256 + src % 2) 1, needArg (rankOk rank) 2] ++
        pathArgs path a4 a5 ++ [needRange (j ≤ 63) 0] ++ pathRanges path a4 a5 ++
        [needRange (r ≤ 32767 || r == noWord) 6, needDoms s [domAnalog], needCap s dfcStates,
         needState (laneFmt s lane == 3) 1 lane (laneState s lane),
         if r = noWord then none else needOwnRing s (dfcStream j) r,
         needFree s (.chain j :: (if r = noWord || strBound s (dfcStream j) then [] else [.ring r])), needMem s 5 (chainWord s j)])
      (fun s => completeCmd (dfcApply s j src rank path a4 a5 r) m stOK [])

/-- The word of DFC_THRn_CFG. A disabled threshold keeps the bit it was routed to. -/
def thrCfgOf (old : Word) (a3 b : Nat) : Word :=
  let dis := (a3 / 2 ^ 25).testBit 0
  BitVec.ofNat 32 (b2n (!dis) * 2 ^ 31 + (a3 / 2 ^ 24 % 2) * 2 ^ 30 + (if dis then fld old 24 6 else b) * 2 ^ 24 + a3 % 2 ^ 24)

/-- Set threshold `t` of chain `j` (R298): the registers hold the setting at once, and it takes effect with the next output that the
chain computes. -/
def thrSet (s : State) (j t lev a3 b : Nat) : State :=
  wr (wr s (thrLevelR j t) (BitVec.ofNat 32 lev)) (thrCfgR j t) (thrCfgOf (rd s (thrCfgR j t)) a3 b)

/-- DFC_THRESHOLD. -/
def dfcThresholdCmd (s : State) (m : Nat) : State :=
  let j := arg s m 0
  let t := arg s m 1
  let lev := arg s m 2
  let a3 := arg s m 3
  let b := arg s m 4
  let l := signedOf 32 lev
  checked s m [noSched s m, needArg (t ≤ 1) 1, needArg (decide (a3 < 2 ^ 26)) 3, needRange (j ≤ 63) 0,
    needRange (decide (-8388608 ≤ l) && decide (l ≤ 8388607)) 2,
    needRange ((a3 / 2 ^ 25).testBit 0 || (decide (24 ≤ b) && decide (b ≤ 55))) 4, needDoms s [domAnalog], needFree s [.chain j]]
    (fun s => completeCmd (thrSet s j t lev a3 b) m stOK [])

/-- The chains of a 64-bit mask. -/
def chainMask (v : Nat) : List Nat := (List.range 64).filter (fun j => v.testBit j)

/-- The checks of DFC_SYNC on the mask `v`. -/
def dfcSyncChecks (s : State) (v : Nat) (free : List Res) : List (Option Fail) :=
  [needArg (v != 0) 0, needDoms s [domAnalog], needFree s ((chainMask v).map Res.chain ++ free)]

/-- DFC_SYNC acts for record tick `e`. -/
def dfcSyncAct (s : State) (v : Nat) (e : Int) : State := forEach (chainMask v) s (fun s j => dfcSyncAt s j e)

/-- The resources of a scheduled command (R54). -/
def syncHeld (s : State) (m v : Nat) : List Res := (chainMask v).map Res.chain ++ (if cmdSched s m then [.timebase] else [])

/-- DFC_SYNC (R299). -/
def dfcSyncCmd (s : State) (m : Nat) : State :=
  let v := arg64 s m 0
  checked s m [schedBits s m, needArg (v != 0) 0, schedRange s m (now s) 3, needDoms s [domAnalog],
    needFree s (syncHeld s m v)]
    (fun s =>
      if cmdSched s m then
        holdCmd (wr64 s (mR m 0x20) (now s)) m (.scheduled (cmdExecTick s m)) (syncHeld s m v)
      else completeCmd (dfcSyncAct s v (now s)) m stOK (words2 (now s)))

/-! ### Meanings of the rows -/

def execTiuConfig (m : Fin 16) (s : State) : Out := .next (fwRow s m.val 0x0801 (fun s => tiuConfigCmd s m.val))
def execTiuMeasure (m : Fin 16) (s : State) : Out := .next (fwRow s m.val 0x0802 (fun s => tiuMeasureCmd s m.val))
def execTiuStop (m : Fin 16) (s : State) : Out := .next (fwRow s m.val 0x0803 (fun s => tiuStopCmd s m.val))
def execTiuCalibration (i : Fin 64) (n1 n2 : BitVec 16) (s : State) : Out :=
  .next (tiuCalibration s i.val n1.toNat n2.toNat)
def execDfcConfig (m : Fin 16) (s : State) : Out := .next (fwRow s m.val 0x0901 (fun s => dfcConfigCmd s m.val))
def execDfcThreshold (m : Fin 16) (s : State) : Out := .next (fwRow s m.val 0x0902 (fun s => dfcThresholdCmd s m.val))
def execDfcSync (m : Fin 16) (s : State) : Out := .next (fwRow s m.val 0x0903 (fun s => dfcSyncCmd s m.val))

end Sys2Proof.Machine
end

