-- ==== Sys2Proof/Machine/Loop.lean ====
section
/-! DEFINITION. Scheduled commands at their execution tick (R60), and the Loop line: frames received and sent, calibration,
and LOOP_POST (R117 to R125). A frame's row stands at the tick on which the last bit of its CRC passes the device. -/

namespace Sys2Proof.Machine

/-! ### Scheduled commands -/

/-- A capture command or DFC_SYNC acts on its tick `e`; `v` is its PARAM (R119). The status of the check that the present
state still admits it, and the result words. -/
def actAt (s : State) (op : Nat) (e : Tick) (v : Nat) : Option Fail × List Nat × State :=
  let chk (l : List Nat) : Option Fail := needCap s l
  if op = 0x0602 then
    match firstFail [needDoms s (captureDomains s), chk [capREADY, capHALTED]] with
    | some f => (some f, [], s)
    | none =>
      let s1 := enterArmed s (v / 2 ^ 48 + 1) (v % 2 ^ 48)
      (none, armResult s1, s1)
  else if op = 0x0603 then
    match chk [capARMED, capTRIGGERED] with
    | some f => (some f, [], s)
    | none => (none, words2 e, captureHalt s 2)
  else if op = 0x0604 then
    match chk [capARMED] with
    | some f => (some f, [], s)
    | none => (none, words2 (e * 256), forceTrigger s e)
  else
    match needDoms s [domAnalog] with
    | some f => (some f, [], s)
    | none => (none, words2 e, dfcSyncAct s v e)

/-- PARAM of the capture command or DFC_SYNC whose argument words start at argument `i` of mailbox `m`. -/
def actParam (s : State) (m i op : Nat) : Nat :=
  if op = 0x0602 then arg s m i % 65536 * 2 ^ 48 + arg64 s m (i + 1) % 2 ^ 48
  else if op = 0x0903 then arg64 s m i else 0

/-- SCHEDULED_COMMAND_EXECUTION: the execution tick of mailbox `m`'s command has come. Where the state no longer admits it,
nothing happens and the command completes with that check's status; over the Loop line LOOP_SKIP is set. -/
def scheduledExecution (s : State) (m : Nat) : State :=
  match s.running.find? (fun c => c.m == m) with
  | none => s
  | some c =>
    match c.wait with
    | .scheduled e =>
      if e ≤ now s then
        match actAt s c.op e (actParam s m 0 c.op) with
        | (some f, _, s1) => completeCmd s1 m f.status f.res
        | (none, res, s1) => completeCmd s1 m stOK res
      else s
    | .loopPost e n =>
      if e ≤ now s && !s.loop.txq.any (fun x => frKind x.frame == kCOMMAND) then
        let next (s : State) : State :=
          { s with running := s.running.map (fun x => if x.m = m then { x with wait := .loopReturn e n } else x) }
        match actAt s (arg s m 0) e (actParam s m 1 (arg s m 0)) with
        | (some _, _, s1) => next (tbEvent s1 0x00800000)
        | (none, res, s1) => next (putRes s1 m 4 (res.take 4))
      else s
    | _ => s

/-! ### Commands of group 0x0D -/

/-- LOOP_CALIBRATE: this device becomes position 0 and sends CENSUS (R121). -/
def loopCalibrateCmd (s : State) (m : Nat) : State :=
  checked s m [noSched s m, needDoms s [domTimebase], needCap s [capOFF], needFree s [.loop, .timebase]]
    (fun s =>
      let s1 := { s with loop := { s.loop with pos := some 0, reply := none, cmds := [], was := none, late := false, done := 0 } }
      holdCmd (loopQueue s1 (mkFrame kCENSUS 0 0 0 0 0 0)) m (.census s.ns) [.loop, .timebase])

/-- LOOP_STATUS. -/
def loopStatusCmd (s : State) (m : Nat) : State :=
  checked s m [noSched s m, needFree s [.loop]]
    (fun s => completeCmd s m stOK [s.loop.n, loopPos s, b2n (loopMember s), s.loop.syncErr.toNat])

/-- The first tick on which a frame may start (R118). -/
def frameStart (t : Tick) : Tick := (t + 15) / 16 * 16

/-- Ticks a frame takes on the line: 192 bits, and the trailer of census, measurement and command frames (R118, R119). -/
def frameTicks (x : LoopTx) : Nat :=
  if frKind x.frame = kCENSUS || frKind x.frame = kMEASURE || frKind x.frame = kCOMMAND then 320 else 192

/-- The first tick on which SYNC_OUT is free of frames. -/
def loopIdleFrom (s : State) : Tick :=
  match s.loop.line with | some (t, x) => max (now s) (t + frameTicks x) | none => now s

/-- The checks of an inner command from power on (R62): `free` are the resources beside its own. -/
def innerChecks (s : State) (op v : Nat) (free : List Res) : List (Option Fail) :=
  if op = 0x0602 then armChecks s free
  else if op = 0x0603 then stopChecks s free
  else if op = 0x0604 then forceChecks s free
  else (dfcSyncChecks s v free).drop 1

/-- Ticks an inner command needs between its posting and its execution on one device (R61, R179). -/
def innerLead (s : State) (op : Nat) : Nat := if op = 0x0602 then armLead s else 3

/-- LOOP_POST: the checks of this device, then the COMMAND frame is queued (R60 to R62, R123). -/
def loopPostCmd (s : State) (m : Nat) : State :=
  let op := arg s m 0
  let v := actParam s m 1 op
  let n := s.loop.n
  let e := cmdExecTick s m
  let lead := max (3 + 12 * (n - 1)) (innerLead s op)
  let free : List Res := [.capture, .loop, .timebase]
  let held : List Res := free ++ (if op = 0x0903 then (chainMask v).map Res.chain else []) ++
    (if op = 0x0602 && armClears s then [.ctx] else [])
  checked s m ([failIf (!cmdSched s m) stBAD_ARG [noWord], schedBits s m,
      needArg ([0x0602, 0x0603, 0x0604, 0x0903].contains op) 0, needArg (op != 0x0903 || v != 0) 1,
      schedRange s m (frameStart (loopIdleFrom s) + 191) lead, needRange (op != 0x0602 || decide (arg64 s m 2 < 2 ^ 48)) 3,
      needDoms s [domTimebase]] ++
      (innerChecks s op v []).take (if op = 0x0602 then 2 else 1) ++ [needOpen s (loopMember s) 7] ++ innerChecks s op v free)
    (fun s =>
      let s1 := { s with loop := { s.loop with reply := none } }
      holdCmd (loopQueue s1 (mkFrame kCOMMAND (loopPos s) 0 (cmdTag s m) e v op)) m (.loopPost e n) held)

/-! ### Sending (R118, R120, R123) -/

/-- Put a frame on SYNC_OUT, whose first bit went out on tick `t`. -/
def loopSend (s : State) (x : LoopTx) (t : Tick) : State :=
  { s with loop := { s.loop with sent := x :: s.loop.sent, line := some (t, x) } }

/-- The bit of SYNC_OUT on this tick: of the frame under way, its trailer after it, or of the idle word (R118, R119). -/
def syncOutBit (s : State) : Bool :=
  let idle := (0x0F0F : BitVec 16).getLsbD (15 - now s % 16)
  match s.loop.line with
  | some (t, x) =>
    let i := now s - t
    if i < 192 then x.frame.getLsbD (191 - i)
    else if i < frameTicks x then x.trailer.getLsbD (319 - i)
    else idle
  | none => idle

/-- LOOP_FRAME_SEND: the first waiting frame starts on this tick, once no frame is passing. A TIME frame carries this tick; a
COMMAND frame too late for its execution tick is not sent. -/
def loopFrameSend (s : State) : State :=
  match s.loop.txq.find? (fun x => decide (x.from_ ≤ now s)) with
  | none => s
  | some x =>
    if domReady s domTimebase && now s % 16 = 0 && decide (loopIdleFrom s ≤ now s) then
      let s1 := { s with loop := { s.loop with txq := s.loop.txq.erase x } }
      let k := frKind x.frame
      if k = kTIME then
        loopSend s1 { x with frame := mkFrame kTIME (frOrigin x.frame) 0 0 (now s) 0 0 } (now s)
      else if k = kCOMMAND then
        match s1.running.find? (fun c => match c.wait with | .loopPost _ _ => true | _ => false) with
        | none => loopSend s1 x (now s)
        | some c =>
          let lead := max (3 + 12 * (s.loop.n - 1)) (innerLead s (arg s c.m 0))
          let p := now s + 191
          if cmdExecTick s c.m < p + lead then completeCmd s1 c.m stRANGE (noWord :: words2 (p + lead))
          else loopSend (wr64 s1 (mR c.m 0x20) p) x (now s)
      else loopSend s1 x (now s)
    else s

/-! ### Receiving (R120, R121, R123, R124) -/

/-- The device writes its byte as the trailer passes, where it has a position. -/
def trailerMark (s : State) (t : BitVec 128) (v : Nat) : BitVec 128 :=
  match s.loop.pos with | some p => trailerPut t p v | none => t

/-- Send a received frame on: the last bit of its CRC leaves on this tick (R120). -/
def loopForward (s : State) (f : BitVec 192) (t : BitVec 128) : State :=
  loopSend s { frame := forwardFrame f, trailer := t, from_ := 0 } (now s - 191)

/-- This device sent the frame: it comes from its position, or from the one it held until its membership ended. -/
def frameOwn (s : State) (f : BitVec 192) : Bool := (s.loop.pos.or s.loop.was) == some (frOrigin f)

/-- A COMMAND frame of this device's is back: the posting mailbox has its trailer. -/
def commandBack (s : State) (t : BitVec 128) : State := { s with loop := { s.loop with reply := some t } }

/-- A frame row: `own` acts on a frame of this device's, which goes no further; `other` on one of another device's, and
sends it on. A frame with a bad CRC is counted and goes on with its CRC complemented. -/
def frameRow (s : State) (kind : Nat) (f : BitVec 192) (t : BitVec 128) (own other : State → State) : State :=
  if !domReady s domTimebase then s
  else if !frOk f then
    let s1 := tbEvent { s with
      loop := { s.loop with syncErr := BitVec.ofNat 32 (min ctrMax (s.loop.syncErr.toNat + 1)) } } 0x00200000
    if frameOwn s f then (if frKind f = kCOMMAND then commandBack s1 t else s1) else loopForward s1 f t
  else if frKind f = kind then (if frameOwn s f then own s else other s)
  else s

/-- The command that calibrates the Loop line, in a given step. -/
def calibrating (s : State) (step : Wait → Bool) : Option RunCmd := s.running.find? (fun c => step c.wait)

/-- Its wait is `w` from now on. -/
def calStep (s : State) (c : RunCmd) (w : Wait) : State :=
  { s with running := s.running.map (fun x => if x.m = c.m then { x with wait := w } else x) }

/-- LOOP_CALIBRATE fails: no device becomes a member (R121, R125). A CENSUS still on its way is removed when it comes back. -/
def calFail (s : State) (c : RunCmd) (late : Bool) : State :=
  let s1 := loopLeave s true
  completeCmd { s1 with loop := { s1.loop with late := late } } c.m stTIMEOUT []

/-- CENSUS: position HOPS + 1; back at position 0 within 1 ms, N = HOPS + 1. The device takes its position whatever its capture
state is (DESIGN CHOICE, log 56). -/
def census (s : State) (f : BitVec 192) (t : BitVec 128) : State :=
  let w := calibrating s (fun w => match w with | .census _ => true | _ => false)
  if frOk f && frKind f = kCENSUS && domReady s domTimebase then
    match w with
    | some c =>
      let n := frHops f + 1
      let due := match c.wait with | .census t => decide (t + 1000000 < s.ns) | _ => false
      if 16 < n || due then calFail s c false
      else loopQueue (calStep { s with loop := { s.loop with n := n } } c .measuring) (mkFrame kMEASURE 0 0 0 0 0 0)
    | none =>
      if s.loop.late then { s with loop := { s.loop with late := false } }
      else
        let s1 := { s with loop := { s.loop with pos := some (frHops f + 1), was := none, done := 0 } }
        loopForward s1 f (trailerMark s1 t 0)
  else frameRow s kCENSUS f t id id

/-- MEASURE: this device's arrival phase goes into the trailer; back at position 0, F = A - sum of (1,024 - a_p). -/
def measure (s : State) (f : BitVec 192) (t : BitVec 128) (phase elapsed : Nat) : State :=
  frameRow s kMEASURE f t
    (fun s =>
      match calibrating s (fun w => match w with | .measuring => true | _ => false) with
      | some c =>
        let res := ((List.range (s.loop.n - 1)).map (fun i => 1024 - trailerGet t (i + 1))).foldl (· + ·) 0
        loopQueue (calStep s c .aligning) (mkFrame kALIGN 0 0 0 0 (s.loop.n * 2 ^ 32 + (elapsed - res) % 2 ^ 32) 0)
      | none => s)
    (fun s =>
      let s1 := { s with loop := { s.loop with phase := BitVec.ofNat 8 phase } }
      loopForward s1 f (trailerMark s1 t phase))

/-- What an ALIGN frame tells a device: theta_p = (p x F) div N gives the retard of the tick phase; its residence is what is left
of 12 ticks once a hop's flight has passed. -/
def alignWith (s : State) (f : BitVec 192) : State :=
  let n := frParam f / 2 ^ 32 % 2 ^ 8
  let fl := frParam f % 2 ^ 32
  let theta := loopPos s * fl / n
  { s with loop := { s.loop with n := n, retard := (256 - theta % 256) % 256, done := 0, resid := 3072 - fl / n } }

/-- ALIGN. -/
def align (s : State) (f : BitVec 192) : State :=
  frameRow s kALIGN f 0
    (fun s =>
      match calibrating s (fun w => match w with | .aligning => true | _ => false) with
      | some _ => loopQueue (alignWith s f) (mkFrame kTIME 0 0 0 0 0 0)
      | none => s)
    (fun s => loopForward (alignWith s f) f 0)

/-- The tick phase is retarded by one sub-tick per 16 ticks (R121). -/
def retardTick (s : State) : State :=
  if s.loop.done < s.loop.retard && now s % 16 == 0 then { s with loop := { s.loop with done := s.loop.done + 1 } } else s

/-- TIME: the counter takes the value by which the tick of the relaunch of the SOF, 191 ticks ago, read L + 12 x p; the
device is a member. -/
def timeFrame (s : State) (f : BitVec 192) : State :=
  frameRow s kTIME f 0
    (fun s =>
      match calibrating s (fun w => match w with | .aligning => true | _ => false) with
      | some c => completeCmd (wrBit s SYS_CAPTURE 3 true) c.m stOK [s.loop.n, 0, 12]
      | none => s)
    (fun s =>
      let s1 := timeLoad s (BitVec.ofNat 56 (frTick f + 12 * loopPos s + 191))
      loopForward (wrBit s1 SYS_CAPTURE 3 true) f 0)

/-- The checks of this device on a COMMAND frame. -/
def remoteChecks (s : State) (f : BitVec 192) : List (Option Fail) :=
  let op := frOp f
  let e := frTick f
  let v := frParam f
  [failIf (!loopMember s) stBAD_STATE [], needArg ([0x0602, 0x0603, 0x0604, 0x0903].contains op) 0,
   needArg (op != 0x0903 || v != 0) 0,
   failIf (decide (e < now s + innerLead s op) || decide (now s + 2 ^ 32 < e)) stRANGE []] ++
  innerChecks s op v [.capture, .timebase]

/-- COMMAND: this device checks the command, writes its status in the trailer, and keeps a command that passed for its tick; it
holds the chains of a DFC_SYNC until then, and nothing else (DESIGN CHOICE, log 56).
In drawn-seed mode an arm starts its clear (R179). -/
def command (s : State) (f : BitVec 192) (t : BitVec 128) : State :=
  frameRow s kCOMMAND f t (fun s => commandBack s t)
    (fun s =>
      match firstFail (remoteChecks s f) with
      | some x => loopForward s f (trailerMark s t x.status)
      | none =>
        let s1 := if frOp f = 0x0602 then armDraw s else s
        let s2 := { s1 with
          loop := { s1.loop with
            cmds := s1.loop.cmds ++ [{ opcode := frOp f, tick := frTick f, param := BitVec.ofNat 64 (frParam f) }] } }
        loopForward s2 f (trailerMark s2 t stOK))

/-- TRIGGER (R124, R153): honoured for the segment it names; the earliest of several stays, ties going to the lowest
position; a frame for another segment sets LOOP_SKIP. -/
def trigger (s : State) (f : BitVec 192) : State :=
  frameRow s kTRIGGER f 0 id
    (fun s =>
      let seg := frParam f / 2 ^ 48
      let t : Int := frTick f
      let o := frOrigin f
      let honoured := s.capture.trigs.find? (fun u => u.seg == seg)
      let s1 :=
        if !loopMember s then s
        else match honoured with
        | some u =>
          if s.capture.segIdx = seg + 1 || decide (now s < (trigEnd s u) + s.lrel) then
            (if trigBefore s t o u then replaceTrig s seg t 0x101 o else s)
          else tbEvent s 0x00800000
        | none =>
          if s.capture.segIdx = seg then
            (if arbiterOpen s t then honour s t 0x101 o else s)
          else tbEvent s 0x00800000
      loopForward s1 f 0)

/-- HALT: a member halts with cause 0x5 (R66, R124). -/
def haltFrame (s : State) (f : BitVec 192) : State :=
  frameRow s kHALT f 0 id (fun s => loopForward (if loopMember s then captureHalt s 5 else s) f 0)

/-- DISSOLVE: membership ends (R125). -/
def dissolve (s : State) (f : BitVec 192) : State :=
  frameRow s kDISSOLVE f 0 id (fun s => loopForward (loopLeave s false) f 0)

/-- CENSUS_TIMEOUT: the census has not returned within 1 ms. -/
def censusTimeout (s : State) : State :=
  match calibrating s (fun w => match w with | .census t => decide (t + 1000000 ≤ s.ns) | _ => false) with
  | some c => calFail s c true
  | none => s

/-- SYNC_IN_LOSS: no transition for 64 ticks (R118, R125). A calibration under way fails with it. -/
def syncInLoss (s : State) : State :=
  if domReady s domTimebase then
    let s1 := loopLeave (tbEvent { s with loop := { s.loop with late := false } } 0x00200000) false
    match calibrating s1 (fun w => match w with | .census _ => true | .measuring => true | .aligning => true | _ => false) with
    | some c => completeCmd s1 c.m stTIMEOUT []
    | none => s1
  else s

/-! ### The Loop line as a tick ends -/

/-- Status byte of Loop line position `p` as LOOP_POST reports it (R62). -/
def loopByte (s : State) (n : Nat) (t : BitVec 128) (p : Nat) : Nat :=
  if n ≤ p then 0xFF else if p = loopPos s then stOK else trailerGet t p

/-- LOOP_POST completes once E + 12 x N has passed and the trailer is back, or membership has ended. -/
def loopReturned (s : State) (c : RunCmd) : State :=
  match c.wait with
  | .loopReturn e n =>
    if e + 12 * n ≤ now s && (s.loop.reply.isSome || !loopMember s) then
      let t := s.loop.reply.getD trailerNew
      let b := loopByte s n t
      completeCmd s c.m stOK ((List.range 4).map (fun w =>
        b (4 * w) + 2 ^ 8 * b (4 * w + 1) + 2 ^ 16 * b (4 * w + 2) + 2 ^ 24 * b (4 * w + 3)))
    else s
  | .loopPost _ _ =>
    if rd64 s (mR c.m 0x20) = now s && arg s c.m 0 = 0x0602 then armDraw s else s
  | _ => s

/-- Commands of other members act on their tick (R123). -/
def loopCmdsDue (s : State) : State :=
  let due := s.loop.cmds.filter (fun c => decide (c.tick ≤ now s))
  let s1 := { s with loop := { s.loop with cmds := s.loop.cmds.filter (fun c => decide (now s < c.tick)) } }
  forEach due s1 (fun s c =>
    match actAt s c.opcode c.tick c.param.toNat with
    | (some _, _, s1) => tbEvent s1 0x00800000
    | (none, _, s1) => s1)

def loopTick (s : State) : State :=
  let s1 := loopCmdsDue (retardTick s)
  forEach s1.running s1 loopReturned

/-! ### Meanings of the rows -/

def execScheduledCommandExecution (m : Fin 16) (s : State) : Out := .next (scheduledExecution s m.val)
def execLoopCalibrate (m : Fin 16) (s : State) : Out := .next (fwRow s m.val 0x0D01 (fun s => loopCalibrateCmd s m.val))
def execLoopStatus (m : Fin 16) (s : State) : Out := .next (fwRow s m.val 0x0D02 (fun s => loopStatusCmd s m.val))
def execLoopPost (m : Fin 16) (s : State) : Out := .next (fwRow s m.val 0x0D03 (fun s => loopPostCmd s m.val))
def execCensus (frame : BitVec 192) (trailer : BitVec 128) (s : State) : Out := .next (census s frame trailer)
def execMeasure (frame : BitVec 192) (trailer : BitVec 128) (phase : BitVec 8) (elapsed : Word) (s : State) : Out :=
  .next (measure s frame trailer phase.toNat elapsed.toNat)
def execAlign (frame : BitVec 192) (s : State) : Out := .next (align s frame)
def execTime (frame : BitVec 192) (s : State) : Out := .next (timeFrame s frame)
def execCommand (frame : BitVec 192) (trailer : BitVec 128) (s : State) : Out := .next (command s frame trailer)
def execTrigger (frame : BitVec 192) (s : State) : Out := .next (trigger s frame)
def execHalt (frame : BitVec 192) (s : State) : Out := .next (haltFrame s frame)
def execDissolve (frame : BitVec 192) (s : State) : Out := .next (dissolve s frame)
def execLoopFrameSend (s : State) : Out := .next (loopFrameSend s)
def execCensusTimeout (s : State) : Out := .next (censusTimeout s)
def execSyncInLoss (s : State) : Out := .next (syncInLoss s)

end Sys2Proof.Machine
end

