-- ==== Sys2Proof/Machine/MemTest.lean ====
section
/-! DEFINITION. On-chip memories (chapter 17): soft spare rows, the BIST at switch-on and the transparent background test. -/

namespace Sys2Proof.Machine

/-! ### Memories and spare rows (R353) -/

def mtRegions (m : Nat) : Nat :=
  match m with | 0 => 16384 | 1 => 1024 | 2 => 2048 | 3 => 2048 | 4 => 256 | 5 => 512 | _ => 0

/-- The domains that hold region `r` of memory `m`. The spec does not divide memory 5 among its three (log 26). -/
def mtDoms (m r : Nat) : List Nat :=
  match m with
  | 0 => [domCirrus] | 1 => [domCtx] | 2 => [11 + r / 512] | 3 => [domRing] | 4 => [domDeflate]
  | _ => [domTiu, domAnalog, domRing]

/-- The spare rows a region may use: of the control stores, the four of its domain. -/
def mtRows (m r : Nat) : List Nat :=
  if m = 2 then (List.range 4).map (fun i => 4 * (r / 512) + i) else List.range (spareCapacity m)

def spareOf (s : State) (m r : Nat) : Option Spare := s.spares.find? (fun x => x.memory == m && x.region == r)

/-- A free spare row for region `r` of memory `m`, other than row `not_`. -/
def freeSpare (s : State) (m r : Nat) (not_ : Option Nat) : Option Nat :=
  (mtRows m r).find? (fun i => some i != not_ && !s.spares.any (fun x => x.memory == m && x.row == i))

/-- MEM_SPARE.IN_USE follows the rows in use. -/
def spareShow (s : State) (m : Nat) : State :=
  wrF s (memSpareR m) 16 8 (s.spares.filter (fun x => x.memory == m)).length

def spareMap (s : State) (m r row : Nat) : State :=
  spareShow { s with spares := s.spares ++ [{ memory := m, row := row, region := r }] } m

def spareFree (s : State) (x : Spare) : State := spareShow { s with spares := s.spares.filter (fun y => y != x) } x.memory

/-- Word `w` of MEM_SPARE_MAP: 0 while no spare row is in use. -/
def spareMapRead (s : State) (w : Nat) : Word :=
  if s.spares.isEmpty then 0 else Config.spareMapWord w (s.spares.map (fun x => (x.memory, x.row, x.region)))

/-! ### BIST (R357, R358) -/

/-- The memory whose BIST the row reports for domain `d`. -/
def bistMemory (d : Nat) : Option Nat :=
  if d = domCirrus then some 0 else if d = domCtx then some 1 else if 11 ≤ d ∧ d ≤ 14 then some 2
  else if d = domRing then some 3 else if d = domDeflate then some 4 else if d = domTiu ∨ d = domAnalog then some 5 else none

/-- A region that still fails after column repair is mapped to a free spare row; without one it stays faulty. -/
def bistRegion (m : Nat) (p : State × Bool) (r : Nat) : State × Bool :=
  if (spareOf p.1 m r).isSome then p
  else match freeSpare p.1 m r none with
    | some row => ({ spareMap p.1 m r row with repaired := true }, p.2)
    | none => (p.1, true)

/-- The BIST of memory `m` in domain `d` ends. No column is repaired where no fuse copy is usable (R356). A memory that
several domains hold stays FAILED until each domain whose BIST failed has passed a later one (R358). -/
def bistResult (s : State) (m d columns : Nat) (faulty : List Nat) : State :=
  let cols := if s.fuses.aOk || s.fuses.bOk then columns else 0
  let rs := faulty.filter (fun r => decide (r < mtRegions m) && (mtDoms m r).contains d)
  let (s1, failed) := rs.foldl (bistRegion m) (s, false)
  let fs := if failed then setInsert s1.bistFailed d else setErase s1.bistFailed d
  let bad := fs.any (fun x => bistMemory x == some m)
  let s2 := wrF (wrBit { s1 with bistFailed := fs } (memBistR m) 31 bad) (memBistR m) 0 16 cols
  if cols = 0 then s2 else { s2 with repaired := true }

/-- The units of domain `d` stand at their switch-on values once it is ready (R180, R268, R287, R314, R368). -/
def domBecameReady (s : State) (d : Nat) : State :=
  if d = domCtx then ctxSwitchOn s
  else if d = domTiu then (if pllLocked s 1 then tiuLocked s else s)
  else if d = domAnalog then dfcSwitch s true
  else if d = domDeflate then forN 16 s (fun s k => wrF s (dflR k 0) 0 3 1)
  else s

/-- BIST_COMPLETE: BIST or initialisation of domain `d` has passed, once its ramp is over. -/
def bistComplete (s : State) (d columns : Nat) (faulty : List Nat) : State :=
  if decide (2 ≤ d) && domOn s d && ramped s d && !s.inits.contains d then
    let s1 := match bistMemory d with | some m => bistResult s m d columns faulty | none => s
    let s2 := readyCheck { s1 with inits := setInsert s1.inits d } d
    if domReady s2 d then domBecameReady s2 d else s2
  else s

/-! ### The transparent background test (R359 to R362) -/

def mtWord (st : Nat) : Nat := unitWord 11 0 st
def mtSetState (s : State) (v : Nat) : State := wrF s 0xB004 0 2 v

/-- MEMTEST_RUN. -/
def memtestRunCmd (s : State) (m : Nat) : State :=
  let mem := arg s m 0
  let r := arg s m 1
  let n := arg s m 2
  let last := r + min n (mtRegions mem) - 1
  let doms := ((mtDoms mem r) ++ (mtDoms mem last) ++
    (if mem = 2 then (List.range 4).filterMap (fun q => if r / 512 ≤ q ∧ q ≤ last / 512 then some (11 + q) else none)
     else [])).foldl setInsert []
  checked s m [noSched s m, needArg (mem ≤ 5) 0, needRange (decide (r < mtRegions mem)) 1,
    needRange (n != 0 && decide (r + n ≤ mtRegions mem)) 2, needDoms s doms,
    failIf s.mt.isSome stBAD_STATE [mtWord 1], needFree s [.memtest]]
    (fun s =>
      let s1 := { s with mt := some { memory := mem, first := r, count := n, done := 0, faulty := 0 } }
      completeCmd (wrF (wrF (mtSetState s1 1) 0xB004 4 3 mem) 0xB004 16 14 r) m stOK [])

/-- MEMTEST_STATUS: the latest job, and the spare rows in use. -/
def memtestStatusCmd (s : State) (m : Nat) : State :=
  checked s m [noSched s m] (fun s =>
    let j := s.mt.or s.mtLast
    completeCmd s m stOK [(j.map MtJob.done).getD 0, (j.map MtJob.faulty).getD 0, s.spares.length])

/-- A corrected word is restored corrected: single-bit errors of the region are gone (R360). -/
def mtScrub (s : State) (m r : Nat) : State :=
  let inside (w : Nat) : Bool := decide (256 * r ≤ w) && decide (w < 256 * (r + 1))
  if m = 0 then { s with cirrusCorr := s.cirrusCorr.filter (fun w => !inside w) }
  else if m = 1 then
    { s with ctx := { s.ctx with rowErr := s.ctx.rowErr.filter (fun p => !(inside p.1 && p.2 == 1)) } }
  else if m = 2 then
    modEng s (r / 8) (fun c => { c with csErr := c.csErr.filter (fun p => !(inside (2048 * (r / 8) + p.1) && p.2 == 1)) })
  else s

/-- A region has failed its march: it moves to a free spare row, or goes back into use unrepaired (R360, R361). -/
def mtFault (s : State) (m r : Nat) : State :=
  let s1 := wr s MT_LAST_FAULT (BitVec.ofNat 32 (m * 2 ^ 28 + r))
  let old := spareOf s1 m r
  let s2 := match old with | some x => spareFree s1 x | none => s1
  match freeSpare s2 m r (old.map Spare.row) with
  | some row => mtEvent (spareMap s2 m r row) 2
  | none => mtEvent s2 4

/-- MEMTEST_REGION: the region under test is finished. -/
def memtestRegion (s : State) (fails : Bool) : State :=
  match s.mt with
  | none => s
  | some j =>
    let r := j.first + j.done
    let s1 := mtScrub s j.memory r
    let s2 := if fails then mtFault s1 j.memory r else s1
    let j2 := { j with done := j.done + 1, faulty := j.faulty + b2n fails }
    if j2.done < j.count then wrF { s2 with mt := some j2 } 0xB004 16 14 (r + 1)
    else mtEvent (mtSetState { s2 with mt := none, mtLast := some j2 } 2) 1

/-- The job under way is aborted where it names a region of a domain `d` accepts (R362). -/
def mtAbort (s : State) (d : Nat → Bool) : State :=
  match s.mt with
  | none => s
  | some j =>
    if (List.range j.count).any (fun i => (mtDoms j.memory (j.first + i)).any d) then
      mtEvent (mtSetState { s with mt := none, mtLast := some j } 3) 8
    else s

/-! ### Meanings of the rows -/

def execBistComplete (d : Fin 24) (columns : BitVec 16) (faulty : List (Fin 16384)) (s : State) : Out :=
  .next (bistComplete s d.val columns.toNat (faulty.map (fun r => r.val)))
def execMemtestRun (m : Fin 16) (s : State) : Out := .next (fwRow s m.val 0x0B01 (fun s => memtestRunCmd s m.val))
def execMemtestStatus (m : Fin 16) (s : State) : Out := .next (fwRow s m.val 0x0B02 (fun s => memtestStatusCmd s m.val))
def execMemtestRegion (fails : Bool) (s : State) : Out := .next (memtestRegion s fails)

end Sys2Proof.Machine
end

