-- ==== Sys2Proof/Machine/Pcie.lean ====
section
/-! DEFINITION. The PCI Express endpoint (chapters 15, 16): configuration space, peer windows, DMA channels, completions and
MSI-X messages. Field layouts the spec takes from the base specification are PRESUMED (log 15). -/

namespace Sys2Proof.Machine

/-! ### Configuration space (R316 to R319) -/

/-- A configuration doubleword: its reset value, and its read-write and write-one-to-clear bits. -/
structure CfgReg where
  reset : Word
  rw    : Word
  w1c   : Word
deriving DecidableEq, Repr

def cfgRo (v : Word) : CfgReg := { reset := v, rw := 0, w1c := 0 }

/-- The header and the capability structures, by doubleword. -/
def cfgHeader (d : Nat) : CfgReg :=
  match d with
  | 0x00 => cfgRo 0x40961F5E
  | 0x01 => { reset := 0x00100000, rw := 0x00000546, w1c := 0xF9000000 }
  | 0x02 => cfgRo 0x11800000
  | 0x03 => { reset := 0, rw := 0x000000FF, w1c := 0 }
  | 0x04 => { reset := 0x00000004, rw := 0xFC000000, w1c := 0 }
  | 0x05 => { reset := 0, rw := 0xFFFFFFFF, w1c := 0 }
  | 0x06 => cfgRo 0x0000000C
  | 0x07 => { reset := 0, rw := 0xFFFFFFF0, w1c := 0 }
  | 0x08 => { reset := 0x00000004, rw := 0xFFFF0000, w1c := 0 }
  | 0x09 => { reset := 0, rw := 0xFFFFFFFF, w1c := 0 }
  | 0x0D => cfgRo 0x00000040
  | 0x0F => { reset := 0, rw := 0x000000FF, w1c := 0 }
  | 0x10 => cfgRo 0x00035001
  | 0x11 => { reset := 0x00000008, rw := 0x00000003, w1c := 0 }
  | 0x14 => cfgRo 0x0002B010
  | 0x15 => cfgRo 0x10008023
  | 0x16 => { reset := 0x00002910, rw := 0x000079FF, w1c := 0x000F0000 }
  | 0x17 => cfgRo 0x00418906
  | 0x18 => { reset := 0x10000000, rw := 0x000000CB, w1c := 0 }
  | 0x1D => cfgRo 0x0003000F
  | 0x1E => { reset := 0, rw := 0x0000130F, w1c := 0 }
  | 0x1F => cfgRo 0x0000007E
  | 0x20 => { reset := 0x00000006, rw := 0x0000003F, w1c := 0 }
  | 0x2C => { reset := 0x03FF0011, rw := 0xC0000000, w1c := 0 }
  | 0x2D => cfgRo 0x00000004
  | 0x2E => cfgRo 0x00008004
  | _ => cfgRo 0

def cfgExtended (d : Nat) : CfgReg :=
  match d with
  | 0x40 => cfgRo 0x14820001
  | 0x41 => { reset := 0, rw := 0, w1c := 0x001FF030 }
  | 0x42 => { reset := 0, rw := 0x001FF030, w1c := 0 }
  | 0x43 => { reset := 0x00062030, rw := 0x001FF030, w1c := 0 }
  | 0x44 => { reset := 0, rw := 0, w1c := 0x000031C1 }
  | 0x45 => { reset := 0x00002000, rw := 0x000031C1, w1c := 0 }
  | 0x46 => { reset := 0x000000A0, rw := 0x00000140, w1c := 0 }
  | 0x52 => cfgRo 0x15810003
  | 0x56 => cfgRo 0x16810025
  | 0x57 => cfgRo 0x80000001
  | 0x5A => cfgRo 0x19810019
  | 0x66 => cfgRo 0x1C810026
  | 0x72 => cfgRo 0x1F81002A
  | 0x7E => cfgRo 0x24010027
  | 0x90 => cfgRo 0x00010031
  | _ => cfgRo 0

def cfgReg (d : Nat) : CfgReg := if d < 0x40 then cfgHeader d else cfgExtended d

/-- The device serial number of the fuse copy used (R319, R356). -/
def serialNumber (s : State) : Nat := if s.fuses.aOk || s.fuses.bOk then s.fuses.serial.toNat else 0

/-- A configuration doubleword as it reads. -/
def cfgRead (s : State) (d : Nat) : Word :=
  if d = 0x02 then 0x11800000 ||| BitVec.ofNat 32 s.fuses.stepping.toNat
  else if d = 0x0B then s.flash.subsys
  else if d = 0x53 then BitVec.ofNat 32 (serialNumber s)
  else if d = 0x54 then BitVec.ofNat 32 (serialNumber s / 2 ^ 32)
  else tabGet (cfgReg d).reset s.pcie.cfg d

def cfgSet (s : State) (d : Nat) (v : Word) : State :=
  { s with pcie := { s.pcie with cfg := tabSet (cfgReg d).reset s.pcie.cfg d v } }

def memEnable (s : State) : Bool := bitAt (cfgRead s 0x01) 1
def busMaster (s : State) : Bool := bitAt (cfgRead s 0x01) 2
def dState (s : State) : Nat := fld (cfgRead s 0x11) 0 2
/-- Memory requests are decoded (R321). -/
def memDecoded (s : State) : Bool := memEnable s && dState s == 0
/-- The function may issue requests. -/
def mayIssue (s : State) : Bool := busMaster s && dState s == 0
/-- Max Payload Size in bytes, up to the 1,024 supported. -/
def maxPayload (s : State) : Nat := min 1024 (128 * 2 ^ fld (cfgRead s 0x16) 5 3)
/-- Tags in use: 10-bit only while enabled (R336). -/
def tagCount (s : State) : Nat := if bitAt (cfgRead s 0x1E) 12 then 1024 else 256

/-- Completion timeout in ns (R337). -/
def cplTimeout (s : State) : Nat :=
  match fld (cfgRead s 0x1E) 0 4 with
  | 1 => 64000 | 2 => 8000000 | 5 => 32000000 | 6 => 128000000 | 9 => 512000000 | 10 => 2000000000
  | 13 => 8000000000 | 14 => 32000000000 | _ => 40000000

/-- A TLP is sent or received: the link leaves L1. -/
def tlpSeen (s : State) : State := { s with pcie := { s.pcie with aspmL1 := false, lastTlp := s.ns } }

/-- AER: set a bit of the Uncorrectable Error Status register. -/
def aerReport (s : State) (i : Nat) : State := cfgSet s 0x41 (cfgRead s 0x41 ||| bit i)
def aerPOISONED : Nat := 12
def aerTIMEOUT : Nat := 14
def aerUNEXPECTED : Nat := 16
def aerECRC : Nat := 19
def aerUNSUPPORTED : Nat := 20

/-- ECRC Check Enable (R339). -/
def ecrcChecked (s : State) : Bool := bitAt (cfgRead s 0x46) 8

/-- ECRC Generation Enable: every TLP sent carries an ECRC (R339). -/
def ecrcSent (s : State) : Bool := bitAt (cfgRead s 0x46) 6

def setCpl (s : State) (c : Cpl) : State := { s with pcie := { s.pcie with cpl := some c, cplEcrc := ecrcSent s } }

/-- A request that is not supported: no completion for a posted one. -/
def unsupported (s : State) (posted : Bool) : State :=
  let s1 := aerReport (tlpSeen s) aerUNSUPPORTED
  if posted then s1 else setCpl s1 .unsupported

/-- A poisoned TLP was received (R340). -/
def poisonRx (s : State) : State := pcieEvent (ctrAdd (aerReport s aerPOISONED) PCIE_POISON_RX 1) 8

def sendTlp (s : State) (t : Tlp) : State :=
  let s1 := tlpSeen s
  { s1 with pcie := { s1.pcie with tx := t :: s1.pcie.tx } }

/-- Max Read Request Size in bytes, up to the 4,096 honoured (R316). -/
def maxRead (s : State) : Nat := min 4096 (128 * 2 ^ fld (cfgRead s 0x16) 12 3)

/-- Read requests for `n` bytes at `a`, none of more than the Max Read Request Size or across a 4 KiB boundary. -/
def sendReads (s : State) : Nat → Nat → Nat → State
  | 0, _, _ => s
  | fuel + 1, a, n =>
    if n = 0 then s
    else
      let k := min n (min (maxRead s) (4096 - a % 4096))
      sendReads (sendTlp s (.read a k (ecrcSent s))) fuel (a + k) (n - k)
termination_by structural fuel => fuel

/-- A poisoned TLP was sent. -/
def poisonTx (s : State) : State := pcieEvent (ctrAdd s PCIE_POISON_TX 1) 4

/-! ### Peer windows (R323 to R326) -/

/-- PEER_WIN[w] as committed. -/
def peerWin (s : State) (w : Nat) : Word := rd s (peerWinR w)

/-- The commit of value `v` to PEER_WIN[w] (R324). -/
def peerCommit (s : State) (w : Nat) (v : Word) : State :=
  let zero := fld v 13 10 == 0
  let fits := !bitAt v 31 || decide ((fld v 0 13 + fld v 23 7 + 1) * 64 ≤ capGib s * 1024)
  if zero && fits then wr s (peerWinR w) v
  else pcieEvent (hwOr s PEER_STATUS (bit w)) 0x10

/-- Stratus byte address of BAR2 offset `a` for `len` bytes, where a window maps it. -/
def peerMap (s : State) (a len : Nat) : Option Nat :=
  let v := peerWin s (a / 2 ^ 33)
  let off := a % 2 ^ 33
  if bitAt v 31 && decide (off + len ≤ (fld v 23 7 + 1) * 2 ^ 26) then some (fld v 0 13 * 2 ^ 26 + off) else none

/-- Bytes of one completion of a read: up to the next Read Completion Boundary. -/
def rcbBytes : Nat := 128

/-- The Stratus domain that holds word `w` is ready. -/
def stratusOn (s : State) (w : Nat) : Bool := domReady s (domStratus (stratusChannel w / 8))

/-- The words of `n` bytes from byte address `b` of Stratus, each with whether it is uncorrectable; free values `free` where
the domain is not ready. -/
def peerWords (s : State) (free b n : Nat) : List (Word64 × Bool) :=
  (List.range ((b + n - 1) / 8 - b / 8 + 1)).map (fun i =>
    let w := b / 8 + i
    if stratusOn s w then (memReadWord s.stratus w, s.stratusBad.contains w) else (Config.offWord free w, false))

/-- PEER_WINDOW_READ. -/
def peerRead (s : State) (a len : Nat) : State :=
  match (if memDecoded s && decide (0 < len) then peerMap s a len else none) with
  | none => unsupported s false
  | some b =>
    let (free, s0) := drawFree s
    let ws := peerWords s free b len
    let first := b / 8
    let s1 := forN ws.length (tlpSeen s0) (fun s i =>
      if s.stratusBad.contains (first + i) || s.stratusCorr.contains (first + i) then countChannel s (first + i) else s)
    let poisoned := (((List.range ws.length).filter (fun i => s.stratusBad.contains (first + i))).map (fun i =>
      8 * (first + i) / rcbBytes)).eraseDups
    let s2 := poisoned.foldl (fun s _ => poisonTx s) s1
    setCpl s2 (.data (ws.map Prod.fst) (ws.map Prod.snd))

/-- Write the enabled bytes of word `w` of Stratus; lost where its domain is not ready. -/
def peerPut (s : State) (w : Nat) (bytes : List (Option Byte)) (ep : Bool) : State :=
  let whole := bytes.all Option.isSome
  let old := memReadWord s.stratus w
  let new := (List.range 8).map (fun j => (bytes.getD j none).getD (byteOf old j))
  if bytes.all Option.isNone || !stratusOn s w then s
  else stratusPut s w (BitVec.ofNat 64 (natOfBytes new)) (ep || (!whole && s.stratusBad.contains w))

/-- PEER_WINDOW_WRITE. -/
def peerWrite (s : State) (a : Nat) (data : List (Option Byte)) (ep : Bool) : State :=
  let s0 := if ep then poisonRx s else s
  let wrEn := bitAt (peerWin s (a / 2 ^ 33)) 30
  match (if memDecoded s && wrEn && !data.isEmpty then peerMap s a data.length else none) with
  | none => unsupported s0 true
  | some b =>
    let byte (x : Nat) : Option Byte := if x < b then none else data.getD (x - b) none
    forN ((b + data.length - 1) / 8 - b / 8 + 1) (tlpSeen s0) (fun s i =>
      peerPut s (b / 8 + i) ((List.range 8).map (fun j => byte (8 * (b / 8 + i) + j))) ep)

/-- ATOMICOP_REQUEST (R321). -/
def atomicOp (s : State) (bar : Nat) : State :=
  if bar = 0 && memDecoded s then setCpl (tlpSeen s) (.word 0) else unsupported s false

/-! ### DMA channels (R327 to R334) -/

def dmaLog (s : State) (c : Nat) : Nat := rdF s (dmaR c 8) 0 5
def dmaIn (s : State) (c : Nat) : Bool := s.pcie.reads.any (fun r => r.chan == c)

def setDmaState (s : State) (c v : Nat) : State := wrF s (dmaR c 0x18) 0 2 v

/-- Host address of the descriptor at HEAD. -/
def dmaDescAddr (s : State) (c : Nat) : Nat := rd64 s (dmaR c 0) + 32 * (dmaHead s c % 2 ^ dmaLog s c)

/-- Write back word 3 of the descriptor at HEAD (R332). -/
def dmaWriteBack (s : State) (c bytes status : Nat) (ep sync last irq : Bool) : State :=
  let w := 2 ^ 63 + b2n ep * 2 ^ 62 + b2n sync * 2 ^ 61 + b2n last * 2 ^ 60 + status * 2 ^ 48 + bytes
  let s1 := sendTlp s (.data (dmaDescAddr s c + 24) (bytesOfWord (BitVec.ofNat 64 w)) false (ecrcSent s))
  let s2 := ctrAdd s1 (dmaR c 0x28) 1
  if irq then dmaDoneEvent s2 c else s2

/-- STOP clears now that the channel is HALTED; where the host set it on this tick it stays set until the next (R45). -/
def dmaStopClear (s : State) (c : Nat) : State := if hostWrote s (dmaR c 0x14) then s else hwClr s (dmaR c 0x14) 2

/-- A halt of channel `c` that no read holds up any more. -/
def dmaHaltNow (s : State) (c cause : Nat) : State :=
  let d := getDma s c
  let s1 := if d.fetched && mayIssue s then dmaWriteBack s c d.filled cause false false false d.irq else s
  let s2 := setDma s1 c DmaCore.init
  let s3 := wrF (setDmaState s2 c dmaHALTED) (dmaR c 0x18) 28 4 cause
  let s4 := dmaHaltEvent (dmaStopClear s3 c) c
  match chanHolder s4 c with
  | some k => dflEnd s4 k 7 dflIDLE false
  | none => s4

/-- Channel `c` halts with `cause` once its reads have completed or timed out (R333). -/
def dmaHalt (s : State) (c cause : Nat) : State :=
  if dmaIn s c then
    let d := getDma s c
    if d.waiting.isSome then s else setDma (setDmaState s c dmaSTOPPING) c { d with waiting := some cause }
  else dmaHaltNow s c cause

/-- START (R328). -/
def dmaStart (s : State) (c : Nat) : State :=
  if dmaState s c = dmaIDLE || dmaState s c = dmaHALTED then
    let s1 := wrF s (dmaR c 0x18) 28 4 0
    if 1 ≤ dmaLog s c && dmaLog s c ≤ 16 && rdF s (dmaR c 0) 0 5 = 0 then
      setDma (setDmaState s1 c dmaRUNNING) c DmaCore.init
    else dmaHalt s1 c 9
  else s

/-- DMA_CTRL.STOP (R333). -/
def dmaStop (s : State) (c : Nat) : State :=
  if dmaState s c = dmaRUNNING then dmaHalt (hwOr s (dmaR c 0x14) 2) c 1 else s

/-- A tag for a new read: in use by no outstanding read and not retired. -/
def freeTag (s : State) : Option Nat :=
  (List.range (tagCount s)).find? (fun t =>
    !(s.pcie.reads.any (fun r => r.tag == t)) && !s.pcie.retired.contains t && !(s.pcie.preFlr.any (fun r => r.tag == t)))

/-- The channel's count of outstanding reads. -/
def dmaShowReads (s : State) (c : Nat) : State :=
  wrF s (dmaR c 0x1C) 0 11 (s.pcie.reads.filter (fun r => r.chan == c)).length

/-- As a tick begins: STOP of a HALTED channel clears. -/
def dmaHaltedTick (s : State) (c : Nat) : State :=
  if dmaState s c = dmaHALTED && rdBit s (dmaR c 0x14) 1 then dmaStopClear s c else s

/-- A RUNNING channel whose HEAD differs from TAIL reads its next descriptor (R328). -/
def dmaFetch (s : State) (c : Nat) : State :=
  let d := getDma s c
  if dmaState s c = dmaRUNNING && dmaHead s c != dmaTail s c && !d.fetched && !dmaIn s c && mayIssue s then
    match freeTag s with
    | some t =>
      let s1 := { s with pcie := { s.pcie with reads := s.pcie.reads ++ [{ tag := t, chan := c, sent := s.ns }] } }
      dmaShowReads (sendReads s1 1 (dmaDescAddr s c) 32) c
    | none => s
  else s

/-- The fields of a descriptor (R329). -/
def descLen (d : Descriptor) : Nat := fld64 d.w1 0 32
def descOp (d : Descriptor) : Nat := fld64 d.w1 32 4
def descIrq (d : Descriptor) : Bool := d.w1.getLsbD 36
def descPtr (d : Descriptor) : Nat := fld64 d.w2 16 37
def descRing (d : Descriptor) : Nat := fld64 d.w2 0 15
def descAddr (d : Descriptor) : Nat := d.w0.toNat

/-- The cause of a descriptor that fails its checks (R330). -/
def descCheck (s : State) (c : Nat) (d : Descriptor) : Option Nat :=
  let op := descOp d
  let r := descRing d
  let bound := chanHolder s c
  let zeros := fld64 d.w1 37 11 == 0 && fld64 d.w2 53 11 == 0 && fld64 d.w2 15 1 == 0 &&
    (op == 1 || (descPtr d == 0 && r == 0))
  let dir := match bound with
    | none => true
    | some k => op != 1 && (op == 2) == (dflState s k == dflDEFLATE)
  if !(decide (1 ≤ op) && decide (op ≤ 3)) || !zeros || !dir then some 2
  else if descLen d = 0 then some 3
  else if op = 1 then
    let shape := descLen d % 8 == 0 && descAddr d % 8 == 0
    if !shape then some 3
    else if !ringExists s r then some 4
    else if 8 * ringSize s r < descLen d || 2 * ringSize s r - 1 < descPtr d then some 3
    else none
  else none

/-! RING_READ (R331, R340). -/

/-- Whether pointer `q` holds a word of the ring. -/
def ringHolds (s : State) (r q : Nat) : Bool :=
  decide (ringDist s r (ringREL s r) q < ringDist s r (ringREL s r) (ringWR s r))

/-- The word at pointer `q` as a reader gets it, and whether it is uncorrectable. -/
def ringWordRead (s : State) (r q : Nat) : Word64 × Bool :=
  if ringHolds s r q then (ringWordAt s r (ringAddr s r q), ringBadAt s r (ringAddr s r q))
  else (idleItem (ringSeq s r), false)

/-- Header positions of the span of `n` words from pointer `p`, from position `i` on: position and words of the record that
are read, up to WR. An uncorrectable header ends the list. `fuel`: each record takes a word. -/
def spanHeaders (s : State) (r p n : Nat) : Nat → Nat → List (Nat × Nat)
  | 0, _ => []
  | fuel + 1, i =>
    if n ≤ i then []
    else
      let q := ringStep s r p i
      let (h, bad) := ringWordRead s r q
      if bad then []
      else
        let len := (List.range (hdrLen h)).countP (fun j => ringHolds s r (ringStep s r q (j + 1)))
        (i, len) :: spanHeaders s r p n fuel (i + hdrLen h + 1)
termination_by structural fuel => fuel

/-- The words a RING_READ delivers with their poison, and how many words from `p` it reads. -/
def ringSpan (s : State) (r p n : Nat) : List (Word64 × Bool) × Nat :=
  let hs := spanHeaders s r p n n 0
  let poisoned := (hs.filter (fun h => (List.range h.2).any (fun j =>
    (ringWordRead s r (ringStep s r p (h.1 + j + 1))).2))).map Prod.fst
  let ws := (List.range n).map (fun i =>
    let x := ringWordRead s r (ringStep s r p i)
    if poisoned.contains i then (x.1 ||| BitVec.ofNat 64 (2 ^ 58), x.2) else x)
  (ws, hs.foldl (fun m h => max m (h.1 + h.2 + 1)) n)

/-- Split a buffer write at `a` into TLPs of at most the Max Payload Size that cross no 4 KiB boundary; `bad` tells of each
8-byte word whether it is uncorrectable. Answers whether one TLP carried EP. -/
def sendData (s : State) : Nat → Nat → List (Word64 × Bool) → Bool → Bool × State
  | 0, _, _, ep => (ep, s)
  | fuel + 1, a, ws, ep =>
    if ws.isEmpty then (ep, s)
    else
      let room := (4096 - a % 4096) / 8
      let k := max 1 (min (maxPayload s / 8) room)
      let x := ws.take k
      let bad := x.any Prod.snd
      let s1 := sendTlp s (.data a (x.flatMap (fun w => bytesOfWord w.1)) bad (ecrcSent s))
      sendData (if bad then poisonTx s1 else s1) fuel (a + 8 * k) (ws.drop k) (ep || bad)
termination_by structural fuel => fuel

/-- HEAD advances by one, modulo 2N. -/
def dmaAdvance (s : State) (c : Nat) : State :=
  setDma (wrF s (dmaR c 0x10) 0 17 ((dmaHead s c + 1) % 2 ^ (dmaLog s c + 1))) c DmaCore.init

/-- Perform a RING_READ. -/
def dmaRingRead (s : State) (c : Nat) (d : Descriptor) : State :=
  let r := descRing d
  let n := descLen d / 8
  let p := descPtr d
  let (ws, m) := ringSpan s r p n
  let s1 := forN m s (fun s i =>
    let q := ringStep s r p i
    if ringHolds s r q then countRingRead s r (ringAddr s r q) else s)
  let (ep, s2) := sendData s1 ws.length (descAddr d) ws false
  let s3 := ctrAdd64 s2 (dmaR c 0x20) (8 * n)
  dmaAdvance (dmaWriteBack s3 c (8 * n) 0 ep false false (descIrq d)) c

/-- Bytes to a host buffer, in TLPs as `sendData` splits them. -/
def sendBytes (s : State) : Nat → Nat → List Byte → State
  | 0, _, _ => s
  | fuel + 1, a, bs =>
    if bs.isEmpty then s
    else
      let k := max 1 (min (maxPayload s) (4096 - a % 4096))
      sendBytes (sendTlp s (.data a (bs.take k) false (ecrcSent s))) fuel (a + k) (bs.drop k)
termination_by structural fuel => fuel

/-- Perform an ENGINE_OUT as far as the engine's output goes; the buffer closes when it is full, at a flush's sync point, or
at the end of the job. -/
def dmaEngineOut (s : State) (c k : Nat) (d : Descriptor) : State :=
  let x := getDfl s k
  let f := (getDma s c).filled
  let room := descLen d - f
  let out := x.outQ.take room
  let s1 := sendBytes (setDfl s k { x with outQ := x.outQ.drop room }) out.length (descAddr d + f) out
  let s2 := ctrAdd64 s1 (dmaR c 0x20) out.length
  let total := f + out.length
  let emptied := decide (x.outQ.length ≤ room)
  let sync := emptied && x.syncMark
  let last := emptied && x.endMark.isSome
  if total = descLen d || ((sync || last) && 0 < total) then
    dmaAdvance (dmaWriteBack s2 c total 0 false sync last (descIrq d)) c
  else setDma s2 c { getDma s2 c with filled := total, irq := descIrq d }

/-- Perform an ENGINE_IN: the engine takes the buffer's bytes, up to the end of its stream, unless it waits for its ring. -/
def dmaEngineIn (s : State) (c k : Nat) (d : Descriptor) (data : List Byte) : State :=
  if (dflExpand s k).verdict ≠ 0 || inflateWaits s k then setDma s c { getDma s c with irq := descIrq d }
  else
    let bytes := data.take (descLen d) ++ List.replicate (descLen d - data.length) 0
    let (n, last, s1) := dflTake s k bytes
    let s2 := ctrAdd64 (sendReads s1 n (descAddr d) n) (dmaR c 0x20) n
    dmaAdvance (dmaWriteBack s2 c n 0 false false last (descIrq d)) c

/-- DMA_DESCRIPTOR: the channel checks and performs the descriptor it has fetched (R328 to R332). -/
def dmaDescriptor (s : State) (c : Nat) (d : Descriptor) (data : List Byte) : State :=
  if dmaState s c = dmaRUNNING && (getDma s c).fetched && mayIssue s then
    match descCheck s c d with
    | some cause =>
      let s1 := dmaWriteBack s c 0 cause false false false (descIrq d)
      dmaHalt (setDma s1 c { getDma s1 c with fetched := false }) c cause
    | none =>
      if descOp d = 1 then dmaRingRead s c d
      else match chanHolder s c with
      | none => setDma s c { getDma s c with irq := descIrq d }
      | some k => if descOp d = 2 then dmaEngineOut s c k d else dmaEngineIn s c k d data
  else s

/-! ### Completions (R336 to R338) -/

/-- The read with tag `t` is over: the channel's halt that waited for it follows. -/
def readOver (s : State) (r : OutRead) : State :=
  let s1 := dmaShowReads { s with pcie := { s.pcie with reads := s.pcie.reads.filter (fun x => x != r) } } r.chan
  match (getDma s1 r.chan).waiting with
  | some cause => dmaHaltNow s1 r.chan cause
  | none => s1

/-- COMPLETION_RECEIVED. -/
def completion (s : State) (tag : Nat) (status : CplStatus) (ep : Bool) : State :=
  let s0 := if ep then poisonRx (tlpSeen s) else tlpSeen s
  match s.pcie.reads.find? (fun r => r.tag == tag) with
  | some r =>
    let s1 := readOver s0 r
    if dmaState s1 r.chan ≠ dmaRUNNING then s1
    else if status ≠ .ok then dmaHalt s1 r.chan 6
    else if ep then dmaHalt s1 r.chan 7
    else setDma s1 r.chan { getDma s1 r.chan with fetched := true }
  | none =>
    if s.pcie.preFlr.any (fun r => r.tag == tag) then
      { tlpSeen s with pcie := { (tlpSeen s).pcie with preFlr := s.pcie.preFlr.filter (fun r => r.tag != tag) } }
    else pcieEvent (ctrAdd (aerReport s0 aerUNEXPECTED) PCIE_UNEXP 1) 2

/-- PCIE_STATUS.RETIRED follows the retired tags. -/
def showRetired (s : State) : State := wrF s PCIE_STATUS 21 11 s.pcie.retired.length

/-- COMPLETION_TIMEOUT. -/
def completionTimeout (s : State) (tag : Nat) : State :=
  let late (r : OutRead) : Bool := r.tag == tag && decide (r.sent + cplTimeout s < s.ns)
  match s.pcie.reads.find? late with
  | some r =>
    let s1 := pcieEvent (aerReport s aerTIMEOUT) 1
    let s2 := showRetired { s1 with pcie := { s1.pcie with retired := setInsert s1.pcie.retired tag } }
    let s3 := readOver s2 r
    if dmaState s3 r.chan = dmaRUNNING then dmaHalt s3 r.chan 5 else s3
  | none => { s with pcie := { s.pcie with preFlr := s.pcie.preFlr.filter (fun r => !late r) } }

/-- RECLAIM. -/
def reclaim (s : State) : State := showRetired { s with pcie := { s.pcie with retired := [] } }

/-! ### Power management and link (R317, R341, R342) -/

/-- Every RUNNING channel halts because the function may no longer issue requests. -/
def dmaAllHalt (s : State) : State :=
  forN 32 s (fun s c => if dmaState s c = dmaRUNNING then dmaHalt s c 8 else s)

/-- D3HOT: PowerState 3 is written. -/
def enterD3 (s : State) : State :=
  if dState s = 3 then s
  else
    let s1 := cfgSet s 0x11 (setFld (cfgRead s 0x11) 0 2 3)
    dmaAllHalt (wrF s1 PCIE_STATUS 16 2 3)

/-- The return to D0. -/
def enterD0 (s : State) : State := wrF (cfgSet s 0x11 (setFld (cfgRead s 0x11) 0 2 0)) PCIE_STATUS 16 2 0

/-- ASPM_L1_ENTRY. -/
def aspmL1 (s : State) : State :=
  if bitAt (cfgRead s 0x18) 1 && rdF s PCIE_STATUS 0 4 != 0 && decide (s.pcie.lastTlp + 16000 ≤ s.ns) then
    { s with pcie := { s.pcie with aspmL1 := true } } else s

/-- LINK_TRAINING: the highest rate and width of both partners; 0 of either: no link. Without Flit mode a link goes up to
32.0 GT/s (R316). -/
def linkTraining (s : State) (rate width : Nat) (flit : Bool) : State :=
  let up := 0 < rate && 0 < width
  let r := if !up then 0 else if rate = 6 && !flit then 5 else rate
  let w := if up then width else 0
  let s1 := wrF (wrF (wrBit s PCIE_STATUS 8 (up && flit)) PCIE_STATUS 4 4 w) PCIE_STATUS 0 4 r
  let l := setFld (setFld (cfgRead s1 0x18) 16 4 r) 20 6 (if w = 0 then 0 else 2 ^ (w - 1))
  cfgSet s1 0x18 l

/-! ### MSI-X (R348 to R350) -/

/-- Reset value of a doubleword of the MSI-X table. -/
def msixReset (i : Nat) : Word := if i % 4 = 3 then 1 else 0
def msixRead (s : State) (i : Nat) : Word := tabGet (msixReset i) s.pcie.msix i
def msixWrite (s : State) (i : Nat) (v be : Word) : State :=
  let m := if i % 4 = 3 then 1 &&& be else be
  { s with pcie := { s.pcie with msix := tabSet (msixReset i) s.pcie.msix i ((msixRead s i &&& ~~~m) ||| (v &&& m)) } }

/-- Vector `v` is blocked (R349). -/
def vectorBlocked (s : State) (v : Nat) : Bool :=
  bitAt (msixRead s (4 * v + 3)) 0 || bitAt (cfgRead s 0x2C) 30 || !bitAt (cfgRead s 0x2C) 31 || !mayIssue s

/-- MSIX_MESSAGE: the message enters the transmit queue and the pending bit clears. -/
def msixMessage (s : State) (v : Nat) : State :=
  if pbaBit s v && !vectorBlocked s v then
    let a := (msixRead s (4 * v)).toNat + 2 ^ 32 * (msixRead s (4 * v + 1)).toNat
    let s1 := sendTlp s (.msix (BitVec.ofNat 64 a) (msixRead s (4 * v + 2)) (ecrcSent s))
    let taken := (sourcesBoth s).filter (fun k => srcVector s k == v)
    { s1 with
      evBoth := taken.foldl setInsert s1.evBoth
      pcie := { s1.pcie with pba := s1.pcie.pba.filter (fun x => x != v) } }
  else s

/-! ### Meanings of the rows -/

def execDmaDescriptor (c : Fin 32) (desc : Descriptor) (data : List Byte) (s : State) : Out :=
  .next (dmaDescriptor s c.val desc data)
def execCompletionReceived (tag : BitVec 10) (status : CplStatus) (ep : Bool) (s : State) : Out :=
  .next (completion s tag.toNat status ep)
def execCompletionTimeout (tag : BitVec 10) (s : State) : Out := .next (completionTimeout s tag.toNat)
def execPeerWindowRead (addr : BitVec 36) (len : Nat) (s : State) : Out := .next (peerRead s addr.toNat len)
def execPeerWindowWrite (addr : BitVec 36) (data : List (Option Byte)) (ep : Bool) (s : State) : Out :=
  .next (peerWrite s addr.toNat data ep)
def execAtomicopRequest (bar : Fin 5) (_off : BitVec 36) (s : State) : Out := .next (atomicOp s bar.val)
def execD3hot (s : State) : Out := .next (enterD3 s)
def execAspmL1Entry (s : State) : Out := .next (aspmL1 s)
def execLinkTraining (rate : Fin 7) (width : Fin 6) (flit : Bool) (s : State) : Out :=
  .next (linkTraining s rate.val width.val flit)
def execMsixMessage (v : Fin 1024) (s : State) : Out := .next (msixMessage s v.val)

end Sys2Proof.Machine
end

