-- ==== Sys2Proof/Machine/Replay.lean ====
section
/-! DEFINITION. Replay jobs through the Turntable (chapter 11): reading the source rings, rebuilding slices, feeding,
skipping and ending. -/

namespace Sys2Proof.Machine

/-! ### Source records (R245, R257) -/

/-- A record as the Turntable reads it: header, payload words, whether the header is poisoned, and the poisoned words. -/
structure SrcRec where
  head  : Word64
  words : List Word64
  lost  : Bool
  bad   : List Bool
deriving DecidableEq, Repr

/-- A SOURCE that writes to ring `r`: a stream bound to it, or a stream that a command directs to a ring (R201, log 23). -/
def srcWrites (s : State) (r n : Nat) : Bool :=
  (strBound s n && strRingOf s n == r) || (decide (0x100 ≤ n) && decide (n < 0x200)) || n == 0x280 ||
  (decide (0x290 ≤ n) && decide (n < 0x2A0)) ||
  (decide (0x200 ≤ n) && decide (n < 0x280) && !strBound s n && streamDest s n == r)

/-- Headers chain from position `q` to exactly `stop` with SEQ values `seq`, `seq` + 1, … up to the one before `last`
(R245). -/
def srcChain (s : State) (r q stop seq last : Nat) : Nat → Bool
  | 0 => false
  | fuel + 1 =>
    if q = stop then seq % 2 ^ 28 == last
    else
      let h := ringWordAt s r (ringAddr s r q)
      let n := hdrLen h + 1
      !ringBadAt s r (ringAddr s r q) && decide (1 ≤ hdrType h) && decide (hdrType h ≤ 10) &&
      srcWrites s r (hdrSource h) && hdrSeq h == seq % 2 ^ 28 && decide (n ≤ ringDist s r q stop) &&
      srcChain s r (ringStep s r q n) stop (seq + 1) last fuel

/-- The first position after a poisoned header at `p` from which headers chain to `b.wr`. `e`: the SEQ the poisoned record
carries, where the record before it is known. -/
def srcNext (s : State) (b : SrcRing) (p : Nat) (e : Option Nat) : Nat :=
  let d := ringDist s b.ring p b.wr
  let seqAt (q : Nat) : Nat := match e with
    | some e => e + 1
    | none => hdrSeq (ringWordAt s b.ring (ringAddr s b.ring q))
  match (List.range (d - 1)).find? (fun i =>
      let q := ringStep s b.ring p (i + 1)
      srcChain s b.ring q b.wr (seqAt q) b.seq (d + 1)) with
  | some i => ringStep s b.ring p (i + 1)
  | none => b.wr

/-- The records of a source ring from position `p` up to WR as it stood at the start; `e`: the SEQ expected there. -/
def srcParse (s : State) (b : SrcRing) (p : Nat) (e : Option Nat) : Nat → List SrcRec
  | 0 => []
  | fuel + 1 =>
    if p = b.wr then []
    else
      let w := ringAddr s b.ring p
      if ringBadAt s b.ring w then
        { head := 0, words := [], lost := true, bad := [] } :: srcParse s b (srcNext s b p e) none fuel
      else
        let h := ringWordAt s b.ring w
        let n := hdrLen h
        let ad (i : Nat) : Nat := ringAddr s b.ring (ringStep s b.ring p (i + 1))
        { head := h, words := (List.range n).map (fun i => ringWordAt s b.ring (ad i)), lost := false,
          bad := (List.range n).map (fun i => ringBadAt s b.ring (ad i)) } ::
          (if ringDist s b.ring p b.wr < n + 1 then []
           else srcParse s b (ringStep s b.ring p (n + 1)) (some (hdrSeq h + 1)) fuel)

/-- The records of one source ring; none once the ring is gone. -/
def srcRecords (s : State) (b : SrcRing) : List SrcRec :=
  if ringExists s b.ring then srcParse s b b.rel none (ringDist s b.ring b.rel b.wr + 1) else []

def srcIs (n : Nat) (x : SrcRec) : Bool := !x.lost && hdrSource x.head == n

/-- The records of stream `n`: those of the lowest-numbered ring that holds any, with the poisoned headers among them. -/
def srcStream (s : State) (b : Job) (n : Nat) : List SrcRec :=
  match (b.rings.map (srcRecords s)).find? (fun l => l.any (srcIs n)) with
  | some l => l.filter (fun x => x.lost || srcIs n x)
  | none => []

/-! ### Rebuilding slices (R258 to R260) -/

/-- The record tick of a timestamp: divided by 256 and rounded up (R204). -/
def tickOfTs (w : Word64) : Int := ((w.toNat : Int) + 255) / 256

/-- A covered run of record ticks: one slice of a SAMPLE record, one TRANS entry, or the ticks a TRANS entry holds. -/
structure Piece where
  lo      : Int
  hi      : Int
  held    : Bool
  payload : Word
deriving DecidableEq, Repr

/-- The held slice of an entry (R259). -/
def heldSlice (fmt : Nat) (p : Word) : Word :=
  if fmt = 1 then BitVec.ofNat 32 (fld p 16 16 * 0x10001)
  else if fmt = 2 then BitVec.ofNat 32 (fld p 24 8 * 0x01010101)
  else p

def recKind (x : SrcRec) : Nat := if x.lost then 0 else hdrType x.head
/-- Poisoned: header flag or a poisoned word (R260). -/
def recPoison (x : SrcRec) : Bool := x.lost || hdrFlags x.head &&& flagPOISON != 0 || x.bad.any id
/-- A record whose place in time cannot be read. -/
def recUnplaced (x : SrcRec) : Bool := x.lost || x.bad.headD true
/-- A data record: SAMPLE or TRANS; any other record but a GAP is passed over (R257). A header that cannot be read may be one. -/
def recData (x : SrcRec) : Bool := x.lost || hdrType x.head == 1 || hdrType x.head == 2
def recFirst (x : SrcRec) : Int := tickOfTs (x.words.headD 0)

/-- Record ticks and payloads of the slices or entries a record holds. -/
def recItems (x : SrcRec) : List (Int × Word) :=
  if hdrType x.head = 1 then
    (List.range (fld64 (x.words.getD 1 0) 0 11)).map (fun (i : Nat) =>
      (recFirst x + i, (x.words.getD (2 + i / 2) 0).extractLsb' (32 * (i % 2)) 32))
  else (x.words.drop 1).map (fun w => (recFirst x + fld64 w 0 12, w.extractLsb' 32 32))

/-- The last tick of the hold of a TRANS record's last entry at `k`, given the records after it. -/
def holdEnd (re k : Int) : List SrcRec → Int
  | [] => re
  | y :: ys =>
    if recData y then
      if recUnplaced y || hdrFlags y.head &&& flagREF != 0 then k else recFirst y - 1
    else if hdrType y.head = 3 then k
    else holdEnd re k ys
termination_by structural x => x

/-- Pieces of a list of entries; the last one holds up to `stop`. -/
def entryPieces (fmt : Nat) (stop : Int) : List (Int × Word) → List Piece
  | [] => []
  | (k, p) :: r =>
    let e := match r with | (k2, _) :: _ => k2 - 1 | [] => stop
    { lo := k, hi := k, held := false, payload := p } ::
      ((if k < e then [{ lo := k + 1, hi := e, held := true, payload := heldSlice fmt p }] else []) ++
        entryPieces fmt stop r)
termination_by structural x => x

/-- The covered pieces of a stream's records in the format in use, and the spans that poison leaves uncovered. `last`: the last
covered tick so far; a poisoned record and one of another format cover none. -/
def streamPieces (fmt : Nat) (re : Int) (last : Int) : List SrcRec → List Piece × List (Int × Int)
  | [] => ([], [])
  | x :: xs =>
    let items := recItems x
    let stop := match items.getLast? with
      | some (k, _) => if hdrType x.head = 2 then holdEnd re k xs else k
      | none => last
    if !recData x then streamPieces fmt re last xs
    else if recUnplaced x then
      let upto := match xs.find? (fun y => recData y && !recUnplaced y) with | some y => recFirst y - 1 | none => re
      let (a, b) := streamPieces fmt re upto xs
      (a, if last < upto then (last + 1, upto) :: b else b)
    else if recPoison x then
      let (a, b) := streamPieces fmt re last xs
      (a, (recFirst x, stop) :: b)
    else if recKind x = 1 then
      if fld64 (x.words.getD 1 0) 16 2 = fmt then
        let (a, b) := streamPieces fmt re (max last stop) xs
        (items.map (fun i => { lo := i.1, hi := i.1, held := false, payload := i.2 }) ++ a, b)
      else streamPieces fmt re last xs
    else
      let (a, b) := streamPieces fmt re (max last stop) xs
      (entryPieces fmt stop items ++ a, b)
termination_by structural x => x

/-- Format in use for lane `n` (R257). -/
def jobFmt (b : Job) (n : Nat) : Nat := tabGet 0 b.fmts n

/-- The pieces and poisoned spans of lane stream `n`. -/
def jobPieces (s : State) (b : Job) (n : Nat) : List Piece × List (Int × Int) :=
  streamPieces (jobFmt b n) b.re (b.rs - 1) (srcStream s b n)

/-- What is fed at a record tick: the slice, and the run of ticks it belongs to; `still`: a held or uncovered slice. -/
structure Fed where
  covered : Bool
  payload : Word
  still   : Bool
  lo      : Int
  hi      : Int
deriving DecidableEq, Repr

def fedAt (rs re : Int) (ps : List Piece) (k : Int) : Fed :=
  match ps.find? (fun p => decide (p.lo ≤ k) && decide (k ≤ p.hi)) with
  | some p => { covered := true, payload := p.payload, still := p.held, lo := p.lo, hi := p.hi }
  | none =>
    { covered := false, payload := 0, still := true,
      lo := ps.foldl (fun m p => if p.hi < k then max m (p.hi + 1) else m) rs,
      hi := ps.foldl (fun m p => if k < p.lo then min m (p.lo - 1) else m) re }

/-! ### Jobs -/

def jobRUNNING : Nat := 1

/-- The engines of a job that execute: those that lead or stand alone. -/
def jobLeads (s : State) (b : Job) : List Nat := b.engines.filter (fun e => (getEng s e).lead == e)

/-- The largest L_e of the job. -/
def jobLat (s : State) (b : Job) : Nat := ((jobLeads s b).map (engLat s)).foldl max 0

/-- The last record tick whose slice every engine has treated (R264): an engine of the largest L_e is the last to treat it. -/
def jobTreated (s : State) (b : Job) : Option Int :=
  let now_ := b.lastFed == some (now s) &&
    (jobLeads s b).any (fun e => engLat s e == jobLat s b && (getEng s e).lastExec != some (now s))
  if now_ then b.treated else ((b.fedRec[jobLat s b]?).join).or b.treated

/-- The timestamp reached, in two words (R264). -/
def jobReached (s : State) (b : Job) : List Nat :=
  match jobTreated s b with | some k => words2 (tsOf k).toNat | none => words2 0

/-- Some engine of the job is paused (R255). -/
def jobPaused (s : State) (b : Job) : Bool := b.engines.any (fun e => engRun s e == runPAUSED)

/-- An engine of the job is resumed on this tick: the job goes on with the next one (R147, R255). -/
def jobResumed (s : State) (b : Job) : Bool := b.engines.any (fun e => (getEng s e).resumedAt == some (now s))

/-- The inserts of job `j` that come before its next slice are granted (R197). -/
def jobInserted (s : State) (j : Nat) (b : Job) : Bool :=
  (ctxExtQ s mTURNTABLE).all (fun q => q.job != j || decide (b.next ≤ q.recTick)) || !domReady s domCtx

/-- The job may feed or skip on this tick (R261). -/
def jobFree (s : State) (j : Nat) (b : Job) : Bool :=
  b.state == jobRUNNING && b.ending.isNone && b.lastAct != some (now s) && !jobPaused s b && !jobResumed s b &&
  jobInserted s j b && domReady s domRing

/-- The job feeds or skips on this tick (R261). -/
def jobActs (s : State) (j : Nat) (b : Job) : Bool := jobFree s j b && b.endReq == 0

/-- Forget what the resources of engine `e` took from its last input, at the two ends of a job. -/
def engFreshInput (s : State) (e : Nat) : State :=
  modEng s e (fun c => { c with
    evals := [], recent := [], edges := [], qclkSince := none, settled := false
    pub := match c.pub with | p :: _ => [(0, p.2)] | [] => [] })

/-- The reason-0 CTX records of a source ring as INSERT requests of master 256 for job `j` (R197). -/
def ctxInserts (s : State) (j : Nat) (b : SrcRing) : List CtxReq :=
  ((srcRecords s b).filter (fun x => !recPoison x && hdrType x.head == 7 && fld64 (x.words.getD 3 0) 20 4 == 0)).map
    (fun x => { op := opINSERT, key := x.words.getD 1 0, mask := 7, user := (x.words.getD 3 0).extractLsb' 32 32,
                imm := (x.words.getD 2 0).extractLsb' 48 16, stamp := (x.words.getD 2 0).extractLsb' 0 48,
                recTick := recFirst x, issued := now s, job := j })

/-- Count every word the job reads of a source ring (R253). -/
def srcCount (s : State) (b : SrcRing) : State :=
  forN (ringDist s b.ring b.rel b.wr) s (fun s i => countRingRead s b.ring (ringAddr s b.ring (ringStep s b.ring b.rel i)))

/-- Start job `j` on `es` (R256, R257). -/
def jobStart (s : State) (j : Nat) (es rings : List Nat) (rs re : Int) (result : Nat) : State :=
  let src := (rings.filter (ringExists s)).map (fun r => { ring := r, rel := ringREL s r, wr := ringWR s r, seq := ringSeq s r })
  let b : Job := { Job.free with
    state := jobRUNNING, engines := es, rings := src, rs := rs, re := re, next := rs, result := result,
    fmts := es.map (fun n => (n, laneFmt s n)) }
  let s1 := wr64 (wr64 (setJob s j b) (rplFedR j) 0) (rplSkipR j) 0
  let s2 := forEach es s1 (fun s e =>
    let s1 := modEng (engFreshInput s e) e (fun c => { c with job := some j, pub := [] })
    if (getEng s1 e).lead = e then engStart s1 e runREPLAY else setRun s1 e runFOLLOWER)
  let s3 := forEach src s2 srcCount
  if domReady s3 domCtx then
    forEach (src.flatMap (ctxInserts s3 j)) s3 (fun s q => ctxExtIssue s mTURNTABLE q)
  else s3

/-- Only part of a consist is in the mask. -/
def partConsist (s : State) (es : List Nat) : Bool :=
  es.any (fun e => (engMembers s (getEng s e).lead).any (fun n => !es.contains n))

/-- REPLAY_START. -/
def replayStartCmd (s : State) (m : Nat) : State :=
  let es := argMask s m 0
  let r0 := arg s m 8
  let cnt := arg s m 9
  let t0 := arg64 s m 10
  let t1 := arg64 s m 12
  let res := arg s m 14
  let rings := (List.range (min cnt 256)).map (fun i => r0 + i)
  let job := (List.range 16).find? (fun j => (getJob s j).state != jobRUNNING)
  let autoBusy (r : Nat) : Bool := ringExists s r && ringAuto s r && !(streamsOfRing s r).isEmpty && capActive s
  checked s m [noSched s m, needArg (!es.isEmpty && !partConsist s es) 0,
    needArg (!(decide (r0 ≤ res) && decide (res < r0 + cnt)) || decide (32768 ≤ res)) 14,
    needRange (decide (r0 < 32768) && decide (r0 + cnt ≤ 32768)) 8, needRange (decide (1 ≤ cnt) && decide (cnt ≤ 256)) 9,
    needRange (decide (t0 ≤ t1)) 10, needRange (decide (res < 32768)) 14,
    needDoms s ([domRing] ++ seqDoms es ++ (es.map domLink).eraseDups),
    needAll es (fun e => needState (engReplay s e && (getEng s e).job.isNone) 2 e (engRun s e)),
    needAll es (fun n => needState (laneFmt s n != 0) 1 n (laneState s n)),
    needState (ringExists s res && (streamsOfRing s res).isEmpty) 3 res (ringState s res),
    needAll rings (fun r => needState (!autoBusy r) 3 r (ringState s r)), needState job.isSome 10 0 1,
    needFree s (es.map Res.engine ++ es.map Res.lane ++ (res :: rings).map Res.ring)]
    (fun s =>
      let j := job.getD 0
      completeCmd (jobStart s j es rings (tickOfTs (BitVec.ofNat 64 t0)) (tickOfTs (BitVec.ofNat 64 t1)) res) m stOK [j])

/-- REPLAY_STOP: the job ends on the next tick on which it would have fed or skipped (R264). -/
def replayStopCmd (s : State) (m : Nat) : State :=
  let j := arg s m 0
  let b := getJob s j
  checked s m [noSched s m, needRange (decide (j < 16)) 0, needState (b.state == jobRUNNING) 10 j b.state]
    (fun s => completeCmd (modJob s j (fun b => { b with endReq := if b.endReq = 4 then 4 else 3 })) m stOK (jobReached s b))

/-- REPLAY_STATUS. -/
def replayStatusCmd (s : State) (m : Nat) : State :=
  let j := arg s m 0
  let b := getJob s j
  checked s m [noSched s m, needRange (decide (j < 16)) 0]
    (fun s => completeCmd s m stOK ([b.state] ++ jobReached s b ++ [b.marks]))

/-! ### Feeding and skipping (R261, R262) -/

/-- The GAP records of the poisoned spans that begin in record ticks `a` to `z` (R260). -/
def jobGaps (s : State) (j : Nat) (a z : Int) : State :=
  let b := getJob s j
  forEach b.engines s (fun s n =>
    forEach (jobPieces s b n).2 s (fun s p =>
      let lo := max p.1 b.rs
      let hi := min p.2 b.re
      if a ≤ lo && lo ≤ z && lo ≤ hi then
        let s1 := stageNew s (0x100 + n) b.result tyGAP 0
          [tsOf lo, tsOf hi, BitVec.ofNat 64 (min (hi - lo + 1).toNat 0xFFFFFFFF * 2 ^ 32 + 5)] (tsOf lo) (tsOf hi)
        rplEvent s1 (bit (16 + j))
      else s))

/-- Every engine was settled on the last fed tick while treating a held or uncovered slice, every slice fed since belongs
to the same span, and the answer is how many ticks of it are left to skip. -/
def skipSpan (s : State) (b : Job) (e : Nat) : Nat :=
  let c := getEng s e
  let x : Int := (b.fedTick : Int) - engLat s e
  match c.evals.find? (fun v => decide ((v.tick : Int) = x)) with
  | some v =>
    if c.settled && c.lastExec == b.lastFed && c.resQ.isEmpty && c.reqQ.isEmpty then
      ((engMembers s e).map (fun n =>
        let f := fedAt b.rs b.re (jobPieces s b n).1 v.recTick
        if f.still && decide (b.next - 1 ≤ f.hi) then (f.hi + 1 - b.next).toNat else 0)).foldl min (b.re - b.next).toNat
    else 0
  | none => 0

/-- Ticks until a running timer of engine `e` would equal its LIMIT, less one; a timer at its LIMIT allows no skip. -/
def skipTimers (s : State) (e : Nat) (k : Nat) : Nat :=
  (List.range 4).foldl (fun k i =>
    if tmrRunning s e i then
      let d := (tmrLimit s e i + 2 ^ 48 - tmrBefore s e i) % 2 ^ 48
      min k (d - 1)
    else k) k

/-- The counters of engine `e` that count during a skip. -/
def skipCounts (s : State) (e i : Nat) : Bool :=
  let c := getEng s e
  autoOn s e i c.held (fun k => c.lastCond.getLsbD k)

/-- Ticks until a counter under auto-count would change its CNT condition, less one. -/
def skipCounters (s : State) (e : Nat) (k : Nat) : Nat :=
  (List.range 8).foldl (fun k i =>
    if skipCounts s e i && decide (cntBefore s e i < sat48) then
      let v := cntBefore s e i
      let t := rd64Before s (cntR e i + 0x10) % 2 ^ 48
      if v < t then min k (t - v - 1)
      else if v = t && bitAt (rdBefore s (cntR e i + 0x18)) 8 then 0
      else k
    else k) k

/-- Record ticks the job skips on this tick; 0 where it may not skip. What the host writes on this tick has no part in it
(R262). -/
def jobSkip (s : State) (b : Job) : Nat :=
  if b.lastFed.isSome && b.lastAct == b.lastFed && decide (b.next < b.re) && b.drain == 0 then
    (jobLeads s b).foldl (fun k e => skipCounters s e (skipTimers s e (min k (skipSpan s b e)))) (b.re - b.next).toNat
  else 0

/-- REPLAY_FEED: every engine takes the slice of the next record tick; after re the pipeline drains (R264). -/
def replayFeed (s : State) (j : Nat) : State :=
  let b := getJob s j
  if jobActs s j b && jobSkip s b == 0 && decide (b.drain < jobLat s b) then
    let t := jobTreated s b
    if b.next ≤ b.re then
      let k := b.next
      let s1 := jobGaps s j k k
      let s2 := modJob s1 j (fun b => { b with
        treated := t, fedRec := some k :: b.fedRec.take 7, fedTick := b.fedTick + 1, next := k + 1,
        lastFed := some (now s), lastAct := some (now s) })
      let s3 := ctrAdd64 s2 (rplFedR j) 1
      forEach (jobLeads s b) s3 (fun s e =>
        evalEngine s e (b.fedTick + 1) k ((engMembers s e).map (fun n =>
          let f := fedAt b.rs b.re (jobPieces s b n).1 k
          { fmt := jobFmt b n, payload := f.payload, valid := f.covered })) (k == b.re))
    else
      modJob s j (fun b => { b with
        treated := t, fedRec := none :: b.fedRec.take 7, fedTick := b.fedTick + 1, drain := b.drain + 1,
        lastFed := some (now s), lastAct := some (now s) })
  else s

/-- The timers and counters of engine `e` advance by the `k` record ticks skipped. One the host writes on this tick holds what
the host wrote at the next fed tick (R262): no increment is kept for R45. -/
def skipEngine (s : State) (e k : Nat) : State :=
  let s1 := forN 4 s (fun s i =>
    if tmrRunning s e i && !hostWrote48 s (tmrR e i) then
      modEng (wr48 s (tmrR e i) (tmrVal s e i + k)) e (fun c => { c with tmrOld := tabPut c.tmrOld i (true, tmrVal s e i) })
    else s)
  forN 8 s1 (fun s i =>
    if skipCounts s1 e i && !hostWrote48 s (cntR e i) then
      modEng (wr48 s (cntR e i) (min sat48 (cntVal s e i + k))) e (fun c => { c with cntOld := tabPut c.cntOld i (cntVal s e i) })
    else s)

/-- REPLAY_SKIP: K record ticks of a span pass in one tick (R262). -/
def replaySkip (s : State) (j : Nat) : State :=
  let b := getJob s j
  let k := jobSkip s b
  if jobActs s j b && k != 0 then
    let s1 := jobGaps s j b.next (b.next + k - 1)
    let s2 := modJob s1 j (fun b => { b with next := b.next + k, lastAct := some (now s) })
    let s3 := ctrAdd64 s2 (rplSkipR j) k
    forEach (jobLeads s b) s3 (fun s e => skipEngine s e k)
  else s

/-! ### Ending (R264) -/

/-- The result records of a job that are not committed yet, each with its stream. -/
def jobResults (s : State) (b : Job) : List (Nat × Rec) :=
  b.engines.flatMap (fun e =>
    ((getStr s (0x100 + e)).staged.filter (fun r => decide (r.ring = b.result))).map (fun r => (0x100 + e, r)))

/-- The one of them that closed first. -/
def jobOldest (l : List (Nat × Rec)) : Option (Nat × Rec) :=
  l.foldl (fun a p => match a with | none => some p | some q => if p.2.ord < q.2.ord then some p else some q) none

/-- Commit the oldest result record, where its ring takes one on this tick (R241); a record whose ring is gone is lost. -/
def jobCommitOne (s : State) (b : Job) : State :=
  match jobOldest (jobResults s b) with
  | none => s
  | some (n, r) =>
    if ringExists s b.result && !ringCommitFree s b.result then s
    else ringOffer (modStr s n (fun c => { c with staged := c.staged.filter (fun x => decide (x.ord ≠ r.ord)) })) b.result r

/-- Steps 3 and 4 of R264 for a job whose engines have ended: one record a tick goes to the result ring; after the last one
the job enters its state and its END bit is set. -/
def jobSettle (s : State) (j : Nat) : State :=
  let b := getJob s j
  match b.ending with
  | none => s
  | some st =>
    let s1 := jobCommitOne s b
    if (jobResults s1 b).isEmpty then rplEvent (modJob s1 j (fun b => { b with state := st, ending := none })) (bit j) else s1

/-- As a tick begins: the jobs that are ending go on. -/
def jobsTick (s : State) : State := forEach (s.job.map Prod.fst) s jobSettle

/-- The job ends in state `st`, in the order of R264. A faulted engine stays in FAULT (R149). The job stays RUNNING until its
result records are committed, one a tick (DEDUCED, log 53). -/
def jobEnd (s : State) (j st : Nat) : State :=
  let b := getJob s j
  let t := jobTreated s b
  let s1 := forEach b.engines s (fun s e => engDiscard s e)
  let s2 := forEach b.engines s1 (fun s e =>
    let s1 := modEng (engFreshInput s e) e (fun c => { c with job := none })
    if engRun s1 e = runFAULT then s1 else engEnter s1 e runSTOPPED)
  jobSettle (modJob s2 j (fun b => { b with ending := some st, treated := t, fedRec := [] })) j

/-- Every engine has executed its last word. -/
def jobDone (s : State) (b : Job) : Bool :=
  decide (b.re < b.next) && decide (jobLat s b ≤ b.drain) &&
  (b.lastFed != some (now s) || (jobLeads s b).all (fun e => engLat s e < jobLat s b || (getEng s e).lastExec == some (now s)))

/-- REPLAY_JOB_END. -/
def replayJobEnd (s : State) (j : Nat) : State :=
  let b := getJob s j
  if b.state != jobRUNNING || b.ending.isSome then s
  else if b.endReq = 4 then jobEnd s j 4
  else if b.endReq = 3 then
    (if jobFree s j b then jobEnd s j 3 else s)
  else if jobDone s b then jobEnd s j 2
  else s

/-- A domain that job `j` uses is switched off (R264). -/
def jobUsesDom (b : Job) (d : Nat) : Bool :=
  b.state == jobRUNNING && b.ending.isNone &&
  (d == domRing || b.engines.any (fun e => domSeq e == d || domLink e == d))

/-- The jobs that use domain `d` are aborted. -/
def jobsDomOff (s : State) (d : Nat) : State :=
  forN 16 s (fun s j => if jobUsesDom (getJob s j) d then jobEnd s j 4 else s)

/-! ### Meanings of the rows -/

def execReplayStart (m : Fin 16) (s : State) : Out := .next (fwRow s m.val 0x0701 (fun s => replayStartCmd s m.val))
def execReplayStop (m : Fin 16) (s : State) : Out := .next (fwRow s m.val 0x0702 (fun s => replayStopCmd s m.val))
def execReplayStatus (m : Fin 16) (s : State) : Out := .next (fwRow s m.val 0x0703 (fun s => replayStatusCmd s m.val))
def execReplayFeed (j : Fin 16) (s : State) : Out := .next (replayFeed s j.val)
def execReplaySkip (j : Fin 16) (s : State) : Out := .next (replaySkip s j.val)
def execReplayJobEnd (j : Fin 16) (s : State) : Out := .next (replayJobEnd s j.val)

end Sys2Proof.Machine
end

