-- ==== Sys2Proof/Machine/Power.lean ====
section
/-! DEFINITION. Power domains, temperature, resets and start-up (chapter 18), and the system commands of group 0x00. -/

namespace Sys2Proof.Machine

/-! ### Prerequisites (R364) -/

def domPrereq (d : Nat) : Option Nat :=
  if 3 ≤ d ∧ d ≤ 16 ∨ 19 ≤ d ∧ d ≤ 22 then some domTimebase else if d = 17 ∨ d = 18 then some domCirrus else none

/-- The domains that are on and have `d` as prerequisite. -/
def domDependants (s : State) (d : Nat) : List Nat :=
  (List.range 24).filter (fun x => domPrereq x == some d && domOn s x)

/-! ### Commands under way that use a domain (R367) -/

/-- The domains a command waits on. -/
def waitUses (s : State) (c : RunCmd) (d : Nat) : Bool :=
  match c.wait with
  | .scheduled _ => d == domTimebase || (c.op / 256 == 6 && captureUses s d) || (c.op == 0x0903 && d == domAnalog)
  | .train ls _ => ls.any (fun n => domLink n == d)
  | .returnSend k => domLink (8 * k) == d
  | .pll k => pllDom k == d
  | .flush .. => d == domRing
  | .deflateFlush _ => d == domDeflate || d == domRing
  | .tiuCal .. => d == domTiu
  | .clear => d == domCtx
  | .dump r .. => d == domCtx || d == domRing || ((d == 17 || d == 18) && !ringCompact s r)
  | .armClear _ => captureUses s d || d == domCtx
  | .census _ | .aligning | .measuring | .loopPost .. | .loopReturn .. => d == domTimebase
  | .snapshot _ _ es => d == domRing || es.any (fun e => domSeq e == d)
  | .stats _ _ l => d == domRing || l.any (fun p => domSeq p.1 == d)

/-- The unit state word of the unit concerned. -/
def waitWord (s : State) (c : RunCmd) (d : Nat) : Nat :=
  match c.wait with
  | .scheduled _ =>
    if c.op = 0x0903 then
      let j := (chainMask (actParam s c.m 0 c.op)).headD 0
      unitWord 5 j (dfcState s j)
    else unitWord 0 0 (capState s)
  | .train ls _ =>
    let n := (ls.find? (fun n => domLink n == d)).getD 0
    unitWord 1 n (laneState s n)
  | .returnSend k => unitWord 1 (8 * k) (laneState s (8 * k))
  | .pll _ => openWord s 8
  | .flush r .. => ringWord s r
  | .deflateFlush k => dflWord s k
  | .tiuCal is _ => unitWord 4 (is.headD 0) (tiuState s (is.headD 0))
  | .clear | .armClear _ => ctxWord s
  | .dump r .. => if d = domCtx then ctxWord s else ringWord s r
  | .census _ | .aligning | .measuring | .loopPost .. | .loopReturn .. => openWord s 7
  | .snapshot _ r es =>
    match es.find? (fun e => domSeq e == d) with
    | some e => engWord s e
    | none => ringWord s r
  | .stats _ r l =>
    match l.find? (fun p => domSeq p.1 == d) with
    | some p => engWord s p.1
    | none => ringWord s r

/-- The commands of `cs` fail. -/
def failCmds (s : State) (cs : List RunCmd) (d : Nat) : State :=
  forEach cs s (fun s c => completeCmd { s with freeCtr := s.freeCtr + 1 } c.m stHW_FAULT [waitWord s c d])

/-! ### What each domain loses (R27, R33, R240, R264, R272, R314, R367) -/

/-- Delete every ring that `pick` accepts, with the Deflate jobs that use it. -/
def ringsDelete (s : State) (pick : Nat → Bool) : State :=
  forEach ((ringsExisting s).filter pick) s (fun s r => ringDelete (dflRingDeleted s r) r)

/-- The domain's own blocks read zero from now on (R33). -/
def regsLose (s : State) (d : Nat) : State := { s with regs := s.regs.filter (fun p => offDomain p.1 != d) }

/-- Lanes and return lanes of link domain `d`. -/
def linkOff (s : State) (d : Nat) : State :=
  let k := d - 3
  let inLane (n : Nat) : Bool := n / 32 == k
  { s with
    lane := s.lane.filter (fun p => !inLane p.1)
    ret := s.ret.filter (fun p => p.1 / 4 != k) }

/-- Engines of sequencer domain `d`; with all four domains off the Global bits 56 to 63 go to 0 (R142). -/
def seqOff (s : State) (d : Nat) : State :=
  let s1 := { s with eng := s.eng.filter (fun p => domSeq p.1 != d) }
  if [11, 12, 13, 14].all (fun x => x == d || !domOn s x) then gforceWrite s1 0 else s1

/-- Staging of the lane streams, and the rings in Cirrus. -/
def cirrusOff (s : State) : State :=
  let s1 := ringsDelete s (ringCompact s)
  let s2 := { s1 with cirrus := [], cirrusBad := [], cirrusCorr := [] }
  forEach ((s2.stream.map Prod.fst).filter isLaneStream) s2 (fun s n =>
    stageShow (modStr s n (fun c =>
      { c with staged := [], openRec := none, loss := none, dead := none, corr := 0, windows := [], autoWins := []
               drained := 0, drainRate := 0, wpos := 0, part := 0, lines := [] })) n)

/-- Word address `w` lies in a channel of Stratus domain `17 + j`. -/
def inStratus (j w : Nat) : Bool := stratusChannel w / 8 == j

/-- Stratus domain `17 + j` holds memory of ring `r`: some granule of its area lies in one of its channels (R224, R240). -/
def ringInStratus (s : State) (j r : Nat) : Bool :=
  !ringCompact s r &&
  (List.range (min 16 ((ringSize s r + 31) / 32))).any (fun i => inStratus j (rd64 s (rR r 8) + 32 * i))

def stratusOff (s : State) (d : Nat) : State :=
  let j := d - 17
  let s1 := ringsDelete s (ringInStratus s j)
  { s1 with
    stratus := s1.stratus.filter (fun p => !inStratus j (p.1 / 8))
    stratusBad := s1.stratusBad.filter (fun w => !inStratus j w)
    stratusCorr := s1.stratusCorr.filter (fun w => !inStratus j w) }

/-- The timebase: counter, PLL, REF_OUT and Loop line. -/
def timebaseOff (s : State) : State :=
  let s1 := wrBit s SYS_CAPTURE 3 false
  { s1 with
    time := 0, loop := LoopCore.init
    tb := { Timebase.init with plls := s.tb.plls, refClass := s.tb.refClass, prevWin := s.tb.prevWin } }

/-- Analog: open records close with TRUNC, their staging survives (R231). -/
def analogOff (s : State) : State := dfcSwitch (forN 64 s (fun s j => closeOpen s (dfcStream j) flagTRUNC)) false

def deflateOff (s : State) : State :=
  forN 16 s (fun s k => setDflState (dflAbort s k 6 dflOFF) k dflOFF)

/-- Every descriptor and every bit of the pending registers (R240). -/
def ringManagerOff (s : State) : State :=
  let s1 := forN 16 s (fun s k => dflAbort s k 6 dflIDLE)
  { s1 with ring := [], regs := s1.regs.filter (fun p => !(decide (0x2000 ≤ p.1) && decide (p.1 < 0x3000))) }

def domLoses (s : State) (d : Nat) : State :=
  if d = domTimebase then timebaseOff s
  else if d ≤ 10 then linkOff s d
  else if d ≤ 14 then seqOff s d
  else if d = domCtx then ctxSwitchOff s
  else if d = domCirrus then cirrusOff s
  else if d ≤ 18 then stratusOff s d
  else if d = domTiu then tiuOff s
  else if d = domAnalog then analogOff s
  else if d = domDeflate then deflateOff s
  else if d = domRing then ringManagerOff s
  else s

/-- A halt of a capture that uses domain `d`; lanes whose link goes close their open records with TRUNC (R27, R231). -/
def domHaltsCapture (s : State) (d : Nat) : State :=
  if capActive s && captureUses s d then
    let s1 := if 3 ≤ d ∧ d ≤ 10 then
        forEach ((captureStreams s).filter (fun n => isLaneStream n && domLink n == d)) s (fun s n => closeOpen s n flagTRUNC)
      else s
    captureHalt s1 3
  else s

/-- The switch-off discharge and ramp times (R364, R368). -/
def switchTime : Nat := 20000

/-- A commit switches domain `d` off (R367). -/
def domSwitchOff (s : State) (d : Nat) : State :=
  let cmds := s.running.filter (fun c => waitUses s c d)
  let s1 := jobsDomOff (domHaltsCapture s d) d
  let s2 := wrBit (wrBit s1 PWR_READY d false) PWR_ON d false
  let s3 := regsLose (domLoses (mtAbort s2 (fun x => x == d)) d) d
  let s4 := failCmds s3 (cmds.filter (fun c => s3.running.contains c)) d
  let s5 := match domPll d with | some k => setPll s4 k (Pll.initial k) | none => s4
  { s5 with disch := tabSet 0 s5.disch d (s5.ns + switchTime), ramp := tabDel s5.ramp d, inits := setErase s5.inits d }

/-- A commit switches domain `d` on: the ramp starts, and its PLL is released with its default settings (R105, R368). -/
def domSwitchOn (s : State) (d : Nat) : State :=
  let s0 := if d = domCirrus then ringsDelete s (ringCompact s)
    else if d = 17 ∨ d = 18 then ringsDelete s (ringInStratus s (d - 17)) else s
  let up := max s0.ns (tabGet 0 s0.disch d) + switchTime
  let s1 := { wrBit s0 PWR_ON d true with ramp := tabSet 0 s0.ramp d up, inits := setErase s0.inits d }
  match domPll d with
  | some k => setPll s1 k { Pll.initial k with relock := true, since := up }
  | none => s1

/-- Refuse a commit to PWR_SW[d] (R366). -/
def pwrRefuse (s : State) (d cause : Nat) : State :=
  hwOr (wrF (wrF s PWR_REFUSE 0 5 d) PWR_REFUSE 8 4 cause) PWR_REFUSE 0x80000000

/-- A successful guarded write of `v` to PWR_SW[d] (R365, R366). -/
def pwrCommit (s : State) (d : Nat) (v : Word) : State :=
  let on := bitAt v 0
  let s0 := if hostWrote s PWR_ON then s else { s with cycHost := tabPut s.cycHost PWR_ON (rd s PWR_ON) }
  if fld v 1 31 ≠ 0 then pwrRefuse s d 1
  else if d < 2 then (if on then s else pwrRefuse s d 2)
  else if on = domOn s d then s
  else if on then
    if (match domPrereq d with | some p => !domReady s p | none => false) then pwrRefuse s d 3
    else if thermTripped s then pwrRefuse s d 5
    else domSwitchOn s0 d
  else if !(domDependants s d).isEmpty then pwrRefuse s d 4
  else domSwitchOff s0 d

/-! ### Temperature (R370 to R372) -/

/-- A 16-bit temperature as a signed number. -/
def signed16 (n : Nat) : Int := signedOf 16 (n % 2 ^ 16)

/-- ALERT_N by the latest temperature and THERM_ALERT.LEVEL, released 2 °C below it (R370). -/
def alertShow (s : State) : State :=
  let lvl := signed16 (rdF s THERM_ALERT 0 16)
  let t := signed16 (rdF s THERM_STATUS 0 16)
  if lvl ≤ t then wrBit s THERM_STATUS 30 true
  else if t ≤ lvl - 32 then wrBit s THERM_STATUS 30 false
  else s

/-- TEMPERATURE_MEASUREMENT. -/
def temperature (s : State) (t : BitVec 16) : State :=
  let s1 := wrF s THERM_STATUS 0 16 t.toNat
  alertShow (if signed16 (rdF s THERM_MAX 0 16) < t.toInt then wrF s1 THERM_MAX 0 16 t.toNat else s1)

/-- THERMAL_TRIP: the clocks of domains 2 to 23 stop, and a commit of this tick does not act (R371). -/
def thermalTrip (s : State) : State :=
  if thermTripped s then s
  else
    let s1 := captureHalt s 4
    let s2 := wr s1 PWR_ON (rdBefore s1 PWR_ON)
    wrBit (wrF s2 PWR_READY 2 22 0) THERM_STATUS 31 true

/-! ### Resets (R373 to R378) -/

def orgPOR : Nat := 0
def orgPERST : Nat := 1
def orgWARM : Nat := 2
def orgFLR : Nat := 3

/-- FUSE_STATUS of the fuses loaded (R356, R363). -/
def fuseStatus (s : State) : Nat :=
  let f := s.fuses
  (if f.aOk then 0 else if f.bOk then 16 else 32) + 8 * b2n (fuseRestricted s) +
    4 * b2n (f.aOk && f.bOk && !f.agree) + 2 * b2n (!f.bOk) + b2n (!f.aOk)

/-- Discharge of every domain that was on. -/
def allDischarge (s : State) : Tab Nat :=
  (List.range 22).foldl (fun t i => if domOn s (i + 2) then tabSet 0 t (i + 2) (s.ns + switchTime) else t) s.disch

/-- What every reset leaves (R378): all units as after cold reset, registers that `keep` accepts as they were. What lies
outside the device, its fuses and its flash stay, and so do the model's own counters. -/
def resetUnits (s : State) (keep : Nat → Bool) (origin : Nat) : State :=
  let s1 := { State.reset with
    pending := s.pending, freeCtr := s.freeCtr, ns := s.ns, recOrd := s.recOrd, regs := s.regs.filter (fun p => keep p.1)
    disch := allDischarge s, fuses := s.fuses, flash := s.flash, glb := { State.reset.glb with pins := s.glb.pins }
    smbAddr := s.smbAddr, jtag := s.jtag, spares := s.spares, bistFailed := s.bistFailed, mt := s.mt, mtLast := s.mtLast, pcie := s.pcie }
  wrF s1 SYS_BOOT 8 2 origin

/-- Reads under way end with the function; their completions are discarded when they come (R320). -/
def pcieDrop (p : Pcie) : Pcie :=
  { p with reads := [], retired := [], preFlr := p.preFlr ++ p.reads, cpl := none }

/-- PCIE_STATUS as the link stands, in D0. -/
def linkShow (s s0 : State) (up : Bool) : State := wrF s PCIE_STATUS 0 9 (if up then rdF s0 PCIE_STATUS 0 9 else 0)

/-- A warm reset starts (R373, R374). PCIe keeps its link, its configuration space and its MSI-X table. -/
def warmReset (s : State) : State :=
  let s1 := resetUnits (mtAbort s (fun d => decide (2 ≤ d))) keptAtWarm orgWARM
  let s2 := { s1 with
    pcie := pcieDrop s.pcie
    gates := { s.gates with svcOpen := false, custOpen := false, nonce := none, saving := false }
    evBoth := [] }
  wrF (linkShow s2 s true) PCIE_STATUS 16 2 (rdF s PCIE_STATUS 16 2)

/-- Configuration doublewords an FLR keeps, and those a hot or link-down reset keeps (PRESUMED from the base specification,
log 15): link control, payload size, sticky error registers. -/
def cfgKept (c : FlrCause) (d : Nat) : Bool :=
  (decide (0x41 ≤ d) && decide (d ≤ 0x46)) || (c == .functionLevel && (d == 0x18 || d == 0x20))

/-- FLR, hot reset or link-down reset (R320, R373). -/
def flrReset (s : State) (c : FlrCause) : State :=
  let s1 := resetUnits (mtAbort s (fun d => decide (2 ≤ d))) keptAtWarm orgFLR
  let s2 := { s1 with
    pcie := { pcieDrop s.pcie with
      cfg := s.pcie.cfg.filter (fun p => cfgKept c p.1), msix := [], pba := [], aspmL1 := false }
    gates := { s.gates with svcOpen := false, custOpen := false, nonce := none, saving := false } }
  let s3 := if c = .functionLevel then cfgSet s2 0x16 (setFld (cfgRead s2 0x16) 5 3 (fld (cfgRead s 0x16) 5 3)) else s2
  linkShow s3 s (c != .linkDown)

/-- COLD_RESET (R373, R376): `por` samples the SMBus straps; a PERST# alone leaves PREV_TRIP to tell of a latched trip. -/
def coldReset (s : State) (por : Bool) (smb : BitVec 2) : State :=
  let prev := !por && (thermTripped s || rdBit s THERM_STATUS 29)
  let s1 := resetUnits s (fun _ => false) (if por then orgPOR else orgPERST)
  let s2 := { s1 with
    pcie := Pcie.init, spares := [], bistFailed := [], mt := none, mtLast := none, smbAddr := if por then smb else s.smbAddr
    jtag := if por then Jtag.init else s.jtag, lrel := 0 }
  wrBit (wr s2 FUSE_STATUS (BitVec.ofNat 32 (fuseStatus s2))) THERM_STATUS 29 prev

/-- The commit of `v` to SYS_RESET (R374): the reset starts 1 us later. -/
def sysResetCommit (s : State) (v : Word) : State :=
  if v = 1 then { s with warmAt := s.warmAt.or (some (s.ns + 1000)) } else s

/-! ### The firmware (R50, R376, R377) -/

/-- Neither ready nor stopped: the boot is under way. -/
def booting (s : State) : Bool := rdF s SYS_FW_STATUS 0 2 == 0

def bootOrigin (s : State) : Nat := rdF s SYS_BOOT 8 2

/-- FIRMWARE_BOOT: the boot ends with FW_READY, or without a valid image with FW_FAULT. -/
def firmwareBoot (s : State) (img : BootImage) (time : Nat) : State :=
  if booting s then
    let res := match img with | .image0 => 1 | .image1 => 2 | .bothFailed => 3 | .noAnswer => 4
    let s1 := wrF s SYS_BOOT 0 4 res
    if res ≤ 2 then
      let s2 := wrF (gateBoot s1 (decide (bootOrigin s ≤ 1))) SYS_BOOT 16 16 time
      fwStatusEvent s2 1
    else fwStatusEvent s1 2
  else s

/-- FW_FAULT: the firmware has stopped; commands no longer start (log 27). -/
def fwFault (s : State) : State := if fwReady s then fwStatusEvent s 2 else s

/-! ### Commands of group 0x00 (R69) -/

/-- RES1 of SYS_INFO. -/
def bootReport (s : State) : Nat :=
  let f := fuseStatus s
  (f / 4) % 2 + 2 * (f % 2) + 4 * (f / 2 % 2) + 8 * b2n s.repaired

def sysInfoCmd (s : State) (m : Nat) : State :=
  checked s m [noSched s m] (fun s =>
    let pos := match s.loop.pos with | some p => if loopMember s then p else 0xFF | none => 0xFF
    completeCmd s m stOK [Config.fwVersion.toNat, bootReport s, pos])

def sysEchoCmd (s : State) (m : Nat) : State :=
  checked s m [noSched s m] (fun s => completeCmd s m stOK ((List.range 4).map (arg s m)))

/-- A signed 16-bit value in a result word. -/
def signWord (n : Nat) : Nat := (BitVec.ofInt 32 (signed16 n)).toNat

def sysTempCmd (s : State) (m : Nat) : State :=
  checked s m [noSched s m] (fun s =>
    completeCmd s m stOK [signWord (rdF s THERM_STATUS 0 16), signWord (rdF s THERM_MAX 0 16)])

/-! ### Meanings of the rows -/

def execSysInfo (m : Fin 16) (s : State) : Out := .next (fwRow s m.val 0x0001 (fun s => sysInfoCmd s m.val))
def execSysEcho (m : Fin 16) (s : State) : Out := .next (fwRow s m.val 0x0002 (fun s => sysEchoCmd s m.val))
def execSysTemp (m : Fin 16) (s : State) : Out := .next (fwRow s m.val 0x0003 (fun s => sysTempCmd s m.val))
def execFlr (cause : FlrCause) (s : State) : Out := .next (flrReset s cause)
def execColdReset (por : Bool) (smbAddr : BitVec 2) (s : State) : Out := .next (coldReset s por smbAddr)
def execFirmwareBoot (image : BootImage) (time : BitVec 16) (s : State) : Out := .next (firmwareBoot s image time.toNat)
def execFwFault (s : State) : Out := .next (fwFault s)
def execTemperatureMeasurement (temp : BitVec 16) (s : State) : Out := .next (temperature s temp)
def execThermalTrip (s : State) : Out := .next (thermalTrip s)

end Sys2Proof.Machine
end

