-- ==== Sys2Proof/Machine/Registers.lean ====
section
/-! DEFINITION. Host access (chapters 02, 10, 15, 16): reads and writes of BAR0 and BAR4, guarded writes, the bit-band alias,
configuration requests, and the SMBus. -/

namespace Sys2Proof.Machine

/-! ### Reads -/

/-- Bits of an ENG_CTX_QUEUE read (R198): DEPTH and RESULTS as they stand. -/
def ctxQueueView (s : State) (e : Nat) : Word :=
  let c := getEng s e
  setFld (setFld (rd s (eR e 0xC14)) 0 5 c.reqQ.length) 16 5 (c.resQ.filter (fun r => decide (r.visible ≤ now s + 1))).length

/-- Bit i of EVT_STATUS word `w`, as one word (R346). -/
def evtStatusView (s : State) (w : Nat) : Word :=
  BitVec.ofNat 32 ((List.range 32).foldl (fun n b => n + b2n (rdBit s (evtR (32 * w + b)) 31) * 2 ^ b) 0)

def evtSummaryView (s : State) : Word :=
  BitVec.ofNat 32 ((List.range 20).foldl (fun n w => n + b2n ((List.range 32).any (fun b => srcBoth s (32 * w + b))) * 2 ^ w) 0)

def sysIdView (s : State) : Word := 0x40960000 ||| BitVec.ofNat 32 (s.fuses.stepping.toNat * 256)

def sysAccessView (s : State) : Word :=
  match s.guard with
  | some g => rd s SYS_ACCESS ||| 8 ||| BitVec.ofNat 32 (g.off.toNat * 2 ^ 16)
  | none => rd s SYS_ACCESS

/-- TB_TIME: whole ticks above a sub-tick field of zero (R113, R114). -/
def timeView (s : State) : Nat := now s * 256

def ctlRead (s : State) (o : Nat) : Word :=
  if o = SYS_ID then sysIdView s
  else if o = SYS_MEMCFG then BitVec.ofNat 32 (0x100000 + capGib s)
  else if o = SYS_ACCESS then sysAccessView s
  else if o = TB_TIME then BitVec.ofNat 32 (timeView s)
  else if o = TB_TIME + 4 then BitVec.ofNat 32 (timeView s / 2 ^ 32)
  else if o = GLB_GLOBAL then BitVec.ofNat 32 (globalView s).toNat
  else if o = GLB_GLOBAL + 4 then BitVec.ofNat 32 ((globalView s).toNat / 2 ^ 32)
  else if o = CTX_VALID_COUNT then BitVec.ofNat 32 (ctxValidCount s)
  else if 0xAA00 ≤ o ∧ o < 0xAA50 then evtStatusView s ((o - 0xAA00) / 4)
  else if o = 0xAB00 then evtSummaryView s
  else if 0xB100 ≤ o ∧ o < 0xB200 then spareMapRead s ((o - 0xB100) / 4)
  else if 0xD010 ≤ o ∧ o < 0xD020 then 0
  else rd s o

def engRead (s : State) (n o : Nat) : Word :=
  if o = 0x008 then rd s (eR n o) ||| BitVec.ofNat 32 (noticeBits s n)
  else if o = 0x01C then BitVec.ofNat 32 s.glb.gforce.toNat
  else if o = 0x02C then (if (getEng s n).resetAt = some (now s) then 1 else 0)
  else if o = 0xC14 then ctxQueueView s n
  else rd s (eR n o)

def ringRead32 (s : State) (r o : Nat) : Word :=
  if !ringExists s r then 0
  else if o = 0x000 then setFld (rd s (rR r o)) 24 3 (ringState s r)
  else if o = 0x004 then setBit (rd s (rR r o)) 5 (ringHeadPoison s r)
  else if o = 0x048 then BitVec.ofNat 32 (ringHead s r).toNat
  else if o = 0x04C then BitVec.ofNat 32 ((ringHead s r).toNat / 2 ^ 32)
  else rd s (rR r o)

/-- The committed value at a stage offset (R38). -/
def stageRead (s : State) (o : Nat) : Word :=
  if o < 0x60 then (if domOn s (o / 4) then 1 else 0)
  else if 0x800 ≤ o ∧ o < 0x820 then peerWin s ((o - 0x800) / 4)
  else 0

/-- The block of an offset reads as switched off: its domain is off, or not ready yet (R33, R357). AON, domain 0, is always
readable. -/
def blockOff (s : State) (off : Nat) : Bool :=
  offDomain off != 0 && !(domOn s (offDomain off) && domReady s (offDomain off))

/-- The value of the register at a DW-aligned BAR0 offset outside the alias. R13 gives an RSV field live content and does not
say which: such a field reads its reset value, MEM_SPARE_MAP apart (DESIGN CHOICE, log 6). -/
def regRead (s : State) (off : Nat) : Word :=
  if blockOff s off then 0
  else match blockOf off with
    | .ctl o => ctlRead s o
    | .stage o => stageRead s o
    | .mbx _ o => if o = 0x010 then 0 else rd s off
    | .eng n o => engRead s n o
    | .ring r o => ringRead32 s r o
    | .lane n o => if o = 0x060 then retStatus s n else rd s off
    | _ => 0

/-- What a read of BAR0 offset `off` returns (R31 to R34, R43). -/
def bar0Read (s : State) (off : Nat) : Word :=
  match blockOf off with
  | .bitBand n => if bitAt (regRead s (n / 32 * 4)) (n % 32) then 1 else 0
  | _ => regRead s (off / 4 * 4)

/-- An access to a block whose domain is off (R33). -/
def domoffSet (s : State) : State := hwOr s SYS_ACCESS 4

/-- The recorded effects of a read of one register (R32): DOMOFF, and the fetch of a ring head. -/
def readEffects (s : State) (off : Nat) : State :=
  if blockOff s off then domoffSet s
  else match blockOf off with
    | .ring r o => if o / 4 = 0x12 || o / 4 = 0x13 then ringHeadFetch s r else s
    | _ => s

/-- The bytes of the register at `off` that a read returns (R34). -/
def readDw (s : State) (off : Nat) (be : BitVec 4) : Word × BitVec 4 := (bar0Read s off &&& beMask be, be)

/-- A host read. A 64-bit one is two reads, the lower address first (R34). -/
def hostRead (s : State) (off : Nat) (be : BitVec 4) (upper : Option (BitVec 4)) : State :=
  if memDecoded s then
    let s1 := readEffects { tlpSeen s with readData := bar0Read s off } off
    match upper with
    | none => setCpl s1 (.regs [readDw s off be])
    | some ub => setCpl (readEffects s1 (off + 4)) (.regs [readDw s off be, readDw s1 (off + 4) ub])
  else unsupported s false

/-! ### Writes of plain fields (R13, R34, R45) -/

/-- Keep what a register held before the host's first write of the tick (R129). -/
def noteHost (s : State) (off : Nat) : State :=
  if hostWrote s off then s else { s with cycHost := tabPut s.cycHost off (rd s off) }

/-- The LOW register and the largest value of a counter of more than 32 bits. -/
def ctrPair (off : Nat) : Option (Nat × Nat) :=
  let wide := some (off / 8 * 8, 2 ^ 64 - 1)
  match blockOf off with
  | .ctl o =>
    if o = 0x448 || o = 0x44C || o = 0x510 || o = 0x514 then wide
    else if 0x8000 ≤ o ∧ o < 0x8800 ∧ (o % 0x40 = 0x20 ∨ o % 0x40 = 0x24) then wide
    else if 0x6000 ≤ o ∧ o < 0x7000 ∧ (o % 0x40 = 0x38 ∨ o % 0x40 = 0x3C) then wide
    else none
  | .lane _ o => if o = 0x20 || o = 0x24 then wide else none
  | .ring _ o => if o = 0x58 || o = 0x5C then wide else none
  | .eng _ o =>
    if 0x500 ≤ o ∧ o < 0x680 ∧ o % 0x20 < 8 then some (off / 8 * 8, sat48)
    else if o = 0xC00 || o = 0xC04 then wide
    else none
  | _ => none

/-- Merge the bits of `m` from `v`. -/
def mergeBits (old v m : Word) : Word := (old &&& ~~~m) ||| (v &&& m)

/-- A host write of a counter: the value is loaded, and the increments of the tick are added (R45). -/
def counterPut (s : State) (off : Nat) (v m : Word) : State :=
  let s1 := noteHost s off
  match ctrPair off with
  | some (lo, mx) =>
    let inc := tabGet 0 s.cycInc lo
    let base := rd64 s lo - inc
    let new :=
      if off = lo then base / 2 ^ 32 * 2 ^ 32 + (mergeBits (BitVec.ofNat 32 base) v m).toNat
      else (mergeBits (BitVec.ofNat 32 (base / 2 ^ 32)) v m).toNat * 2 ^ 32 + base % 2 ^ 32
    wr64 s1 lo (min mx (new + inc))
  | none =>
    let inc := tabGet 0 s.cycInc off
    let base := BitVec.ofNat 32 ((rd s off).toNat - inc)
    wr s1 off (BitVec.ofNat 32 (min ctrMax ((mergeBits base v m).toNat + inc)))

/-- The register at `off` holds two 16-bit counters: RING_ECC (R237). -/
def ctrHalves (off : Nat) : Bool := match blockOf off with | .ring _ o => o == 0x54 | _ => false

/-- A host write of two 16-bit counters, each by the rule of R45. -/
def counterPut16 (s : State) (off : Nat) (v m : Word) : State :=
  let inc (lo : Nat) : Nat := tabGet 0 s.cycInc (off + lo / 8)
  let base := (List.range 2).foldl (fun w i => setFld w (16 * i) 16 (rdF s off (16 * i) 16 - inc (16 * i))) (rd s off)
  let new := mergeBits base v m
  wr (noteHost s off) off
    ((List.range 2).foldl (fun w i => setFld w (16 * i) 16 (min 0xFFFF (fld new (16 * i) 16 + inc (16 * i)))) new)

/-- A host write of `v` under bit mask `mask`, by the access code of each field: RW bits take the value, W1C bits clear unless
the hardware set them on this tick. -/
def plainPut (s : State) (off : Nat) (v mask : Word) : State :=
  let a := accessOf off
  if a.ctr then (if ctrHalves off then counterPut16 s off v (a.rw &&& mask) else counterPut s off v (a.rw &&& mask))
  else
    let clr := v &&& mask &&& a.w1c &&& ~~~cycBits s off
    wr (if a.rw = 0 then s else noteHost s off) off (mergeBits (rd s off) v (a.rw &&& mask) &&& ~~~clr)

/-! ### Writes of registers with behaviour of their own -/

/-- A mailbox write (R51, R52): refused while a command is in progress. -/
def mbxPut (s : State) (m o : Nat) (v mask : Word) : State :=
  let busy := mbxState s m == 1 || mbxState s m == 2
  let guarded := decide (o ≤ 0x010) || (decide (0x100 ≤ o) && decide (o < 0x500))
  if busy && guarded then hwOr s (mR m 0x14) 0x100
  else if o = 0x010 then
    if bitAt (v &&& mask) 0 then { wrF s (mR m 0x14) 0 2 1 with posted := s.posted ++ [m] } else s
  else plainPut s (mR m o) v mask

/-- Counter `i` of engine `e` as a host write of this tick finds it: a word's or a start's clear, load or decrement of the tick
is discarded, its increments stand (R45, R166). -/
def cntRestore (s : State) (e i : Nat) : State :=
  match (getEng s e).cntOld.find? (fun p => p.1 == i) with
  | some (_, v) => wr48 s (cntR e i) (min sat48 (v + tabGet 0 s.cycInc (cntR e i)))
  | none => s

/-- An engine block write (R45, R142, R147, R148, R166, R375). -/
def engPut (s : State) (n o : Nat) (v mask : Word) : State :=
  if o = 0x004 then
    if mask &&& 0x1F = 0 then s
    else
      let c := getEng s n
      let s1 := modEng (plainPut s (eR n o) v mask) n (fun c => { c with lvlHost := some (now s) })
      if c.lvlHw = some (now s) then hwOr s1 (eR n 0) 0x20 else s1
  else if o = 0x008 then
    let s1 := wr s (eR n o) (mergeBits (rd s (eR n o)) v (0x1F00 &&& mask))
    let m := fld (v &&& mask) 0 5
    if m = 0 then s1 else noticeWrite s1 n m
  else if o = 0x01C then gforceWrite s (BitVec.ofNat 8 (mergeBits (BitVec.ofNat 32 s.glb.gforce.toNat) v mask).toNat)
  else if o = 0x02C then (if bitAt (v &&& mask) 0 then engReset s n else s)
  else if 0x600 ≤ o ∧ o < 0x680 ∧ o % 0x20 < 8 then
    let k := (o - 0x600) / 0x20
    plainPut (modEng (tmrRestore s n k) n (fun c => { c with tmrOld := tabDel c.tmrOld k })) (eR n o) v mask
  else if 0x500 ≤ o ∧ o < 0x600 ∧ o % 0x20 < 8 then
    let i := (o - 0x500) / 0x20
    plainPut (modEng (cntRestore s n i) n (fun c => { c with cntOld := tabDel c.cntOld i })) (eR n o) v mask
  else if 0xC00 ≤ o ∧ o ≤ 0xC10 ∧ (getEng s n).lead ≠ n then s
  else plainPut s (eR n o) v mask

/-- A ring descriptor write (R237, R242, R246); a ring that does not exist ignores it. -/
def ringPut (s : State) (r o : Nat) (v mask : Word) : State :=
  if !ringExists s r then s
  else if o = 0x040 then ringDoorbell s r (v &&& mask)
  else if o = 0x038 then modRing (plainPut s (rR r o) v mask) r (fun c => { c with noticeWr := true })
  else plainPut s (rR r o) v mask

/-- DMA_CTRL (R328, R333): START, then STOP. -/
def dmaCtrlPut (s : State) (c : Nat) (m : Word) : State :=
  let s1 := if bitAt m 0 then dmaStart s c else s
  if bitAt m 1 then dmaStop (noteHost s1 (dmaR c 0x14)) c else s1

/-- A control and status block write. `at_`: the BAR0 offset the host wrote; `alias`: through the bit-band alias. -/
def ctlPut (s : State) (o : Nat) (v mask : Word) (at_ : Nat) (alias_ : Bool) : State :=
  if 0xAA00 ≤ o ∧ o < 0xAA50 then
    forN 32 s (fun s b =>
      if bitAt (v &&& mask) b then plainPut s (evtR (32 * ((o - 0xAA00) / 4) + b)) 0x80000000 0x80000000 else s)
  else if 0xD010 ≤ o ∧ o < 0xD020 then accessViolation s 2 (if alias_ then 6 else 7) at_
  else if 0xD100 ≤ o ∧ o < 0xD200 then
    if custClosed s then accessViolation s 2 7 at_ else gateShow (plainPut s o v mask)
  else if 0x4000 ≤ o ∧ o < 0x6000 ∧ (o % 0x80 = 0x0C ∨ o % 0x80 = 0x10) then
    tiuWinChanged (plainPut s o v mask) ((o - 0x4000) / 0x80)
  else if 0x8000 ≤ o ∧ o < 0x8800 ∧ o % 0x40 < 0x0C then
    wrF (plainPut s o v mask) (dmaR ((o - 0x8000) / 0x40) 0x10) 0 17 0
  else if 0x8000 ≤ o ∧ o < 0x8800 ∧ o % 0x40 = 0x14 then dmaCtrlPut s ((o - 0x8000) / 0x40) (v &&& mask)
  else if o = THERM_ALERT then alertShow (plainPut s o v mask)
  else if o = PCIE_CTRL then (if bitAt (v &&& mask) 0 then reclaim s else s)
  else plainPut s o v mask

/-- A write to the register at DW-aligned offset `off`, outside the guarded block. -/
def regPut (s : State) (off : Nat) (v mask : Word) (at_ : Nat) (alias_ : Bool) : State :=
  if blockOff s off then domoffSet s
  else match blockOf off with
    | .ctl o => ctlPut s o v mask at_ alias_
    | .mbx m o => mbxPut s m o v mask
    | .eng n o => engPut s n o v mask
    | .ring r o => ringPut s r o v mask
    | .lane _ _ => plainPut s off v mask
    | _ => s

/-! ### Guarded writes (R37 to R39) -/

/-- A successful guarded write takes effect. -/
def guardApply (s : State) (off : Nat) (v : Word) : State :=
  if off < 0x60 then pwrCommit s (off / 4) v
  else if off = 0x100 then sysResetCommit s v
  else if 0x800 ≤ off ∧ off < 0x820 then peerCommit s ((off - 0x800) / 4) v
  else s

/-- The cause that makes a write to the guarded block fail (R36, R37), if any; `o` is its offset in the block of 0x2_0000
bytes. -/
def guardCause (g : Option GuardLatch) (o : Nat) (v : Word) (be : BitVec 4) : Option Nat :=
  if be ≠ 0xF then some 5
  else match g with
    | none => if 0x10000 ≤ o then some 3 else none
    | some l =>
      if o < 0x10000 then some 4
      else if o - 0x10000 ≠ l.off.toNat then some 2
      else if v ≠ ~~~l.val then some 1
      else none

/-- A write to the guarded block. -/
def guardPut (s : State) (o : Nat) (v : Word) (be : BitVec 4) : State :=
  match guardCause s.guard o v be with
  | some c => accessViolation { s with guard := none } 1 c (0x00100000 + o)
  | none =>
    match s.guard with
    | none => { s with guard := some { off := BitVec.ofNat 16 o, val := v } }
    | some l => guardApply { s with guard := none } l.off.toNat l.val

/-! ### Host writes -/

/-- A host write to BAR0 offset `off` (R14, R30 to R34, R37, R43). -/
def bar0Write (s : State) (off : Nat) (v : Word) (be : BitVec 4) : State :=
  let a := off / 4 * 4
  match blockOf a with
  | .stage o => guardPut s o v be
  | .commit o => guardPut s (0x10000 + o) v be
  | .bitBand n =>
    if be.getLsbD 0 then regPut s (n / 32 * 4) (if bitAt v 0 then bit (n % 32) else 0) (bit (n % 32)) a true else s
  | _ => regPut s a v (beMask be) a false

/-- A host write to BAR4 (R322, R350): the MSI-X table; the PBA and every other offset ignore it. -/
def bar4Write (s : State) (off : Nat) (v : Word) (be : BitVec 4) : State :=
  if off < 0x4000 then msixWrite s (off / 4) v (beMask be) else s

/-- A memory write that the endpoint decodes, or an Unsupported Request (R31, R321). -/
def hostWrite (s : State) (f : State → State) : State := if memDecoded s then f (tlpSeen s) else unsupported s true

/-- A memory write as its TLP arrives (R339): a poisoned one is counted and discarded, one whose ECRC fails is discarded while
ECRC is checked. -/
def hostWriteAs (s : State) (mark : TlpMark) (f : State → State) : State :=
  match mark with
  | .clean => hostWrite s f
  | .poisoned => hostWrite (poisonRx s) id
  | .ecrcFails => if ecrcChecked s then aerReport (tlpSeen s) aerECRC else hostWrite s f

def hostPut (s : State) (off : Nat) (v : Word) : State := hostWrite s (fun s => bar0Write s off v 0xF)

/-- A write of one notice bit of an engine, with FORCE_VALUE where the row has one (R147). -/
def noticePut (s : State) (e : Nat) (v : Word) (be : BitVec 4) : State :=
  hostWrite s (fun s => bar0Write s (eR e 8) v be)

/-- A ring doorbell operation (R246). -/
def doorbellPut (s : State) (r op count : Nat) : State :=
  hostPut s (rR r 0x40) (BitVec.ofNat 32 (op * 2 ^ 28 + count))

/-! ### Configuration requests (R318 to R320) -/

/-- Request Retry Status: the firmware has not completed its boot, other than after a warm reset (R320, R374, R376). -/
def cfgRetries (s : State) : Bool := booting s && bootOrigin s != orgWARM

/-- A configuration write: RW and RW1C fields, and what Bus Master Enable, PowerState and Initiate FLR do (R320, R333, R341). -/
def cfgWrite (s : State) (d : Nat) (v : Word) (be : BitVec 4) : State :=
  let r := cfgReg d
  let m := beMask be
  let old := cfgRead s d
  let new := mergeBits old v (r.rw &&& m) &&& ~~~(v &&& m &&& r.w1c)
  if d = 0x16 && bitAt (v &&& m) 15 then flrReset s .functionLevel
  else if d = 0x11 then
    let p := fld new 0 2
    if m &&& 3 = 0 then s else if p = 3 then enterD3 s else if p = 0 then enterD0 s else s
  else
    let s1 := cfgSet s d new
    if d = 1 && bitAt old 2 && !bitAt new 2 then dmaAllHalt s1 else s1

/-- CONFIGURATION_REQUEST. -/
def cfgRequest (s : State) (d : Nat) (w : Option (Word × BitVec 4)) : State :=
  let s1 := tlpSeen s
  if cfgRetries s then setCpl s1 .retry
  else match w with
    | none => setCpl s1 (.word (cfgRead s1 d))
    | some (v, be) => setCpl (cfgWrite s1 d v be) .success

/-! ### SMBus (R400) -/

/-- The register a command code names. -/
def smbReg (cmd : Nat) : Option Nat :=
  match cmd with
  | 0 => some SYS_ID | 1 => some SYS_BOOT | 2 => some SYS_FW_STATUS | 3 => some THERM_STATUS | 4 => some THERM_MAX
  | 5 => some PWR_READY | _ => none

/-- One bit of a packet error code: a CRC with the polynomial x^8 + x^2 + x + 1, the top bit first (R400; SMBus 3.1). -/
def pecBit (c : Byte) (b : Bool) : Byte := if (c.getLsbD 7 != b) then (c <<< 1) ^^^ 0x07 else c <<< 1

/-- The packet error code over `l`, from zero. -/
def smbPec (l : List Byte) : Byte :=
  l.foldl (fun c b => (List.range 8).foldl (fun c i => pecBit c (b.getLsbD (7 - i))) c) 0

/-- What a Block Read of command `cmd` at address `addr` returns: `data`, and the code over the address with the write bit, the
command, the address with the read bit, the byte count and the data. -/
def smbAnswer (addr cmd : Nat) (data : List Byte) : SmbAnswer :=
  { data := data
    pec := smbPec ([BitVec.ofNat 8 (2 * addr), BitVec.ofNat 8 cmd, BitVec.ofNat 8 (2 * addr + 1), BitVec.ofNat 8 data.length] ++ data) }

/-- SMBUS_BLOCK_READ: the device answers at 0x58 + SMB_ADDR with 4 bytes, least significant first, or does not acknowledge. -/
def smbusRead (s : State) (addr cmd : Nat) : State :=
  let ans := if addr = 0x58 + s.smbAddr.toNat then
      (smbReg cmd).map (fun o => smbAnswer addr cmd (bytesOfWords [regRead s o]))
    else none
  { s with smbOut := ans }

/-! ### Meanings of the rows -/

def execMbxDoorbell (m : Fin 16) (s : State) : Out := .next (hostPut s (mR m.val 0x10) 1)
def execGuardStage (off : BitVec 16) (value : Word) (be : BitVec 4) (s : State) : Out :=
  .next (hostWrite s (fun s => bar0Write s (0x00100000 + off.toNat) value be))
def execGuardedCommit (commit : Bool) (off : BitVec 16) (value : Word) (be : BitVec 4) (s : State) : Out :=
  .next (hostWrite s (fun s => bar0Write s ((if commit then 0x00110000 else 0x00100000) + off.toNat) value be))
def execPowerDomainOn (d : Fin 24) (upper : BitVec 31) (s : State) : Out :=
  .next (hostPut s (0x00110000 + 4 * d.val) (~~~(BitVec.ofNat 32 (2 * upper.toNat + 1))))
def execPowerDomainOff (d : Fin 24) (upper : BitVec 31) (s : State) : Out :=
  .next (hostPut s (0x00110000 + 4 * d.val) (~~~(BitVec.ofNat 32 (2 * upper.toNat))))
def execWarmReset (upper : BitVec 31) (s : State) : Out :=
  .next (hostPut s 0x00110100 (~~~(BitVec.ofNat 32 (2 * upper.toNat + 1))))
def execPeerWin (w : Fin 8) (value : Word) (s : State) : Out := .next (hostPut s (0x00110800 + 4 * w.val) value)
def execBitBandWrite (n : BitVec 23) (data : Word) (s : State) : Out := .next (hostPut s (0x02000000 + 4 * n.toNat) data)

/-- The writes of one TLP (R34): a 64-bit one is two, the lower address first. -/
def tlpPut (put : State → Nat → Word → BitVec 4 → State) (s : State) (off : Nat) (v : Word) (be : BitVec 4)
    (upper : Option (Word × BitVec 4)) : State :=
  match upper with
  | none => put s off v be
  | some (u, ub) => put (put s off v be) (off + 4) u ub

def execRegisterWrite (target : RegTarget) (value : Word) (be : BitVec 4 × Option (Word × BitVec 4)) (mark : TlpMark)
    (s : State) : Out :=
  .next (hostWriteAs s mark (fun s => match target with
    | .bar0 off => tlpPut bar0Write s off.toNat value be.1 be.2
    | .bar4 off => tlpPut bar4Write s off.toNat value be.1 be.2))

/-- DOMOFF: a read, or a write whose value no one takes; of a block that is on, the read is a read like any other. -/
def execDomoff (off : BitVec 26) (access : OffAccess) (s : State) : Out :=
  .next (match access with
    | .writes => hostWrite s (fun s => if blockOff s off.toNat then domoffSet s else s)
    | .reads be upper => hostRead s off.toNat be upper)

def execRingHeadRead (r : Fin 32768) (high : Bool) (s : State) : Out :=
  .next (hostRead s (rR r.val (if high then 0x4C else 0x48)) 0xF none)
def execAdvance (r : Fin 32768) (count : BitVec 24) (s : State) : Out := .next (doorbellPut s r.val 1 count.toNat)
def execMark (r : Fin 32768) (s : State) : Out := .next (doorbellPut s r.val 2 0)
def execRewind (r : Fin 32768) (s : State) : Out := .next (doorbellPut s r.val 3 0)
def execRelease (r : Fin 32768) (s : State) : Out := .next (doorbellPut s r.val 4 0)
def execConsume (r : Fin 32768) (count : BitVec 24) (s : State) : Out := .next (doorbellPut s r.val 5 count.toNat)
def execRingDoorbellNone (r : Fin 32768) (s : State) : Out := .next (doorbellPut s r.val 0 0)

/-- An operation of 0x6 to 0xF; a code below 6 is another row's. -/
def execRingDoorbellReserved (r : Fin 32768) (op : BitVec 4) (s : State) : Out :=
  .next (doorbellPut s r.val (max 6 op.toNat) 0)

def execSnapshot (e : Fin 256) (s : State) : Out := .next (noticePut s e.val 0x10 1)
def execForceLevel (e : Fin 256) (value : BitVec 5) (s : State) : Out :=
  .next (noticePut s e.val (BitVec.ofNat 32 (value.toNat * 256 + 4)) 3)
def execStop (e : Fin 256) (s : State) : Out := .next (noticePut s e.val 8 1)
def execPause (e : Fin 256) (s : State) : Out := .next (noticePut s e.val 1 1)
def execResume (e : Fin 256) (s : State) : Out := .next (noticePut s e.val 2 1)
def execEngReset (e : Fin 256) (s : State) : Out := .next (hostPut s (eR e.val 0x2C) 1)
def execTiuWinWrite (i : Fin 64) (close : Bool) (value : Word) (be : BitVec 4) (s : State) : Out :=
  .next (hostWrite s (fun s => bar0Write s (tiuR i.val (if close then 0x10 else 0x0C)) value be))
def execStart (c : Fin 32) (s : State) : Out := .next (hostPut s (dmaR c.val 0x14) 1)
def execDmaStop (c : Fin 32) (s : State) : Out := .next (hostPut s (dmaR c.val 0x14) 2)
def execReclaim (s : State) : Out := .next (hostPut s PCIE_CTRL 1)
def execConfigurationRequest (reg : BitVec 10) (write : Option (Word × BitVec 4)) (s : State) : Out :=
  .next (cfgRequest s reg.toNat write)
def execSmbusBlockRead (addr : BitVec 7) (cmd : BitVec 8) (s : State) : Out := .next (smbusRead s addr.toNat cmd.toNat)

end Sys2Proof.Machine
end

