-- ==== Sys2Proof/Machine/Dispatch.lean ====
section
/-! DEFINITION. Dispatch: one arm per command of the table, each a direct call of its meaning. -/

namespace Sys2Proof.Machine

/-- What each command does to everything but the queue. -/
def exec (i : Instr) (s : State) : Host.Outcome State Fault Refusal :=
  match i with
  | .mbxDoorbell m => Sys2Proof.Machine.execMbxDoorbell m s
  | .sysInfo m => Sys2Proof.Machine.execSysInfo m s
  | .sysEcho m => Sys2Proof.Machine.execSysEcho m s
  | .sysTemp m => Sys2Proof.Machine.execSysTemp m s
  | .tbRefSelect m => Sys2Proof.Machine.execTbRefSelect m s
  | .pllConfig m => Sys2Proof.Machine.execPllConfig m s
  | .refOutSet m => Sys2Proof.Machine.execRefOutSet m s
  | .tbStatus m => Sys2Proof.Machine.execTbStatus m s
  | .timeSet m => Sys2Proof.Machine.execTimeSet m s
  | .laneFormat m => Sys2Proof.Machine.execLaneFormat m s
  | .laneTrain m => Sys2Proof.Machine.execLaneTrain m s
  | .laneRetrain m => Sys2Proof.Machine.execLaneRetrain m s
  | .laneIdle m => Sys2Proof.Machine.execLaneIdle m s
  | .returnSend m => Sys2Proof.Machine.execReturnSend m s
  | .ucodeLoad m image => Sys2Proof.Machine.execUcodeLoad m image s
  | .engineMode m => Sys2Proof.Machine.execEngineMode m s
  | .consistSet m => Sys2Proof.Machine.execConsistSet m s
  | .engineSnapshot m => Sys2Proof.Machine.execEngineSnapshot m s
  | .ctxConfig m => Sys2Proof.Machine.execCtxConfig m s
  | .ctxClear m => Sys2Proof.Machine.execCtxClear m s
  | .ctxAge m => Sys2Proof.Machine.execCtxAge m s
  | .ctxDump m => Sys2Proof.Machine.execCtxDump m s
  | .ringCreate m => Sys2Proof.Machine.execRingCreate m s
  | .ringDelete m => Sys2Proof.Machine.execRingDelete m s
  | .streamMode m => Sys2Proof.Machine.execStreamMode m s
  | .budgetCheck m => Sys2Proof.Machine.execBudgetCheck m s
  | .ringFlush m => Sys2Proof.Machine.execRingFlush m s
  | .ringFlushForcedClose r => Sys2Proof.Machine.execRingFlushForcedClose r s
  | .capturePrepare m => Sys2Proof.Machine.execCapturePrepare m s
  | .captureArm m => Sys2Proof.Machine.execCaptureArm m s
  | .captureStop m => Sys2Proof.Machine.execCaptureStop m s
  | .captureForceTrigger m => Sys2Proof.Machine.execCaptureForceTrigger m s
  | .captureRelease m => Sys2Proof.Machine.execCaptureRelease m s
  | .captureStatus m => Sys2Proof.Machine.execCaptureStatus m s
  | .replayStart m => Sys2Proof.Machine.execReplayStart m s
  | .replayStop m => Sys2Proof.Machine.execReplayStop m s
  | .replayStatus m => Sys2Proof.Machine.execReplayStatus m s
  | .tiuConfig m => Sys2Proof.Machine.execTiuConfig m s
  | .tiuMeasure m => Sys2Proof.Machine.execTiuMeasure m s
  | .tiuStop m => Sys2Proof.Machine.execTiuStop m s
  | .dfcConfig m => Sys2Proof.Machine.execDfcConfig m s
  | .dfcThreshold m => Sys2Proof.Machine.execDfcThreshold m s
  | .dfcSync m => Sys2Proof.Machine.execDfcSync m s
  | .deflateJob m => Sys2Proof.Machine.execDeflateJob m s
  | .inflateJob m => Sys2Proof.Machine.execInflateJob m s
  | .deflateFlush m => Sys2Proof.Machine.execDeflateFlush m s
  | .deflateStatus m => Sys2Proof.Machine.execDeflateStatus m s
  | .memtestRun m => Sys2Proof.Machine.execMemtestRun m s
  | .memtestStatus m => Sys2Proof.Machine.execMemtestStatus m s
  | .gateChallenge m => Sys2Proof.Machine.execGateChallenge m s
  | .gateResponse m => Sys2Proof.Machine.execGateResponse m s
  | .gatePasswordSet m => Sys2Proof.Machine.execGatePasswordSet m s
  | .gateUnlock m => Sys2Proof.Machine.execGateUnlock m s
  | .gateLock m => Sys2Proof.Machine.execGateLock m s
  | .serviceCommand m => Sys2Proof.Machine.execServiceCommand m s
  | .loopCalibrate m => Sys2Proof.Machine.execLoopCalibrate m s
  | .loopStatus m => Sys2Proof.Machine.execLoopStatus m s
  | .loopPost m => Sys2Proof.Machine.execLoopPost m s
  | .scheduledCommandExecution m => Sys2Proof.Machine.execScheduledCommandExecution m s
  | .guardStage off value be => Sys2Proof.Machine.execGuardStage off value be s
  | .guardedCommit commit off value be => Sys2Proof.Machine.execGuardedCommit commit off value be s
  | .powerDomainOn d upper => Sys2Proof.Machine.execPowerDomainOn d upper s
  | .powerDomainOff d upper => Sys2Proof.Machine.execPowerDomainOff d upper s
  | .bistComplete d columns faulty => Sys2Proof.Machine.execBistComplete d columns faulty s
  | .warmReset upper => Sys2Proof.Machine.execWarmReset upper s
  | .peerWin w value => Sys2Proof.Machine.execPeerWin w value s
  | .bitBandWrite n data => Sys2Proof.Machine.execBitBandWrite n data s
  | .registerWrite target value be mark => Sys2Proof.Machine.execRegisterWrite target value be mark s
  | .domoff off access => Sys2Proof.Machine.execDomoff off access s
  | .ringHeadRead r high => Sys2Proof.Machine.execRingHeadRead r high s
  | .advance r count => Sys2Proof.Machine.execAdvance r count s
  | .mark r => Sys2Proof.Machine.execMark r s
  | .rewind r => Sys2Proof.Machine.execRewind r s
  | .release r => Sys2Proof.Machine.execRelease r s
  | .consume r count => Sys2Proof.Machine.execConsume r count s
  | .ringDoorbellNone r => Sys2Proof.Machine.execRingDoorbellNone r s
  | .ringDoorbellReserved r op => Sys2Proof.Machine.execRingDoorbellReserved r op s
  | .snapshot e => Sys2Proof.Machine.execSnapshot e s
  | .forceLevel e value => Sys2Proof.Machine.execForceLevel e value s
  | .stop e => Sys2Proof.Machine.execStop e s
  | .pause e => Sys2Proof.Machine.execPause e s
  | .resume e => Sys2Proof.Machine.execResume e s
  | .engReset e => Sys2Proof.Machine.execEngReset e s
  | .inc e => Sys2Proof.Machine.execInc e s
  | .jump e => Sys2Proof.Machine.execJump e s
  | .brt e => Sys2Proof.Machine.execBrt e s
  | .brf e => Sys2Proof.Machine.execBrf e s
  | .call e => Sys2Proof.Machine.execCall e s
  | .ret e => Sys2Proof.Machine.execRet e s
  | .dispatch e => Sys2Proof.Machine.execDispatch e s
  | .wait e => Sys2Proof.Machine.execWait e s
  | .lookup master => Sys2Proof.Machine.execLookup master s
  | .insert master => Sys2Proof.Machine.execInsert master s
  | .update master => Sys2Proof.Machine.execUpdate master s
  | .delete master => Sys2Proof.Machine.execDelete master s
  | .lookupInsert master => Sys2Proof.Machine.execLookupInsert master s
  | .ctxSweepRow bank => Sys2Proof.Machine.execCtxSweepRow bank s
  | .timerLimit e k => Sys2Proof.Machine.execTimerLimit e k s
  | .triggerDecide => Sys2Proof.Machine.execTriggerDecide s
  | .recordFormerSlice n => Sys2Proof.Machine.execRecordFormerSlice n s
  | .segmentEnd => Sys2Proof.Machine.execSegmentEnd s
  | .recordCommit stream => Sys2Proof.Machine.execRecordCommit stream s
  | .ringGapCommit r => Sys2Proof.Machine.execRingGapCommit r s
  | .ringNoticeTimer r => Sys2Proof.Machine.execRingNoticeTimer r s
  | .superframe n line wander => Sys2Proof.Machine.execSuperframe n line wander s
  | .cdrLockLoss n => Sys2Proof.Machine.execCdrLockLoss n s
  | .idleDetect n => Sys2Proof.Machine.execIdleDetect n s
  | .clockDataRecovery n => Sys2Proof.Machine.execClockDataRecovery n s
  | .markerLock n block => Sys2Proof.Machine.execMarkerLock n block s
  | .deskew arrivals => Sys2Proof.Machine.execDeskew arrivals s
  | .latency echoes => Sys2Proof.Machine.execLatency echoes s
  | .live n => Sys2Proof.Machine.execLive n s
  | .trainingPhaseLimit n second => Sys2Proof.Machine.execTrainingPhaseLimit n second s
  | .returnSuperframe k => Sys2Proof.Machine.execReturnSuperframe k s
  | .census frame trailer => Sys2Proof.Machine.execCensus frame trailer s
  | .measure frame trailer phase elapsed => Sys2Proof.Machine.execMeasure frame trailer phase elapsed s
  | .align frame => Sys2Proof.Machine.execAlign frame s
  | .time frame => Sys2Proof.Machine.execTime frame s
  | .command frame trailer => Sys2Proof.Machine.execCommand frame trailer s
  | .trigger frame => Sys2Proof.Machine.execTrigger frame s
  | .halt frame => Sys2Proof.Machine.execHalt frame s
  | .dissolve frame => Sys2Proof.Machine.execDissolve frame s
  | .loopFrameSend => Sys2Proof.Machine.execLoopFrameSend s
  | .censusTimeout => Sys2Proof.Machine.execCensusTimeout s
  | .syncInLoss => Sys2Proof.Machine.execSyncInLoss s
  | .trigIn p level => Sys2Proof.Machine.execTrigIn p level s
  | .trigOutPulseEnd p => Sys2Proof.Machine.execTrigOutPulseEnd p s
  | .refDetectWindow edges => Sys2Proof.Machine.execRefDetectWindow edges s
  | .refLost => Sys2Proof.Machine.execRefLost s
  | .pllLock k cycles => Sys2Proof.Machine.execPllLock k cycles s
  | .pllLockTimeout k => Sys2Proof.Machine.execPllLockTimeout k s
  | .unlock k => Sys2Proof.Machine.execUnlock k s
  | .ptiEdge j rising phase code => Sys2Proof.Machine.execPtiEdge j rising phase code s
  | .tiuCalibration j n1 n2 => Sys2Proof.Machine.execTiuCalibration j n1 n2 s
  | .tiuGateClose j => Sys2Proof.Machine.execTiuGateClose j s
  | .tiuNoStop j => Sys2Proof.Machine.execTiuNoStop j s
  | .tiuWinWrite j close value be => Sys2Proof.Machine.execTiuWinWrite j close value be s
  | .stampRequestTimeout j => Sys2Proof.Machine.execStampRequestTimeout j s
  | .dfcOutput j => Sys2Proof.Machine.execDfcOutput j s
  | .deflateBlockEnd k => Sys2Proof.Machine.execDeflateBlockEnd k s
  | .deflateBlockIdleTimeout k => Sys2Proof.Machine.execDeflateBlockIdleTimeout k s
  | .deflateJobEnd k => Sys2Proof.Machine.execDeflateJobEnd k s
  | .inflateRecordCommit k => Sys2Proof.Machine.execInflateRecordCommit k s
  | .inflateStreamEnd k => Sys2Proof.Machine.execInflateStreamEnd k s
  | .replayFeed j => Sys2Proof.Machine.execReplayFeed j s
  | .replaySkip j => Sys2Proof.Machine.execReplaySkip j s
  | .replayJobEnd j => Sys2Proof.Machine.execReplayJobEnd j s
  | .memtestRegion fails => Sys2Proof.Machine.execMemtestRegion fails s
  | .dmaDescriptor c desc data => Sys2Proof.Machine.execDmaDescriptor c desc data s
  | .start c => Sys2Proof.Machine.execStart c s
  | .dmaStop c => Sys2Proof.Machine.execDmaStop c s
  | .reclaim => Sys2Proof.Machine.execReclaim s
  | .completionReceived tag status ep => Sys2Proof.Machine.execCompletionReceived tag status ep s
  | .completionTimeout tag => Sys2Proof.Machine.execCompletionTimeout tag s
  | .peerWindowRead addr len => Sys2Proof.Machine.execPeerWindowRead addr len s
  | .peerWindowWrite addr data ep => Sys2Proof.Machine.execPeerWindowWrite addr data ep s
  | .atomicopRequest bar off => Sys2Proof.Machine.execAtomicopRequest bar off s
  | .configurationRequest reg write => Sys2Proof.Machine.execConfigurationRequest reg write s
  | .d3hot => Sys2Proof.Machine.execD3hot s
  | .aspmL1Entry => Sys2Proof.Machine.execAspmL1Entry s
  | .linkTraining rate width flit => Sys2Proof.Machine.execLinkTraining rate width flit s
  | .msixMessage v => Sys2Proof.Machine.execMsixMessage v s
  | .flr cause => Sys2Proof.Machine.execFlr cause s
  | .coldReset por smbAddr => Sys2Proof.Machine.execColdReset por smbAddr s
  | .firmwareBoot image time => Sys2Proof.Machine.execFirmwareBoot image time s
  | .fwFault => Sys2Proof.Machine.execFwFault s
  | .temperatureMeasurement temp => Sys2Proof.Machine.execTemperatureMeasurement temp s
  | .thermalTrip => Sys2Proof.Machine.execThermalTrip s
  | .nonceExpiry => Sys2Proof.Machine.execNonceExpiry s
  | .gateSave verifies => Sys2Proof.Machine.execGateSave verifies s
  | .smbusBlockRead addr cmd => Sys2Proof.Machine.execSmbusBlockRead addr cmd s
  | .sliceAtLaneInput n payload marker => Sys2Proof.Machine.execSliceAtLaneInput n payload marker s
  | .contextStoreClearEnd => Sys2Proof.Machine.execContextStoreClearEnd s

end Sys2Proof.Machine
end

