-- ==== Sys2Proof/Machine/Tick.lean ====
section
/-! DEFINITION. The passing of a tick: what happens on every tick whatever is commanded. It is the step of the block on an empty
queue (log 1). -/

namespace Sys2Proof.Machine

/-- The timebase domain's clocks run (R113, R371). -/
def clocksRun (s : State) : Bool := domOn s domTimebase && ramped s domTimebase && !thermTripped s

/-- Nanoseconds of the tick: one, or a crystal cycle while the slice domain is on its safe clock or off (R111, R113). -/
def tickSpan (s : State) : Nat := if clocksRun s && pllLocked s 0 then 1 else 10

/-- Rings with doorbell operations accepted and not yet applied. -/
def ringsAsked (s : State) : List Nat := (s.ring.filter (fun p => !p.2.ops.isEmpty)).map Prod.fst

/-- Rings whose notice limits were written on the tick before. -/
def ringsBusy (s : State) : List Nat := (s.ring.filter (fun p => p.2.noticeWr)).map Prod.fst

/-- The end of the present tick in the units that the timebase clocks. -/
def sliceTickEnd (s : State) : State :=
  let s1 := forEach s.running s dumpTick
  let s2 := forEach (engsHearing s1 ++ engsKnown s1).eraseDups s1 engHear
  let s3 := forEach (engsKnown s2) s2 engTickEnd
  let s4 := forN 8 (trigInSample (tiuTickEnd s3)) trigOutEnd
  let s5 := stagingEnd (forEach s4.running s4 flushClose)
  forEach (ringsAsked s5) s5 ringApply

/-- A new tick, `d` ticks after the last, begins in the units that the timebase clocks. Where the count wraps from 2^56 - 1 to 0
(R10), the ticks the units keep stay as they are and are not moved as at a load (DESIGN CHOICE, log 29). -/
def sliceTick (s : State) (d : Nat) : State :=
  let s1 := trigOutTick (globalTick (refOutTick { s with time := s.time + BitVec.ofNat 56 d }))
  let s2 := forEach (s1.lane.map Prod.fst) (forEach (engsKnown s1) s1 noticesTick) sfTick
  let s3 := forEach (ringsBusy s2) s2 ringTick
  let s4 := ctxFlightTick (ctxClearTick (ctxTick s3) d)
  let s5 := trigRecordsDue (trigsJudge (showTriggered s4))
  let s6 := dfcTick (tiuTick (offLaneTick (lineTick s5)))
  let s7 := forEach (s6.ret.map Prod.fst) s6 retTick
  let s8 := forEach s7.running s7 (fun s c => flushTick (snapshotDue s c) c)
  let s9 := if s8.capture.segMarks.isEmpty then s8 else segBaseCheck s8
  jobsTick (dflTick (loopTick s9))

/-- The event sources at the end of a tick: new requests stay pending in their vectors (R347, R349), and what the same-cycle
rules of R45 compare is forgotten. -/
def eventsTickEnd (s : State) : State :=
  let req := (sourcesBoth s).filter (srcRequests s)
  { s with
    pcie := { s.pcie with pba := (req.map (srcVector s)).foldl setInsert s.pcie.pba }
    evBoth := sourcesBoth s, cycSet := [], cycInc := [], cycHost := [], cycPrev := s.cycHost
    capture := { s.capture with prevState := capState s } }

/-- A committed warm reset starts once its 1 us is over (R374). -/
def warmResetDue (s : State) : State :=
  match s.warmAt with
  | some t => if t ≤ s.ns then warmReset s else s
  | none => s

/-- One tick passes. The endpoint runs whatever the timebase does. -/
def tick (s : State) : State :=
  let run := clocksRun s
  let d := tickSpan s
  let s1 := eventsTickEnd (if run then sliceTickEnd s else s)
  let s2 := { s1 with ns := s1.ns + d }
  let s3 := if run then sliceTick s2 d else s2
  warmResetDue (forN 32 (forN 32 s3 dmaHaltedTick) dmaFetch)

end Sys2Proof.Machine
end

