-- ==== Sys2Proof/Machine/Jtag.lean ====
section
/-! DEFINITION. The JTAG test logic (R379, R399): the TAP controller of IEEE 1149.1, IDCODE and boundary scan. No row of the
opcode table drives TCK, so no command moves it (log 57); `tapClock` and `tapReset` are what the pins do. -/

namespace Sys2Proof.Machine

/-- IDCODE: stepping, 0x4096, 0x5E5 and 1. -/
def idcode (s : State) : Word :=
  s.fuses.stepping.extractLsb' 0 4 ++ (0x4096 : BitVec 16) ++ (0x5E5 : BitVec 11) ++ (1 : BitVec 1)

/-- The pins boundary scan covers: LVCMOS, open-drain, REF, XTAL and SYNC. -/
inductive ScanPin where
  | trigIn (p : Fin 8) | trigOut (p : Fin 8)
  | qspiClk | qspiCs | qspiIo (i : Fin 4)
  | wake | smbScl | smbSda | thermN | alertN
  | refIn | refOut | xtalP | xtalN | syncInP | syncInN | syncOutP | syncOutN
deriving DecidableEq, Repr

def scanPins : List ScanPin :=
  (List.finRange 8).map .trigIn ++ (List.finRange 8).map .trigOut ++ [.qspiClk, .qspiCs] ++ (List.finRange 4).map .qspiIo ++
  [.wake, .smbScl, .smbSda, .thermN, .alertN, .refIn, .refOut, .xtalP, .xtalN, .syncInP, .syncInN, .syncOutP, .syncOutN]

/-- The level at a pin; free where nothing in the model drives it. -/
def pinLevel (s : State) (i : Nat) : Bool :=
  let free := Config.pinLevel s.freeCtr i
  match scanPins[i]? with
  | some (.trigIn p) => s.glb.pins.getLsbD p.val
  | some (.trigOut p) => (trigOutPin s p.val).getD free
  | some .thermN => !thermTripped s
  | some .alertN => !rdBit s THERM_STATUS 30
  | some .refOut => if s.tb.refOut == 0 then free else refOutLevel s
  | some .syncOutP => if domReady s domTimebase then syncOutBit s else free
  | some .syncOutN => if domReady s domTimebase then !syncOutBit s else free
  | _ => free

/-- What the selected data register captures. -/
def tapCapture (s : State) : List Bool :=
  match s.jtag.instr with
  | .idcode => (List.range 32).map (fun i => (idcode s).getLsbD i)
  | .bypass => [false]
  | .samplePreload | .extest => Config.scanChain.map (pinLevel s)

/-- One bit enters a shift stage at its TDI end. -/
def shiftIn (l : List Bool) (tdi : Bool) : List Bool := (l ++ [tdi]).tail

/-- The controller's next state by TMS. -/
def tapNext (t : TapState) (tms : Bool) : TapState :=
  let way (one zero : TapState) : TapState := if tms then one else zero
  match t with
  | .testLogicReset => way .testLogicReset .runTestIdle
  | .runTestIdle | .updateDr | .updateIr => way .selectDr .runTestIdle
  | .selectDr => way .selectIr .captureDr
  | .captureDr | .shiftDr => way .exit1Dr .shiftDr
  | .exit1Dr => way .updateDr .pauseDr
  | .pauseDr => way .exit2Dr .pauseDr
  | .exit2Dr => way .updateDr .shiftDr
  | .selectIr => way .testLogicReset .captureIr
  | .captureIr | .shiftIr => way .exit1Ir .shiftIr
  | .exit1Ir => way .updateIr .pauseIr
  | .pauseIr => way .exit2Ir .pauseIr
  | .exit2Ir => way .updateIr .shiftIr

/-- The instruction a code selects: all ones is BYPASS. -/
def tapInstr (ir : List Bool) : TapInstr :=
  if ir.all id then .bypass
  else match Config.irCode ir with | 0 => .idcode | 1 => .samplePreload | 2 => .extest | _ => .bypass

/-- What the present state does on a clock of TCK. -/
def tapAct (s : State) (tdi : Bool) : Jtag :=
  let j := s.jtag
  match j.tap with
  | .captureDr => { j with dr := tapCapture s }
  | .shiftDr => { j with dr := shiftIn j.dr tdi }
  | .updateDr => if j.instr = .samplePreload ∨ j.instr = .extest then { j with held := j.dr } else j
  | .captureIr => { j with ir := [true, false] ++ Config.irCapture }
  | .shiftIr => { j with ir := shiftIn j.ir tdi }
  | .updateIr => { j with instr := tapInstr j.ir }
  | _ => j

/-- One clock of TCK; Test-Logic-Reset selects IDCODE. -/
def tapClock (s : State) (tms tdi : Bool) : State :=
  let j := tapAct s tdi
  let t := tapNext j.tap tms
  { s with freeCtr := s.freeCtr + 1, jtag := { j with tap := t, instr := if t = .testLogicReset then .idcode else j.instr } }

/-- TRST# low. -/
def tapReset (s : State) : State := { s with jtag := { s.jtag with tap := .testLogicReset, instr := .idcode } }

/-- TDO: at high impedance outside the Shift states. -/
def tapTdo (s : State) : Option Bool :=
  match s.jtag.tap with | .shiftDr => s.jtag.dr.head? | .shiftIr => s.jtag.ir.head? | _ => none

/-- What EXTEST drives on pin `i` in place of the device. -/
def scanDrive (s : State) (i : Nat) : Option Bool :=
  if s.jtag.instr = .extest then (Config.scanChain.zip s.jtag.held).lookup i else none

end Sys2Proof.Machine
end

