-- ==== Sys2Proof/Safety.lean ====
section
/-! DEFINITION. The invariant a safe state meets, and the words the statements are made of: a command that executes, resources
nobody holds, domains that are ready, and frames. -/

namespace Sys2Proof

open Machine

/-- Stratus and Cirrus are in canonical form. -/
def Safety.Inv (s : State) : Prop := Memory.wf s.stratus = true ∧ Memory.wf s.cirrus = true

/-- The firmware starts the command of mailbox `m` on this tick (R53); its opcode is `op`, SCHED is 0, and `e` is the state it
executes in: EXECUTING, with RES cleared. -/
def Safety.Executing (s : State) (m op : Nat) (e : State) : Prop :=
  fwStarts s m = true ∧ cmdOpcode s m = op ∧ e = startCmd s m ∧ cmdSched e m = false

/-- No command under way holds a resource of `l` (R54), and no DFC_SYNC accepted from the Loop line a chain of it (R299). -/
def Safety.NoneHolds (s : State) (l : List Res) : Prop := (∀ c ∈ s.running, ∀ r ∈ c.held, r ∉ l) ∧ loopHolds s l = false

/-- Every domain of `ds` is ready. -/
def Safety.Ready (s : State) (ds : List Nat) : Prop := ∀ d ∈ ds, domReady s d = true

/-- The write charge and the rings keep the budget (R25). -/
def Safety.BudgetKept (s : State) : Prop := totalCharge s ≤ 480000 ∧ stratusRingBytes s ≤ capGib s * 2 ^ 30

/-- The engines that start at arm start in the customer region (R175). -/
def Safety.StartsFree (s : State) : Prop := ∀ x ∈ engsKnown s, engStarts s x = true → rdF s (eR x 0xC) 0 11 < 0x600

/-- No register outside `l` differs. -/
def Safety.RegsOnlyAt (s t : State) (l : List Nat) : Prop := ∀ o, o ∉ l → rd t o = rd s o

/-- Both memories read the same at every byte. -/
def Safety.SameMemory (s t : State) : Prop :=
  (∀ a, memRead t.stratus a = memRead s.stratus a) ∧ ∀ a, memRead t.cirrus a = memRead s.cirrus a

/-- The firmware's command rows: each with its opcode, SERVICE_COMMAND with the first of its range (R69, R380). -/
def Safety.firmwareRows (m : Fin 16) (image : ImageRead) : List (Nat × Instr) :=
  [(0x0001, .sysInfo m), (0x0002, .sysEcho m), (0x0003, .sysTemp m), (0x0101, .tbRefSelect m),
   (0x0102, .pllConfig m), (0x0103, .refOutSet m), (0x0104, .tbStatus m), (0x0105, .timeSet m),
   (0x0201, .laneFormat m), (0x0202, .laneTrain m), (0x0203, .laneRetrain m), (0x0204, .laneIdle m),
   (0x0205, .returnSend m), (0x0301, .ucodeLoad m image), (0x0302, .engineMode m), (0x0303, .consistSet m),
   (0x0304, .engineSnapshot m), (0x0401, .ctxConfig m), (0x0402, .ctxClear m), (0x0403, .ctxAge m),
   (0x0404, .ctxDump m), (0x0501, .ringCreate m), (0x0502, .ringDelete m), (0x0503, .streamMode m),
   (0x0504, .budgetCheck m), (0x0505, .ringFlush m), (0x0601, .capturePrepare m), (0x0602, .captureArm m),
   (0x0603, .captureStop m), (0x0604, .captureForceTrigger m), (0x0605, .captureRelease m),
   (0x0606, .captureStatus m), (0x0701, .replayStart m), (0x0702, .replayStop m), (0x0703, .replayStatus m),
   (0x0801, .tiuConfig m), (0x0802, .tiuMeasure m), (0x0803, .tiuStop m), (0x0901, .dfcConfig m),
   (0x0902, .dfcThreshold m), (0x0903, .dfcSync m), (0x0A01, .deflateJob m), (0x0A02, .inflateJob m),
   (0x0A03, .deflateFlush m), (0x0A04, .deflateStatus m), (0x0B01, .memtestRun m), (0x0B02, .memtestStatus m),
   (0x0C01, .gateChallenge m), (0x0C02, .gateResponse m), (0x0C03, .gatePasswordSet m), (0x0C04, .gateUnlock m),
   (0x0C05, .gateLock m), (0x0C80, .serviceCommand m), (0x0D01, .loopCalibrate m), (0x0D02, .loopStatus m),
   (0x0D03, .loopPost m)]

/-- A write of the register at the DW-aligned BAR0 offset `a` does what its access codes say and no more: the offset is that of
no register with a behaviour of its own, its domain is ready, its mailbox has no command under way, its ring exists. -/
def Safety.PlainRegister (s : State) (a : Nat) : Prop :=
  a % 4 = 0 ∧ blockOff s a = false ∧
  match blockOf a with
  | .ctl o => ¬(0xAA00 ≤ o ∧ o < 0xAA50) ∧ ¬(0xD010 ≤ o ∧ o < 0xD020) ∧ ¬(0xD100 ≤ o ∧ o < 0xD200) ∧
      ¬(0x4000 ≤ o ∧ o < 0x6000 ∧ (o % 0x80 = 0xC ∨ o % 0x80 = 0x10)) ∧
      ¬(0x8000 ≤ o ∧ o < 0x8800 ∧ (o % 0x40 < 0xC ∨ o % 0x40 = 0x14)) ∧ o ≠ PCIE_CTRL ∧ o ≠ THERM_ALERT
  | .mbx m o => o ≠ 0x10 ∧ mbxState s m ≠ 1 ∧ mbxState s m ≠ 2
  | .eng n o => o ≠ 4 ∧ o ≠ 8 ∧ o ≠ 0x1C ∧ o ≠ 0x2C ∧ ¬(0x500 ≤ o ∧ o < 0x680 ∧ o % 0x20 < 8) ∧
      (0xC00 ≤ o ∧ o ≤ 0xC10 → (getEng s n).lead = n)
  | .ring r o => ringExists s r = true ∧ o ≠ 0x40 ∧ o ≠ 0x38
  | .lane _ _ => True
  | _ => False

/-- The state the word at engine `e`'s PC executes in: a single-bit error in it is corrected, counted and shown (R149). -/
def Safety.wordState (s : State) (e : Nat) : State :=
  if tabGet 0 (getEng s e).csErr (getEng s e).pc.toNat = 1 then engEvent (ctrAdd s (eR e 0x24) 1) e 0x10 else s

/-- CV of word `u`: its condition source as the engine's resources, Junction and counters give it on this tick (R130). -/
def Safety.wordCond (s : State) (e : Nat) (u : MicroWord) : Bool :=
  condVal s e (evalAt s e ((engClock s e : Int) - engLat s e)
    ((memberFmts s e).map (fun f => { fmt := f, payload := 0, valid := false }))) (junction s e (engClock s e)) (uCOND u)

/-- What PLL_CONFIG of PLL `k` holds (R54): the timebase, every TIU input, or the lanes of its link domain. -/
def Safety.pllHeld (k : Nat) : List Res :=
  if k = 0 then [.timebase] else if k = 1 then (List.range 64).map Res.tiu
  else if 2 ≤ k ∧ k < 10 then (List.range 32).map (fun i => Res.lane (32 * (k - 2) + i)) else []

end Sys2Proof
end

