-- ==== Sys2Proof/Certificates/Slice0/Obligations.lean ====
section
/-! DEFINITION. The statements about the model, each with the rule of the spec it rests on. `e` is the state a command executes
in; a row whose condition does not hold leaves the state as it is (log 8), so each statement names the condition. -/

open Sys2Proof Sys2Proof.Machine

/-- A step with a command at the front of the queue is exec of that command on the state with the rest of the queue. (spec/opcode_table.json; spec/03_dvorna_mailboxes.md (R53 in part)) -/
def Obligations.StepRunsFrontCommand : Prop :=
  ∀ (c : Instr) (rest : List Instr) (s : State), s.pending = c :: rest → step s = exec c { s with pending := rest }

/-- No command touches the queue of waiting commands. (spec/opcode_table.json; spec/03_dvorna_mailboxes.md (R53 in part)) -/
def Obligations.CommandsLeaveQueue : Prop :=
  ∀ (c : Instr) (s t : State), exec c s = .next t → t.pending = s.pending

/-- On an empty queue one tick passes (the model's choice, log 1). (spec/01_architecture.md; spec/05_timebase_and_clocks.md (R113 in part)) -/
def Obligations.EmptyQueuePassesTick : Prop :=
  ∀ s : State, s.pending = [] → ∃ t, step s = .next t ∧ t.pending = [] ∧
    t.ns = s.ns + (if clocksRun s = true ∧ pllLocked s 0 = true then 1 else 10)

/-- After reset both memories are in canonical form. (spec/09_capture_storage.md; spec/18_power_reset_startup.md (R373 in part)) -/
def Obligations.ResetMeetsMemoryForm : Prop := Safety.Inv State.reset

/-- Every step keeps the canonical form of both memories. (spec/09_capture_storage.md; spec/10_rings.md; spec/15_host_endpoint.md) -/
def Obligations.EveryStepKeepsMemoryForm : Prop :=
  ∀ s t : State, Safety.Inv s → step s = .next t → Safety.Inv t

/-- Register values after cold reset, as the register tables give them. (spec/03_dvorna_mailboxes.md (R49, R50, R63 in part); spec/06_sequencer_engines.md (R126 in part); spec/10_rings.md; spec/18_power_reset_startup.md (R365, R370, R378 in part)) -/
def Obligations.ResetRegisterValues : Prop :=
  rd State.reset SYS_FW_STATUS = 0 ∧ capState State.reset = capOFF ∧
  (∀ m : Fin 16, mbxState State.reset m.val = 0 ∧ rd State.reset (mR m.val 4) = 2) ∧
  rd State.reset PWR_ON = 3 ∧ rd State.reset PWR_READY = 3 ∧ rd State.reset THERM_ALERT = 0x640 ∧
  rd State.reset THERM_MAX = 0x8000 ∧
  (∀ e : Fin 256, engRun State.reset e.val = runSTOPPED ∧ rd State.reset (eR e.val 0x100) = 0x7FF) ∧
  (∀ n : Fin 256, laneState State.reset n.val = laneOFF) ∧
  (∀ r : Fin 32768, ringExists State.reset r.val = false) ∧ State.reset.stratus = [] ∧ State.reset.cirrus = [] ∧
  State.reset.pending = []

/-- Completing a command writes its result words and header, shows DONE, and signals SYS_MBX_DONE where NOTIFY is 1. (spec/03_dvorna_mailboxes.md (R50, R51, R57 in part)) -/
def Obligations.CompletionWritesTheMailbox : Prop :=
  ∀ (s : State) (m : Fin 16) (status : Nat) (res : List Nat), res.length ≤ 256 → status < 256 →
    let t := completeCmd s m.val status res
    mbxState t m.val = 3 ∧
    rd t (mR m.val 0x18) = BitVec.ofNat 32 (cmdTag s m.val * 2 ^ 16 + capState s * 2 ^ 8 + status) ∧
    (∀ i, i < res.length → rd t (resR m.val i) = BitVec.ofNat 32 (res.getD i 0)) ∧
    (cmdNotify s m.val = true → rdBit t SYS_MBX_DONE m.val = true) ∧
    t.running = s.running.filter (fun c => c.m != m.val) ∧
    Safety.RegsOnlyAt s t ([mR m.val 0x14, mR m.val 0x18] ++ (List.range res.length).map (resR m.val) ++
      (if cmdNotify s m.val then [SYS_MBX_DONE, evtR 636] else [])) ∧
    Safety.SameMemory s t

/-- The oldest posted command starts, four at most execute, and starting clears its results. (spec/03_dvorna_mailboxes.md (R51, R53 in part)) -/
def Obligations.CommandsStartInOrder : Prop :=
  (
  ∀ (s : State) (m : Fin 16),
    let t := startCmd s m.val
    mbxState t m.val = 2 ∧ (∀ i, i < 256 → rd t (resR m.val i) = 0) ∧ rd64 t (mR m.val 0x20) = 0 ∧
    t.posted = s.posted.filter (fun x => x != m.val) ∧
    Safety.RegsOnlyAt s t ([mR m.val 0x14, mR m.val 0x20, mR m.val 0x24] ++ (List.range 256).map (resR m.val)) ∧
    Safety.SameMemory s t
  ) ∧ (
  ∀ (m : Fin 16) (im : ImageRead) (s : State) (p : Nat × Instr), p ∈ Safety.firmwareRows m im →
    (fwReady s = false ∨ s.posted.head? ≠ some m.val ∨ 4 ≤ s.running.length) → exec p.2 s = .next s
  )

/-- An opcode outside the catalogue is BAD_COMMAND; SCHED on a command without an execution tick is BAD_ARG, whatever its arguments. (spec/03_dvorna_mailboxes.md (R56, R57, R60 in part)) -/
def Obligations.RefusedBeforeAnyCheck : Prop :=
  (
  ∀ (m : Fin 16) (im : ImageRead) (s : State) (p : Nat × Instr), p ∈ Safety.firmwareRows m im →
    fwStarts s m.val = true → knownOp (cmdOpcode s m.val) = false →
    exec p.2 s = .next (completeCmd (startCmd s m.val) m.val 2 [])
  ) ∧ (
  ∀ (m : Fin 16) (im : ImageRead) (s e : State) (p : Nat × Instr), p ∈ Safety.firmwareRows m im →
    p.1 ∉ [0x0602, 0x0603, 0x0604, 0x0903, 0x0D03, 0x0C80] → fwStarts s m.val = true → cmdOpcode s m.val = p.1 →
    e = startCmd s m.val → cmdSched e m.val = true →
    (p.1 = 0x0301 → e.gates.svcOpen = true ∧ custClosed e = false) →
    exec p.2 s = .next (completeCmd e m.val 3 [0xFFFFFFFF])
  )

/-- A doorbell posts the command of an idle or done mailbox; on a posted or executing one it is ignored and sets OVERRUN. (spec/03_dvorna_mailboxes.md (R51, R52 in part); spec/15_host_endpoint.md (R321 in part)) -/
def Obligations.DoorbellPostsOrOverruns : Prop :=
  ∀ (m : Fin 16) (s : State), memDecoded s = true → ∃ t, exec (.mbxDoorbell m) s = .next t ∧
    (mbxState s m.val = 0 ∨ mbxState s m.val = 3 → mbxState t m.val = 1 ∧ t.posted = s.posted ++ [m.val]) ∧
    (mbxState s m.val = 1 ∨ mbxState s m.val = 2 →
      rdBit t (mR m.val 0x14) 8 = true ∧ mbxState t m.val = mbxState s m.val ∧ t.posted = s.posted) ∧
    t.running = s.running ∧ Safety.RegsOnlyAt s t [mR m.val 0x14] ∧ Safety.SameMemory s t

/-- While a mailbox is POSTED or EXECUTING, writes of its command, flags, tick, arguments and doorbell are ignored and set OVERRUN. (R52) -/
def Obligations.BusyMailboxRefusesWrites : Prop :=
  ∀ (m : Fin 16) (o : Nat) (v : Word) (be : BitVec 4) (s : State), memDecoded s = true →
    (o ∈ [0x000, 0x004, 0x008, 0x00C, 0x010] ∨ (0x100 ≤ o ∧ o < 0x500 ∧ o % 4 = 0)) →
    (mbxState s m.val = 1 ∨ mbxState s m.val = 2) →
    ∃ t, exec (.registerWrite (.bar0 (BitVec.ofNat 26 (mR m.val o))) v (be, none) .clean) s = .next t ∧
      rd t (mR m.val 0x14) = rd s (mR m.val 0x14) ||| 0x100 ∧ Safety.RegsOnlyAt s t [mR m.val 0x14] ∧
      t.posted = s.posted ∧ t.running = s.running

/-- Commands that only report complete with the result words of the catalogue and change nothing else; BUDGET names the exhausted resource. (spec/03_dvorna_mailboxes.md (R59, R69, R57 in part); spec/05_timebase_and_clocks.md; spec/10_rings.md (R245 in part); spec/14_deflate_engines.md (R314 in part); spec/17_onchip_memory_test.md (R363 in part); spec/01_architecture.md (R24, R25 in part)) -/
def Obligations.StatusCommandsAnswer : Prop :=
  (
  ∀ (m : Fin 16) (s e : State),
    (Safety.Executing s m.val 0x0001 e → exec (.sysInfo m) s = .next (completeCmd e m.val 0
      [Config.fwVersion.toNat, bootReport e, if loopMember e then e.loop.pos.getD 0xFF else 0xFF])) ∧
    (Safety.Executing s m.val 0x0002 e → exec (.sysEcho m) s = .next (completeCmd e m.val 0
      [arg e m.val 0, arg e m.val 1, arg e m.val 2, arg e m.val 3])) ∧
    (Safety.Executing s m.val 0x0003 e → exec (.sysTemp m) s = .next (completeCmd e m.val 0
      [(BitVec.signExtend 32 (BitVec.ofNat 16 (rdF e THERM_STATUS 0 16))).toNat,
       (BitVec.signExtend 32 (BitVec.ofNat 16 (rdF e THERM_MAX 0 16))).toNat])) ∧
    (Safety.Executing s m.val 0x0104 e → exec (.tbStatus m) s = .next (completeCmd e m.val 0
      [b2n e.tb.refLost + 2 * b2n e.tb.holdover + 4 * b2n e.tb.crystal, e.tb.refClass,
       ((List.range 12).map (fun k => if pllLocked e k then 2 ^ k else 0)).foldl (· + ·) 0])) ∧
    (Safety.Executing s m.val 0x0504 e → totalCharge e ≤ 480000 → stratusRingBytes e ≤ capGib e * 2 ^ 30 →
      exec (.budgetCheck m) s = .next (completeCmd e m.val 0 [0, totalCharge e, 480000 - totalCharge e])) ∧
    (Safety.Executing s m.val 0x0606 e → Safety.NoneHolds e [.capture] →
      exec (.captureStatus m) s = .next (completeCmd e m.val 0
        [capState e + 16 * rdF e SYS_CAPTURE 4 4, e.capture.lastTs.toNat % 2 ^ 32, e.capture.lastTs.toNat / 2 ^ 32 % 2 ^ 32,
         e.capture.lastSrc, segDone e])) ∧
    (Safety.Executing s m.val 0x0703 e → arg e m.val 0 < 16 →
      exec (.replayStatus m) s = .next (completeCmd e m.val 0
        ([(getJob e (arg e m.val 0)).state] ++ jobReached e (getJob e (arg e m.val 0)) ++
          [(getJob e (arg e m.val 0)).marks]))) ∧
    (Safety.Executing s m.val 0x0A04 e → arg e m.val 0 ≤ 15 →
      exec (.deflateStatus m) s = .next (completeCmd e m.val 0
        ([dflState e (arg e m.val 0)] ++ words2 (rd64 e (dflR (arg e m.val 0) 0x10)) ++
          words2 (rd64 e (dflR (arg e m.val 0) 0x18))))) ∧
    (Safety.Executing s m.val 0x0B02 e →
      exec (.memtestStatus m) s = .next (completeCmd e m.val 0
        [(e.mt.or e.mtLast).elim 0 MtJob.done, (e.mt.or e.mtLast).elim 0 MtJob.faulty, e.spares.length])) ∧
    (Safety.Executing s m.val 0x0D02 e → Safety.NoneHolds e [.loop] →
      exec (.loopStatus m) s = .next (completeCmd e m.val 0
        [e.loop.n, e.loop.pos.getD 0, b2n (loopMember e), e.loop.syncErr.toNat]))
  ) ∧ (
  ∀ (m : Fin 16) (s e : State), Safety.Executing s m.val 0x0504 e →
    (480000 < totalCharge e →
      exec (.budgetCheck m) s = .next (completeCmd e m.val 6 [1, totalCharge e, 480000])) ∧
    (totalCharge e ≤ 480000 → capGib e * 2 ^ 30 < stratusRingBytes e →
      exec (.budgetCheck m) s = .next (completeCmd e m.val 6
        [2, (stratusRingBytes e + 1048575) / 1048576, capGib e * 1024]))
  )

/-- REF_OUT_SET and TIME_SET act at once; TB_REF_SELECT and PLL_CONFIG take their settings, relock and wait for the lock. (spec/05_timebase_and_clocks.md (R103, R104, R105, R106, R110, R111 in part); spec/03_dvorna_mailboxes.md (R69 in part)) -/
def Obligations.TimebaseCommands : Prop :=
  ∀ (m : Fin 16) (s e : State),
    (Safety.Executing s m.val 0x0103 e → arg e m.val 0 ≤ 2 → (arg e m.val 0 = 0 ∨ domReady e 2 = true) →
      exec (.refOutSet m) s =
        .next (completeCmd { e with tb := { e.tb with refOut := arg e m.val 0 } } m.val 0 [])) ∧
    (Safety.Executing s m.val 0x0105 e → arg64 e m.val 0 % 256 = 0 → domReady e 2 = true → capState e = 0 →
      loopMember e = false → Safety.NoneHolds e [.timebase] →
      ∃ t, exec (.timeSet m) s = .next (completeCmd t m.val 0 (words2 (now e))) ∧
        t.time = BitVec.ofNat 56 (arg64 e m.val 0 / 256) ∧ t.regs = e.regs ∧ t.running.map RunCmd.m = e.running.map RunCmd.m ∧
        t.stratus = e.stratus ∧ t.cirrus = e.cirrus) ∧
    (Safety.Executing s m.val 0x0101 e → arg e m.val 0 ≤ 1 → domReady e 2 = true → capState e = 0 →
      (arg e m.val 0 = 1 ∨ e.tb.refClass ≠ 0) → Safety.NoneHolds e [.timebase] →
      exec (.tbRefSelect m) s = .next (holdCmd (timebaseRelock
        (setPll { e with tb := { e.tb with crystal := arg e m.val 0 == 1 } } 0
          { getPll e 0 with
            refdiv := 1, bw := 2
            fbdiv := if arg e m.val 0 = 0 ∧ e.tb.refClass = 1 then 400 else 40 })) m.val (.pll 0) [.timebase])) ∧
    (Safety.Executing s m.val 0x0102 e → arg e m.val 0 ≤ 11 → pllArgOk (arg e m.val 1) = true →
      (arg e m.val 2 = 0 ∨ (arg e m.val 2 ≤ 2 ∧ 10 ≤ arg e m.val 0)) →
      pllLegal e (arg e m.val 0) (pllSettings e (arg e m.val 0) (arg e m.val 1)) = true →
      pllPowered e (arg e m.val 0) = true →
      (arg e m.val 0 = 0 → capState e = 0) →
      (arg e m.val 0 = 1 → ∀ i < 64, tiuState e i ≠ tiuMEASURING) →
      (2 ≤ arg e m.val 0 → arg e m.val 0 < 10 → ∀ i < 32, laneState e (32 * (arg e m.val 0 - 2) + i) = laneOFF) →
      (10 ≤ arg e m.val 0 → capState e ≤ 1) →
      Safety.NoneHolds e (Safety.pllHeld (arg e m.val 0)) →
      exec (.pllConfig m) s = .next (holdCmd (pllRelock (setPll e (arg e m.val 0)
        { getPll e (arg e m.val 0) with
          refdiv := (pllSettings e (arg e m.val 0) (arg e m.val 1)).1
          fbdiv := (pllSettings e (arg e m.val 0) (arg e m.val 1)).2.1
          bw := (pllSettings e (arg e m.val 0) (arg e m.val 1)).2.2, spread := arg e m.val 2 }) (arg e m.val 0)) m.val
        (.pll (arg e m.val 0)) (Safety.pllHeld (arg e m.val 0))))

/-- LANE_FORMAT gives each masked lane its format and state, leaves every other lane alone and returns the budget triple. (spec/04_rail_links.md (R86, R97 in part); spec/01_architecture.md (R25 in part); spec/03_dvorna_mailboxes.md (R59, R69 in part)) -/
def Obligations.LaneFormatSetsTheMaskedLanes : Prop :=
  ∀ (m : Fin 16) (s e : State), Safety.Executing s m.val 0x0201 e → arg e m.val 8 ≤ 3 →
    Safety.Ready e (linkDoms (argMask e m.val 0)) → capState e ≤ 1 →
    Safety.NoneHolds e ((argMask e m.val 0).map Res.lane) →
    budgetFail (forEach (argMask e m.val 0) e (fun s n => laneSetFormat s n (arg e m.val 8))) = none →
    ∃ t, exec (.laneFormat m) s = .next (completeCmd t m.val 0 [0, totalCharge t, 480000 - totalCharge t]) ∧
      (∀ n ∈ argMask e m.val 0, laneFmt t n = arg e m.val 8 ∧
        laneState t n = if arg e m.val 8 = 0 then laneOFF else if laneState e n = laneOFF then laneUNTRAINED
          else laneState e n) ∧
      (∀ n : Fin 256, n.val ∉ argMask e m.val 0 → rd t (lR n.val 0) = rd e (lR n.val 0)) ∧ Safety.SameMemory e t

/-- LANE_TRAIN and LANE_RETRAIN start the masked lanes; LANE_IDLE stops them; RETURN_SEND queues its superframe. (spec/04_rail_links.md (R86, R87, R90, R83, R84 in part); spec/03_dvorna_mailboxes.md (R69 in part)) -/
def Obligations.LaneCommands : Prop :=
  (
  ∀ (m : Fin 16) (s e : State) (c : Instr × Nat), c ∈ [(Instr.laneTrain m, 0x0202), (Instr.laneRetrain m, 0x0203)] →
    Safety.Executing s m.val c.2 e → Safety.Ready e (linkDoms (argMask e m.val 0)) →
    (c.2 = 0x0202 → capState e ≤ 1) → capState e ≤ 4 → argMask e m.val 0 ≠ [] →
    (∀ n ∈ argMask e m.val 0, laneState e n ≠ laneOFF) → Safety.NoneHolds e ((argMask e m.val 0).map Res.lane) →
    ∃ t, exec c.1 s = .next t ∧
      (∀ n ∈ argMask e m.val 0, lanePhase t n = 1 ∧ rdF t (lR n 0x44) 0 4 = 1 ∧ rdF t (lR n 0x44) 8 4 = 0) ∧
      (∀ n : Fin 256, n.val ∉ argMask e m.val 0 → rd t (lR n.val 0) = rd e (lR n.val 0)) ∧
      t.running = e.running ++ [{ m := m.val, op := c.2, held := (argMask e m.val 0).map Res.lane
                                  wait := .train (argMask e m.val 0)
                                    ((List.range 256).all (fun n => laneState e n != laneLIVE && laneState e n != laneLOST)) }] ∧
      Safety.SameMemory e t
  ) ∧ (
  ∀ (m : Fin 16) (s e : State),
    (Safety.Executing s m.val 0x0204 e → Safety.Ready e (linkDoms (argMask e m.val 0)) →
      (capState e ≤ 1 ∨ capState e = 4) → Safety.NoneHolds e ((argMask e m.val 0).map Res.lane) →
      ∃ t, exec (.laneIdle m) s = .next (completeCmd t m.val 0 []) ∧ Safety.SameMemory e t ∧ t.running = e.running ∧
        ∀ n : Fin 256, laneFmt t n.val = laneFmt e n.val ∧ laneState t n.val =
          if n.val ∈ argMask e m.val 0 ∧ laneState e n.val ∈ [laneLIVE, laneLOST, laneFAILED] then laneUNTRAINED
          else laneState e n.val) ∧
    (Safety.Executing s m.val 0x0205 e →
      let k := arg e m.val 0
      let h := rd e (argR m.val 2)
      let dest := fld h 28 4
      let ls := if dest = 0xF then (groupLanes k).filter (fun n => laneFmt e n != 0) else [8 * k + dest]
      arg e m.val 1 = fld h 16 6 + 1 → (dest ≤ 7 ∨ dest = 0xF) →
      (fld h 24 4 = 1 ∨ fld h 24 4 = 2 ∨ 0xC ≤ fld h 24 4) → fld h 22 2 = 0 → k < 32 → domReady e (domLink (8 * k)) = true →
      retActive e k = true → Safety.NoneHolds e (ls.map Res.lane) →
      exec (.returnSend m) s = .next (holdCmd (setRet e k
        { getRet e k with
          queue := (getRet e k).queue ++ [{ words := (List.range (fld h 16 6 + 1)).map (fun i => rd e (argR m.val (2 + i))),
                                             waiter := some m.val, sync := [], go := false }] })
        m.val (.returnSend k) (ls.map Res.lane)))
  )

/-- UCODE_LOAD loads an image that passes into every masked engine, rejects one that does not, and reports a failed read. (spec/07_sequencer_microcode.md (R155, R164, R171, R176 in part); spec/03_dvorna_mailboxes.md (R57, R69 in part)) -/
def Obligations.MicrocodeLoads : Prop :=
  ∀ (m : Fin 16) (ws : List (BitVec 256)) (s e : State), Safety.Executing s m.val 0x0301 e →
    let es := argMask e m.val 0
    let len := arg e m.val 10
    let a := arg e m.val 11
    (0x600 < a + len → e.gates.svcOpen = true) → (a < 0x600 → custClosed e = false) → es ≠ [] → 1 ≤ len →
    ws.length = len → a + len ≤ 2048 → Safety.Ready e (seqDoms es) → capState e ∈ [0, 1, 4] →
    (∀ x ∈ es, (getEng e x).job = none) → Safety.NoneHolds e (es.map Res.engine) → rdBit e (memBistR 2) 31 = false →
    (exec (.ucodeLoad m .failed) s = .next (completeCmd e m.val 9 [unitWord 2 (es.headD 0) (engRun e (es.headD 0))])) ∧
    ((∀ x ∈ es, loadCheck (getEng e x) a ws = none) → ∃ t, exec (.ucodeLoad m (.words ws)) s = .next (completeCmd t m.val 0 []) ∧
      ∀ x ∈ es, (getEng t x).loaded = true ∧
        ∀ i, i < len → csWord (getEng t x) (a + i) = (ws.getD i 0).extractLsb' 0 192) ∧
    (∀ x r k, x ∈ es → (∀ y ∈ es, y < x → loadCheck (getEng e y) a ws = none) → loadCheck (getEng e x) a ws = some (r, k) →
      exec (.ucodeLoad m (.words ws)) s = .next (completeCmd e m.val 8 [x, r, k]))

/-- ENGINE_MODE, CONSIST_SET and ENGINE_SNAPSHOT act on the engines named. (spec/06_sequencer_engines.md (R140, R146, R150 in part); spec/11_replay_and_search.md (R254 in part); spec/03_dvorna_mailboxes.md (R69 in part)) -/
def Obligations.EngineModesAndConsists : Prop :=
  ∀ (m : Fin 16) (s e : State),
    (Safety.Executing s m.val 0x0302 e → arg e m.val 8 ≤ 1 → Safety.Ready e (seqDoms (argMask e m.val 0)) →
      capState e ∈ [0, 1, 4] → (∀ x ∈ argMask e m.val 0, (getEng e x).job = none) →
      Safety.NoneHolds e ((argMask e m.val 0).map Res.engine) →
      ∃ t, exec (.engineMode m) s = .next (completeCmd t m.val 0 []) ∧
        (∀ x ∈ argMask e m.val 0, engReplay t x = decide (arg e m.val 8 = 1) ∧
          (arg e m.val 8 = 1 → engRun e x ≠ runFAULT → engRun t x = 0)) ∧
        Safety.RegsOnlyAt e t ((argMask e m.val 0).map (fun x => eR x 0)) ∧ t.eng = e.eng) ∧
    (Safety.Executing s m.val 0x0303 e → arg e m.val 1 ∈ [1, 2, 4, 8, 16] → arg e m.val 0 % arg e m.val 1 = 0 →
      arg e m.val 0 < 256 →
      let es := (List.range (arg e m.val 1)).map (fun i => arg e m.val 0 + i)
      let all := consistTouched e es
      Safety.Ready e (seqDoms es) → capState e ≤ 1 → (∀ x ∈ all, (getEng e x).job = none) →
      Safety.NoneHolds e (all.map Res.engine) →
      ∃ t, exec (.consistSet m) s = .next (completeCmd t m.val 0 []) ∧
        (arg e m.val 1 = 1 → (getEng e (getEng e (arg e m.val 0)).lead).csize = 0 → t = e) ∧
        (arg e m.val 1 = 1 → (getEng e (getEng e (arg e m.val 0)).lead).csize ≠ 0 →
          ∀ x ∈ engMembers e (getEng e (arg e m.val 0)).lead, (getEng t x).lead = x ∧ (getEng t x).csize = 0) ∧
        (2 ≤ arg e m.val 1 → ∀ x ∈ es, (getEng t x).lead = arg e m.val 0 ∧ 2 ^ (getEng t x).csize = arg e m.val 1)) ∧
    (Safety.Executing s m.val 0x0304 e → arg e m.val 8 < 32768 → Safety.Ready e (seqDoms (argMask e m.val 0) ++ [22]) →
      ringExists e (arg e m.val 8) = true →
      Safety.NoneHolds e ((argMask e m.val 0).map Res.engine ++ [.ring (arg e m.val 8)]) →
      exec (.engineSnapshot m) s = .next (holdCmd e m.val (.snapshot (now e + 3) (arg e m.val 8) (argMask e m.val 0))
        ((argMask e m.val 0).map Res.engine ++ [.ring (arg e m.val 8)])))

/-- CTX_CONFIG, CTX_CLEAR, CTX_AGE and CTX_DUMP act on the context store. (spec/08_context_store.md (R179, R180, R192, R196 in part); spec/03_dvorna_mailboxes.md (R69 in part)) -/
def Obligations.ContextCommands : Prop :=
  ∀ (m : Fin 16) (s e : State), domReady e 15 = true → (∀ c, e.ctx.clear = some c → c.switchOn = false) →
    rdBit e (memBistR 1) 31 = false →
    (Safety.Executing s m.val 0x0401 e → arg e m.val 2 ≤ 1 → capState e ≤ 1 → Safety.NoneHolds e [.ctx] →
      (if arg64 e m.val 0 = 0 then e.ctx.drawn = true else (ctxSeed e).toNat = arg64 e m.val 0) →
      ∃ t, exec (.ctxConfig m) s = .next (completeCmd t m.val 0 (words2 (arg64 e m.val 0))) ∧
        t.ctx = { e.ctx with policy := arg e m.val 2 == 1, drawn := arg64 e m.val 0 == 0 } ∧
        rdBit t CTX_STATUS 5 = decide (arg e m.val 2 = 1) ∧ rdBit t CTX_STATUS 4 = decide (arg64 e m.val 0 ≠ 0) ∧
        Safety.RegsOnlyAt e t [CTX_STATUS]) ∧
    (Safety.Executing s m.val 0x0401 e → arg e m.val 2 ≤ 1 → capState e ≤ 1 → Safety.NoneHolds e [.ctx] →
      (if arg64 e m.val 0 = 0 then e.ctx.drawn = false else (ctxSeed e).toNat ≠ arg64 e m.val 0) →
      ∃ t, exec (.ctxConfig m) s = .next (holdCmd t m.val .clear [.ctx]) ∧ rd64 t CTX_SEED = arg64 e m.val 0 ∧
        t.ctx.clear = some { from_ := now e, switchOn := false } ∧ rdF t CTX_STATUS 0 4 = 2) ∧
    (Safety.Executing s m.val 0x0402 e → capState e ∈ [0, 1, 4] → Safety.NoneHolds e [.ctx] →
      ∃ t, exec (.ctxClear m) s = .next (holdCmd t m.val .clear [.ctx]) ∧
        t.ctx.clear = some { from_ := now e, switchOn := false } ∧ rdF t CTX_STATUS 0 4 = 2 ∧
        (∀ i, ctxSet t i = if i / 64 = 0 then ctxSetEmpty else ctxSet e i) ∧ Safety.RegsOnlyAt e t [CTX_STATUS]) ∧
    (Safety.Executing s m.val 0x0403 e → Safety.NoneHolds e [.ctx] →
      ∃ t, exec (.ctxAge m) s = .next (completeCmd t m.val 0 []) ∧ (rd t CTX_SWEEP_STEP).toNat = arg e m.val 0 ∧
        (rd t CTX_AGE_LIMIT).toNat = arg e m.val 1 ∧ rdBit t CTX_STATUS 6 = decide (arg e m.val 0 ≠ 0) ∧
        rdBit t CTX_STATUS 7 = decide (arg e m.val 1 ≠ 0) ∧ t.ctx.sets = e.ctx.sets ∧
        Safety.RegsOnlyAt e t [CTX_SWEEP_STEP, CTX_AGE_LIMIT, CTX_STATUS]) ∧
    (Safety.Executing s m.val 0x0404 e →
      let r := arg e m.val 0
      r < 32768 → ringExists e r = true → 5242880 ≤ ringSize e r - ringHeld e r → domReady e 22 = true →
      (compactMem e = true ∨ fullMem e = true) → (capState e = 1 ∨ capState e = 4) → streamsOfRing e r = [] →
      Safety.NoneHolds e [.ctx, .ring r] →
      ∃ t, exec (.ctxDump m) s = .next (holdCmd t m.val (.dump r (tsOf (now e)) 0 0 []) [.ctx, .ring r]) ∧
        rdF t CTX_STATUS 0 4 = 3 ∧ ctxExtQ t mHOST = ctxExtQ e mHOST ++ [dumpReq e 0 ((now e : Int) - e.lrel)] ∧
        t.ctx.sets = e.ctx.sets ∧ Safety.RegsOnlyAt e t [CTX_STATUS])

/-- RING_CREATE gives a READY ring with every pointer and counter 0; RING_DELETE resets the descriptor and its pending bit. (spec/10_rings.md (R237, R238, R239, R240 in part); spec/03_dvorna_mailboxes.md (R69 in part)) -/
def Obligations.RingsAreCreatedAndDeleted : Prop :=
  ∀ (m : Fin 16) (s e : State),
    let r := arg e m.val 0
    let size := 2 ^ arg e m.val 3
    (Safety.Executing s m.val 0x0501 e → r < 32768 → arg e m.val 4 ≤ 1 → arg e m.val 5 < 65536 → arg e m.val 6 < 65536 →
      6 ≤ arg e m.val 3 → arg e m.val 3 ≤ (if compactMem e then 22 else 36) → arg64 e m.val 1 % 32 = 0 →
      arg64 e m.val 1 + size ≤ ringSpace e → ringOverlaps e (arg64 e m.val 1) size = false →
      Safety.Ready e (ringDoms e) → capState e ∈ [0, 1, 4] → ringExists e r = false → streamsOfRing e r = [] →
      Safety.NoneHolds e [.ring r] → rdBit e (memBistR 3) 31 = false →
      ∃ t, exec (.ringCreate m) s = .next (completeCmd t m.val 0 []) ∧
        rd t (rR r 0) = BitVec.ofNat 32 (2 ^ 31 + b2n (compactMem e) * 2 ^ 30 + arg e m.val 4 * 2 ^ 29 + arg e m.val 3 * 2 ^ 16) ∧
        rd64 t (rR r 8) = arg64 e m.val 1 ∧
        rd t (rR r 0x38) = BitVec.ofNat 32 (arg e m.val 6 * 2 ^ 16 + arg e m.val 5) ∧
        (∀ o, o < 0x80 → o ∉ [0, 8, 0xC, 0x38] → rd t (rR r o) = 0) ∧
        (∀ o, o < rR r 0 ∨ rR r 0x80 ≤ o → rd t o = rd e o) ∧ getRing t r = RingCore.init ∧ Safety.SameMemory e t) ∧
    (Safety.Executing s m.val 0x0502 e → r < 32768 → domReady e 22 = true → capState e ∈ [0, 1, 4] →
      ringExists e r = true → streamsOfRing e r = [] →
      (∀ k < 16, dflState e k ≠ dflDEFLATE ∧ dflState e k ≠ dflINFLATE) →
      Safety.NoneHolds e [.ring r] → rdBit e (memBistR 3) 31 = false →
      ∃ t, exec (.ringDelete m) s = .next (completeCmd t m.val 0 []) ∧
        (∀ o, o < 0x80 → rd t (rR r o) = 0) ∧ rdBit t (pendR r) (r % 32) = false ∧
        (∀ o, o < rR r 0 ∨ rR r 0x80 ≤ o → o ≠ pendR r → rd t o = rd e o) ∧
        getRing t r = RingCore.init ∧ Safety.SameMemory e t)

/-- STREAM_MODE binds and sets a stream; RING_FLUSH posts the flush and waits; after 64 ticks what is open closes with TRUNC. (spec/09_capture_storage.md (R202, R233, R231 in part); spec/10_rings.md (R252 in part); spec/01_architecture.md (R25 in part); spec/03_dvorna_mailboxes.md (R59, R69 in part)) -/
def Obligations.StreamModesAndFlushes : Prop :=
  (
  ∀ (m : Fin 16) (s e : State),
    let n := arg e m.val 0
    let mode := arg e m.val 1
    let r := arg e m.val 2
    (Safety.Executing s m.val 0x0503 e → streamBindable n = true → mode ≤ 3 → (256 ≤ n → mode ≤ 1) →
      (mode ≠ 0 → r < 32768 ∧ domReady e 22 = true ∧ ringExists e r = true) →
      (n < 256 → arg e m.val 3 ≤ 1000000 ∧ arg e m.val 4 ≤ 1000000) → capState e ≤ 1 →
      Safety.NoneHolds e (streamRes n :: ((if mode = 0 then [] else [Res.ring r]) ++
        (if strBound e n && (mode == 0 || strRingOf e n != r) then [Res.ring (strRingOf e n)] else []))) →
      budgetFail (streamSet e n mode r (arg e m.val 3) (arg e m.val 4) (arg e m.val 5)) = none →
      ∃ t, exec (.streamMode m) s = .next (completeCmd t m.val 0 [0, totalCharge t, 480000 - totalCharge t]) ∧
        strModeOf t n = mode ∧ strBound t n = decide (mode ≠ 0) ∧ (mode ≠ 0 → strRingOf t n = r) ∧
        (n < 256 → (getStr t n).activity = BitVec.ofNat 32 (arg e m.val 3) ∧
          (getStr t n).duty = BitVec.ofNat 32 (arg e m.val 4) ∧
          Safety.RegsOnlyAt e t [strR n 0, strR n 4]) ∧
        (256 ≤ n → (getStr t n).rate = BitVec.ofNat 32 (arg e m.val 5)) ∧ Safety.SameMemory e t) ∧
    (Safety.Executing s m.val 0x0505 e → n < 32768 → domReady e 22 = true → capState e ∈ [2, 3, 4] → ringExists e n = true →
      Safety.NoneHolds e [.ring n] → rdBit e (memBistR 3) 31 = false →
      exec (.ringFlush m) s = .next (holdCmd (setRing e n { getRing e n with flush := some m.val }) m.val
        (.flush n (now e) false none) [.ring n]))
  ) ∧ (
  ∀ (r : Fin 32768) (s : State) (c : RunCmd) (b : Bool) (f : Tick) (u : Option Nat), s.running = [c] →
    c.wait = .flush r.val f b u →
    let open_ := (streamsOfRing s r.val).filter (fun n =>
      match (getStr s n).openRec with | some o => decide (o.at_ ≤ f) && !o.lost | none => false)
    (f + 64 ≠ now s ∨ capActive s = false → exec (.ringFlushForcedClose r) s = .next s) ∧
    (f + 64 = now s → capActive s = true → ∃ t, exec (.ringFlushForcedClose r) s = .next t ∧
      t.running = [{ c with wait := .flush r.val f (b || !open_.isEmpty) u }] ∧
      (∀ n ∈ open_, (getStr t n).openRec = none) ∧
      (∀ n, n ∉ open_ → (getStr t n).openRec = (getStr s n).openRec ∧ (getStr t n).staged = (getStr s n).staged) ∧
      (∀ n ∈ open_, n < 256 → ∀ o, (getStr s n).openRec = some o → ∃ x, (getStr t n).staged = (getStr s n).staged ++ [x] ∧
        x.typ = o.typ ∧ x.words = openWords o ∧ x.flags &&& flagTRUNC = flagTRUNC ∧
        (o.typ = tySAMPLE ∨ o.typ = tyANALOG → x.flags &&& flagCONT = flagCONT)) ∧ Safety.SameMemory s t)
  )

/-- CAPTURE_PREPARE, ARM, STOP, FORCE_TRIGGER and RELEASE posted without an execution tick move the capture state as R63 gives. (spec/03_dvorna_mailboxes.md (R59, R63, R67, R69 in part); spec/06_sequencer_engines.md (R153 in part); spec/09_capture_storage.md (R204, R251 in part)) -/
def Obligations.CaptureCommandsMoveTheState : Prop :=
  ∀ (m : Fin 16) (s e : State),
    (Safety.Executing s m.val 0x0601 e → Safety.Ready e (captureDomains e) → capState e = 0 → captureStreams e ≠ [] →
      (∀ n ∈ captureStreams e, ringExists e (strRingOf e n) = true) →
      (∀ n ∈ captureStreams e, n < 256 → engReplay e (getEng e n).lead = false → (getEng e (getEng e n).lead).loaded = true) →
      (∀ x ∈ engsKnown e, (getEng e x).lead = x → engReplay e x = false → ∀ n ∈ engMembers e x, laneFmt e n = laneFmt e x) →
      Safety.StartsFree e → Safety.NoneHolds e [.capture] → Safety.BudgetKept e → rdBit e (memBistR 0) 31 = false →
      exec (.capturePrepare m) s = .next (completeCmd (wrF e SYS_CAPTURE 0 3 1) m.val 0
        [0, totalCharge e, 480000 - totalCharge e])) ∧
    (Safety.Executing s m.val 0x0602 e → arg64 e m.val 1 < 2 ^ 48 → armClears e = false →
      (capState e = 1 ∨ capState e = 4) → Safety.Ready e (captureDomains e) → Safety.StartsFree e →
      Safety.NoneHolds e [.capture] → Safety.BudgetKept e → rdBit e (memBistR 0) 31 = false →
      ∃ t, exec (.captureArm m) s = .next (completeCmd t m.val 0
          ([0, totalCharge t, 480000 - totalCharge t] ++ words2 (ctxSeed t).toNat)) ∧
        capState t = 2 ∧ segDone t = 0 ∧ rdBit t SYS_CAPTURE 8 = true ∧ t.capture.segs = arg e m.val 0 % 65536 + 1 ∧
        t.capture.depth = arg64 e m.val 1 ∧ t.capture.recFrom = (now e : Int) - e.lrel ∧ t.capture.trigs = [] ∧
        (∀ r ∈ captureRings e, ringSEGBASE t r = ringWR e r) ∧ Safety.SameMemory e t) ∧
    (Safety.Executing s m.val 0x0603 e → (capState e = 2 ∨ capState e = 3) → Safety.NoneHolds e [.capture] →
      e.capture.haltAt = none → e.capture.trigs = [] →
      ∃ t, exec (.captureStop m) s = .next (completeCmd t m.val 0 (words2 (now e))) ∧ capState t = 4 ∧
        rdF t SYS_CAPTURE 4 4 = 2 ∧ rdBit t SYS_CAPTURE 10 = true ∧ t.capture.haltAt = some ((now e : Int) - e.lrel) ∧
        Safety.SameMemory e t) ∧
    (Safety.Executing s m.val 0x0604 e → capState e = 2 → Safety.NoneHolds e [.capture] →
      exec (.captureForceTrigger m) s = .next (completeCmd { e with capture := { e.capture with
        asserts := e.capture.asserts ++ [{ t := now e, src := 0x100, origin := 0 }] } } m.val 0 (words2 (now e * 256)))) ∧
    (Safety.Executing s m.val 0x0605 e → (capState e = 1 ∨ capState e = 4) → Safety.NoneHolds e [.capture] →
      ∃ t, exec (.captureRelease m) s = .next (completeCmd t m.val 0 []) ∧ capState t = 0 ∧ t.capture.haltAt = none ∧
        t.capture.trigs = [] ∧ (∀ n ∈ captureStreams e, (getStr t n).openRec = none) ∧ Safety.SameMemory e t)

/-- A scheduled capture command or DFC_SYNC is posted, holds the timebase, waits for its tick and then acts on it. (spec/03_dvorna_mailboxes.md (R54, R60, R61 in part); spec/06_sequencer_engines.md (R153 in part); spec/13_analog_side_channels.md (R299 in part)) -/
def Obligations.ScheduledCommandsWaitAndAct : Prop :=
  (∀ (m : Fin 16) (s e : State) (c : Instr × Nat), c ∈ [(Instr.captureStop m, 0x0603), (Instr.captureForceTrigger m, 0x0604)] →
    fwStarts s m.val = true → cmdOpcode s m.val = c.2 → e = startCmd s m.val → cmdSched e m.val = true →
    cmdExecTick e m.val < 2 ^ 56 → cmdExecTick e m.val ≤ now e + 2 ^ 32 →
    (capState e = 2 ∨ (capState e = 3 ∧ c.2 = 0x0603)) → Safety.NoneHolds e [.capture, .timebase] →
    (now e + 3 ≤ cmdExecTick e m.val →
      exec c.1 s = .next (holdCmd (wr64 e (mR m.val 0x20) (now e)) m.val (.scheduled (cmdExecTick e m.val)) [.capture, .timebase])) ∧
    (cmdExecTick e m.val < now e + 3 →
      exec c.1 s = .next (completeCmd e m.val 4 (0xFFFFFFFF :: words2 (now e + 3))))) ∧
  (∀ (m : Fin 16) (s : State) (c : RunCmd) (x : Tick), s.running = [c] → c.m = m.val → c.wait = .scheduled x →
    (now s < x → exec (.scheduledCommandExecution m) s = .next s) ∧
    (x ≤ now s → c.op = 0x0604 → capState s = 2 → exec (.scheduledCommandExecution m) s =
      .next (completeCmd { s with capture := { s.capture with
        asserts := s.capture.asserts ++ [{ t := x, src := 0x100, origin := 0 }] } } m.val 0 (words2 (x * 256)))) ∧
    (x ≤ now s → c.op = 0x0604 → capState s ≠ 2 → exec (.scheduledCommandExecution m) s =
      .next (completeCmd s m.val 5 [capState s])) ∧
    (x ≤ now s → c.op = 0x0603 → (capState s = 2 ∨ capState s = 3) → exec (.scheduledCommandExecution m) s =
      .next (completeCmd (captureHalt s 2) m.val 0 (words2 x))) ∧
    (x ≤ now s → c.op = 0x0903 → domReady s 20 = true → exec (.scheduledCommandExecution m) s =
      .next (completeCmd (forEach (chainMask (arg64 s m.val 0)) s (fun t j => if 2 ≤ dfcState t j then
        setDfc t j { getDfc t j with resets := (getDfc t j).resets ++ [(x : Int)] } else t)) m.val 0 (words2 x))))

/-- REPLAY_START starts a job on idle replay engines and returns its number; REPLAY_STOP asks a running job to end. (spec/11_replay_and_search.md (R254, R256, R257, R264 in part); spec/03_dvorna_mailboxes.md (R69 in part)) -/
def Obligations.ReplayCommands : Prop :=
  ∀ (m : Fin 16) (s e : State),
    (Safety.Executing s m.val 0x0701 e →
      let es := argMask e m.val 0
      let r0 := arg e m.val 8
      let n := arg e m.val 9
      let res := arg e m.val 14
      es ≠ [] → partConsist e es = false → r0 < 32768 → r0 + n ≤ 32768 → 1 ≤ n → n ≤ 256 →
      arg64 e m.val 10 ≤ arg64 e m.val 12 → res < 32768 → (res < r0 ∨ r0 + n ≤ res) →
      Safety.Ready e (domRing :: es.map domSeq ++ es.map domLink) →
      (∀ x ∈ es, engReplay e x = true ∧ (getEng e x).job = none ∧ laneFmt e x ≠ 0) →
      ringExists e res = true → streamsOfRing e res = [] →
      (∀ r, r0 ≤ r → r < r0 + n → ringExists e r = true → ringAuto e r = true → streamsOfRing e r = [] ∨ capActive e = false) →
      Safety.NoneHolds e (es.map Res.engine ++ es.map Res.lane ++ (res :: (List.range n).map (fun i => r0 + i)).map Res.ring) →
      ∀ j, (List.range 16).find? (fun j => (getJob e j).state != 1) = some j →
      ∃ t, exec (.replayStart m) s = .next (completeCmd t m.val 0 [j]) ∧ (getJob t j).state = 1 ∧
        (getJob t j).engines = argMask e m.val 0 ∧ (getJob t j).result = arg e m.val 14 ∧
        (getJob t j).rs = tickOfTs (BitVec.ofNat 64 (arg64 e m.val 10)) ∧
        (getJob t j).re = tickOfTs (BitVec.ofNat 64 (arg64 e m.val 12)) ∧ (getJob t j).next = (getJob t j).rs ∧
        (∀ x ∈ argMask e m.val 0, (getEng t x).job = some j) ∧ Safety.SameMemory e t) ∧
    (Safety.Executing s m.val 0x0702 e → arg e m.val 0 < 16 → (getJob e (arg e m.val 0)).state = 1 →
      exec (.replayStop m) s = .next (completeCmd
        (setJob e (arg e m.val 0) { getJob e (arg e m.val 0) with
          endReq := if (getJob e (arg e m.val 0)).endReq = 4 then 4 else 3 }) m.val 0
        (jobReached e (getJob e (arg e m.val 0)))))

/-- TIU_CONFIG and TIU_MEASURE set the input and calibrate it, waiting; TIU_STOP ends a running measurement. (spec/12_time_interval_unit.md (R266, R267, R268, R270, R271, R272 in part); spec/03_dvorna_mailboxes.md (R69 in part)) -/
def Obligations.TiuCommands : Prop :=
  ∀ (m : Fin 16) (s e : State),
    let i := arg e m.val 0
    (Safety.Executing s m.val 0x0801 e → arg e m.val 1 ≤ 3 → (arg e m.val 2 ≤ 1 ∨ (arg e m.val 2 = 2 ∧ arg e m.val 1 = 0)) →
      i ≤ 63 → domReady e 19 = true → tiuState e i = tiuIDLE → Safety.NoneHolds e [.tiu i] →
      rdBit e (memBistR 5) 31 = false →
      ∃ t, exec (.tiuConfig m) s = .next (holdCmd t m.val (.tiuCal [i] false) [.tiu i]) ∧ tiuPrescale t i = arg e m.val 1 ∧
        tiuEdgeSel t i = arg e m.val 2 ∧ tiuState t i = tiuCALIBRATING ∧ (getTiu t i).calFrom = now e ∧
        Safety.RegsOnlyAt e t [tiuR i 0]) ∧
    (Safety.Executing s m.val 0x0802 e →
      let ty := arg e m.val 2 % 8
      let ins := if ty = 1 then [i, arg e m.val 1] else [i]
      arg e m.val 2 ∈ [0, 1, 2, 3, 4, 0x101, 0x102, 0x103] → (ty = 1 → arg e m.val 1 ≠ i ∧ arg e m.val 1 ≤ 63) →
      (2 ≤ ty → tiuEdgeSel e i ≠ 2) → (ty = 3 → tiuPrescale e i = 0) →
      i ≤ 63 → 1 ≤ arg e m.val 3 → arg e m.val 3 ≤ 16777216 → 1000 ≤ arg64 e m.val 4 → arg64 e m.val 4 ≤ 10000000000 →
      arg e m.val 6 ≤ 32767 → domReady e 19 = true → (∀ k ∈ ins, tiuState e k = tiuIDLE) →
      (strBound e (tiuStream i) = true ∨ ringExists e (arg e m.val 6) = true) →
      let held := ins.map Res.tiu ++ (if strBound e (tiuStream i) then [] else [Res.ring (arg e m.val 6)])
      Safety.NoneHolds e held → rdBit e (memBistR 5) 31 = false →
      ∃ t, exec (.tiuMeasure m) s = .next (holdCmd t m.val (.tiuCal ins true) held) ∧
        (getTiu t i).typ = ty ∧ (getTiu t i).each = decide (0x100 ≤ arg e m.val 2) ∧ (getTiu t i).n = arg e m.val 3 ∧
        (getTiu t i).gate = arg64 e m.val 4 ∧ (getTiu t i).ring = arg e m.val 6 ∧ (ty = 1 → (getTiu t i).stopIn = arg e m.val 1) ∧
        (∀ k ∈ ins, tiuState t k = tiuCALIBRATING ∧ (getTiu t k).calFrom = now e) ∧
        Safety.RegsOnlyAt e t (ins.map (fun k => tiuR k 0))) ∧
    (Safety.Executing s m.val 0x0803 e → i ≤ 63 → domReady e 19 = true → tiuState e i = tiuMEASURING →
      Safety.NoneHolds e [.tiu i] →
      (tiuState (tiuJudgeAll e) i = tiuMEASURING →
        exec (.tiuStop m) s = .next (completeCmd (tiuEnd (tiuJudgeAll e) i 3 tiuIDLE) m.val 0 [])) ∧
      (tiuState (tiuJudgeAll e) i ≠ tiuMEASURING → exec (.tiuStop m) s = .next (completeCmd (tiuJudgeAll e) m.val 0 [])) ∧
      ((∀ p ∈ e.tiu, p.2.queue = []) → tiuJudgeAll e = e))

/-- DFC_CONFIG, DFC_THRESHOLD and DFC_SYNC set a chain up, idle it, store its thresholds and set its restart. (spec/13_analog_side_channels.md (R285, R286, R287, R289, R292, R293, R298, R299 in part); spec/03_dvorna_mailboxes.md (R69 in part)) -/
def Obligations.ChainCommands : Prop :=
  ∀ (m : Fin 16) (s e : State), domReady e 20 = true →
    let j := arg e m.val 0
    let a4 := arg e m.val 4
    let a5 := arg e m.val 5
    let path := arg e m.val 3
    let r := arg e m.val 6
    let own := (List.range 16).map (fun i => dfcR j (4 * i)) ++ [evtR (624 + j / 8)]
    let cfg := dfcR j (0x14 + 8 * arg e m.val 1)
    (∀ lane ch l k : Nat, Safety.Executing s m.val 0x0901 e → j ≤ 63 → lane < 256 → ch ≤ 1 → arg e m.val 1 = lane * 256 + ch →
      laneFmt e lane = 3 → arg e m.val 2 = l + 256 * k → l ∈ [0, 3, 5, 7, 9] → k ≤ l →
      (path ≤ 3 ∧ a4 = 0 ∧ a5 = 0) ∨ (path = 5 ∧ 1 ≤ a4 ∧ a4 ≤ 65536 ∧ a5 = 0) ∨
        (path = 4 ∧ a4 < 2 ^ 24 ∧ a5 < 2 ^ 27 ∧ 1 ≤ a5 / 2 ^ 16 ∧ a5 / 2 ^ 16 ≤ 1024 ∧
          a5 / 2 ^ 16 * 2 ^ 24 ≤ a5 % 2 ^ 16 * 2 ^ 24 + a4 ∧ a5 % 2 ^ 16 * 2 ^ 24 + a4 < 2 * (a5 / 2 ^ 16) * 2 ^ 24) →
      (r = 0xFFFFFFFF ∨ (r ≤ 32767 ∧ (strBound e (0x240 + j) = true ∨ ringExists e r = true))) → capState e ∈ [0, 1, 4] →
      Safety.NoneHolds e (.chain j :: (if r = 0xFFFFFFFF ∨ strBound e (0x240 + j) = true then [] else [.ring r])) →
      rdBit e (memBistR 5) 31 = false →
      ∃ t, exec (.dfcConfig m) s = .next (completeCmd t m.val 0 []) ∧ dfcState t j = 2 ∧ dfcLane t j = lane ∧
        dfcChan t j = ch ∧ dfcPath t j = path ∧ (getDfc t j).rankL = l ∧ (getDfc t j).rankK = k ∧
        (getDfc t j).param0 = BitVec.ofNat 32 a4 ∧ (getDfc t j).param1 = BitVec.ofNat 32 a5 ∧
        (getDfc t j).ring = BitVec.ofNat 32 r ∧ (getDfc t j).grid = (now e : Int) ∧ (getDfc t j).inputs = [] ∧
        (getDfc t j).outIdx = 0 ∧ (getDfc t j).resets = [] ∧ (rd t (dfcR j 0x20)).toNat = (dfcT t j).toNat / 2 ^ 16 ∧
        (dfcState e j ≤ 1 → Safety.RegsOnlyAt e t [dfcR j 0, dfcR j 0x20, dfcR j 0x24, dfcR j 0x28]) ∧
        Safety.RegsOnlyAt e t own ∧ Safety.SameMemory e t) ∧
    (Safety.Executing s m.val 0x0901 e → j ≤ 63 → arg e m.val 1 = 0xFFFFFFFF → capState e ∈ [0, 1, 4] →
      Safety.NoneHolds e [.chain j] → rdBit e (memBistR 5) 31 = false →
      ∃ t, exec (.dfcConfig m) s = .next (completeCmd t m.val 0 []) ∧ dfcState t j = 1 ∧
        rdBit t (dfcR j 0) 4 = false ∧ rdBit t (dfcR j 0) 5 = false ∧ (getDfc t j).inputs = [] ∧ (getDfc t j).resets = [] ∧
        (dfcState e j ≤ 1 → Safety.RegsOnlyAt e t [dfcR j 0]) ∧ Safety.RegsOnlyAt e t own ∧ Safety.SameMemory e t) ∧
    (Safety.Executing s m.val 0x0902 e → j ≤ 63 → arg e m.val 1 ≤ 1 → path < 2 ^ 26 →
      (arg e m.val 2 ≤ 0x7FFFFF ∨ 0xFF800000 ≤ arg e m.val 2) → (path / 2 ^ 25 = 1 ∨ (24 ≤ a4 ∧ a4 ≤ 55)) →
      Safety.NoneHolds e [.chain j] →
      ∃ t, exec (.dfcThreshold m) s = .next (completeCmd t m.val 0 []) ∧
        (rd t (dfcR j (0x10 + 8 * arg e m.val 1))).toNat = arg e m.val 2 ∧ rdF t cfg 0 24 = path % 2 ^ 24 ∧
        rdBit t cfg 30 = decide (path / 2 ^ 24 % 2 = 1) ∧ rdBit t cfg 31 = decide (path / 2 ^ 25 = 0) ∧
        rdF t cfg 24 6 = (if path / 2 ^ 25 = 0 then a4 else rdF e cfg 24 6) ∧ t.dfc = e.dfc ∧
        Safety.RegsOnlyAt e t [dfcR j (0x10 + 8 * arg e m.val 1), cfg] ∧ Safety.SameMemory e t) ∧
    (Safety.Executing s m.val 0x0903 e → arg64 e m.val 0 ≠ 0 →
      Safety.NoneHolds e ((chainMask (arg64 e m.val 0)).map Res.chain) →
      exec (.dfcSync m) s = .next (completeCmd (forEach (chainMask (arg64 e m.val 0)) e
        (fun t j => if 2 ≤ dfcState t j then
          setDfc t j { getDfc t j with resets := (getDfc t j).resets ++ [(now e : Int)] } else t)) m.val 0 (words2 (now e))))

/-- DEFLATE_JOB and INFLATE_JOB start a job on an idle engine with cleared counters; DEFLATE_FLUSH ends the open block. (spec/14_deflate_engines.md (R301, R302, R304, R309, R312, R314 in part); spec/03_dvorna_mailboxes.md (R69 in part)) -/
def Obligations.DeflateCommands : Prop :=
  ∀ (m : Fin 16) (s e : State), domReady e 21 = true →
    let k := arg e m.val 0
    let a1 := arg e m.val 1
    let d := arg e m.val 5
    let ir := arg e m.val 3
    k ≤ 15 → rdBit e (memBistR 4) 31 = false →
    (Safety.Executing s m.val 0x0A01 e → domReady e 22 = true → arg e m.val 2 ≤ 1 → arg e m.val 3 ≤ 1 → arg e m.val 4 ≤ 1 →
      a1 ≤ 32767 → dflState e k = 1 → ringExists e a1 = true →
      (∀ x < 16, dflState e x = 2 → dflSrc e x ≠ a1) →
      (ringAuto e a1 = true → streamsOfRing e a1 = [] ∨ capActive e = false) →
      (if arg e m.val 4 = 1 then d ≤ 31 ∧ chanHolder e d = none
        else d ≤ 32767 ∧ d ≠ a1 ∧ ringExists e d = true ∧ streamsOfRing e d = []) →
      Safety.NoneHolds e (if arg e m.val 4 = 1 then [.deflate k, .ring a1] else [.deflate k, .ring a1, .ring d]) →
      ∃ t, exec (.deflateJob m) s = .next (completeCmd t m.val 0 []) ∧ dflState t k = 2 ∧
        dflZlib t k = decide (arg e m.val 3 = 1) ∧ dflDynamic t k = decide (arg e m.val 2 = 1) ∧
        dflHost t k = decide (arg e m.val 4 = 1) ∧ dflSrc t k = a1 ∧ dflDest t k = d ∧
        (∀ o ∈ [0x10, 0x14, 0x18, 0x1C, 0x20, 0x24, 0x28], rd t (dflR k o) = 0) ∧ rd t (dflR k 0x2C) = 1 ∧
        getDfl t k = { DflCore.init with readPtr := ringRD e a1, lastRead := now e } ∧
        (arg e m.val 4 = 1 → rdBit t (dmaR d 0x18) 20 = true ∧ rdF t (dmaR d 0x18) 16 4 = k) ∧
        Safety.RegsOnlyAt e t ((if arg e m.val 4 = 1 then [dmaR d 0x18] else []) ++
          [0, 4, 0x10, 0x14, 0x18, 0x1C, 0x20, 0x24, 0x28, 0x2C].map (dflR k)) ∧
        Safety.SameMemory e t) ∧
    (Safety.Executing s m.val 0x0A02 e → domReady e 22 = true → arg e m.val 2 ≤ 1 → a1 ≤ 31 → ir ≤ 32767 →
      dflState e k = 1 → chanHolder e a1 = none → ringExists e ir = true → streamsOfRing e ir = [] →
      Safety.NoneHolds e [.deflate k, .ring ir] →
      ∃ t, exec (.inflateJob m) s = .next (completeCmd t m.val 0 []) ∧ dflState t k = 3 ∧
        dflZlib t k = decide (arg e m.val 2 = 1) ∧ dflSrc t k = a1 ∧ dflDest t k = ir ∧
        (∀ o ∈ [0x10, 0x14, 0x18, 0x1C, 0x20, 0x24, 0x28], rd t (dflR k o) = 0) ∧ rd t (dflR k 0x2C) = 1 ∧
        (getDfl t k).inBytes = [] ∧ rdBit t (dmaR a1 0x18) 20 = true ∧ rdF t (dmaR a1 0x18) 16 4 = k ∧
        Safety.RegsOnlyAt e t (dmaR a1 0x18 :: [0, 4, 0x10, 0x14, 0x18, 0x1C, 0x20, 0x24, 0x28, 0x2C].map (dflR k)) ∧ Safety.SameMemory e t) ∧
    (Safety.Executing s m.val 0x0A03 e → dflState e k = 2 → Safety.NoneHolds e [.deflate k] →
      ((getDfl e k).buf = [] → exec (.deflateFlush m) s = .next (dflEvent (completeCmd e m.val 0 []) k 4)) ∧
      ((getDfl e k).buf ≠ [] → exec (.deflateFlush m) s =
        .next (holdCmd (setDfl e k { getDfl e k with flushReq := true }) m.val (.deflateFlush k) [.deflate k])))

/-- MEMTEST_RUN starts a job; each region finished advances it, and a failing one is recorded and moved to a spare row if one is free. (spec/17_onchip_memory_test.md (R359, R360, R361, R362, R363 in part); spec/03_dvorna_mailboxes.md (R69 in part)) -/
def Obligations.MemoryTestRuns : Prop :=
  (∀ (m : Fin 16) (s e : State), Safety.Executing s m.val 0x0B01 e →
    let mem := arg e m.val 0
    let r := arg e m.val 1
    let n := arg e m.val 2
    mem ≤ 5 → r < mtRegions mem → n ≠ 0 → r + n ≤ mtRegions mem →
    (∀ i < n, ∀ d ∈ mtDoms mem (r + i), domReady e d = true) → e.mt = none → Safety.NoneHolds e [.memtest] →
    ∃ t, exec (.memtestRun m) s = .next (completeCmd t m.val 0 []) ∧
      t.mt = some { memory := mem, first := r, count := n, done := 0, faulty := 0 } ∧ rdF t 0xB004 0 2 = 1 ∧
      rdF t 0xB004 4 3 = mem ∧ rdF t 0xB004 16 14 = r ∧ Safety.RegsOnlyAt e t [0xB004] ∧ Safety.SameMemory e t) ∧
  (∀ (s : State) (j : MtJob) (fails : Bool), s.mt = some j → j.memory ≤ 5 → j.first + j.count ≤ mtRegions j.memory → j.done < j.count →
    (∀ x ∈ s.spares, ∀ y ∈ s.spares, x.memory = y.memory → x.region = y.region → x = y) →
    ∃ t, exec (.memtestRegion fails) s = .next t ∧
      (j.done + 1 < j.count → t.mt = some { j with done := j.done + 1, faulty := j.faulty + b2n fails } ∧
        rdF t 0xB004 16 14 = j.first + j.done + 1 ∧ rdF t 0xB004 0 2 = rdF s 0xB004 0 2) ∧
      (j.count ≤ j.done + 1 → t.mt = none ∧
        t.mtLast = some { j with done := j.done + 1, faulty := j.faulty + b2n fails } ∧ rdF t 0xB004 0 2 = 2 ∧
        rdBit t MT_EVENT 0 = true) ∧
      (fails = true → (rd t MT_LAST_FAULT).toNat = j.memory * 2 ^ 28 + j.first + j.done ∧
        (∀ row, freeSpare { s with spares := s.spares.filter (fun y => some y != spareOf s j.memory (j.first + j.done)) }
            j.memory (j.first + j.done) ((spareOf s j.memory (j.first + j.done)).map Spare.row) = some row →
          rdBit t MT_EVENT 1 = true ∧ spareOf t j.memory (j.first + j.done) =
            some { memory := j.memory, row := row, region := j.first + j.done }) ∧
        (freeSpare { s with spares := s.spares.filter (fun y => some y != spareOf s j.memory (j.first + j.done)) }
            j.memory (j.first + j.done) ((spareOf s j.memory (j.first + j.done)).map Spare.row) = none →
          rdBit t MT_EVENT 2 = true)) ∧
      (fails = false → t.spares = s.spares ∧ rd t MT_LAST_FAULT = rd s MT_LAST_FAULT) ∧ Safety.SameMemory s t)

/-- The gate commands: challenge, response, password, unlock and lock, with GATE_STATUS following. (spec/19_access_gates.md (R380, R382, R383, R386, R387, R388, R389 in part); spec/03_dvorna_mailboxes.md (R56, R69 in part)) -/
def Obligations.GatesOpenAndClose : Prop :=
  ∀ (m : Fin 16) (s e : State), Safety.NoneHolds e [.gates] →
    let p := BitVec.ofNat 128 (arg64 e m.val 0 + 2 ^ 64 * arg64 e m.val 2)
    (Safety.Executing s m.val 0x0C01 e → fuseRestricted e = false → e.gates.svcOpen = false →
      exec (.gateChallenge m) s = .next (completeCmd (setGates { e with freeCtr := e.freeCtr + 1 }
        { e.gates with nonce := some (Config.nonce e.freeCtr), nonceAt := e.ns }) m.val 0
        ((List.range 8).map (fun k => ((Config.nonce e.freeCtr).extractLsb' (32 * k) 32).toNat)))) ∧
    (∀ n, Safety.Executing s m.val 0x0C02 e → e.gates.nonce = some n →
      (argBytes e m.val 8 = hmacSha256 (bytes256 Config.fuseKey) (bytes256 n) →
        exec (.gateResponse m) s = .next (completeCmd (setGates e { e.gates with nonce := none, svcOpen := true }) m.val 0
          [gateWord { e with gates := { e.gates with nonce := none, svcOpen := true } }])) ∧
      (argBytes e m.val 8 ≠ hmacSha256 (bytes256 Config.fuseKey) (bytes256 n) →
        exec (.gateResponse m) s =
          .next (completeCmd (ctrAdd (setGates e { e.gates with nonce := none }) GATE_FAIL 1) m.val 7 [0]))) ∧
    (Safety.Executing s m.val 0x0C03 e → e.gates.svcOpen = false → p ≠ 0 → e.gates.pwd = none →
      e.gates.custRestricted = false →
      exec (.gatePasswordSet m) s = .next (completeCmd (setGates e
        { e.gates with pwd := some p, custOpen := false, savedPwd := p, saving := true }) m.val 0 [])) ∧
    (Safety.Executing s m.val 0x0C03 e → e.gates.svcOpen = true →
      exec (.gatePasswordSet m) s =
        .next (completeCmd (setGates e { e.gates with savedPwd := p, saving := true }) m.val 0 [])) ∧
    (∀ w, Safety.Executing s m.val 0x0C04 e → e.gates.custRestricted = false → e.gates.pwd = some w →
      (w = p → exec (.gateUnlock m) s = .next (completeCmd (setGates e { e.gates with custOpen := true }) m.val 0
        [gateWord { e with gates := { e.gates with custOpen := true } }])) ∧
      (w ≠ p → exec (.gateUnlock m) s = .next (completeCmd (ctrAdd e GATE_FAIL 1) m.val 7 [1]))) ∧
    (Safety.Executing s m.val 0x0C05 e → arg e m.val 0 = 0 → ∃ t, exec (.gateLock m) s =
        .next (completeCmd t m.val 0 [gateWord t]) ∧ t.gates = { e.gates with svcOpen := false, nonce := none } ∧
      Safety.RegsOnlyAt e t [GATE_STATUS]) ∧
    (Safety.Executing s m.val 0x0C05 e → arg e m.val 0 = 1 → ∃ t, exec (.gateLock m) s =
        .next (completeCmd t m.val 0 [gateWord t]) ∧ t.gates.custOpen = false ∧ t.gates.svcOpen = e.gates.svcOpen ∧
      (makerCfg e ≠ savedCfg e → t.gates.saving = true) ∧ Safety.RegsOnlyAt e t [GATE_STATUS])

/-- A service opcode is LOCKED, or stops by name with the gate open; a nonce goes after 10 s; a save overwrites the older copy. (spec/03_dvorna_mailboxes.md (R56 in part); spec/19_access_gates.md (R380, R383, R386 in part)) -/
def Obligations.ServiceRangeNonceAndSave : Prop :=
  (
  ∀ (m : Fin 16) (s : State), fwStarts s m.val = true → 0x0C80 ≤ cmdOpcode s m.val → cmdOpcode s m.val ≤ 0x0CFF →
    (s.gates.svcOpen = false →
      exec (.serviceCommand m) s = .next (completeCmd (startCmd s m.val) m.val 7 [0])) ∧
    (s.gates.svcOpen = true → exec (.serviceCommand m) s = .refused .serviceEffectNotGiven)
  ) ∧ (
  (∀ (s : State) (n : BitVec 256), s.gates.nonce = some n →
    (s.gates.nonceAt + 10000000000 ≤ s.ns → ∃ t, exec .nonceExpiry s = .next t ∧ t.gates = { s.gates with nonce := none } ∧
      rdBit t GATE_STATUS 2 = false ∧ Safety.RegsOnlyAt s t [GATE_STATUS]) ∧
    (s.ns < s.gates.nonceAt + 10000000000 → exec .nonceExpiry s = .next s)) ∧
  (∀ (s : State) (v : Bool) (ga gb : Nat) (pa pb : BitVec 128) (ca cb : List Word), s.gates.saving = true → fwReady s = true →
    s.flash.a = .valid ga pa ca → s.flash.b = .valid gb pb cb →
    ∃ t, exec (.gateSave v) s = .next t ∧ t.gates = { s.gates with saving := false } ∧
      (ga < gb → t.flash.b = s.flash.b ∧
        t.flash.a = if v = true then .valid (gb + 1) s.gates.savedPwd (makerCfg s) else .damaged) ∧
      (gb ≤ ga → t.flash.a = s.flash.a ∧
        t.flash.b = if v = true then .valid (ga + 1) s.gates.savedPwd (makerCfg s) else .damaged) ∧
      (v = true → rdBit t GATE_STATUS 11 = true) ∧ Safety.RegsOnlyAt s t [GATE_STATUS])
  )

/-- LOOP_CALIBRATE takes position 0 and queues CENSUS; LOOP_POST queues the COMMAND frame and holds its resources. (spec/05_timebase_and_clocks.md (R118, R121 in part); spec/03_dvorna_mailboxes.md (R54, R56, R60, R61, R62 in part); spec/08_context_store.md (R179 in part)) -/
def Obligations.LoopCommands : Prop :=
  ∀ (m : Fin 16) (s e : State),
    (Safety.Executing s m.val 0x0D01 e → domReady e 2 = true → capState e = 0 → Safety.NoneHolds e [.loop, .timebase] →
      exec (.loopCalibrate m) s = .next (holdCmd (loopQueue
        { e with loop := { e.loop with pos := some 0, reply := none, cmds := [], was := none, late := false, done := 0 } } (mkFrame 1 0 0 0 0 0 0)) m.val
        (.census e.ns) [.loop, .timebase])) ∧
    (fwStarts s m.val = true → cmdOpcode s m.val = 0x0D03 → e = startCmd s m.val → cmdSched e m.val = true →
      let op := arg e m.val 0
      let v := if op = 0x0602 then arg e m.val 1 % 65536 * 2 ^ 48 + arg64 e m.val 2 % 2 ^ 48
        else if op = 0x0903 then arg64 e m.val 1 else 0
      let x := cmdExecTick e m.val
      let p := (loopIdleFrom e + 15) / 16 * 16 + 191
      let lead := max (3 + 12 * (e.loop.n - 1)) (if op = 0x0602 ∧ armClears e = true then 4096 else 3)
      let held := [.capture, .loop, .timebase] ++ (if op = 0x0903 then (chainMask v).map Res.chain else []) ++
        (if op = 0x0602 ∧ armClears e = true then [.ctx] else [])
      op ∈ [0x0602, 0x0603, 0x0604, 0x0903] → (op = 0x0903 → v ≠ 0 ∧ domReady e 20 = true) → x < 2 ^ 56 → p + lead ≤ x →
      x ≤ p + 2 ^ 32 → domReady e 2 = true → loopMember e = true →
      (op = 0x0602 → arg64 e m.val 2 < 2 ^ 48 ∧ Safety.Ready e (captureDomains e) ∧ (capState e = 1 ∨ capState e = 4) ∧
        Safety.StartsFree e ∧ Safety.BudgetKept e ∧ rdBit e (memBistR 0) 31 = false) →
      (op = 0x0603 → capState e = 2 ∨ capState e = 3) → (op = 0x0604 → capState e = 2) → Safety.NoneHolds e held →
      exec (.loopPost m) s = .next (holdCmd (loopQueue { e with loop := { e.loop with reply := none } }
        (mkFrame 5 (e.loop.pos.getD 0) 0 (cmdTag e m.val) x v op)) m.val (.loopPost x e.loop.n) held))

/-- A guarded register changes on a stage write followed by its matching commit, and on nothing else; every failure records its cause. (spec/02_register_model.md (R13, R36, R37, R38, R39 in part)) -/
def Obligations.GuardedWritesTakeAPair : Prop :=
  ∀ (s : State) (off : BitVec 16) (v : Word) (be : BitVec 4), memDecoded s = true →
    let o := off.toNat / 4 * 4
    let fails (i : Instr) (cause at_ : Nat) : Prop := ∃ t, exec i s = .next t ∧ t.guard = none ∧
      rdBit t SYS_ACCESS 0 = true ∧ rd t SYS_ACCESS_ADDR = BitVec.ofNat 32 (cause * 2 ^ 28 + at_) ∧
      Safety.RegsOnlyAt s t [SYS_ACCESS, SYS_ACCESS_ADDR, evtR 639] ∧ Safety.SameMemory s t
    (∀ i, i = .guardStage off v be ∨ i = .guardedCommit false off v be →
      (be ≠ 0xF → fails i 5 (0x00100000 + o)) ∧
      (be = 0xF → s.guard = none → exec i s = .next { tlpSeen s with guard := some { off := BitVec.ofNat 16 o, val := v } }) ∧
      (be = 0xF → s.guard ≠ none → fails i 4 (0x00100000 + o))) ∧
    (be ≠ 0xF → fails (.guardedCommit true off v be) 5 (0x00110000 + o)) ∧
    (be = 0xF → s.guard = none → fails (.guardedCommit true off v be) 3 (0x00110000 + o)) ∧
    (∀ l, be = 0xF → s.guard = some l →
      (o ≠ l.off.toNat → fails (.guardedCommit true off v be) 2 (0x00110000 + o)) ∧
      (o = l.off.toNat → v ≠ ~~~l.val → fails (.guardedCommit true off v be) 1 (0x00110000 + o)) ∧
      (o = l.off.toNat → v = ~~~l.val → 0x60 ≤ o → o ≠ 0x100 → (o < 0x800 ∨ 0x820 ≤ o) →
        exec (.guardedCommit true off v be) s = .next { tlpSeen s with guard := none }))

/-- A committed peer window is taken or refused with its causes; committing 1 to SYS_RESET starts a warm reset 1 us later. (spec/15_host_endpoint.md (R323, R324 in part); spec/02_register_model.md (R37 in part); spec/18_power_reset_startup.md (R374 in part)) -/
def Obligations.PeerWindowAndResetCommits : Prop :=
  (
  ∀ (s : State) (w : Fin 8) (v : Word), memDecoded s = true → s.guard = some { off := BitVec.ofNat 16 (0x800 + 4 * w.val), val := v } →
    (fld v 13 10 = 0 → (bitAt v 31 = true → (fld v 0 13 + fld v 23 7 + 1) * 64 ≤ capGib s * 1024) →
      exec (.peerWin w (~~~v)) s = .next (wr { tlpSeen s with guard := none } (peerWinR w.val) v)) ∧
    (fld v 13 10 ≠ 0 ∨ (bitAt v 31 = true ∧ capGib s * 1024 < (fld v 0 13 + fld v 23 7 + 1) * 64) →
      ∃ t, exec (.peerWin w (~~~v)) s = .next t ∧ t.guard = none ∧ rd t (peerWinR w.val) = rd s (peerWinR w.val) ∧
        rdBit t PEER_STATUS w.val = true ∧ rdBit t PCIE_EVENT 4 = true ∧
        Safety.RegsOnlyAt s t [PEER_STATUS, PCIE_EVENT, evtR 638])
  ) ∧ (
  ∀ (s : State) (u : BitVec 31), memDecoded s = true →
    s.guard = some { off := 0x100, val := BitVec.ofNat 32 (2 * u.toNat + 1) } →
    exec (.warmReset u) s = .next { tlpSeen s with
      guard := none, warmAt := if u = 0 then s.warmAt.or (some (s.ns + 1000)) else s.warmAt }
  )

/-- A matching commit to PWR_SW[d] switches the domain, changes nothing for the present value, or is refused with its cause. (spec/18_power_reset_startup.md (R364, R365, R366, R367, R368, R369 in part); spec/02_register_model.md (R37 in part)) -/
def Obligations.PowerCommits : Prop :=
  ∀ (s : State) (d : Fin 24) (u : BitVec 31), memDecoded s = true →
    let on := BitVec.ofNat 32 (2 * u.toNat + 1)
    let off := BitVec.ofNat 32 (2 * u.toNat)
    let s0 := { tlpSeen s with guard := none }
    let refused (cause : Nat) : State := hwOr (wrF (wrF s0 PWR_REFUSE 0 5 d.val) PWR_REFUSE 8 4 cause) PWR_REFUSE 0x80000000
    (s.guard = some { off := BitVec.ofNat 16 (4 * d.val), val := on } →
      (u ≠ 0 → exec (.powerDomainOn d u) s = .next (refused 1)) ∧
      (u = 0 → (d.val < 2 ∨ domOn s d.val = true) → ∃ t, exec (.powerDomainOn d u) s = .next t ∧ t.regs = s.regs ∧ t.guard = none) ∧
      (u = 0 → 2 ≤ d.val → domOn s d.val = false →
        ((∃ p, domPrereq d.val = some p ∧ domReady s p = false) → exec (.powerDomainOn d u) s = .next (refused 3)) ∧
        ((∀ p, domPrereq d.val = some p → domReady s p = true) →
          (rdBit s THERM_STATUS 31 = true → exec (.powerDomainOn d u) s = .next (refused 5)) ∧
          (rdBit s THERM_STATUS 31 = false → ∃ t, exec (.powerDomainOn d u) s = .next t ∧ t.guard = none ∧
            domOn t d.val = true ∧ (d.val ∉ [16, 17, 18] →
              tabGet 0 t.ramp d.val = max s.ns (tabGet 0 s.disch d.val) + 20000 ∧ Safety.RegsOnlyAt s t [PWR_ON]))))) ∧
    (s.guard = some { off := BitVec.ofNat 16 (4 * d.val), val := off } →
      (u ≠ 0 → exec (.powerDomainOff d u) s = .next (refused 1)) ∧
      (u = 0 → d.val < 2 → exec (.powerDomainOff d u) s = .next (refused 2)) ∧
      (u = 0 → 2 ≤ d.val → domOn s d.val = false →
        ∃ t, exec (.powerDomainOff d u) s = .next t ∧ t.regs = s.regs ∧ t.guard = none) ∧
      (u = 0 → 2 ≤ d.val → domOn s d.val = true → domDependants s d.val ≠ [] →
        exec (.powerDomainOff d u) s = .next (refused 4)) ∧
      (u = 0 → 2 ≤ d.val → domOn s d.val = true → domDependants s d.val = [] →
        ∃ t, exec (.powerDomainOff d u) s = .next t ∧ domOn t d.val = false ∧ domReady t d.val = false ∧
          tabGet 0 t.disch d.val = s.ns + 20000 ∧
          (capActive s = true → captureUses s d.val = true → s.capture.haltAt = none → s.capture.trigs = [] → capState t = 4)))

/-- BIST_COMPLETE after the ramp records repairs and failures, and the domain becomes ready once its PLL has locked. (spec/17_onchip_memory_test.md (R357, R358, R361 in part); spec/18_power_reset_startup.md (R364, R368, R369 in part)) -/
def Obligations.BistMakesADomainReady : Prop :=
  ∀ (s : State) (d : Fin 24) (cols : BitVec 16) (bad : List (Fin 16384)),
    (s.ns < tabGet 0 s.ramp d.val ∨ d.val < 2 ∨ domOn s d.val = false ∨ d.val ∈ s.inits →
      exec (.bistComplete d cols bad) s = .next s) ∧
    (2 ≤ d.val → domOn s d.val = true → tabGet 0 s.ramp d.val ≤ s.ns → d.val ∉ s.inits →
      ∃ t, exec (.bistComplete d cols bad) s = .next t ∧ d.val ∈ t.inits ∧ Safety.SameMemory s t ∧
        ((∀ k, domPll d.val = some k → pllLocked s k = true) → thermTripped s = false → domReady t d.val = true) ∧
        (∀ m, bistMemory d.val = some m →
          rdF t (memBistR m) 0 16 = (if s.fuses.aOk = true ∨ s.fuses.bOk = true then cols.toNat else 0) ∧
          (rdBit t (memBistR m) 31 = true ↔
            (∃ r ∈ bad, r.val < mtRegions m ∧ d.val ∈ mtDoms m r.val ∧ spareOf t m r.val = none) ∨
              ∃ e ∈ s.bistFailed, e ≠ d.val ∧ bistMemory e = some m)))

/-- FLR and cold reset leave every register at its reset value but those the spec keeps, and show their origin. (spec/18_power_reset_startup.md (R373, R374, R376, R377, R378 in part); spec/15_host_endpoint.md (R320 in part); spec/19_access_gates.md (R383 in part); spec/17_onchip_memory_test.md (R356, R363 in part)) -/
def Obligations.ResetsLeaveTheResetValues : Prop :=
  (∀ (s : State) (c : FlrCause), ∃ t, exec (.flr c) s = .next t ∧
    (∀ o, keptAtWarm o = false → o ∉ [SYS_BOOT, PCIE_STATUS] → rd t o = resetVal o) ∧
    (∀ o, keptAtWarm o = true → o ∉ [MT_STATUS, MT_EVENT] → rd t o = rd s o) ∧
    rdF t SYS_BOOT 8 2 = 3 ∧ t.time = 0 ∧ t.stratus = [] ∧ t.cirrus = [] ∧ t.running = [] ∧ t.posted = [] ∧ t.guard = none ∧
    t.gates.svcOpen = false ∧ t.gates.nonce = none ∧ t.gates.pwd = s.gates.pwd ∧ t.fuses = s.fuses ∧ t.flash = s.flash ∧
    t.spares = s.spares ∧ t.pending = s.pending ∧ rdF t PCIE_STATUS 0 9 = (if c = .linkDown then 0 else rdF s PCIE_STATUS 0 9)) ∧
  (∀ (s : State) (por : Bool) (smb : BitVec 2), ∃ t, exec (.coldReset por smb) s = .next t ∧
    (∀ o, o ∉ [SYS_BOOT, FUSE_STATUS, THERM_STATUS] → rd t o = resetVal o) ∧
    rdF t SYS_BOOT 8 2 = (if por then 0 else 1) ∧ (rd t FUSE_STATUS).toNat = fuseStatus s ∧
    rdBit t THERM_STATUS 29 = (!por && (rdBit s THERM_STATUS 31 || rdBit s THERM_STATUS 29)) ∧
    rdBit t THERM_STATUS 31 = false ∧ t.time = 0 ∧ t.stratus = [] ∧ t.cirrus = [] ∧ t.running = [] ∧ t.posted = [] ∧
    t.guard = none ∧ t.gates.svcOpen = false ∧ t.gates.nonce = none ∧ t.fuses = s.fuses ∧ t.flash = s.flash ∧
    t.spares = [] ∧ t.pending = s.pending ∧ t.smbAddr = (if por then smb else s.smbAddr))

/-- A register write sets the RW bits, clears the W1C bits written 1 and loads counters, under its byte enables, and changes no other register. (spec/02_register_model.md (R13, R14, R31, R34, R45 in part); spec/15_host_endpoint.md (R321, R322, R339 in part); spec/16_events_and_msix.md (R350 in part); spec/19_access_gates.md (R380, R385 in part)) -/
def Obligations.HostWritesFollowTheAccessCodes : Prop :=
  ∀ (s : State) (v : Word) (be : BitVec 4),
    (∀ tg, memDecoded s = false → exec (.registerWrite tg v (be, none) .clean) s = .next (unsupported s true)) ∧
    (∀ tg, memDecoded s = true → ∃ t, exec (.registerWrite tg v (be, none) .poisoned) s = .next t ∧
      (rd t PCIE_POISON_RX).toNat = min (2 ^ 32 - 1) ((rd s PCIE_POISON_RX).toNat + 1) ∧ bitAt (cfgRead t 0x41) 12 = true ∧
      t.guard = s.guard ∧ t.pcie.msix = s.pcie.msix ∧ Safety.RegsOnlyAt s t [PCIE_POISON_RX, PCIE_EVENT, evtR 638]) ∧
    (∀ tg, ecrcChecked s = true → ∃ t, exec (.registerWrite tg v (be, none) .ecrcFails) s = .next t ∧
      bitAt (cfgRead t 0x41) 19 = true ∧ t.regs = s.regs ∧ t.guard = s.guard ∧ t.pcie.msix = s.pcie.msix) ∧
    (∀ tg, ecrcChecked s = false →
      exec (.registerWrite tg v (be, none) .ecrcFails) s = exec (.registerWrite tg v (be, none) .clean) s) ∧
    (memDecoded s = true →
      (∀ off : BitVec 26,
        let a := off.toNat / 4 * 4
        let m := beMask be
        let acc := accessOf a
        (Safety.PlainRegister s a → acc.ctr = false → ∃ t, exec (.registerWrite (.bar0 off) v (be, none) .clean) s = .next t ∧
          rd t a = ((rd s a &&& ~~~(acc.rw &&& m)) ||| (v &&& (acc.rw &&& m))) &&& ~~~(v &&& m &&& acc.w1c &&& ~~~cycBits s a) ∧
          Safety.RegsOnlyAt s t [a] ∧ Safety.SameMemory s t) ∧
        (∀ (u : Word) (ub : BitVec 4), off.toNat + 4 < 2 ^ 26 → Safety.PlainRegister s a → acc.ctr = false →
          Safety.PlainRegister s (a + 4) → (accessOf (a + 4)).ctr = false →
          ∃ t, exec (.registerWrite (.bar0 off) v (be, some (u, ub)) .clean) s = .next t ∧
            rd t a = ((rd s a &&& ~~~(acc.rw &&& m)) ||| (v &&& (acc.rw &&& m))) &&& ~~~(v &&& m &&& acc.w1c &&& ~~~cycBits s a) ∧
            rd t (a + 4) = mergeBits (rd s (a + 4)) u ((accessOf (a + 4)).rw &&& beMask ub) &&&
              ~~~(u &&& beMask ub &&& (accessOf (a + 4)).w1c &&& ~~~cycBits s (a + 4)) ∧
            Safety.RegsOnlyAt s t [a, a + 4] ∧ Safety.SameMemory s t) ∧
        (Safety.PlainRegister s a → acc.ctr = true → ctrPair a = none → tabGet 0 s.cycInc a = 0 →
          (ctrHalves a = true → tabGet 0 s.cycInc (a + 2) = 0) →
          ∃ t, exec (.registerWrite (.bar0 off) v (be, none) .clean) s = .next t ∧
            rd t a = (rd s a &&& ~~~(acc.rw &&& m)) ||| (v &&& (acc.rw &&& m)) ∧ Safety.RegsOnlyAt s t [a]) ∧
        (0xD010 ≤ a ∧ a < 0xD020 ∨ (0xD100 ≤ a ∧ a < 0xD200 ∧ custClosed s = true) →
          ∃ t, exec (.registerWrite (.bar0 off) v (be, none) .clean) s = .next t ∧ rdBit t SYS_ACCESS 1 = true ∧
            rd t SYS_ACCESS_ADDR = BitVec.ofNat 32 (7 * 2 ^ 28 + a) ∧ t.gates = s.gates ∧
            Safety.RegsOnlyAt s t [SYS_ACCESS, SYS_ACCESS_ADDR, evtR 639]) ∧
        (0xD100 ≤ a ∧ a < 0xD200 ∧ custClosed s = false →
          ∃ t, exec (.registerWrite (.bar0 off) v (be, none) .clean) s = .next t ∧ rd t a = (rd s a &&& ~~~m) ||| (v &&& m) ∧
            Safety.RegsOnlyAt s t [a, GATE_STATUS])) ∧
      (∀ off : BitVec 16,
        (off.toNat < 0x4000 → ∃ t, exec (.registerWrite (.bar4 off) v (be, none) .clean) s = .next t ∧ t.regs = s.regs ∧
          (let m := if off.toNat / 4 % 4 = 3 then 1 &&& beMask be else beMask be
           msixRead t (off.toNat / 4) = (msixRead s (off.toNat / 4) &&& ~~~m) ||| (v &&& m)) ∧
          ∀ i, i ≠ off.toNat / 4 → msixRead t i = msixRead s i) ∧
        (0x4000 ≤ off.toNat → exec (.registerWrite (.bar4 off) v (be, none) .clean) s = .next (tlpSeen s))))

/-- A write of an alias word changes one bit of one control register. (spec/02_register_model.md (R43, R36 in part); spec/19_access_gates.md (R385 in part)) -/
def Obligations.BitBandWritesOneBit : Prop :=
  ∀ (s : State) (n : BitVec 23) (v : Word), memDecoded s = true →
    let a := n.toNat / 32 * 4
    let i := n.toNat % 32
    (Safety.PlainRegister s a → (accessOf a).ctr = false → ∃ t, exec (.bitBandWrite n v) s = .next t ∧
      (∀ j, j ≠ i → rdBit t a j = rdBit s a j) ∧
      (bitAt (accessOf a).rw i = true → bitAt (accessOf a).w1c i = false → rdBit t a i = bitAt v 0) ∧
      (bitAt (accessOf a).rw i = false → bitAt (accessOf a).w1c i = true → bitAt v 0 = true → bitAt (cycBits s a) i = false →
        rdBit t a i = false) ∧
      (bitAt (accessOf a).rw i = false → (bitAt (accessOf a).w1c i = false ∨ bitAt v 0 = false ∨ bitAt (cycBits s a) i = true) →
        rdBit t a i = rdBit s a i) ∧
      Safety.RegsOnlyAt s t [a]) ∧
    (0xD010 ≤ a → a < 0xD020 → ∃ t, exec (.bitBandWrite n v) s = .next t ∧ rdBit t SYS_ACCESS 1 = true ∧
      rd t SYS_ACCESS_ADDR = BitVec.ofNat 32 (6 * 2 ^ 28 + 0x02000000 + 4 * n.toNat) ∧
      Safety.RegsOnlyAt s t [SYS_ACCESS, SYS_ACCESS_ADDR, evtR 639])

/-- Blocks of a switched-off domain read zero, ignore writes and set DOMOFF; control, guarded block and mailboxes are always readable. (R33) -/
def Obligations.BlocksSwitchedOffReadZero : Prop :=
  (∀ (s : State) (off : BitVec 26), memDecoded s = true → offDomain off.toNat ≠ 0 → domOn s (offDomain off.toNat) = false →
    (∀ be, ∃ t, exec (.domoff off (.reads be none)) s = .next t ∧ t.readData = 0 ∧ t.pcie.cpl = some (.regs [(0, be)]) ∧
      rdBit t SYS_ACCESS 2 = true ∧ Safety.RegsOnlyAt s t [SYS_ACCESS] ∧ Safety.SameMemory s t) ∧
    (∃ t, exec (.domoff off .writes) s = .next t ∧ rdBit t SYS_ACCESS 2 = true ∧ Safety.RegsOnlyAt s t [SYS_ACCESS] ∧
      Safety.SameMemory s t) ∧
    (∀ v be, ∃ t, exec (.registerWrite (.bar0 off) v (be, none) .clean) s = .next t ∧ rdBit t SYS_ACCESS 2 = true ∧
      Safety.RegsOnlyAt s t [SYS_ACCESS] ∧ Safety.SameMemory s t)) ∧
  (∀ (s : State) (off : BitVec 26), memDecoded s = true →
    (off.toNat < 0x00120000 ∨ (0x00200000 ≤ off.toNat ∧ off.toNat < 0x00210000)) →
    ∀ be, ∃ t, exec (.domoff off (.reads be none)) s = .next t ∧ t.readData = bar0Read s off.toNat ∧ t.regs = s.regs ∧
      t.pcie.cpl = some (.regs [(bar0Read s off.toNat &&& beMask be, be)]) ∧
      (0x00200000 ≤ off.toNat → off.toNat / 4 * 4 % 0x1000 ≠ 0x10 → t.readData = rd s (off.toNat / 4 * 4)))

/-- Doorbell operations wait in the ring and then move RD, MARK and REL as the table gives; RING_HEAD reads the word at RD or the idle item. (spec/10_rings.md (R236, R243, R246, R247, R251, R237 in part); spec/02_register_model.md (R32 in part)) -/
def Obligations.ConsumersMovePointersAndReadTheHead : Prop :=
  (
  ∀ (s : State) (r : Fin 32768) (n : BitVec 24) (op : BitVec 4), memDecoded s = true → blockOff s (rR r.val 0) = false →
    let ops : List (Instr × Nat) := [(.ringDoorbellNone r, 0), (.advance r n, 2 ^ 28 + n.toNat), (.mark r, 2 * 2 ^ 28),
      (.rewind r, 3 * 2 ^ 28), (.release r, 4 * 2 ^ 28), (.consume r n, 5 * 2 ^ 28 + n.toNat),
      (.ringDoorbellReserved r op, max 6 op.toNat * 2 ^ 28)]
    ∀ p ∈ ops,
      (ringExists s r.val = false → exec p.1 s = .next (tlpSeen s)) ∧
      (ringExists s r.val = true → ∃ t, exec p.1 s = .next t ∧ t.regs = s.regs ∧
        (getRing t r.val).ops = (getRing s r.val).ops ++ [BitVec.ofNat 32 p.2] ∧
        (∀ q, q ≠ r.val → getRing t q = getRing s q) ∧ Safety.SameMemory s t)
  ) ∧ (
  ∀ (s : State) (r : Fin 32768) (v : Word) (vs : List Word), (getRing s r.val).ops = v :: vs →
    let size := 2 * 2 ^ ringLog s r.val
    let n := fld v 0 24
    let op := fld v 28 4
    let t := ringApply s r.val
    let only (l : List Nat) : Prop := Safety.RegsOnlyAt s t (l.map (rR r.val))
    (getRing t r.val).ops = vs ∧ Safety.SameMemory s t ∧
    (op = 0 → t.regs = s.regs) ∧
    (op = 1 ∨ op = 5 → ringUnread s r.val < n → rdBit t (rR r.val 4) 3 = true ∧ only [4]) ∧
    (op = 1 → n ≤ ringUnread s r.val → ringRD t r.val = (ringRD s r.val + n) % size ∧ only [0x18, 0x1C]) ∧
    (op = 2 → ringMARK t r.val = ringRD s r.val ∧ only [4, 0x20, 0x24] ∧
      ((getRing s r.val).markRaise ≠ some (now s) → rd t (rR r.val 4) = rd s (rR r.val 4))) ∧
    (op = 3 → ringRD t r.val = ringMARK s r.val ∧ only [0x18, 0x1C]) ∧
    (op = 4 → ringREL t r.val = ringMARK s r.val ∧
      ringSEGBASE t r.val = (if ringDist s r.val (ringREL s r.val) (ringSEGBASE s r.val) <
        ringDist s r.val (ringREL s r.val) (ringMARK s r.val) then ringMARK s r.val else ringSEGBASE s r.val) ∧
      only [0x28, 0x2C, 0x30, 0x34]) ∧
    (op = 5 → n ≤ ringUnread s r.val → ringRD t r.val = (ringRD s r.val + n) % size ∧
      ringMARK t r.val = ringRD t r.val ∧ ringREL t r.val = ringRD t r.val ∧
      only [4, 0x18, 0x1C, 0x20, 0x24, 0x28, 0x2C, 0x30, 0x34]) ∧
    (6 ≤ op → rdBit t (rR r.val 4) 3 = true ∧ only [4])
  ) ∧ (
  ∀ (s : State) (r : Fin 32768) (high : Bool), memDecoded s = true → blockOff s (rR r.val 0) = false →
    let a := ringBase s r.val + ringRD s r.val % 2 ^ ringLog s r.val
    let w := if ringRD s r.val = ringWR s r.val then headerWord 0 0 0 0xFFF (ringSeq s r.val)
      else memReadWord (if ringCompact s r.val then s.cirrus else s.stratus) a
    ∃ t, exec (.ringHeadRead r high) s = .next t ∧
      t.readData = (if ringExists s r.val = true then BitVec.ofNat 32 (if high then w.toNat / 2 ^ 32 else w.toNat) else 0) ∧
      (ringRD s r.val = ringWR s r.val ∨ ringExists s r.val = false ∨
        (ringBadAt s r.val a = false ∧ ringCorrAt s r.val a = false) → t.regs = s.regs) ∧ Safety.SameMemory s t
  )

/-- A notice waits for the engine, RESUME acts at once, and ENG_RESET gives a lone or leading engine its start values. (spec/06_sequencer_engines.md (R147, R148, R173, R146, R170 in part); spec/18_power_reset_startup.md (R375 in part)) -/
def Obligations.NoticesAndEngineReset : Prop :=
  (
  ∀ (s : State) (e : Fin 256) (v : BitVec 5), memDecoded s = true → blockOff s (eR e.val 0) = false →
    let n := (getEng s e.val).notices
    let x := some (now s)
    (∃ t, exec (.snapshot e) s = .next t ∧ Safety.RegsOnlyAt s t [] ∧ (getEng t e.val).notices.snap = n.snap.or x ∧
      (getEng t e.val).notices.stop = n.stop ∧ (getEng t e.val).notices.level = n.level ∧ (getEng t e.val).notices.pause = n.pause) ∧
    (∃ t, exec (.stop e) s = .next t ∧ Safety.RegsOnlyAt s t [] ∧ (getEng t e.val).notices.stop = n.stop.or x ∧
      (getEng t e.val).notices.snap = n.snap ∧ (getEng t e.val).notices.level = n.level ∧ (getEng t e.val).notices.pause = n.pause) ∧
    (∃ t, exec (.pause e) s = .next t ∧ Safety.RegsOnlyAt s t [] ∧ (getEng t e.val).notices.pause = n.pause.or x ∧
      (getEng t e.val).notices.snap = n.snap ∧ (getEng t e.val).notices.level = n.level ∧ (getEng t e.val).notices.stop = n.stop) ∧
    (∃ t, exec (.forceLevel e v) s = .next t ∧ (getEng t e.val).notices.level = n.level.or x ∧
      (getEng t e.val).notices.snap = n.snap ∧ (getEng t e.val).notices.stop = n.stop ∧ (getEng t e.val).notices.pause = n.pause ∧
      rdF t (eR e.val 8) 8 5 = v.toNat ∧ Safety.RegsOnlyAt s t [eR e.val 8]) ∧
    (engRun s e.val = runPAUSED → ∃ t, exec (.resume e) s = .next t ∧ (getEng t e.val).notices.pause = none ∧
      engRun t e.val = (if (getEng s e.val).job.isSome then runREPLAY else runRUNNING) ∧ rdBit t (eR e.val 0x10) 2 = true ∧
      Safety.RegsOnlyAt s t [eR e.val 0, eR e.val 0x10, evtR (256 + e.val)]) ∧
    (engRun s e.val ≠ runPAUSED → n.pause.isSome = true → ∃ t, exec (.resume e) s = .next t ∧
      (getEng t e.val).notices.pause = none ∧ rdBit t (eR e.val 0x10) 2 = true ∧ engRun t e.val = engRun s e.val ∧
      Safety.RegsOnlyAt s t [eR e.val 0x10, evtR (256 + e.val)]) ∧
    (engRun s e.val ≠ runPAUSED → n.pause = none → ∃ t, exec (.resume e) s = .next t ∧ Safety.RegsOnlyAt s t [] ∧
      (getEng t e.val).notices.pause = none)
  ) ∧ (
  ∀ (s : State) (e : Fin 256), memDecoded s = true → blockOff s (eR e.val 0) = false →
    ((getEng s e.val).lead = e.val → engRun s e.val ≠ runREPLAY → (getEng s e.val).job = none →
      ∃ t, exec (.engReset e) s = .next t ∧
        engRun t e.val = (if engRun s e.val = runFAULT then runFAULT else runSTOPPED) ∧
        ((getEng s e.val).lvlHost ≠ some (now s) → engLevel t e.val = 0) ∧
        (∀ i < 8, hostWrote48 s (cntR e.val i) = false → cntVal t e.val i = rd64 s (cntR e.val i + 8) % 2 ^ 48) ∧
        (∀ k < 4, (hostWrote48 s (tmrR e.val k) = false → tmrVal t e.val k = 0) ∧ tmrRunning t e.val k = false) ∧ engPublish t e.val = 0 ∧
        (getEng t e.val).stack = [] ∧ (getEng t e.val).notices = Notices.none4 ∧ (getEng t e.val).reqQ = [] ∧
        (getEng t e.val).resQ = [] ∧ (getEng t e.val).cs = (getEng s e.val).cs ∧ rd t (eR e.val 0xC) = rd s (eR e.val 0xC) ∧
        (∀ o, o < eR e.val 0 ∨ eR e.val 0x4000 ≤ o → rd t o = rd s o)) ∧
    ((getEng s e.val).lead ≠ e.val ∨ engRun s e.val = runREPLAY ∨ (getEng s e.val).job.isSome = true →
      exec (.engReset e) s = .next (tlpSeen s))
  )

/-- Each next-address operation takes the engine to the address the table gives, on the word's condition. (spec/06_sequencer_engines.md (R146, R149 in part); spec/07_sequencer_microcode.md (R157, R158, R165, R168, R169 in part)) -/
def Obligations.WordsChooseTheNextAddress : Prop :=
  ∀ (e : Fin 256) (s : State), engExecutes s e.val = true →
    let c := getEng s e.val
    let err := tabGet 0 c.csErr c.pc.toNat
    let u := csWord c c.pc.toNat
    let cv := Safety.wordCond (Safety.wordState s e.val) e.val u
    let up := c.pc + 1
    let tgt := BitVec.ofNat 11 (uTARGET u)
    let rows : List (Nat × Instr × BitVec 11 × List (BitVec 11)) :=
      [(0, .inc e, up, c.stack), (1, .jump e, tgt, c.stack), (2, .brt e, if cv then tgt else up, c.stack),
       (3, .brf e, if cv then up else tgt, c.stack), (4, .call e, if cv then (tgt, up :: c.stack.take 3) else (up, c.stack)),
       (5, .ret e, if cv then (c.stack.headD (BitVec.ofNat 11 (rdF s (eR e.val 0xC) 0 11)), c.stack.drop 1) else (up, c.stack)),
       (6, .dispatch e, BitVec.ofNat 11 (uTARGET u / 32 * 32 + levelBefore s e.val), c.stack),
       (7, .wait e, if cv then tgt else c.pc, c.stack)]
    ∀ p ∈ rows,
      (uNA u ≠ p.1 → exec p.2.1 s = .next s) ∧
      (uNA u = p.1 → err = 2 → ∃ t, exec p.2.1 s = .next t ∧ engRun t e.val = runFAULT ∧ rdBit t (eR e.val 0x10) 5 = true) ∧
      (uNA u = p.1 → err ≤ 1 → ∃ t, exec p.2.1 s = .next t ∧ (getEng t e.val).pc = p.2.2.1 ∧
        (getEng t e.val).stack = p.2.2.2 ∧ (getEng t e.val).lastExec = some (now s) ∧
        rdF t (eR e.val 0) 21 11 = c.pc.toNat ∧ Safety.SameMemory s t ∧
        (err = 1 → rdBit t (eR e.val 0x10) 4 = true) ∧
        (c.job = none → uSAFE u = false → engRun t e.val = if p.1 = 7 ∧ cv = false then runWAITING else runRUNNING))

/-- The return stack holds four addresses, and its overflow and underflow are shown without stopping the engine. (R167) -/
def Obligations.StackHoldsFourAddresses : Prop :=
  (∀ (s : State) (e run : Nat), (getEng (engStart s e run) e).stack = []) ∧
  (∀ (e : Fin 256) (s : State), engExecutes s e.val = true →
    let c := getEng s e.val
    let u := csWord c c.pc.toNat
    let cv := Safety.wordCond s e.val u
    tabGet 0 c.csErr c.pc.toNat = 0 →
    (c.stack.length ≤ 4 → ∀ i ∈ [Instr.inc e, .jump e, .brt e, .brf e, .call e, .ret e, .dispatch e, .wait e],
      ∃ t, exec i s = .next t ∧ (getEng t e.val).stack.length ≤ 4) ∧
    (uNA u = 4 → cv = true → c.stack.length = 4 → ∃ t, exec (.call e) s = .next t ∧
      (getEng t e.val).pc = BitVec.ofNat 11 (uTARGET u) ∧ (getEng t e.val).stack = (c.pc + 1) :: c.stack.take 3 ∧
      rdBit t (eR e.val 0x10) 6 = true ∧
      (uSAFE u = false → engRun t e.val = if c.job.isSome then runREPLAY else runRUNNING)) ∧
    (uNA u = 5 → cv = true → c.stack = [] → ∃ t, exec (.ret e) s = .next t ∧
      (getEng t e.val).pc.toNat = rdF s (eR e.val 0xC) 0 11 ∧ rdBit t (eR e.val 0x10) 6 = true ∧
      (c.job = none → uSAFE u = false → engRun t e.val = runRUNNING)))

/-- A word's actions set LEVEL, drive the Mainline bits and operate the counters. (spec/06_sequencer_engines.md (R129, R137, R141 in part); spec/07_sequencer_microcode.md (R158, R159, R160, R163 in part)) -/
def Obligations.WordsActOnCountersLevelAndMainline : Prop :=
  ∀ (e : Fin 256) (s : State) (i : Instr), engExecutes s e.val = true →
    let c := getEng s e.val
    let u := csWord c c.pc.toNat
    tabGet 0 c.csErr c.pc.toNat = 0 → c.job = none → engReplay s e.val = false → uSAFE u = false → uACTQ u = 0 →
    (uNA u, i) ∈ [(0, Instr.inc e), (1, .jump e), (2, .brt e), (3, .brf e), (4, .call e), (5, .ret e), (6, .dispatch e), (7, .wait e)] →
    ∃ t, exec i s = .next t ∧
      (uLVLOP u = 1 → c.lvlHost ≠ some (now s) → engLevel t e.val = uLVLVAL u) ∧
      (uLVLOP u = 0 → engLevel t e.val = engLevel s e.val) ∧
      (∀ b < 4, (engPublish t e.val).testBit b =
        if (uPUBE u).testBit b then (uPUBV u).testBit b else (engPublish s e.val).testBit b) ∧
      (∀ k < 8, bitAt (rdBefore s (cntR e.val k + 0x18)) 7 = false → hostWrote s (cntR e.val k) = false →
        hostWrote s (cntR e.val k + 4) = false →
        (uCNT u k = 0 → cntVal t e.val k = cntVal s e.val k) ∧
        (uCNT u k = 1 → cntVal t e.val k = min (2 ^ 48 - 1) (cntVal s e.val k + 1)) ∧
        (uCNT u k = 2 → cntVal t e.val k = cntVal s e.val k - 1) ∧ (uCNT u k = 3 → cntVal t e.val k = 0) ∧
        (uCNT u k = 4 → cntVal t e.val k = rd64Before s (cntR e.val k + 8) % 2 ^ 48) ∧
        (5 ≤ uCNT u k → cntVal t e.val k = cntVal s e.val k)) ∧
      (uEVT u = true → rdBit t (eR e.val 0x10) 0 = true)

/-- A granted context operation waits three ticks and then changes the set as the table gives, with HIT, FULL and STATE. (spec/08_context_store.md (R181, R182, R184, R186, R187, R188 in part); spec/07_sequencer_microcode.md (R162 in part)) -/
def Obligations.ContextOperationsOnASet : Prop :=
  (∀ (m : Fin 258) (s : State) (op : Nat) (i : Instr),
    (op, i) ∈ [(1, Instr.lookup m), (2, .insert m), (3, .update m), (4, .delete m), (5, .lookupInsert m)] →
    ((∀ q, ctxCompetes s m.val = some q → q.op = op → ctxMayGrant s (ctxBank (reqSet s q)) m.val = false) →
      exec i s = .next s) ∧
    (∀ q, ctxCompetes s m.val = some q → q.op = op → ctxMayGrant s (ctxBank (reqSet s q)) m.val = true →
      ∃ t, exec i s = .next t ∧ t.ctx.sets = s.ctx.sets ∧ ctxQueue t m.val = (ctxQueue s m.val).drop 1 ∧
        t.ctx.flight = s.ctx.flight ++ [{ master := m.val, req := q, set := ctxHash q.key (ctxSeed s)
                                          limit := ctxAgeLimit s, at_ := now s }] ∧
        rd64 t CTX_GRANTS = (rd64 s CTX_GRANTS + 1) % 2 ^ 64 ∧
        (m.val < 256 → (getEng t m.val).resQ = (getEng s m.val).resQ ++
          [{ hit := false, full := false, st := 0, issued := q.issued, visible := now s + 5 }]) ∧ Safety.SameMemory s t)) ∧
  (∀ (s : State) (f : CtxFlight), s.ctx.flight = [f] →
    ctxFlightTick s = if f.at_ + 3 ≤ now s then ctxPerform { s with ctx := { s.ctx with flight := [] } } f else s) ∧
  (∀ (s : State) (f : CtxFlight), f.req.op ∈ [1, 2, 3, 4, 5] →
    let q := f.req
    let ways := ctxSet s f.set
    let F (e : CtxEntry) := (e.valid, e.key, e.st, e.stamp, e.user)
    let at_ (l : List CtxEntry) (w : Nat) := l.getD w CtxEntry.empty
    tabGet 0 s.ctx.rowErr f.set = 0 → f.limit = 0 → ways.length = 4 →
    let t := ctxPerform s f
    (∀ j, j ≠ f.set → ctxSet t j = ctxSet s j) ∧
    (f.master < 256 → ∀ r ∈ (getEng s f.master).resQ, r.visible = f.at_ + 5 →
      { r with
        hit := (findWay ways q.key).isSome
        full := decide (findWay ways q.key = none ∧ (q.op = 2 ∨ q.op = 5) ∧ freeWay ways = none)
        st := ((findWay ways q.key).map (fun w => (at_ ways w).st)).getD 0 } ∈ (getEng t f.master).resQ) ∧
    (∀ w, findWay ways q.key = some w →
      (∀ j < 4, j ≠ w → F (at_ (ctxSet t f.set) j) = F (at_ ways j)) ∧
      (q.op ≠ 4 → (at_ (ctxSet t f.set) w).rank = 0) ∧
      (q.op = 1 ∨ q.op = 5 → F (at_ (ctxSet t f.set) w) = F (at_ ways w)) ∧
      (q.op = 2 → F (at_ (ctxSet t f.set) w) = F (ctxNew q)) ∧
      (q.op = 3 → F (at_ (ctxSet t f.set) w) = F (ctxChange q (at_ ways w))) ∧
      (q.op = 4 → (at_ (ctxSet t f.set) w).valid = false)) ∧
    (findWay ways q.key = none →
      (q.op = 1 ∨ q.op = 3 ∨ q.op = 4 → ctxSet t f.set = ways) ∧
      (q.op = 2 ∨ q.op = 5 →
        (∀ w, freeWay ways = some w → F (at_ (ctxSet t f.set) w) = F (ctxNew q) ∧ (at_ (ctxSet t f.set) w).rank = 0 ∧
          ∀ j < 4, j ≠ w → F (at_ (ctxSet t f.set) j) = F (at_ ways j)) ∧
        (freeWay ways = none → s.ctx.policy = false → ctxSet t f.set = ways) ∧
        (freeWay ways = none → s.ctx.policy = true →
          F (at_ (ctxSet t f.set) (rankOldest ways)) = F (ctxNew q) ∧ (at_ (ctxSet t f.set) (rankOldest ways)).rank = 0 ∧
          ∀ j < 4, j ≠ rankOldest ways → F (at_ (ctxSet t f.set) j) = F (at_ ways j)))) ∧ Safety.SameMemory s t)

/-- A due sweep of an idle bank goes to its next row and purges the aged entries; a clear that ends frees the store. (spec/08_context_store.md (R179, R180, R192 in part)) -/
def Obligations.SweepAndClear : Prop :=
  (∀ (s : State) (b : Fin 64),
    let done := tabGet 0 s.ctx.sweepRow b.val
    let set := done % 4096 * 64 + b.val
    let r : Int := (now s : Int) - s.lrel
    let due := domReady s 15 = true ∧ ctxStep s ≠ 0 ∧ tabGet 0 s.ctx.sweepAt b.val + ctxStep s ≤ now s ∧
      ctxContenders s b.val = [] ∧ tabGet 0 s.ctx.granted b.val ≠ now s + 1
    (¬due → exec (.ctxSweepRow b) s = .next s) ∧
    (due → ∃ t, exec (.ctxSweepRow b) s = .next t ∧ tabGet 0 t.ctx.sweepRow b.val = done + 1 ∧
      tabGet 0 t.ctx.sweepAt b.val = now s ∧ (∀ j, j ≠ set → ctxSet t j = ctxSet s j) ∧
      (tabGet 0 s.ctx.rowErr set = 0 → ctxAgeLimit s = 0 →
        ctxSet t set = ctxSet s set) ∧
      (tabGet 0 s.ctx.rowErr set = 0 → ctxAgeLimit s ≠ 0 → (ctxSet s set).length = 4 →
        ∀ w < 4, let e := (ctxSet t set).getD w CtxEntry.empty
          e.valid = true → e.stamp ≠ 0 → ctxAge e r ≤ ctxAgeLimit s + 1024))) ∧
  (∀ (s : State) (c : CtxClear), domReady s 15 = true → s.ctx.clear = some c → c.from_ + 4096 ≤ now s →
    (s.running = [] → ∃ t, exec .contextStoreClearEnd s = .next t ∧ t.ctx = { s.ctx with clear := none } ∧
      rdF t CTX_STATUS 0 4 = 1 ∧ Safety.RegsOnlyAt s t [CTX_STATUS]) ∧
    (∀ x, s.running = [x] → x.wait = .clear → ∃ t, exec .contextStoreClearEnd s =
        .next (completeCmd t x.m 0 (if x.op = 0x0401 then words2 (ctxSeed s).toNat else [])) ∧
      t.ctx = { s.ctx with clear := none } ∧ rdF t CTX_STATUS 0 4 = 1 ∧ Safety.RegsOnlyAt s t [CTX_STATUS]))

/-- A timer at LIMIT stops or restarts, the arbiter honours the earliest open assertion, and a full segment ends the capture or re-arms it. (spec/06_sequencer_engines.md (R138, R151, R152, R154 in part); spec/03_dvorna_mailboxes.md (R63, R64, R65 in part); spec/10_rings.md (R251 in part)) -/
def Obligations.TimersTriggersAndSegments : Prop :=
  (∀ (e : Fin 256) (k : Fin 4) (s : State),
    let v := tmrVal s e.val k.val
    let l := tmrLimit s e.val k.val
    let auto := tmrAuto s e.val k.val
    let host := hostWrote48 s (tmrR e.val k.val)
    let due := tmrRunning s e.val k.val = true ∧ (∀ p ∈ (getEng s e.val).tmrOld, p.1 ≠ k.val) ∧ engCounts s e.val = true ∧
      (v + 1 = l ∨ (auto = true ∧ v = l))
    (¬due → exec (.timerLimit e k) s = .next s) ∧
    (due → ∃ t, exec (.timerLimit e k) s = .next t ∧
      Safety.RegsOnlyAt s t [tmrR e.val k.val, tmrR e.val k.val + 4, tmrR e.val k.val + 0x10] ∧
      (v = l → host = false → tmrVal t e.val k.val = 0 ∧ tmrRunning t e.val k.val = true) ∧
      (v = l → host = true → tmrVal t e.val k.val = (v + 1) % 2 ^ 48 ∧ tmrRunning t e.val k.val = true) ∧
      (v ≠ l → tmrVal t e.val k.val = l ∧ tmrRunning t e.val k.val = auto))) ∧
  (∀ (s : State) (a : Assertion), s.capture.asserts = [a] → assertReplaces s a.t = false →
    ((now s : Int) < a.t + s.lrel + 3 → ∃ t, exec .triggerDecide s = .next t ∧ t.capture = s.capture ∧ t.regs = s.regs) ∧
    (a.t + s.lrel + 3 ≤ (now s : Int) → arbiterOpen s a.t = true →
      ∃ t tr, exec .triggerDecide s = .next t ∧ t.capture.asserts = [] ∧ t.capture.trigs = s.capture.trigs ++ [tr] ∧
        tr.t = a.t ∧ tr.src = a.src ∧ tr.seg = s.capture.segIdx ∧ t.capture.segIdx = s.capture.segIdx + 1 ∧
        t.capture.lastTs = tsOf a.t ∧ t.capture.lastSrc = a.src ∧ t.capture.first = a.t + s.capture.depth + 1 ∧
        Safety.SameMemory s t) ∧
    (a.t + s.lrel + 3 ≤ (now s : Int) → arbiterOpen s a.t = false →
      ∃ t, exec .triggerDecide s = .next t ∧ t.capture = { s.capture with asserts := [] } ∧
        (256 ≤ a.src → t.regs = s.regs) ∧
        (a.src < 256 → rdBit t (eR a.src 0x10) 1 = true ∧
          (rd t (eR a.src 0x20)).toNat = min (2 ^ 32 - 1) ((rd s (eR a.src 0x20)).toNat + 1) ∧
          Safety.RegsOnlyAt s t [eR a.src 0x10, eR a.src 0x20, evtR (256 + a.src)]))) ∧
  (∀ (s : State) (tr : Trig), s.capture.trigs = [tr] → capActive s = true → s.capture.haltAt = none → segDone s < 2 ^ 17 - 1 →
    ((now s : Int) < trigEnd s tr + 81 + s.lrel → exec .segmentEnd s = .next s) ∧
    (trigEnd s tr + 81 + s.lrel ≤ (now s : Int) → ∃ t, exec .segmentEnd s = .next t ∧ segDone t = segDone s + 1 ∧
      t.capture.trigs = [] ∧ rdBit t SYS_CAPTURE 11 = true ∧
      (s.capture.segs ≤ segDone s + 1 → capState t = 4 ∧ rdF t SYS_CAPTURE 4 4 = 1 ∧ rdBit t SYS_CAPTURE 10 = true) ∧
      (segDone s + 1 < s.capture.segs → capState t = 2 ∧ rdBit t SYS_CAPTURE 8 = true) ∧ Safety.SameMemory s t))

/-- The record former adds a stored slice to the stream's SAMPLE record, counts lost time of a lane not LIVE, and does each record tick once. (spec/09_capture_storage.md (R204, R205, R206, R214 in part); spec/04_rail_links.md (R95 in part)) -/
def Obligations.SlicesBecomeRecords : Prop :=
  ∀ (n : Fin 256) (s : State),
    let c := getStr s n.val
    let k : Int := (now s : Int) - 80 - s.lrel
    ((∃ d, c.doneK = some d ∧ k ≤ d) ∨ strBound s n.val = false ∨ strModeOf s n.val = 0 ∨ laneFmt s n.val = 0 →
      exec (.recordFormerSlice n) s = .next s) ∧
    (∀ x, (∀ d, c.doneK = some d → d < k) → strBound s n.val = true → strModeOf s n.val = 1 →
      (laneFmt s n.val = 1 ∨ laneFmt s n.val = 2) → domReady s 16 = true → domReady s 2 = true → covers s k = true →
      s.capture.trigs = [] → s.capture.owed = [] → (getLane s n.val).hist.find? (fun x => decide ((x.tick : Int) = k + s.lrel)) = some x → x.marks = [] →
      c.loss = none →
      (x.live = true → x.valid = true → x.bad = none → x.qual = some true → c.dead = none →
        stageNet c ≤ 129000 → lineFull c 3 = false → ∀ items, (c.openRec = none ∧ items = [] ∨ ∃ o, c.openRec = some o ∧ o.typ = tySAMPLE ∧ o.items = items) →
        items.length < 1023 →
        ∃ t o, exec (.recordFormerSlice n) s = .next t ∧ (getStr t n.val).openRec = some o ∧ o.typ = tySAMPLE ∧ o.last = k ∧
          o.items = items ++ [BitVec.ofNat 64 x.payload.toNat] ∧ (getStr t n.val).staged = c.staged ∧
          (getStr t n.val).doneK = some k ∧ (∀ j, j ≠ n.val → getStr t j = getStr s j) ∧
          Safety.RegsOnlyAt s t [strR n.val 0xC] ∧ Safety.SameMemory s t) ∧
      (x.live = false → ∀ f cnt, c.dead = some (f, cnt) → cnt < 65535 →
        ∃ t, exec (.recordFormerSlice n) s = .next t ∧ (getStr t n.val).openRec = none ∧
          (getStr t n.val).dead = some (f, cnt + 1) ∧ (getStr t n.val).doneK = some k ∧
          (∀ j, j ≠ n.val → getStr t j = getStr s j) ∧ Safety.SameMemory s t))

/-- A record that fits is written at WR with the next SEQ and nowhere else; one that does not is dropped and shown; losses become GAP records. (spec/10_rings.md (R235, R236, R241, R242, R249 in part); spec/09_capture_storage.md (R210, R223 in part)) -/
def Obligations.RecordsReachTheirRings : Prop :=
  ∀ (s : State) (r : Nat), r < 32768 → domReady s 22 = true → ringExists s r = true → (getRing s r).commitAt ≠ some (now s) →
    let mem (x : State) : Memory := if ringCompact s r then x.cirrus else x.stratus
    let other (x : State) : Memory := if ringCompact s r then x.stratus else x.cirrus
    let put (t : State) (len : Nat) : Prop :=
      ringWR t r = (ringWR s r + len) % (2 * ringSize s r) ∧ ringSeq t r = (ringSeq s r + 1) % 2 ^ 28 ∧
      (∀ a, (∀ i < len, a / 8 ≠ ringAddr s r (ringWR s r + i)) → memRead (mem t) a = memRead (mem s) a) ∧
      ∀ a, memRead (other t) a = memRead (other s) a
    (∀ (n : Fin 4096) (rec : Rec) (rest : List Rec), (getStr s n.val).staged = rec :: rest → rec.ring = r → rec.bad = [] →
      (getStr s n.val).corr = 0 → (getStr s n.val).loss = none → s.capture.segMarks = [] → stageIsNext s rec = true →
      ringRefusing s r = false → jobWaits s n.val rec = false → rec.words.length < 4096 →
      (rec.words.length + 1 ≤ ringFreeForCommit s r →
        ∃ t, exec (.recordCommit n) s = .next t ∧ (getStr t n.val).staged = rest ∧ put t (rec.words.length + 1) ∧
          memReadWord (mem t) (ringAddr s r (ringWR s r)) =
            headerWord rec.typ rec.flags rec.words.length rec.source (ringSeq s r) ∧
          ∀ i, i < rec.words.length → memReadWord (mem t) (ringAddr s r (ringWR s r + 1 + i)) = rec.words.getD i 0) ∧
      (ringFreeForCommit s r < rec.words.length + 1 → (n.val < 0x290 ∨ 0x2A0 ≤ n.val) →
        (ringAuto s r = false ∨ capState s ≠ 2) →
        ∃ t, exec (.recordCommit n) s = .next t ∧ (getStr t n.val).staged = rest ∧ ringWR t r = ringWR s r ∧
          (rd t (rR r 0x50)).toNat = min (2 ^ 32 - 1) ((rd s (rR r 0x50)).toNat + 1) ∧ rdBit t (rR r 4) 1 = true ∧
          rdBit t (rR r 4) 2 = true ∧ ringRefusing t r = true ∧ Safety.SameMemory s t)) ∧
    (∀ (r' : Fin 32768) (l : Loss), r'.val = r → (getRing s r).batch = [] → (getRing s r).losses = [l] →
      4 ≤ ringFreeForCommit s r → ∃ t, exec (.ringGapCommit r') s = .next t ∧ put t 4 ∧ ringRefusing t r = false ∧
        rdBit t (rR r 4) 1 = false ∧ memReadWord (mem t) (ringAddr s r (ringWR s r)) = headerWord tyGAP 0 3 l.stream (ringSeq s r) ∧
        memReadWord (mem t) (ringAddr s r (ringWR s r + 1)) = l.first ∧
        memReadWord (mem t) (ringAddr s r (ringWR s r + 2)) = l.last) ∧
    (∀ (r' : Fin 32768), r'.val = r →
      (ringTimerPassed s r = true → ∃ t, exec (.ringNoticeTimer r') s = .next t ∧ rdBit t (pendR r) (r % 32) = true ∧
        ringUnnoticed t r = 0 ∧ Safety.RegsOnlyAt s t [pendR r, evtR (576 + r / 1024), rR r 0x3C] ∧ Safety.SameMemory s t) ∧
      (ringTimerPassed s r = false → exec (.ringNoticeTimer r') s = .next s))

/-- Superframes and slices reach the lane, a lane that loses lock is LOST, and return superframes start on multiples of 64. (spec/04_rail_links.md (R70, R71, R73, R81, R82, R92, R94, R95, R96 in part); spec/06_sequencer_engines.md (R128 in part)) -/
def Obligations.LinesSlicesAndLostLanes : Prop :=
  (∀ (n : Fin 256) (line : List (BitVec 40)) (w : BitVec 16) (s : State),
    let sf := (getLane s n.val).sf
    let d := sfDecode sf.scr line
    let takes := laneClocked s n.val = true ∧
      (3 ≤ lanePhase s n.val ∨ laneState s n.val = 7) ∧ (∀ c, sf.cur = some c → c.first + 64 ≤ now s) ∧ line.length = 64
    (¬takes → exec (.superframe n line w) s = .next s) ∧
    (takes → ∃ t c, exec (.superframe n line w) s = .next t ∧ (getLane t n.val).sf.cur = some c ∧
      rdF t (lR n.val 0x48) 0 16 = w.toNat ∧ rdBit t (lR n.val 0) 10 = decide (384 < 5 * w.toInt.natAbs) ∧
      Safety.RegsOnlyAt s t [lR n.val 0, lR n.val 0x48] ∧ laneState t n.val = laneState s n.val ∧
      c.first = now s ∧ c.found = (d.marker == 0x4D1FB2C6 || d.marker == 0xB2E04D39) ∧
      c.status = BitVec.ofNat 32 (ohField d.oh 6 4) ∧ c.crcIn = BitVec.ofNat 32 (ohField d.oh 10 4) ∧ c.taken = 0 ∧
      c.crc = BitVec.ofNat 32 (crc32 d.payload) ∧ (getLane t n.val).sf.scr = d.scr ∧ (getLane t n.val).hist = (getLane s n.val).hist ∧
      (c.next = true ↔ ∃ b, sf.cur = some b ∧ b.first + 64 = now s) ∧
      (getLane t n.val).lossAt = (if 512 < 5 * w.toInt.natAbs ∧ (getLane s n.val).lossAt = none then some (now s)
        else (getLane s n.val).lossAt))) ∧
  (∀ (n : Fin 256) (s : State),
    (laneState s n.val ≠ 7 → lanePhase s n.val = 0 → exec (.cdrLockLoss n) s = .next s) ∧
    (laneState s n.val = 7 ∨ lanePhase s n.val ≠ 0 → ∃ t, exec (.cdrLockLoss n) s = .next t ∧
      (getLane t n.val).lossAt = some ((getLane s n.val).lossAt.getD (now s)) ∧ t.regs = s.regs ∧ Safety.SameMemory s t) ∧
    (∀ x, (getLane s n.val).lossAt = some x → x < now s → laneState s n.val = 7 → (getLane s n.val).sf.pend = none →
      let t := laneLossDue s n.val
      laneState t n.val = 8 ∧ (getLane t n.val).lossAt = none ∧ rdBit t (lR n.val 0) 8 = false ∧ rdBit t (lR n.val 4) 3 = true ∧
      (rd t (lR n.val 0x1C)).toNat = min (2 ^ 32 - 1) ((rd s (lR n.val 0x1C)).toNat + 1) ∧ Safety.SameMemory s t) ∧
    (∀ x, (getLane s n.val).lossAt = some x → now s ≤ x → laneLossDue s n.val = s)) ∧
  (∀ (n : Fin 256) (p : Word) (mk : Bool) (s : State), domReady s (domLink n.val) = true → domReady s 2 = true →
    ((∃ x ∈ (getLane s n.val).hist, x.tick = now s) → exec (.sliceAtLaneInput n p mk) s = .next s) ∧
    ((∀ x ∈ (getLane s n.val).hist, x.tick ≠ now s) → ∃ t x, exec (.sliceAtLaneInput n p mk) s = .next t ∧
      (getLane t n.val).hist.head? = some x ∧ x.tick = now s ∧
      (x.valid = true ↔ laneState s n.val = 7 ∧ mk = true ∧
        ∀ c, (getLane s n.val).sf.cur = some c → c.found = true ∨ c.first + 64 ≤ now s) ∧
      (x.live = true ↔ laneState s n.val = 7 ∧ (getLane s n.val).liveFrom ≤ now s) ∧ x.bad = none ∧
      x.payload = (if x.valid = true then p else 0) ∧ rdBit t (lR n.val 0) 11 = x.valid ∧
      laneState t n.val = laneState s n.val ∧ Safety.SameMemory s t)) ∧
  (∀ (k : Fin 32) (s : State),
    let sends := retActive s k.val = true ∧ laneClocked s (8 * k.val) = true ∧ now s % 64 = 0 ∧
      ∀ x, (getRet s k.val).lastAt = some x → x + 64 ≤ now s
    let r := getRet s k.val
    (¬sends → exec (.returnSuperframe k) s = .next s) ∧
    (sends → ∃ t w, exec (.returnSuperframe k) s = .next t ∧ t.retTx = (k.val, w) :: s.retTx ∧ w.length = 20 ∧
      w.head? = some 0x3A5F0C96 ∧ (getRet t k.val).rseq = r.rseq + 1 ∧
      (getRet t k.val).lastAt = some (now s) ∧ t.regs = s.regs ∧
      (r.busy = false → ∀ f q, r.queue = f :: q → f.sync = [] → (getRet t k.val).queue = q ∧ (getRet t k.val).busy = true ∧
        (getRet t k.val).part = f.words.drop 16) ∧
      (r.busy = false → ∀ f q, r.queue = f :: q → f.sync ≠ [] → f.go = false → k.val ∈ f.sync → f.sync.Nodup →
        ((∃ i ∈ f.sync, syncReady s f.sync i = false) → (getRet t k.val).queue = r.queue ∧ (getRet t k.val).busy = false) ∧
        ((∀ i ∈ f.sync, syncReady s f.sync i = true) → (getRet t k.val).queue = q ∧ (getRet t k.val).busy = true ∧
          ∀ i ∈ f.sync, i ≠ k.val → ∀ g p, (getRet s i).queue = g :: p → g.sync = f.sync →
            (getRet t i).queue = { g with go := true } :: p)) ∧
      (r.busy = false → r.queue = [] → r.part = [] →
        w.drop 1 = (scrambleWords (getRet s k.val).scr ((retWords ((getRet s k.val).rseq + 1) false []).drop 1)).2)))

/-- A lane under training goes from phase to phase, LIVE after the sixth, or FAILED with the reason of the limit it misses. (spec/04_rail_links.md (R86, R87, R88, R89, R90 in part)) -/
def Obligations.LanesTrainPhaseByPhase : Prop :=
  ∀ (n : Fin 256) (s : State) (c : RunCmd) (setRel : Bool), s.running = [c] → c.m < 16 → c.wait = .train [n.val] setRel →
    let l := getLane s n.val
    let L := n.val
    (inPhase s L 1 = true → ∃ t, exec (.idleDetect n) s = .next t ∧ lanePhase t L = 2 ∧ (getLane t L).phaseAt = s.ns ∧
      Safety.RegsOnlyAt s t [lR L 0, lR L 0x44]) ∧
    (inPhase s L 2 = true → ∃ t, exec (.clockDataRecovery n) s = .next t ∧ lanePhase t L = 3 ∧ (getLane t L).phaseAt = s.ns ∧
      (getRet t (L / 8)).queue.length = (getRet s (L / 8)).queue.length + 1 ∧ Safety.RegsOnlyAt s t [lR L 0, lR L 0x44]) ∧
    (∀ b, inPhase s L 3 = true → l.ready3 = false → rdBit s (lR L 0) 8 = true → 4 ≤ l.sf.crcRun →
      (blockValid b = true → ∃ t, exec (.markerLock n b) s = .next t ∧ lanePhase t L = 4 ∧ t.running = s.running ∧
        rd t (lR L 0x34) = b.getD 1 0 ∧ rd t (lR L 0x38) = b.getD 3 0 ∧ rd t (lR L 0x40) = b.getD 2 0) ∧
      (blockValid b = false → ∃ t, exec (.markerLock n b) s = .next t ∧ laneState t L = 9 ∧ rdF t (lR L 0x44) 8 4 = 5 ∧
        t.running = [] ∧ rdF t (mR c.m 0x18) 0 8 = 10)) ∧
    (∀ a, inPhase s L 4 = true → ∃ t, exec (.deskew [(n, a)]) s = .next t ∧ lanePhase t L = 5 ∧
      (getLane t L).tag = Config.echoTag s.freeCtr ∧ t.running = s.running) ∧
    (∀ e : Echo, e.lane = n → inPhase s L 5 = true → l.echo = none → e.tag = (0x80000000 ||| l.tag.setWidth 32) →
      fld e.turn 24 8 = 0 → 0 ≤ laneLatency s L e → rdBit s (lR L 0x38) (15 + laneFmt s L) = true →
      (setRel = true ∨ laneLatency s L e / 256 ≤ s.lrel ∧ (s.lrel : Int) ≤ laneLatency s L e / 256 + 64) →
      ∃ t, exec (.latency [e]) s = .next t ∧ lanePhase t L = 6 ∧
        (t.lrel : Int) = (if setRel then laneLatency s L e / 256 else (s.lrel : Int)) ∧ rd t (lR L 0x30) = BitVec.ofNat 32 e.rtt.toNat ∧
        ((getLane t L).lat : Int) = laneLatency s L e ∧ t.running = s.running) ∧
    (inPhase s L 6 = true → 16 ≤ l.sf.liveRun → domReady s 2 = true → ∃ t, exec (.live n) s = .next t ∧ laneState t L = 7 ∧
      (getLane t L).liveFrom = (l.sf.cur.map (fun x => x.first + 64)).getD (now s) ∧ t.running = [] ∧
      rdF t (mR c.m 0x18) 0 8 = 0) ∧
    (∀ second, lanePhase s L ≠ 0 → domReady s (domLink L) = true → l.ready3 = false → l.echo = none →
      l.phaseAt + (if lanePhase s L = 2 ∧ second = false then 15000000 else phaseLimit (lanePhase s L)) ≤ s.ns →
      (lanePhase s L = 2 → second = false) →
      ∃ t, exec (.trainingPhaseLimit n second) s = .next t ∧ laneState t L = 9 ∧ t.running = [] ∧
        rdF t (lR L 0x44) 8 4 = [0, 1, 2, if second then 5 else 4, 6, 8, 10].getD (lanePhase s L) 0 ∧
        rdF t (mR c.m 0x18) 0 8 = 10)

/-- A calibration or COMMAND frame of another device acts as its KIND says and goes on; a frame with a bad CRC only counts. (spec/05_timebase_and_clocks.md (R119, R120, R121, R123, R125 in part)) -/
def Obligations.FramesOfOtherDevicesPass : Prop :=
  ∀ (f : BitVec 192) (tr : BitVec 128) (ph : BitVec 8) (el : Word) (s : State), domReady s 2 = true → frameOwn s f = false →
    let l := s.loop
    let x (u : BitVec 128) : LoopTx := { frame := forwardFrame f, trailer := u, from_ := 0 }
    let fw := x 0
    let ln (u : BitVec 128) : Option (Tick × LoopTx) := some (now s - 191, x u)
    (frOk f = true → frKind f = 1 → (∀ c ∈ s.running, ∀ a, c.wait ≠ .census a) →
      (l.late = false → let u := trailerPut tr (frHops f + 1) 0
        exec (.census f tr) s = .next { s with
          loop := { l with pos := some (frHops f + 1), was := none, done := 0, sent := x u :: l.sent, line := ln u } }) ∧
      (l.late = true → exec (.census f tr) s = .next { s with loop := { l with late := false } })) ∧
    (∀ p, frOk f = true → frKind f = 2 → l.pos = some p → exec (.measure f tr ph el) s = .next { s with
      loop := { l with
        phase := ph
        sent := x (trailerPut tr p ph.toNat) :: l.sent
        line := ln (trailerPut tr p ph.toNat) } }) ∧
    (∀ p, frOk f = true → frKind f = 3 → l.pos = some p → exec (.align f) s = .next { s with
      loop := { l with
        n := frF f 64 8
        retard := (256 - p * frF f 32 32 / frF f 64 8 % 256) % 256
        done := 0
        resid := 3072 - frF f 32 32 / frF f 64 8
        sent := fw :: l.sent
        line := ln 0 } }) ∧
    (∀ p, frOk f = true → frKind f = 4 → l.pos = some p → ∃ t, exec (.time f) s = .next t ∧
      t.time = BitVec.ofNat 56 (frTick f + 12 * p + 191) ∧ loopMember t = true ∧ t.loop.sent = fw :: l.sent ∧
      Safety.RegsOnlyAt s t [SYS_CAPTURE] ∧ Safety.SameMemory s t) ∧
    (∀ p, frOk f = true → frKind f = 5 → l.pos = some p →
      (∀ z, firstFail (remoteChecks s f) = some z → let u := trailerPut tr p z.status
        exec (.command f tr) s = .next { s with loop := { l with sent := x u :: l.sent, line := ln u } }) ∧
      (firstFail (remoteChecks s f) = none → ∃ t, exec (.command f tr) s = .next t ∧
        t.loop.cmds = l.cmds ++ [{ opcode := frOp f, tick := frTick f, param := BitVec.ofNat 64 (frParam f) }] ∧
        t.loop.sent = x (trailerPut tr p 0) :: l.sent ∧
        (frOp f ≠ 0x0602 ∨ armClears s = false → t.regs = s.regs))) ∧
    (frOk f = false → ∀ i ∈ [Instr.census f tr, .measure f tr ph el, .align f, .time f, .command f tr, .trigger f, .halt f,
      .dissolve f], ∃ t, exec i s = .next t ∧ rdBit t TB_EVENT 21 = true ∧
        t.loop.syncErr.toNat = min (2 ^ 32 - 1) (l.syncErr.toNat + 1) ∧
        t.loop.sent.head?.map LoopTx.frame = some (f ^^^ 0xFFFF) ∧ t.capture = s.capture ∧ t.time = s.time ∧
        Safety.RegsOnlyAt s t [TB_EVENT, evtR 638])

/-- A TRIGGER, HALT or DISSOLVE frame of another device acts on a member and goes on. (spec/05_timebase_and_clocks.md (R119, R120, R124, R125 in part); spec/06_sequencer_engines.md (R153 in part); spec/03_dvorna_mailboxes.md (R66 in part)) -/
def Obligations.TriggerHaltAndDissolveFrames : Prop :=
  ∀ (f : BitVec 192) (s : State), domReady s 2 = true → frameOwn s f = false →
    let l := s.loop
    let fw : LoopTx := { frame := forwardFrame f, trailer := 0, from_ := 0 }
    let goesOn : State := { s with loop := { l with sent := fw :: l.sent, line := some (now s - 191, fw) } }
    (frOk f = true → frKind f = 6 → loopMember s = true → (∀ u ∈ s.capture.trigs, u.seg ≠ frParam f / 2 ^ 48) →
      (s.capture.segIdx = frParam f / 2 ^ 48 → arbiterOpen s (frTick f : Int) = true → ∃ t u, exec (.trigger f) s = .next t ∧
        t.capture.trigs = s.capture.trigs ++ [u] ∧ u.t = (frTick f : Int) ∧ u.src = 0x101 ∧ u.origin = frOrigin f ∧
        u.seg = frParam f / 2 ^ 48 ∧ t.capture.segIdx = s.capture.segIdx + 1 ∧ t.loop.sent = fw :: l.sent ∧ t.regs = s.regs) ∧
      (s.capture.segIdx = frParam f / 2 ^ 48 → arbiterOpen s (frTick f : Int) = false → exec (.trigger f) s = .next goesOn) ∧
      (s.capture.segIdx ≠ frParam f / 2 ^ 48 → ∃ t, exec (.trigger f) s = .next t ∧ rdBit t TB_EVENT 23 = true ∧
        t.capture = s.capture ∧ t.loop.sent = fw :: l.sent ∧ Safety.RegsOnlyAt s t [TB_EVENT, evtR 638])) ∧
    (frOk f = true → frKind f = 6 → loopMember s = false → exec (.trigger f) s = .next goesOn) ∧
    (∀ u, frOk f = true → frKind f = 6 → loopMember s = true → s.capture.segIdx = frParam f / 2 ^ 48 + 1 → s.capture.trigs = [u] →
      u.seg = frParam f / 2 ^ 48 →
      let earlier := (frTick f : Int) < u.t ∨ ((frTick f : Int) = u.t ∧
        frOrigin f < (if u.src = 0x101 then u.origin else l.pos.getD 0))
      (¬earlier → exec (.trigger f) s = .next goesOn) ∧
      (earlier → ∃ t v, exec (.trigger f) s = .next t ∧ t.capture.trigs = [v] ∧ v.t = (frTick f : Int) ∧ v.src = 0x101 ∧
        v.origin = frOrigin f ∧ v.seg = u.seg ∧ t.capture.segIdx = s.capture.segIdx ∧
        t.capture.first = (frTick f : Int) + s.capture.depth + 1 ∧ t.loop.sent = fw :: l.sent ∧ t.regs = s.regs)) ∧
    (frOk f = true → frKind f = 7 →
      (loopMember s = true → capActive s = true → s.capture.haltAt = none → s.capture.trigs = [] → ∃ t,
        exec (.halt f) s = .next t ∧ capState t = 4 ∧ rdF t SYS_CAPTURE 4 4 = 5 ∧ t.loop.sent = fw :: l.sent ∧
        t.loop.txq = l.txq ∧ t.capture.haltAt = some ((now s : Int) - s.lrel)) ∧
      (loopMember s = false → exec (.halt f) s = .next goesOn)) ∧
    (frOk f = true → frKind f = 8 →
      (loopMember s = true → ∃ t, exec (.dissolve f) s = .next t ∧ loopMember t = false ∧ rdBit t TB_EVENT 22 = true ∧
        t.loop = { l with pos := none, n := 0, was := l.pos, sent := fw :: l.sent, line := some (now s - 191, fw) } ∧
        Safety.RegsOnlyAt s t [SYS_CAPTURE, TB_EVENT, evtR 638]) ∧
      (loopMember s = false → exec (.dissolve f) s = .next goesOn))

/-- Calibration goes from census to membership, frames start on multiples of 16, and a lost SYNC_IN ends membership. (spec/05_timebase_and_clocks.md (R118, R120, R121, R123, R125 in part)) -/
def Obligations.CalibrationStepsAndFrameSending : Prop :=
  (∀ (f : BitVec 192) (tr : BitVec 128) (ph : BitVec 8) (el : Word) (s : State), domReady s 2 = true → s.loop.pos = some 0 →
    frOk f = true → frOrigin f = 0 →
    let l := s.loop
    (∀ c a, s.running = [c] → c.m < 16 → c.wait = .census a → frKind f = 1 →
      (frHops f < 16 → s.ns ≤ a + 1000000 → exec (.census f tr) s = .next { s with
        running := [{ c with wait := .measuring }]
        loop := { l with
          n := frHops f + 1
          txq := txInsert { frame := mkFrame 2 0 0 0 0 0 0, trailer := trailerNew, from_ := 0 } l.txq } }) ∧
      (16 ≤ frHops f ∨ a + 1000000 < s.ns → loopMember s = false →
        exec (.census f tr) s = .next (completeCmd { s with loop := { l with late := false } } c.m 10 []))) ∧
    (∀ c, s.running = [c] → c.m < 16 → c.wait = .measuring → frKind f = 2 →
      exec (.measure f tr ph el) s = .next { s with
        running := [{ c with wait := .aligning }]
        loop := { l with
          txq := txInsert (LoopTx.mk (mkFrame 3 0 0 0 0 (l.n * 2 ^ 32 + (el.toNat -
            ((List.range (l.n - 1)).map (fun i => 1024 - trailerGet tr (i + 1))).sum) % 2 ^ 32) 0) trailerNew 0) l.txq } }) ∧
    (∀ c, s.running = [c] → c.m < 16 → c.wait = .aligning →
      (frKind f = 3 → exec (.align f) s = .next { s with
        loop := { l with
          n := frF f 64 8
          retard := 0
          done := 0
          resid := 3072 - frF f 32 32 / frF f 64 8
          txq := txInsert { frame := mkFrame 4 0 0 0 0 0 0, trailer := trailerNew, from_ := 0 } l.txq } }) ∧
      (frKind f = 4 → exec (.time f) s = .next (completeCmd (wrBit s SYS_CAPTURE 3 true) c.m 0 [l.n, 0, 12]))) ∧
    (frKind f = 5 → exec (.command f tr) s = .next { s with loop := { l with reply := some tr } }) ∧
    (frKind f = 6 → exec (.trigger f) s = .next s) ∧ (frKind f = 7 → exec (.halt f) s = .next s) ∧
    (frKind f = 8 → exec (.dissolve f) s = .next s)) ∧
  (∀ (s : State) (x : LoopTx), s.loop.txq.find? (fun y => decide (y.from_ ≤ now s)) = some x → domReady s 2 = true →
    let l := s.loop
    let q := l.txq.erase x
    let free := now s % 16 = 0 ∧ ∀ p, l.line = some p →
      p.1 + (if frKind p.2.frame ∈ [1, 2, 5] then 320 else 192) ≤ now s
    (¬free → exec .loopFrameSend s = .next s) ∧
    (free →
      (frKind x.frame ≠ 4 → frKind x.frame ≠ 5 → exec .loopFrameSend s = .next { s with
        loop := { l with txq := q, sent := x :: l.sent, line := some (now s, x) } }) ∧
      (frKind x.frame = 4 → let y : LoopTx := { x with frame := mkFrame 4 (frOrigin x.frame) 0 0 (now s) 0 0 }
        exec .loopFrameSend s = .next { s with loop := { l with txq := q, sent := y :: l.sent, line := some (now s, y) } }) ∧
      (∀ c e n, frKind x.frame = 5 → s.running = [c] → c.wait = .loopPost e n →
        let lead := now s + 191 + max (3 + 12 * (l.n - 1)) (innerLead s (arg s c.m 0))
        let s1 := { s with loop := { l with txq := q } }
        (lead ≤ cmdExecTick s c.m → exec .loopFrameSend s = .next { wr64 s1 (mR c.m 0x20) (now s + 191) with
          loop := { l with txq := q, sent := x :: l.sent, line := some (now s, x) } }) ∧
        (cmdExecTick s c.m < lead → exec .loopFrameSend s =
          .next (completeCmd s1 c.m 4 [0xFFFFFFFF, lead % 2 ^ 32, lead / 2 ^ 32 % 2 ^ 32]))))) ∧
  (∀ (s : State) (c : RunCmd) (a : Nat), s.running = [c] → c.wait = .census a →
    (s.ns < a + 1000000 → exec .censusTimeout s = .next s) ∧
    (a + 1000000 ≤ s.ns → loopMember s = false → exec .censusTimeout s =
      .next (completeCmd { s with loop := { s.loop with late := true } } c.m 10 []))) ∧
  (∀ s : State, domReady s 2 = true → s.running = [] → ∃ t, exec .syncInLoss s = .next t ∧ rdBit t TB_EVENT 21 = true ∧
    loopMember t = false ∧ (loopMember s = true → rdBit t TB_EVENT 22 = true ∧ t.loop = { s.loop with pos := none, n := 0, was := s.loop.pos, late := false }) ∧
    (loopMember s = false → t.loop = { s.loop with late := false }) ∧ t.capture = s.capture ∧
    Safety.RegsOnlyAt s t [SYS_CAPTURE, TB_EVENT, evtR 638])

/-- Trigger pins are sampled and pulses end, the reference is classified and lost, PLLs lock, time out and unlock. (spec/05_timebase_and_clocks.md (R100, R101, R108, R112 in part); spec/07_sequencer_microcode.md (R142, R144, R145 in part)) -/
def Obligations.TriggerPinsReferenceAndPlls : Prop :=
  (∀ (p : Fin 8) (level : Bool) (s : State),
    ∃ t, exec (.trigIn p level) s = .next t ∧ t.regs = s.regs ∧ t.glb = { s.glb with pins := t.glb.pins } ∧
      t.glb.pins.getLsbD p.val = level ∧ ∀ q, q ≠ p.val → t.glb.pins.getLsbD q = s.glb.pins.getLsbD q) ∧
  (∀ (p : Fin 8) (s : State), (∀ q ∈ s.glb.sampled, q.1 ≤ now s) →
    pinSampled (trigInSample s) p.val (now s) = s.glb.pins.getLsbD p.val) ∧
  (∀ (p : Fin 8) (s : State),
    let r := rd s (trigInR p.val)
    (globalTick s).glb.vis.getLsbD p.val =
      (bitAt r 0 && (pinSampled s p.val ((now s : Int) - 3 - fld r 8 8) != bitAt r 1))) ∧
  (∀ (p : Fin 8) (s : State),
    ((∀ q ∈ s.trigOut.pulse, q.1 = p.val → now s < q.2) → exec (.trigOutPulseEnd p) s = .next s) ∧
    (∀ d ≤ now s, (p.val, d) ∈ s.trigOut.pulse → ∃ t, exec (.trigOutPulseEnd p) s = .next t ∧
      t.trigOut.pin.getLsbD p.val = false ∧ (∀ q, q ≠ p.val → t.trigOut.pin.getLsbD q = s.trigOut.pin.getLsbD q) ∧
      t.regs = s.regs ∧ t.trigOut.pipe = s.trigOut.pipe)) ∧
  (∀ (edges : Nat) (s : State),
    let c := refClassOf edges
    (c ≠ s.tb.prevWin → exec (.refDetectWindow edges) s = .next { s with tb := { s.tb with prevWin := c } }) ∧
    (c = s.tb.prevWin → ∃ t, exec (.refDetectWindow edges) s = .next t ∧ t.tb = { s.tb with refClass := c } ∧
      (s.tb.refClass = 0 → c ≠ 0 → s.tb.refLost = true → rdBit t TB_EVENT 19 = true) ∧
      (s.tb.refLost = false → t.regs = s.regs) ∧ Safety.RegsOnlyAt s t [TB_EVENT, evtR 638])) ∧
  (∀ s : State,
    let lost := domReady s 2 = true ∧ s.tb.crystal = false ∧ pllLocked s 0 = true ∧ s.tb.holdover = false
    (¬lost → exec .refLost s = .next s) ∧
    (lost → ∃ t, exec .refLost s = .next t ∧ t.tb = { s.tb with refLost := true, holdover := true } ∧
      rdBit t TB_EVENT 18 = true ∧ rdBit t TB_EVENT 20 = true ∧ loopMember t = false ∧
      Safety.RegsOnlyAt s t [SYS_CAPTURE, TB_EVENT, evtR 638])) ∧
  (∀ (k : Fin 12) (cycles : Word) (s : State), s.tb.plls.length = 12 →
    let p := getPll s k.val
    let clocked := p.relock = true ∧ domOn s (pllDom k.val) = true ∧ ramped s (pllDom k.val) = true ∧
      (1 ≤ k.val → k.val < 10 → pllLocked s 0 = true)
    let inTime := s.ns ≤ p.since + 5000000
    (¬clocked → exec (.pllLock k cycles) s = .next s ∧ exec (.pllLockTimeout k) s = .next s) ∧
    (cycles.toNat < 1024 ∨ ¬inTime → exec (.pllLock k cycles) s = .next s) ∧
    (clocked → 1024 ≤ cycles.toNat → inTime → ∃ t, exec (.pllLock k cycles) s = .next t ∧ pllLocked t k.val = true ∧
      (getPll t k.val).relock = false ∧ (k.val = 0 ∨ 2 ≤ k.val ∧ k.val < 10 → thermTripped s = false → domReady t (pllDom k.val) = true) ∧
      (∀ c, s.running = [c] → c.m < 16 → c.wait = .pll k.val → t.running = [] ∧ rdF t (mR c.m 0x18) 0 8 = 0 ∧
        (rd t (resR c.m 0)).toNat = (if c.op = 0x0101 then s.tb.refClass % 2 ^ 32 else cycles.toNat) ∧
        (c.op = 0x0101 → k.val = 0 → t.tb.holdover = false ∧ t.tb.refLost = false))) ∧
    (clocked → s.ns < p.since + 5000000 → exec (.pllLockTimeout k) s = .next s) ∧
    (clocked → p.since + 5000000 ≤ s.ns → ∀ c, s.running = [c] → c.wait = .pll k.val →
      exec (.pllLockTimeout k) s = .next (completeCmd (setPll s k.val { p with relock := false }) c.m 10 []))) ∧
  (∀ (k : Fin 12) (s : State), s.tb.plls.length = 12 →
    let inUse := pllLocked s k.val = true ∧ domReady s (pllDom k.val) = true ∧ ¬(k.val = 0 ∧ s.tb.holdover = true)
    (¬inUse → exec (.unlock k) s = .next s) ∧
    (inUse → ∃ t, exec (.unlock k) s = .next t ∧ rdBit t TB_EVENT k.val = true ∧ pllLocked t k.val = false ∧
      (getPll t k.val).relock = true ∧ (getPll t k.val).since = max s.ns (tabGet 0 s.ramp (pllDom k.val)) ∧
      (k.val = 0 ∨ 10 ≤ k.val → capActive s = true → s.capture.haltAt = none → s.capture.trigs = [] →
        capState t = 4 ∧ rdF t SYS_CAPTURE 4 4 = 4)))

/-- PTI edges pass the prescaler and become stamps and results, calibrations and gates end, and a window write flags the measurement. (spec/12_time_interval_unit.md (R266, R267, R268, R269, R270, R272, R273, R274, R275, R278 in part)) -/
def Obligations.EdgesBecomeStampsAndResults : Prop :=
  (∀ (i : Fin 64) (rising : Bool) (ph : BitVec 4) (code : BitVec 16) (s : State),
    let k := i.val
    let off := tiuState s k = 0 ∨ tiuState s k = 2
    let x := getTiu s k
    let counts : Bool := tiuPolarity s k rising
    let passed : Bool := counts && decide (2 ^ tiuPrescale s k ≤ x.edges + 1)
    let e : TiuEdge := { c2 := 4 * now s + ph.toNat, code := code.toNat, rising := rising, tick := now s }
    (domReady s 19 = false ∨ (off ∧ tiuPrescale s k ≠ 0) → exec (.ptiEdge i rising ph code) s = .next s) ∧
    (domReady s 19 = true → ∃ t, exec (.ptiEdge i rising ph code) s = .next t ∧ t.regs = s.regs ∧ t.stream = s.stream ∧
      Safety.SameMemory s t ∧ (tiuPrescale s k = 0 ∨ (¬off ∧ passed = true) → (getTiu t k).lvl = rising) ∧
      (¬off → (getTiu t k).edges = (if passed then 0 else if counts then x.edges + 1 else x.edges) ∧
        (getTiu t k).queue = x.queue ++ (if passed && tiuTakes s k then [e] else [])))) ∧
  (∀ (i : Fin 64) (e : TiuEdge) (s : State),
    let k := i.val
    let raw := (tiuRaw s k e.c2 e.code).1
    let p := raw - tiuSkew s k
    let near := ∃ l, (getTiu s k).lastEdge = some l ∧ raw - l < 131072 ∧ l - raw < 131072
    let taken := tiuState s k = 3 ∨ tiuState s k = 4 ∨ tiuState s k = 5
    let t := tiuJudgeEdge s k e
    ((getTiu s k).queue = [e] →
      (e.tick < now s → tiuJudge s k = tiuJudgeEdge (setTiu s k { getTiu s k with queue := [] }) k e) ∧
      (now s ≤ e.tick → tiuJudge s k = s)) ∧
    (¬taken → t = s) ∧
    (taken → near → (getTiu t k).lastEdge = (getTiu s k).lastEdge ∧ (getTiu t k).pairAt = none ∧
      (rd t (tiuR k 0x68)).toNat = min (2 ^ 32 - 1) ((rd s (tiuR k 0x68)).toNat + 1) ∧
      Safety.RegsOnlyAt s t [tiuR k 0x68]) ∧
    (taken → ¬near → (getTiu t k).lastEdge = some raw ∧
      rd64 t (tiuR k 0x20) = (wordOfQ p).toNat ∧ Safety.SameMemory s t ∧
      (tiuState s k = 5 → tiuState t k = 1 ∧ rdBit t (tiuR k 4) 4 = true ∧ (getTiu t k).req = none) ∧
      (tiuState s k = 3 → (getTiu s k).typ = 1 →
        ((getTiu s k).openAt = none → (getTiu t k).openAt = some p ∧
          Safety.RegsOnlyAt s t [tiuR k 0x20, tiuR k 0x24]) ∧
        ((getTiu s k).openAt ≠ none → (getTiu t k).openAt = (getTiu s k).openAt ∧
          (rd t (tiuR k 0x74)).toNat = min (2 ^ 32 - 1) ((rd s (tiuR k 0x74)).toNat + 1))) ∧
      (∀ m, tiuState s k = 4 → m < 64 → (getTiu s k).stopOf = some m →
        ((getTiu s m).openAt = none →
          (rd t (tiuR m 0x70)).toNat = min (2 ^ 32 - 1) ((rd s (tiuR m 0x70)).toNat + 1)) ∧
        (∀ a, (getTiu s m).openAt = some a →
          let d : Int := if -256 < p - a ∧ p - a < 256 then 0 else p - a
          let outside := d < (rdBefore s (tiuR m 0xC)).toNat * 65536 ∨ (rdBefore s (tiuR m 0x10)).toNat * 65536 < d
          (p - a ≤ -256 → (getTiu t m).openAt = some a ∧ rdBit t (tiuR m 4) 2 = true ∧
            (rd t (tiuR m 0x60)).toNat = min (2 ^ 32 - 1) ((rd s (tiuR m 0x60)).toNat + 1)) ∧
          (-256 < p - a → outside → (getTiu t m).openAt = some a ∧ rdBit t (tiuR m 4) 2 = true ∧
            (rd t (tiuR m 0x5C)).toNat = min (2 ^ 32 - 1) ((rd s (tiuR m 0x5C)).toNat + 1)) ∧
          (-256 < p - a → ¬outside → (getTiu t m).openAt = none ∧ rdBit t (tiuR m 4) 0 = true ∧
            (getTiu t m).results = (getTiu s m).results + 1 ∧
            rd64 t (tiuR m 0x28) = (if p - a < 256 then 2 ^ 63 else 0) + (if (getTiu s m).openWin then 2 ^ 62 else 0) +
              (roundQ d).toNat % 2 ^ 48))))) ∧
  (∀ (i : Fin 64) (n1 n2 : BitVec 16) (s : State),
    let k := i.val
    let d : Int := (n2.toNat : Int) - n1.toNat
    let n0 : Int := 2 * (n1.toNat : Int) - n2.toNat
    let ok := 12288 ≤ d ∧ d ≤ 20480 ∧ -4096 ≤ n0 ∧ n0 ≤ 4096
    (tiuCalDue s k = false → exec (.tiuCalibration i n1 n2) s = .next s) ∧
    (tiuCalDue s k = true → s.running = [] → ∃ t, exec (.tiuCalibration i n1 n2) s = .next t ∧ tiuState t k = 1 ∧
      (ok → rd t (tiuR k 0x18) = n2 ++ n1 ∧ Safety.RegsOnlyAt s t [tiuR k 0, tiuR k 0x18]) ∧
      (¬ok → rdBit t (tiuR k 4) 6 = true ∧ rd t (tiuR k 0x18) = rd s (tiuR k 0x18))) ∧
    (∀ c measure, tiuCalDue s k = true → s.running = [c] → c.m < 16 → c.wait = .tiuCal [k] measure →
      ∃ t, exec (.tiuCalibration i n1 n2) s = .next t ∧ t.running = [] ∧
        (¬ok → rdF t (mR c.m 0x18) 0 8 = 9 ∧ tiuState t k = 1) ∧
        (ok → rdF t (mR c.m 0x18) 0 8 = 0 ∧ (measure = false → tiuState t k = 1) ∧
          (measure = true → (getTiu s k).typ ≠ 1 → tiuState t k = 3 ∧ (getTiu t k).gateTick = now s + 1 ∧ rdF t (tiuR k 0x58) 0 25 = 0)))) ∧
  (∀ (i : Fin 64) (s0 : State),
    let s := tiuJudgeAll s0
    let k := i.val
    let x := getTiu s k
    let closes := domReady s 19 = true ∧ tiuState s k = 3 ∧ x.gateTick + x.gate ≤ now s
    let late := tiuState s k = 3 ∧ x.typ = 1 ∧ ∃ a, x.openAt = some a ∧
      ((rd s (tiuR k 0x10)).toNat : Int) * 65536 < (now s : Int) * 65536 - a
    let expired := tiuState s k = 5 ∧ ∃ r, x.req = some r ∧ r.2 + 65536 ≤ now s
    (¬closes → exec (.tiuGateClose i) s0 = .next s) ∧
    (closes → ∃ t, exec (.tiuGateClose i) s0 = .next t ∧ tiuState t k = 1 ∧ rdF t (tiuR k 0) 25 3 = 2 ∧
      rdBit t (tiuR k 4) 1 = true ∧ (getTiu t k).openAt = none ∧ (getTiu t k).pairAt = none) ∧
    (¬late → exec (.tiuNoStop i) s0 = .next s) ∧
    (late → ∃ t, exec (.tiuNoStop i) s0 = .next t ∧ (getTiu t k).openAt = none ∧ t.stream = s.stream ∧
      (rd t (tiuR k 0x6C)).toNat = min (2 ^ 32 - 1) ((rd s (tiuR k 0x6C)).toNat + 1) ∧
      Safety.RegsOnlyAt s t [tiuR k 0x6C]) ∧
    (¬expired → exec (.stampRequestTimeout i) s0 = .next s) ∧
    (expired → ∃ t, exec (.stampRequestTimeout i) s0 = .next t ∧ tiuState t k = 1 ∧ (getTiu t k).req = none ∧
      rdBit t (tiuR k 4) 4 = true ∧ rd t (tiuR k 0x20) = rd s (tiuR k 0x20))) ∧
  (∀ (i : Fin 64) (close : Bool) (v : Word) (s : State), memDecoded s = true →
    ∃ t, exec (.tiuWinWrite i close v 15) s = .next t ∧ rd t (tiuR i.val (if close then 0x10 else 0xC)) = v ∧
      rd t (tiuR i.val (if close then 0xC else 0x10)) = rd s (tiuR i.val (if close then 0xC else 0x10)) ∧
      (tiuState s i.val = 3 → rdBit t (tiuR i.val 0) 24 = true ∧ rdBit t (tiuR i.val 4) 7 = true ∧
        (getTiu t i.val).winChg = true ∧
        ((getTiu s i.val).openAt.isSome ∨ (getTiu s i.val).pairAt.isSome → (getTiu t i.val).openWin = true)) ∧ Safety.SameMemory s t)

/-- A chain gives its next output when its support is in; Deflate blocks, jobs, expanded records and streams end. (spec/13_analog_side_channels.md (R287, R288, R294, R297 in part); spec/14_deflate_engines.md (R303, R306, R307, R308, R312, R314 in part)) -/
def Obligations.ChainOutputsAndDeflateBlocks : Prop :=
  (∀ (j : Fin 64) (s : State),
    let k := j.val
    let c := getDfc s k
    let p := dfcPos s k c.outIdx
    let a := dfcSupp s k p
    let z := dfcUpto s k p
    let due := domReady s 20 = true ∧ 2 ≤ dfcState s k ∧ z ≤ c.lastIn ∧ z + s.lrel + 2 ≤ now s
    (¬due → exec (.dfcOutput j) s = .next s) ∧
    let out (slot : Word) : DfcOut :=
      { due := now s + 80, lane := dfcLane s k, ring := c.ring, pos := p, supp := a, upto := z, slot := slot,
        period := rd s (dfcR k 0x20), close := false }
    let cmp (slot : Word) : ThrCmp :=
      { due := now s + 1, val := if bitAt slot 30 then none else some (dfcValue s k p).1, set := thrSettings s k }
    (due → ∃ t slot, exec (.dfcOutput j) s = .next t ∧ rd t (dfcR k 0xC) = slot ∧ (getDfc t k).outIdx = c.outIdx + 1 ∧
      (getDfc t k).held = c.held ++ [out slot] ∧ (getDfc t k).cmps = c.cmps ++ [cmp slot] ∧
      fld slot 0 24 = ((dfcValue s k p).1 % 2 ^ 24).toNat ∧
      (bitAt slot 31 = true ↔ ∃ i ∈ c.inputs, a ≤ i.recTick ∧ i.recTick ≤ z ∧ i.ovr = true) ∧
      (bitAt slot 30 = true ↔ a < c.grid) ∧
      (bitAt slot 29 = true ↔ ∃ i ∈ c.inputs, a ≤ i.recTick ∧ i.recTick ≤ z ∧ (i.missing = true ∨ i.bad = true)) ∧
      rd64 t (dfcR k 0x38) = (rd64 s (dfcR k 0x38) + 1) % 2 ^ 64 ∧
      (bitAt slot 31 = true → rdBit t (dfcR k 4) 3 = true ∧
        (rd t (dfcR k 0x2C)).toNat = min (2 ^ 32 - 1) ((rd s (dfcR k 0x2C)).toNat + 1)) ∧
      (bitAt slot 30 = true → dfcState t k = dfcState s k) ∧
      (bitAt slot 30 = false → dfcState t k = 3 ∧ (dfcState s k = 2 → rdBit t (dfcR k 4) 0 = true)) ∧
      Safety.SameMemory s t)) ∧
  (∀ (k : Fin 16) (s : State),
    let n := k.val
    let c := getDfl s n
    let code := dflCode s n
    let hdr : List Byte := if dflZlib s n = true ∧ c.headerDone = false then [0x78, 0x01] else []
    let full := dflState s n = 2 ∧ c.buf ≠ [] ∧ (65536 ≤ c.buf.length ∨ c.flushReq = true)
    let idle := dflState s n = 2 ∧ c.buf ≠ [] ∧ c.lastRead + 4096 ≤ now s
    let ends (t : State) : Prop := (getDfl t n).buf = [] ∧ (getDfl t n).block = c.block + 1 ∧ (getDfl t n).flushReq = false ∧
      (getDfl t n).syncMark = c.flushReq ∧ (getDfl t n).history = (c.buf.reverse ++ c.history).take 32768 ∧
      (getDfl t n).headerDone = true ∧ (getDfl t n).bufWords = c.bufWords ∧
      rd64 t (dflR n 0x18) = (rd64 s (dflR n 0x18) + hdr.length + code.2.1.length) % 2 ^ 64 ∧
      (rd t (dflR n 0x20)).toNat = min (2 ^ 32 - 1) ((rd s (dflR n 0x20)).toNat + 1) ∧
      (dflHost s n = true → (getDfl t n).outQ = c.outQ ++ hdr ++ code.2.1)
    (¬full → exec (.deflateBlockEnd k) s = .next s) ∧ (full → ∃ t, exec (.deflateBlockEnd k) s = .next t ∧ ends t) ∧
    (¬idle → exec (.deflateBlockIdleTimeout k) s = .next s) ∧
    (idle → ∃ t, exec (.deflateBlockIdleTimeout k) s = .next t ∧ ends t)) ∧
  (∀ (k : Fin 16) (s : State),
    let n := k.val
    let c := getDfl s n
    let hdr : List Byte := if dflZlib s n = true ∧ c.headerDone = false then [0x78, 0x01] else []
    let trailer : List Byte := if dflZlib s n then adlerBytes (rd s (dflR n 0x2C)) else []
    let done := dflState s n = 2 ∧ c.endMark = none ∧ dflPending s n = false ∧ dflDrained s n = true ∧ domReady s 22 = true ∧
      (c.endReq ≠ 0 ∨ c.readPtr = ringWR s (dflSrc s n) ∧ ringFinished s (dflSrc s n) = true)
    (¬done → exec (.deflateJobEnd k) s = .next s) ∧
    (done → ∃ t, exec (.deflateJobEnd k) s = .next t ∧ (getDfl t n).endMark = some (if c.endReq = 0 then 1 else c.endReq) ∧
      (getDfl t n).buf = [] ∧
      (dflHost s n = true → c.buf = [] → (getDfl t n).outQ = c.outQ ++ hdr ++ [1, 0, 0, 0xFF, 0xFF] ++ trailer))) ∧
  (∀ (k : Fin 16) (s : State),
    let n := k.val
    let r := dflDest s n
    (dflNextRec s n = none → exec (.inflateRecordCommit k) s = .next s) ∧
    (∀ rec, dflNextRec s n = some rec → dflState s n = 3 → domReady s 21 = true → domReady s 22 = true →
      ringExists s r = true → ringCommitFree s r = true → ringRefusing s r = false →
      rec.words.length + 1 ≤ ringFreeForCommit s r → ∃ t, exec (.inflateRecordCommit k) s = .next t ∧
        (getDfl t n).committed = (getDfl s n).committed + recBytes rec ∧
        rd64 t (dflR n 0x18) = (rd64 s (dflR n 0x18) + recBytes rec) % 2 ^ 64) ∧
    (dflState s n ≠ 3 ∨ inflateCause s n = none → exec (.inflateStreamEnd k) s = .next s) ∧
    (∀ cause, dflState s n = 3 → inflateCause s n = some cause → ∃ t, exec (.inflateStreamEnd k) s = .next t ∧
      dflState t n = 1 ∧ rdF t (dflR n 0) 28 4 = cause ∧ getDfl t n = DflCore.init ∧ rdBit t (dflR n 8) 0 = true ∧
      (dflSrc s n < 32 → rdBit t (dmaR (dflSrc s n) 0x18) 20 = false) ∧ Safety.SameMemory s t))

/-- A replay job feeds one record tick, drains its pipeline, skips a span, and ends as it was asked to. (spec/11_replay_and_search.md (R253, R255, R258, R261, R262, R264 in part)) -/
def Obligations.ReplayJobsFeedSkipAndEnd : Prop :=
  ∀ (j : Fin 16) (s : State),
    let n := j.val
    let b := getJob s n
    let free := b.state = 1 ∧ b.ending = none ∧ b.lastAct ≠ some (now s) ∧
      (∀ e ∈ b.engines, engRun s e ≠ runPAUSED ∧ (getEng s e).resumedAt ≠ some (now s)) ∧
      ((∀ q ∈ ctxExtQ s mTURNTABLE, q.job ≠ n ∨ b.next ≤ q.recTick) ∨ domReady s 15 = false) ∧ domReady s 22 = true
    let acts := free ∧ b.endReq = 0
    let k := jobSkip s b
    (¬(acts ∧ k = 0 ∧ b.drain < jobLat s b) → exec (.replayFeed j) s = .next s) ∧
    (acts → k = 0 → b.drain < jobLat s b → b.next ≤ b.re → ∃ t, exec (.replayFeed j) s = .next t ∧
      (getJob t n).next = b.next + 1 ∧ (getJob t n).fedTick = b.fedTick + 1 ∧ (getJob t n).lastFed = some (now s) ∧
      (getJob t n).lastAct = some (now s) ∧ (getJob t n).drain = b.drain ∧ (getJob t n).state = 1 ∧
      rd64 t (rplFedR n) = (rd64 s (rplFedR n) + 1) % 2 ^ 64 ∧ rd64 t (rplSkipR n) = rd64 s (rplSkipR n)) ∧
    (acts → k = 0 → b.drain < jobLat s b → b.re < b.next → exec (.replayFeed j) s = .next (setJob s n { b with
      treated := jobTreated s b, fedRec := none :: b.fedRec.take 7, fedTick := b.fedTick + 1, drain := b.drain + 1,
      lastFed := some (now s), lastAct := some (now s) })) ∧
    (¬(acts ∧ k ≠ 0) → exec (.replaySkip j) s = .next s) ∧
    (acts → k ≠ 0 → ∃ t, exec (.replaySkip j) s = .next t ∧ (getJob t n).next = b.next + k ∧
      (getJob t n).fedTick = b.fedTick ∧ (getJob t n).lastFed = b.lastFed ∧ (getJob t n).lastAct = some (now s) ∧
      rd64 t (rplSkipR n) = (rd64 s (rplSkipR n) + k) % 2 ^ 64 ∧ rd64 t (rplFedR n) = rd64 s (rplFedR n) ∧
      (∀ e, b.engines = [e] → e < 256 → (getEng s e).lead = e → ∀ i < 4, tmrVal t e i =
        if tmrRunning s e i && !hostWrote48 s (tmrR e i) then (tmrVal s e i + k) % 2 ^ 48 else tmrVal s e i)) ∧
    (let done (t : State) (v : Nat) : Prop :=
       (jobResults t b = [] ∧ (getJob t n).state = v ∧ (getJob t n).ending = none ∧ rdBit t RPL_EVENT n = true) ∨
       (jobResults t b ≠ [] ∧ (getJob t n).state = 1 ∧ (getJob t n).ending = some v)
     let ends (v : Nat) : Prop := ∃ t, exec (.replayJobEnd j) s = .next t ∧ done t v ∧
        ∀ e ∈ b.engines, (getEng t e).job = none ∧ (engRun s e ≠ runFAULT → engRun t e = runSTOPPED)
     (b.state ≠ 1 ∨ b.ending ≠ none → exec (.replayJobEnd j) s = .next s) ∧
     (∀ v, b.state = 1 → b.ending = some v → done (jobSettle s n) v) ∧
     ((∀ e ∈ b.engines, e < 256) → b.state = 1 → b.ending = none →
      (b.endReq = 4 → ends 4) ∧ (b.endReq = 3 → free → ends 3) ∧
      (b.endReq = 3 → ¬free → exec (.replayJobEnd j) s = .next s) ∧
      (b.endReq = 0 → jobDone s b = true → ends 2) ∧
      (b.endReq = 0 → jobDone s b = false → exec (.replayJobEnd j) s = .next s)))

/-- DMA channels start, stop, perform descriptors, and halt on errors, late completions and retired tags. (spec/15_host_endpoint.md (R328, R329, R330, R331, R332, R333, R334, R336, R337, R338 in part)) -/
def Obligations.DmaChannelsRunAndHalt : Prop :=
  (∀ (c : Fin 32) (s : State), memDecoded s = true →
    let n := c.val
    let status := [dmaR n 0x18]
    let good := 1 ≤ dmaLog s n ∧ dmaLog s n ≤ 16 ∧ rdF s (dmaR n 0) 0 5 = 0
    let rests := dmaState s n = 0 ∨ dmaState s n = 3
    (rests → good → ∃ t, exec (.start c) s = .next t ∧ dmaState t n = 1 ∧ rdF t (dmaR n 0x18) 28 4 = 0 ∧
      getDma t n = DmaCore.init ∧ Safety.RegsOnlyAt s t status) ∧
    (rests → ¬good → dmaIn s n = false → ∃ t, exec (.start c) s = .next t ∧ dmaState t n = 3 ∧
      rdF t (dmaR n 0x18) 28 4 = 9 ∧ rdBit t DMA_EVENT_HALT n = true) ∧
    (¬rests → exec (.start c) s = .next (tlpSeen s)) ∧
    (dmaState s n = 1 → dmaIn s n = false → ∃ t, exec (.dmaStop c) s = .next t ∧ dmaState t n = 3 ∧
      rdF t (dmaR n 0x18) 28 4 = 1 ∧ rdBit t DMA_EVENT_HALT n = true ∧ rdBit t (dmaR n 0x14) 1 = true ∧
      rdBit (dmaHaltedTick { t with cycHost := [] } n) (dmaR n 0x14) 1 = false ∧ getDma t n = DmaCore.init ∧
      ((getDma s n).fetched = true → mayIssue s = true → t.pcie.tx = .data (dmaDescAddr s n + 24)
        (bytesOfWord (BitVec.ofNat 64 (2 ^ 63 + 2 ^ 48 + (getDma s n).filled))) false (ecrcSent s) :: s.pcie.tx) ∧
      ((getDma s n).fetched = false → t.pcie.tx = s.pcie.tx)) ∧
    (dmaState s n = 1 → dmaIn s n = true → (getDma s n).waiting = none → ∃ t, exec (.dmaStop c) s = .next t ∧
      dmaState t n = 2 ∧ (getDma t n).waiting = some 1 ∧ rdBit t (dmaR n 0x14) 1 = true ∧ t.pcie.tx = s.pcie.tx) ∧
    (dmaState s n ≠ 1 → ∃ t, exec (.dmaStop c) s = .next t ∧ t.regs = s.regs ∧ t.dma = s.dma ∧ t.pcie = (tlpSeen s).pcie ∧
      Safety.SameMemory s t) ∧
    (∃ t, exec .reclaim s = .next t ∧ t.pcie.retired = [] ∧ rdF t PCIE_STATUS 21 11 = 0 ∧
      Safety.RegsOnlyAt s t [PCIE_STATUS])) ∧
  (∀ (tag : BitVec 10) (status : CplStatus) (ep : Bool) (s : State),
    (∀ r, s.pcie.reads.find? (fun r => r.tag == tag.toNat) = some r → r.chan < 32 →
      (∀ x ∈ s.pcie.reads, x.chan = r.chan → x = r) → (getDma s r.chan).waiting = none → dmaState s r.chan = 1 →
      ∃ t, exec (.completionReceived tag status ep) s = .next t ∧ (∀ x, x ∈ t.pcie.reads ↔ x ∈ s.pcie.reads ∧ x ≠ r) ∧
        (status = .ok → ep = false → (getDma t r.chan).fetched = true ∧ dmaState t r.chan = 1) ∧
        (status ≠ .ok → dmaState t r.chan = 3 ∧ rdF t (dmaR r.chan 0x18) 28 4 = 6) ∧
        (status = .ok → ep = true → dmaState t r.chan = 3 ∧ rdF t (dmaR r.chan 0x18) 28 4 = 7) ∧
        (ep = true → rdBit t PCIE_EVENT 3 = true ∧ bitAt (cfgRead t 0x41) 12 = true)) ∧
    ((∀ r ∈ s.pcie.reads, r.tag ≠ tag.toNat) → (∀ r ∈ s.pcie.preFlr, r.tag ≠ tag.toNat) →
      ∃ t, exec (.completionReceived tag status ep) s = .next t ∧ rdBit t PCIE_EVENT 1 = true ∧
        bitAt (cfgRead t 0x41) 16 = true ∧ t.dma = s.dma ∧
        (rd t PCIE_UNEXP).toNat = min (2 ^ 32 - 1) ((rd s PCIE_UNEXP).toNat + 1)) ∧
    (∀ r ∈ s.pcie.reads, r.tag = tag.toNat → (∀ x ∈ s.pcie.reads, x.tag = r.tag ∨ x.chan = r.chan → x = r) → r.chan < 32 →
      r.sent + cplTimeout s < s.ns → dmaState s r.chan = 1 → (getDma s r.chan).waiting = none →
      ∃ t, exec (.completionTimeout tag) s = .next t ∧ dmaState t r.chan = 3 ∧ rdF t (dmaR r.chan 0x18) 28 4 = 5 ∧
        r.tag ∈ t.pcie.retired ∧ rdBit t PCIE_EVENT 0 = true ∧ bitAt (cfgRead t 0x41) 14 = true) ∧
    ((∀ r ∈ s.pcie.reads ++ s.pcie.preFlr, r.tag = tag.toNat → s.ns ≤ r.sent + cplTimeout s) →
      exec (.completionTimeout tag) s = .next s)) ∧
  (∀ (c : Fin 32) (d : Descriptor) (data : List Byte) (s : State),
    let n := c.val
    let runs := dmaState s n = 1 ∧ (getDma s n).fetched = true ∧ mayIssue s = true
    let word (v : Nat) : Tlp := .data (dmaDescAddr s n + 24) (bytesOfWord (BitVec.ofNat 64 (2 ^ 63 + v))) false (ecrcSent s)
    (¬runs → exec (.dmaDescriptor c d data) s = .next s) ∧
    (∀ cause, runs → dmaIn s n = false → descCheck s n d = some cause → ∃ t, exec (.dmaDescriptor c d data) s = .next t ∧
      dmaState t n = 3 ∧ rdF t (dmaR n 0x18) 28 4 = cause ∧ t.pcie.tx = word (cause * 2 ^ 48) :: s.pcie.tx) ∧
    (runs → descCheck s n d = none → descOp d = 1 → dmaLog s n ≤ 16 → ∃ t, ∃ ep : Bool,
      exec (.dmaDescriptor c d data) s = .next t ∧ dmaState t n = 1 ∧ getDma t n = DmaCore.init ∧
      dmaHead t n = (dmaHead s n + 1) % 2 ^ (dmaLog s n + 1) ∧
      rd64 t (dmaR n 0x20) = (rd64 s (dmaR n 0x20) + 8 * (descLen d / 8)) % 2 ^ 64 ∧
      (rd t (dmaR n 0x28)).toNat = min (2 ^ 32 - 1) ((rd s (dmaR n 0x28)).toNat + 1) ∧
      t.pcie.tx.head? = some (word ((if ep then 2 ^ 62 else 0) + 8 * (descLen d / 8))) ∧
      (descIrq d = true → rdBit t DMA_EVENT_DONE n = true)) ∧
    (∀ k, runs → descCheck s n d = none → descOp d = 2 → chanHolder s n = some k →
      let x := getDfl s k
      let room := descLen d - (getDma s n).filled
      ∃ t, exec (.dmaDescriptor c d data) s = .next t ∧ dmaState t n = 1 ∧ (getDfl t k).outQ = x.outQ.drop room ∧
        (x.outQ.length < room → x.syncMark = false → x.endMark = none →
          (getDma t n).filled = (getDma s n).filled + x.outQ.length ∧ dmaHead t n = dmaHead s n)) ∧
    (∀ k, runs → descCheck s n d = none → descOp d = 3 → chanHolder s n = some k → dmaLog s n ≤ 16 →
      ((dflExpand s k).verdict = 0 → inflateWaits s k = false → ∃ t, exec (.dmaDescriptor c d data) s = .next t ∧
        dmaHead t n = (dmaHead s n + 1) % 2 ^ (dmaLog s n + 1) ∧ getDma t n = DmaCore.init) ∧
      ((dflExpand s k).verdict ≠ 0 ∨ inflateWaits s k = true →
        exec (.dmaDescriptor c d data) s = .next (setDma s n { getDma s n with irq := descIrq d }))))

/-- Peer windows, configuration, D3hot, L1, the link and MSI-X messages. (spec/15_host_endpoint.md (R316, R317, R320, R321, R323, R324, R325, R339, R341 in part); spec/16_events_and_msix.md (R347, R348, R349 in part)) -/
def Obligations.RequestsPowerStatesAndMessages : Prop :=
  (∀ (a : BitVec 36) (len : Nat) (s : State),
    let maps := memDecoded s = true ∧ 0 < len
    (¬maps ∨ peerMap s a.toNat len = none → ∃ t, exec (.peerWindowRead a len) s = .next t ∧
      t.pcie.cpl = some .unsupported ∧ bitAt (cfgRead t 0x41) 20 = true ∧ t.regs = s.regs ∧ Safety.SameMemory s t) ∧
    (∀ b, maps → peerMap s a.toNat len = some b → ∃ t, exec (.peerWindowRead a len) s = .next t ∧
      t.pcie.cpl = some (.data ((peerWords s s.freeCtr b len).map Prod.fst) ((peerWords s s.freeCtr b len).map Prod.snd)) ∧
      Safety.SameMemory s t ∧ ((∀ x ∈ (peerWords s s.freeCtr b len), x.2 = false) →
        (∀ i, stratusOn s i = true) → s.stratusCorr = [] → t.regs = s.regs))) ∧
  (∀ (a : BitVec 36) (data : List (Option Byte)) (ep : Bool) (s : State),
    let maps := memDecoded s = true ∧ bitAt (peerWin s (a.toNat / 2 ^ 33)) 30 = true ∧ data ≠ []
    (¬maps ∨ peerMap s a.toNat data.length = none → ∃ t, exec (.peerWindowWrite a data ep) s = .next t ∧
      bitAt (cfgRead t 0x41) 20 = true ∧ Safety.SameMemory s t) ∧
    (∀ b, maps → peerMap s a.toNat data.length = some b → ∃ t, exec (.peerWindowWrite a data ep) s = .next t ∧
      t.cirrus = s.cirrus ∧ (ep = false → t.regs = s.regs) ∧ (ep = true → rdBit t PCIE_EVENT 3 = true) ∧
      ∀ x, memRead t.stratus x =
        if b ≤ x ∧ x < b + data.length ∧ stratusOn s (x / 8) = true then (data.getD (x - b) none).getD (memRead s.stratus x)
        else memRead s.stratus x)) ∧
  (∀ (bar : Fin 5) (off : BitVec 36) (s : State), ∃ t, exec (.atomicopRequest bar off) s = .next t ∧ t.regs = s.regs ∧
    Safety.SameMemory s t ∧
    t.pcie.cpl = some (if bar.val = 0 ∧ memDecoded s = true then .word 0 else .unsupported)) ∧
  (∀ (reg : BitVec 10) (v : Word) (be : BitVec 4) (s : State),
    let d := reg.toNat
    let m := beMask be
    let r := cfgReg d
    let new := mergeBits (cfgRead s d) v (r.rw &&& m) &&& ~~~(v &&& m &&& r.w1c)
    (∀ w, cfgRetries s = true → exec (.configurationRequest reg w) s = .next (setCpl (tlpSeen s) .retry)) ∧
    (cfgRetries s = false → exec (.configurationRequest reg none) s = .next (setCpl (tlpSeen s) (.word (cfgRead s d)))) ∧
    (cfgRetries s = false → d ≠ 0x11 → (d = 0x16 → bitAt (v &&& m) 15 = false) → (d = 1 → busMaster s = true → bitAt new 2 = true) →
      exec (.configurationRequest reg (some (v, be))) s = .next (setCpl (cfgSet (tlpSeen s) d new) .success))) ∧
  (∀ s : State,
    let idles := bitAt (cfgRead s 0x18) 1 = true ∧ rdF s PCIE_STATUS 0 4 ≠ 0 ∧ s.pcie.lastTlp + 16000 ≤ s.ns
    (dState s = 3 → exec .d3hot s = .next s) ∧
    (dState s ≠ 3 → ∃ t, exec .d3hot s = .next t ∧ dState t = 3 ∧ memDecoded t = false ∧ rdF t PCIE_STATUS 16 2 = 3 ∧
      (∀ c < 32, dmaState s c = 1 → dmaIn s c = false → dmaState t c = 3 ∧ rdF t (dmaR c 0x18) 28 4 = 8)) ∧
    (¬idles → exec .aspmL1Entry s = .next s) ∧
    (idles → exec .aspmL1Entry s = .next { s with pcie := { s.pcie with aspmL1 := true } })) ∧
  (∀ (rate : Fin 7) (width : Fin 6) (flit : Bool) (s : State), let r := if rate.val = 6 ∧ flit = false then 5 else rate.val
    ∃ t, exec (.linkTraining rate width flit) s = .next t ∧
    Safety.RegsOnlyAt s t [PCIE_STATUS] ∧ rdF t PCIE_STATUS 9 23 = rdF s PCIE_STATUS 9 23 ∧
    (if 0 < rate.val ∧ 0 < width.val then
      rdF t PCIE_STATUS 0 4 = r ∧ rdF t PCIE_STATUS 4 4 = width.val ∧ rdBit t PCIE_STATUS 8 = flit ∧
      fld (cfgRead t 0x18) 16 4 = r ∧ fld (cfgRead t 0x18) 20 6 = 2 ^ (width.val - 1)
    else rdF t PCIE_STATUS 0 9 = 0)) ∧
  (∀ (v : Fin 1024) (s : State),
    let sends := pbaBit s v.val = true ∧ vectorBlocked s v.val = false
    (¬sends → exec (.msixMessage v) s = .next s) ∧
    (sends → ∃ t, exec (.msixMessage v) s = .next t ∧ t.regs = s.regs ∧ pbaBit t v.val = false ∧
      (∀ w, w ≠ v.val → pbaBit t w = pbaBit s w) ∧ t.pcie.tx = .msix (BitVec.ofNat 64 ((msixRead s (4 * v.val)).toNat +
        2 ^ 32 * (msixRead s (4 * v.val + 1)).toNat)) (msixRead s (4 * v.val + 2)) (ecrcSent s) :: s.pcie.tx))

/-- The firmware boots or faults, temperatures and a thermal trip act, the SMBus answers, and the JTAG test logic gives IDCODE. (spec/18_power_reset_startup.md (R370, R371, R372, R376, R377 in part); spec/03_dvorna_mailboxes.md (R50 in part); spec/20_package_and_pins.md (R399, R400 in part)) -/
def Obligations.BootFaultTemperatureAndSmbus : Prop :=
  (∀ (image : BootImage) (time : BitVec 16) (s : State),
    let res := match image with | .image0 => 1 | .image1 => 2 | .bothFailed => 3 | .noAnswer => 4
    (booting s = false → exec (.firmwareBoot image time) s = .next s) ∧
    (booting s = true → ∃ t, exec (.firmwareBoot image time) s = .next t ∧ rdF t SYS_BOOT 0 4 = res ∧ booting t = false ∧
      rdBit t SYS_FW_STATUS 0 = decide (res ≤ 2) ∧ rdBit t SYS_FW_STATUS 1 = decide (2 < res) ∧
      (res ≤ 2 → rdF t SYS_BOOT 16 16 = time.toNat) ∧ bootOrigin t = bootOrigin s ∧ Safety.SameMemory s t)) ∧
  (∀ s : State, (fwReady s = false → exec .fwFault s = .next s) ∧
    (fwReady s = true → ∃ t, exec .fwFault s = .next t ∧ rdBit t SYS_FW_STATUS 1 = true ∧ fwReady t = false ∧
      t.running = s.running ∧ Safety.RegsOnlyAt s t [SYS_FW_STATUS, evtR 638])) ∧
  (∀ (temp : BitVec 16) (s : State),
    let level := signed16 (rdF s THERM_ALERT 0 16)
    let highest := signed16 (rdF s THERM_MAX 0 16)
    ∃ t, exec (.temperatureMeasurement temp) s = .next t ∧ rdF t THERM_STATUS 0 16 = temp.toNat ∧
      signed16 (rdF t THERM_MAX 0 16) = max highest temp.toInt ∧
      (level ≤ temp.toInt → rdBit t THERM_STATUS 30 = true) ∧
      (temp.toInt ≤ level - 32 → rdBit t THERM_STATUS 30 = false) ∧
      (level - 32 < temp.toInt → temp.toInt < level → rdBit t THERM_STATUS 30 = rdBit s THERM_STATUS 30) ∧
      rdBit t THERM_STATUS 31 = rdBit s THERM_STATUS 31 ∧ Safety.RegsOnlyAt s t [THERM_STATUS, THERM_MAX]) ∧
  (∀ s : State,
    (thermTripped s = true → exec .thermalTrip s = .next s) ∧
    (thermTripped s = false → ∃ t, exec .thermalTrip s = .next t ∧ thermTripped t = true ∧
      (∀ d, 2 ≤ d → d < 24 → domReady t d = false) ∧ (∀ d < 2, domReady t d = domReady s d) ∧
      rd t PWR_ON = rdBefore s PWR_ON ∧
      (capActive s = true → s.capture.haltAt = none → s.capture.trigs = [] →
        capState t = 4 ∧ rdF t SYS_CAPTURE 4 4 = 4))) ∧
  (∀ (addr : BitVec 7) (cmd : BitVec 8) (s : State),
    (addr.toNat = 0x58 + s.smbAddr.toNat → ∀ p ∈ [(0, SYS_ID), (1, SYS_BOOT), (2, SYS_FW_STATUS), (3, THERM_STATUS),
        (4, THERM_MAX), (5, PWR_READY)], cmd.toNat = p.1 →
      exec (.smbusBlockRead addr cmd) s = .next { s with smbOut := some {
        data := bytesOfWords [regRead s p.2], pec := (smbAnswer addr.toNat cmd.toNat (bytesOfWords [regRead s p.2])).pec } }) ∧
    (addr.toNat ≠ 0x58 + s.smbAddr.toNat ∨ 5 < cmd.toNat →
      exec (.smbusBlockRead addr cmd) s = .next { s with smbOut := none })) ∧
  (∀ (s : State) (tdi : List Bool), tdi.length = 5 →
    let t := tdi.foldl (fun s b => tapClock s true b) s
    t.jtag.tap = .testLogicReset ∧ t.jtag.instr = .idcode) ∧
  (∀ (s : State) (b : Bool) (tdi : List Bool), s.jtag.tap = .captureDr → s.jtag.instr = .idcode → tdi.length = 32 →
    (tdi.foldl (fun (p : State × List (Option Bool)) x => (tapClock p.1 false x, p.2 ++ [tapTdo p.1])) (tapClock s false b, [])).2 =
      (List.range 32).map (fun i => some ((idcode s).getLsbD i))) ∧
  (∀ s : State, (idcode s).toNat = s.fuses.stepping.toNat % 16 * 2 ^ 28 + 0x4096 * 2 ^ 12 + 0x5E5 * 2 + 1) ∧
  (∀ (s : State) (tms tdi : Bool), (tapClock s tms tdi).regs = s.regs ∧ Safety.SameMemory s (tapClock s tms tdi))
end

