-- ==== Sys2Proof/Laws/Bits.lean ====
section
/-! SUPPORT. Laws of register fields: a field after a field write, and bits outside it. -/

namespace Sys2Proof.Machine

theorem testBit_fld (v : Word) (lo w i : Nat) : (fld v lo w).testBit i = (decide (i < w) && v.getLsbD (lo + i)) := by
  simp [fld, Nat.testBit_mod_two_pow, Nat.testBit_div_two_pow, BitVec.getLsbD, Nat.add_comm]

theorem testBit_mask (lo w i : Nat) :
    ((2 ^ w - 1) * 2 ^ lo).testBit i = (decide (lo ≤ i) && decide (i < lo + w)) := by
  rw [Nat.testBit_mul_two_pow, Nat.testBit_two_pow_sub_one]
  by_cases h : lo ≤ i <;> simp [h]
  omega

theorem getLsbD_setFld (v : Word) (lo w n i : Nat) (hi : i < 32) :
    (setFld v lo w n).getLsbD i =
      if lo ≤ i ∧ i < lo + w then n.testBit (i - lo) else v.getLsbD i := by
  simp only [setFld, BitVec.getLsbD_or, BitVec.getLsbD_and, BitVec.getLsbD_not, BitVec.getLsbD_ofNat,
    Nat.testBit_mul_two_pow, Nat.testBit_mod_two_pow, hi, decide_true, Bool.true_and]
  by_cases h1 : lo ≤ i
  · by_cases h2 : i < lo + w
    · have : i - lo < w := by omega
      simp [h1, h2, this]
    · have : ¬ (i - lo < w) := by omega
      simp [h1, h2, this]
  · simp [h1]

/-- A field reads the value written to it. -/
theorem fld_setFld_self (v : Word) (lo w n : Nat) (h : lo + w ≤ 32) : fld (setFld v lo w n) lo w = n % 2 ^ w := by
  apply Nat.eq_of_testBit_eq
  intro i
  rw [testBit_fld, Nat.testBit_mod_two_pow]
  by_cases hi : i < w
  · rw [getLsbD_setFld _ _ _ _ _ (by omega)]
    simp [hi]
  · simp [hi]

/-- A field write leaves every field that shares no bit with it. -/
theorem fld_setFld_disjoint (v : Word) (lo w n a k : Nat) (hd : a + k ≤ lo ∨ lo + w ≤ a) :
    fld (setFld v lo w n) a k = fld v a k := by
  apply Nat.eq_of_testBit_eq
  intro i
  rw [testBit_fld, testBit_fld]
  by_cases hi : i < k
  · by_cases h32 : a + i < 32
    · rw [getLsbD_setFld _ _ _ _ _ h32, if_neg (by omega)]
    · simp [BitVec.getLsbD_of_ge _ _ (Nat.le_of_not_lt h32)]
  · simp [hi]

theorem bitAt_setFld_outside (v : Word) (lo w n i : Nat) (hd : i < lo ∨ lo + w ≤ i) :
    bitAt (setFld v lo w n) i = bitAt v i := by
  by_cases h32 : i < 32
  · rw [bitAt, getLsbD_setFld _ _ _ _ _ h32, if_neg (by omega), bitAt]
  · simp [bitAt, BitVec.getLsbD_of_ge _ _ (Nat.le_of_not_lt h32)]

theorem bitAt_setBit_self (v : Word) (i : Nat) (b : Bool) (h : i < 32) : bitAt (setBit v i b) i = b := by
  rw [bitAt, setBit, getLsbD_setFld _ _ _ _ _ h, if_pos (by omega)]
  cases b <;> simp

theorem bitAt_setBit_ne (v : Word) (i j : Nat) (b : Bool) (h : j ≠ i) : bitAt (setBit v i b) j = bitAt v j :=
  bitAt_setFld_outside v i 1 _ j (by omega)

theorem fld_setBit_outside (v : Word) (i : Nat) (b : Bool) (a k : Nat) (hd : a + k ≤ i ∨ i + 1 ≤ a) :
    fld (setBit v i b) a k = fld v a k := fld_setFld_disjoint v i 1 _ a k hd

/-- Bits set by hardware in one field leave another. -/
theorem getLsbD_bit (i j : Nat) (hj : j < 32) : (bit i).getLsbD j = decide (i = j) := by
  rw [bit, BitVec.getLsbD_ofNat, Nat.testBit_two_pow, decide_eq_true hj, Bool.true_and]

end Sys2Proof.Machine
end

