-- ==== Sys2Proof/Laws/Tab.lean ====
section
/-! SUPPORT. Laws of sparse tables and byte memories: what a read after a write gives, and that every write keeps the canonical
form. -/

namespace Sys2Proof.Machine

variable {α : Type}

theorem tabGet_tabPut_self (d : α) (t : Tab α) (k : Nat) (v : α) : tabGet d (tabPut t k v) k = v := by
  induction t with
  | nil => simp [tabPut, tabGet]
  | cons p r ih =>
    obtain ⟨k', v'⟩ := p
    simp only [tabPut]
    split
    · simp [tabGet]
    · split
      · simp [tabGet]
      · simp_all [tabGet]

theorem tabGet_tabPut_ne (d : α) (t : Tab α) {k j : Nat} (v : α) (h : j ≠ k) :
    tabGet d (tabPut t k v) j = tabGet d t j := by
  induction t with
  | nil => simp [tabPut, tabGet, Ne.symm h]
  | cons p r ih =>
    obtain ⟨k', v'⟩ := p
    simp only [tabPut]
    split
    · simp_all [tabGet, Ne.symm h]
    · split
      · simp [tabGet, Ne.symm h]
      · simp [tabGet, ih]

theorem tabGet_filter_keys (d : α) (t : Tab α) (f : Nat → Bool) (j : Nat) :
    tabGet d (t.filter (fun p => f p.1)) j = if f j then tabGet d t j else d := by
  induction t with
  | nil => simp [tabGet]
  | cons p r ih =>
    obtain ⟨k', v'⟩ := p
    by_cases h : k' = j
    · subst h
      by_cases hf : f k' <;> simp_all [List.filter, tabGet]
    · by_cases hf : f k' <;> simp_all [List.filter, tabGet]

theorem tabGet_tabDel_self (d : α) (t : Tab α) (k : Nat) : tabGet d (tabDel t k) k = d := by
  simp [tabDel, tabGet_filter_keys d t (fun i => i != k)]

theorem tabGet_tabDel_ne (d : α) (t : Tab α) {k j : Nat} (h : j ≠ k) : tabGet d (tabDel t k) j = tabGet d t j := by
  simp [tabDel, tabGet_filter_keys d t (fun i => i != k), h]

@[simp] theorem tabGet_tabSet_self [DecidableEq α] (d : α) (t : Tab α) (k : Nat) (v : α) :
    tabGet d (tabSet d t k v) k = v := by
  unfold tabSet
  split
  · simp_all [tabGet_tabDel_self]
  · exact tabGet_tabPut_self d t k v

theorem tabGet_tabSet_ne [DecidableEq α] (d e : α) (t : Tab α) {k j : Nat} (v : α) (h : j ≠ k) :
    tabGet d (tabSet e t k v) j = tabGet d t j := by
  unfold tabSet
  split
  · exact tabGet_tabDel_ne d t h
  · exact tabGet_tabPut_ne d t v h

/-! ### The canonical form -/

theorem tabSorted_filter (f : Nat × α → Bool) : (t : Tab α) → tabSorted t = true → tabSorted (t.filter f) = true
  | [], _ => rfl
  | (k, v) :: r, h => by
    simp only [tabSorted, Bool.and_eq_true, List.all_eq_true, decide_eq_true_eq] at h
    have ih := tabSorted_filter f r h.2
    simp only [List.filter]
    split
    · simp only [tabSorted, Bool.and_eq_true, List.all_eq_true, decide_eq_true_eq]
      exact ⟨fun p hp => h.1 p (List.mem_of_mem_filter hp), ih⟩
    · exact ih

theorem tabPut_keys {t : Tab α} {k : Nat} {v : α} {p : Nat × α} (h : p ∈ tabPut t k v) : p = (k, v) ∨ p ∈ t := by
  induction t with
  | nil => simp_all [tabPut]
  | cons q r ih =>
    obtain ⟨k', v'⟩ := q
    simp only [tabPut] at h
    split at h
    · simp_all only [List.mem_cons]; tauto
    · split at h <;> simp_all only [List.mem_cons] <;> tauto

theorem tabSorted_tabPut : (t : Tab α) → (k : Nat) → (v : α) → tabSorted t = true → tabSorted (tabPut t k v) = true
  | [], _, _, _ => by simp [tabPut, tabSorted]
  | (k', v') :: r, k, v, h => by
    simp only [tabSorted, Bool.and_eq_true, List.all_eq_true, decide_eq_true_eq] at h
    have ih := tabSorted_tabPut r k v h.2
    simp only [tabPut]
    split
    · subst_vars
      simp only [tabSorted, Bool.and_eq_true, List.all_eq_true, decide_eq_true_eq]
      exact h
    · split
      · simp only [tabSorted, Bool.and_eq_true, List.all_eq_true, decide_eq_true_eq, List.mem_cons]
        refine ⟨?_, h⟩
        rintro p (rfl | hp)
        · assumption
        · have := h.1 p hp; omega
      · simp only [tabSorted, Bool.and_eq_true, List.all_eq_true, decide_eq_true_eq]
        refine ⟨fun p hp => ?_, ih⟩
        rcases tabPut_keys hp with rfl | hp
        · simp only; omega
        · exact h.1 p hp

theorem tabWf_filter [DecidableEq α] {d : Nat → α} {t : Tab α} (f : Nat × α → Bool) (h : tabWf d t = true) :
    tabWf d (t.filter f) = true := by
  simp only [tabWf, Bool.and_eq_true, List.all_eq_true, decide_eq_true_eq] at h ⊢
  exact ⟨tabSorted_filter f t h.1, fun p hp => h.2 p (List.mem_of_mem_filter hp)⟩

theorem tabWf_tabSet [DecidableEq α] {d : Nat → α} {t : Tab α} (k : Nat) (v : α) (h : tabWf d t = true) :
    tabWf d (tabSet (d k) t k v) = true := by
  unfold tabSet
  split
  · exact tabWf_filter _ h
  · simp only [tabWf, Bool.and_eq_true, List.all_eq_true, decide_eq_true_eq] at h ⊢
    refine ⟨tabSorted_tabPut t k v h.1, fun p hp => ?_⟩
    rcases tabPut_keys hp with rfl | hp
    · assumption
    · exact h.2 p hp

/-! ### Byte memories -/

theorem Memory.wf_nil : Memory.wf [] = true := rfl

theorem Memory.wf_filter {m : Memory} (f : Host.Cell → Bool) (h : Memory.wf m = true) : Memory.wf (m.filter f) = true :=
  tabWf_filter f h

theorem Memory.wf_memWrite {m : Memory} (a : Nat) (b : Byte) (h : Memory.wf m = true) :
    Memory.wf (memWrite m a b) = true :=
  tabWf_tabSet (d := fun _ => memDefault) a b h

theorem Memory.wf_memWriteBytes {m : Memory} (a : Nat) (l : List Byte) (h : Memory.wf m = true) :
    Memory.wf (memWriteBytes m a l) = true := by
  induction l generalizing m a with
  | nil => exact h
  | cons b r ih => exact ih (a + 1) (Memory.wf_memWrite a b h)

theorem Memory.wf_memWriteWord {m : Memory} (w : Nat) (v : Word64) (h : Memory.wf m = true) :
    Memory.wf (memWriteWord m w v) = true := Memory.wf_memWriteBytes _ _ h

@[simp] theorem memRead_memWrite_self (m : Memory) (a : Nat) (b : Byte) : memRead (memWrite m a b) a = b :=
  tabGet_tabSet_self _ _ _ _

theorem memRead_memWrite_ne (m : Memory) {a x : Nat} (b : Byte) (h : x ≠ a) : memRead (memWrite m a b) x = memRead m x :=
  tabGet_tabSet_ne _ _ _ _ h

/-- A write of bytes leaves every byte outside them. -/
theorem memRead_memWriteBytes_out (m : Memory) (a : Nat) (l : List Byte) (x : Nat) (h : x < a ∨ a + l.length ≤ x) :
    memRead (memWriteBytes m a l) x = memRead m x := by
  induction l generalizing m a with
  | nil => rfl
  | cons b r ih =>
    simp only [List.length_cons] at h
    rw [memWriteBytes, ih (memWrite m a b) (a + 1) (by omega), memRead_memWrite_ne m b (by omega)]

theorem bytesOfWord_length (v : Word64) : (bytesOfWord v).length = 8 := by simp [bytesOfWord]

/-- A word write leaves every byte of every other word. -/
theorem memRead_memWriteWord_out (m : Memory) (w : Nat) (v : Word64) (x : Nat) (h : x / 8 ≠ w) :
    memRead (memWriteWord m w v) x = memRead m x :=
  memRead_memWriteBytes_out m _ _ x (by rw [bytesOfWord_length]; omega)

theorem memReadWord_memWriteWord_ne (m : Memory) {w x : Nat} (v : Word64) (h : x ≠ w) :
    memReadWord (memWriteWord m w v) x = memReadWord m x := by
  simp only [memReadWord]
  congr 2
  apply List.map_congr_left
  intro j hj
  exact memRead_memWriteWord_out m w v _ (by simp at hj; omega)

end Sys2Proof.Machine
end

