-- ==== Sys2Proof/Laws/State.lean ====
section
/-! SUPPORT. One lemma per field of State for each basic update (a register write, the per-instance tables), the reads after
those writes, and what each leaves. -/

namespace Sys2Proof.Machine

/-! ### wr -/

@[simp] theorem wr_pending (s : State) (off : Nat) (v : Word) : (wr s off v).pending = s.pending := rfl
@[simp] theorem wr_time (s : State) (off : Nat) (v : Word) : (wr s off v).time = s.time := rfl
@[simp] theorem wr_freeCtr (s : State) (off : Nat) (v : Word) : (wr s off v).freeCtr = s.freeCtr := rfl
@[simp] theorem wr_cycSet (s : State) (off : Nat) (v : Word) : (wr s off v).cycSet = s.cycSet := rfl
@[simp] theorem wr_cycInc (s : State) (off : Nat) (v : Word) : (wr s off v).cycInc = s.cycInc := rfl
@[simp] theorem wr_cycHost (s : State) (off : Nat) (v : Word) : (wr s off v).cycHost = s.cycHost := rfl
@[simp] theorem wr_cycPrev (s : State) (off : Nat) (v : Word) : (wr s off v).cycPrev = s.cycPrev := rfl
@[simp] theorem wr_evBoth (s : State) (off : Nat) (v : Word) : (wr s off v).evBoth = s.evBoth := rfl
@[simp] theorem wr_recOrd (s : State) (off : Nat) (v : Word) : (wr s off v).recOrd = s.recOrd := rfl
@[simp] theorem wr_guard (s : State) (off : Nat) (v : Word) : (wr s off v).guard = s.guard := rfl
@[simp] theorem wr_posted (s : State) (off : Nat) (v : Word) : (wr s off v).posted = s.posted := rfl
@[simp] theorem wr_running (s : State) (off : Nat) (v : Word) : (wr s off v).running = s.running := rfl
@[simp] theorem wr_warmAt (s : State) (off : Nat) (v : Word) : (wr s off v).warmAt = s.warmAt := rfl
@[simp] theorem wr_ns (s : State) (off : Nat) (v : Word) : (wr s off v).ns = s.ns := rfl
@[simp] theorem wr_ramp (s : State) (off : Nat) (v : Word) : (wr s off v).ramp = s.ramp := rfl
@[simp] theorem wr_disch (s : State) (off : Nat) (v : Word) : (wr s off v).disch = s.disch := rfl
@[simp] theorem wr_inits (s : State) (off : Nat) (v : Word) : (wr s off v).inits = s.inits := rfl
@[simp] theorem wr_bistFailed (s : State) (off : Nat) (v : Word) : (wr s off v).bistFailed = s.bistFailed := rfl
@[simp] theorem wr_readData (s : State) (off : Nat) (v : Word) : (wr s off v).readData = s.readData := rfl
@[simp] theorem wr_fuses (s : State) (off : Nat) (v : Word) : (wr s off v).fuses = s.fuses := rfl
@[simp] theorem wr_flash (s : State) (off : Nat) (v : Word) : (wr s off v).flash = s.flash := rfl
@[simp] theorem wr_gates (s : State) (off : Nat) (v : Word) : (wr s off v).gates = s.gates := rfl
@[simp] theorem wr_repaired (s : State) (off : Nat) (v : Word) : (wr s off v).repaired = s.repaired := rfl
@[simp] theorem wr_capture (s : State) (off : Nat) (v : Word) : (wr s off v).capture = s.capture := rfl
@[simp] theorem wr_lrel (s : State) (off : Nat) (v : Word) : (wr s off v).lrel = s.lrel := rfl
@[simp] theorem wr_tb (s : State) (off : Nat) (v : Word) : (wr s off v).tb = s.tb := rfl
@[simp] theorem wr_loop (s : State) (off : Nat) (v : Word) : (wr s off v).loop = s.loop := rfl
@[simp] theorem wr_glb (s : State) (off : Nat) (v : Word) : (wr s off v).glb = s.glb := rfl
@[simp] theorem wr_trigOut (s : State) (off : Nat) (v : Word) : (wr s off v).trigOut = s.trigOut := rfl
@[simp] theorem wr_eng (s : State) (off : Nat) (v : Word) : (wr s off v).eng = s.eng := rfl
@[simp] theorem wr_ctx (s : State) (off : Nat) (v : Word) : (wr s off v).ctx = s.ctx := rfl
@[simp] theorem wr_lane (s : State) (off : Nat) (v : Word) : (wr s off v).lane = s.lane := rfl
@[simp] theorem wr_ret (s : State) (off : Nat) (v : Word) : (wr s off v).ret = s.ret := rfl
@[simp] theorem wr_retTx (s : State) (off : Nat) (v : Word) : (wr s off v).retTx = s.retTx := rfl
@[simp] theorem wr_stream (s : State) (off : Nat) (v : Word) : (wr s off v).stream = s.stream := rfl
@[simp] theorem wr_ring (s : State) (off : Nat) (v : Word) : (wr s off v).ring = s.ring := rfl
@[simp] theorem wr_stratus (s : State) (off : Nat) (v : Word) : (wr s off v).stratus = s.stratus := rfl
@[simp] theorem wr_cirrus (s : State) (off : Nat) (v : Word) : (wr s off v).cirrus = s.cirrus := rfl
@[simp] theorem wr_lineRr (s : State) (off : Nat) (v : Word) : (wr s off v).lineRr = s.lineRr := rfl
@[simp] theorem wr_stratusBad (s : State) (off : Nat) (v : Word) : (wr s off v).stratusBad = s.stratusBad := rfl
@[simp] theorem wr_stratusCorr (s : State) (off : Nat) (v : Word) : (wr s off v).stratusCorr = s.stratusCorr := rfl
@[simp] theorem wr_cirrusBad (s : State) (off : Nat) (v : Word) : (wr s off v).cirrusBad = s.cirrusBad := rfl
@[simp] theorem wr_cirrusCorr (s : State) (off : Nat) (v : Word) : (wr s off v).cirrusCorr = s.cirrusCorr := rfl
@[simp] theorem wr_tiu (s : State) (off : Nat) (v : Word) : (wr s off v).tiu = s.tiu := rfl
@[simp] theorem wr_dfc (s : State) (off : Nat) (v : Word) : (wr s off v).dfc = s.dfc := rfl
@[simp] theorem wr_dfl (s : State) (off : Nat) (v : Word) : (wr s off v).dfl = s.dfl := rfl
@[simp] theorem wr_job (s : State) (off : Nat) (v : Word) : (wr s off v).job = s.job := rfl
@[simp] theorem wr_mt (s : State) (off : Nat) (v : Word) : (wr s off v).mt = s.mt := rfl
@[simp] theorem wr_mtLast (s : State) (off : Nat) (v : Word) : (wr s off v).mtLast = s.mtLast := rfl
@[simp] theorem wr_spares (s : State) (off : Nat) (v : Word) : (wr s off v).spares = s.spares := rfl
@[simp] theorem wr_pcie (s : State) (off : Nat) (v : Word) : (wr s off v).pcie = s.pcie := rfl
@[simp] theorem wr_dma (s : State) (off : Nat) (v : Word) : (wr s off v).dma = s.dma := rfl
@[simp] theorem wr_smbAddr (s : State) (off : Nat) (v : Word) : (wr s off v).smbAddr = s.smbAddr := rfl
@[simp] theorem wr_smbOut (s : State) (off : Nat) (v : Word) : (wr s off v).smbOut = s.smbOut := rfl
@[simp] theorem wr_jtag (s : State) (off : Nat) (v : Word) : (wr s off v).jtag = s.jtag := rfl

/-! ### setEng -/

@[simp] theorem setEng_pending (s : State) (n : Nat) (e : EngCore) : (setEng s n e).pending = s.pending := rfl
@[simp] theorem setEng_time (s : State) (n : Nat) (e : EngCore) : (setEng s n e).time = s.time := rfl
@[simp] theorem setEng_freeCtr (s : State) (n : Nat) (e : EngCore) : (setEng s n e).freeCtr = s.freeCtr := rfl
@[simp] theorem setEng_regs (s : State) (n : Nat) (e : EngCore) : (setEng s n e).regs = s.regs := rfl
@[simp] theorem setEng_cycSet (s : State) (n : Nat) (e : EngCore) : (setEng s n e).cycSet = s.cycSet := rfl
@[simp] theorem setEng_cycInc (s : State) (n : Nat) (e : EngCore) : (setEng s n e).cycInc = s.cycInc := rfl
@[simp] theorem setEng_cycHost (s : State) (n : Nat) (e : EngCore) : (setEng s n e).cycHost = s.cycHost := rfl
@[simp] theorem setEng_cycPrev (s : State) (n : Nat) (e : EngCore) : (setEng s n e).cycPrev = s.cycPrev := rfl
@[simp] theorem setEng_evBoth (s : State) (n : Nat) (e : EngCore) : (setEng s n e).evBoth = s.evBoth := rfl
@[simp] theorem setEng_recOrd (s : State) (n : Nat) (e : EngCore) : (setEng s n e).recOrd = s.recOrd := rfl
@[simp] theorem setEng_guard (s : State) (n : Nat) (e : EngCore) : (setEng s n e).guard = s.guard := rfl
@[simp] theorem setEng_posted (s : State) (n : Nat) (e : EngCore) : (setEng s n e).posted = s.posted := rfl
@[simp] theorem setEng_running (s : State) (n : Nat) (e : EngCore) : (setEng s n e).running = s.running := rfl
@[simp] theorem setEng_warmAt (s : State) (n : Nat) (e : EngCore) : (setEng s n e).warmAt = s.warmAt := rfl
@[simp] theorem setEng_ns (s : State) (n : Nat) (e : EngCore) : (setEng s n e).ns = s.ns := rfl
@[simp] theorem setEng_ramp (s : State) (n : Nat) (e : EngCore) : (setEng s n e).ramp = s.ramp := rfl
@[simp] theorem setEng_disch (s : State) (n : Nat) (e : EngCore) : (setEng s n e).disch = s.disch := rfl
@[simp] theorem setEng_inits (s : State) (n : Nat) (e : EngCore) : (setEng s n e).inits = s.inits := rfl
@[simp] theorem setEng_bistFailed (s : State) (n : Nat) (e : EngCore) : (setEng s n e).bistFailed = s.bistFailed := rfl
@[simp] theorem setEng_readData (s : State) (n : Nat) (e : EngCore) : (setEng s n e).readData = s.readData := rfl
@[simp] theorem setEng_fuses (s : State) (n : Nat) (e : EngCore) : (setEng s n e).fuses = s.fuses := rfl
@[simp] theorem setEng_flash (s : State) (n : Nat) (e : EngCore) : (setEng s n e).flash = s.flash := rfl
@[simp] theorem setEng_gates (s : State) (n : Nat) (e : EngCore) : (setEng s n e).gates = s.gates := rfl
@[simp] theorem setEng_repaired (s : State) (n : Nat) (e : EngCore) : (setEng s n e).repaired = s.repaired := rfl
@[simp] theorem setEng_capture (s : State) (n : Nat) (e : EngCore) : (setEng s n e).capture = s.capture := rfl
@[simp] theorem setEng_lrel (s : State) (n : Nat) (e : EngCore) : (setEng s n e).lrel = s.lrel := rfl
@[simp] theorem setEng_tb (s : State) (n : Nat) (e : EngCore) : (setEng s n e).tb = s.tb := rfl
@[simp] theorem setEng_loop (s : State) (n : Nat) (e : EngCore) : (setEng s n e).loop = s.loop := rfl
@[simp] theorem setEng_glb (s : State) (n : Nat) (e : EngCore) : (setEng s n e).glb = s.glb := rfl
@[simp] theorem setEng_trigOut (s : State) (n : Nat) (e : EngCore) : (setEng s n e).trigOut = s.trigOut := rfl
@[simp] theorem setEng_ctx (s : State) (n : Nat) (e : EngCore) : (setEng s n e).ctx = s.ctx := rfl
@[simp] theorem setEng_lane (s : State) (n : Nat) (e : EngCore) : (setEng s n e).lane = s.lane := rfl
@[simp] theorem setEng_ret (s : State) (n : Nat) (e : EngCore) : (setEng s n e).ret = s.ret := rfl
@[simp] theorem setEng_retTx (s : State) (n : Nat) (e : EngCore) : (setEng s n e).retTx = s.retTx := rfl
@[simp] theorem setEng_stream (s : State) (n : Nat) (e : EngCore) : (setEng s n e).stream = s.stream := rfl
@[simp] theorem setEng_ring (s : State) (n : Nat) (e : EngCore) : (setEng s n e).ring = s.ring := rfl
@[simp] theorem setEng_stratus (s : State) (n : Nat) (e : EngCore) : (setEng s n e).stratus = s.stratus := rfl
@[simp] theorem setEng_cirrus (s : State) (n : Nat) (e : EngCore) : (setEng s n e).cirrus = s.cirrus := rfl
@[simp] theorem setEng_lineRr (s : State) (n : Nat) (e : EngCore) : (setEng s n e).lineRr = s.lineRr := rfl
@[simp] theorem setEng_stratusBad (s : State) (n : Nat) (e : EngCore) : (setEng s n e).stratusBad = s.stratusBad := rfl
@[simp] theorem setEng_stratusCorr (s : State) (n : Nat) (e : EngCore) : (setEng s n e).stratusCorr = s.stratusCorr := rfl
@[simp] theorem setEng_cirrusBad (s : State) (n : Nat) (e : EngCore) : (setEng s n e).cirrusBad = s.cirrusBad := rfl
@[simp] theorem setEng_cirrusCorr (s : State) (n : Nat) (e : EngCore) : (setEng s n e).cirrusCorr = s.cirrusCorr := rfl
@[simp] theorem setEng_tiu (s : State) (n : Nat) (e : EngCore) : (setEng s n e).tiu = s.tiu := rfl
@[simp] theorem setEng_dfc (s : State) (n : Nat) (e : EngCore) : (setEng s n e).dfc = s.dfc := rfl
@[simp] theorem setEng_dfl (s : State) (n : Nat) (e : EngCore) : (setEng s n e).dfl = s.dfl := rfl
@[simp] theorem setEng_job (s : State) (n : Nat) (e : EngCore) : (setEng s n e).job = s.job := rfl
@[simp] theorem setEng_mt (s : State) (n : Nat) (e : EngCore) : (setEng s n e).mt = s.mt := rfl
@[simp] theorem setEng_mtLast (s : State) (n : Nat) (e : EngCore) : (setEng s n e).mtLast = s.mtLast := rfl
@[simp] theorem setEng_spares (s : State) (n : Nat) (e : EngCore) : (setEng s n e).spares = s.spares := rfl
@[simp] theorem setEng_pcie (s : State) (n : Nat) (e : EngCore) : (setEng s n e).pcie = s.pcie := rfl
@[simp] theorem setEng_dma (s : State) (n : Nat) (e : EngCore) : (setEng s n e).dma = s.dma := rfl
@[simp] theorem setEng_smbAddr (s : State) (n : Nat) (e : EngCore) : (setEng s n e).smbAddr = s.smbAddr := rfl
@[simp] theorem setEng_smbOut (s : State) (n : Nat) (e : EngCore) : (setEng s n e).smbOut = s.smbOut := rfl
@[simp] theorem setEng_jtag (s : State) (n : Nat) (e : EngCore) : (setEng s n e).jtag = s.jtag := rfl

/-! ### setLane -/

@[simp] theorem setLane_pending (s : State) (n : Nat) (l : LaneCore) : (setLane s n l).pending = s.pending := rfl
@[simp] theorem setLane_time (s : State) (n : Nat) (l : LaneCore) : (setLane s n l).time = s.time := rfl
@[simp] theorem setLane_freeCtr (s : State) (n : Nat) (l : LaneCore) : (setLane s n l).freeCtr = s.freeCtr := rfl
@[simp] theorem setLane_regs (s : State) (n : Nat) (l : LaneCore) : (setLane s n l).regs = s.regs := rfl
@[simp] theorem setLane_cycSet (s : State) (n : Nat) (l : LaneCore) : (setLane s n l).cycSet = s.cycSet := rfl
@[simp] theorem setLane_cycInc (s : State) (n : Nat) (l : LaneCore) : (setLane s n l).cycInc = s.cycInc := rfl
@[simp] theorem setLane_cycHost (s : State) (n : Nat) (l : LaneCore) : (setLane s n l).cycHost = s.cycHost := rfl
@[simp] theorem setLane_cycPrev (s : State) (n : Nat) (l : LaneCore) : (setLane s n l).cycPrev = s.cycPrev := rfl
@[simp] theorem setLane_evBoth (s : State) (n : Nat) (l : LaneCore) : (setLane s n l).evBoth = s.evBoth := rfl
@[simp] theorem setLane_recOrd (s : State) (n : Nat) (l : LaneCore) : (setLane s n l).recOrd = s.recOrd := rfl
@[simp] theorem setLane_guard (s : State) (n : Nat) (l : LaneCore) : (setLane s n l).guard = s.guard := rfl
@[simp] theorem setLane_posted (s : State) (n : Nat) (l : LaneCore) : (setLane s n l).posted = s.posted := rfl
@[simp] theorem setLane_running (s : State) (n : Nat) (l : LaneCore) : (setLane s n l).running = s.running := rfl
@[simp] theorem setLane_warmAt (s : State) (n : Nat) (l : LaneCore) : (setLane s n l).warmAt = s.warmAt := rfl
@[simp] theorem setLane_ns (s : State) (n : Nat) (l : LaneCore) : (setLane s n l).ns = s.ns := rfl
@[simp] theorem setLane_ramp (s : State) (n : Nat) (l : LaneCore) : (setLane s n l).ramp = s.ramp := rfl
@[simp] theorem setLane_disch (s : State) (n : Nat) (l : LaneCore) : (setLane s n l).disch = s.disch := rfl
@[simp] theorem setLane_inits (s : State) (n : Nat) (l : LaneCore) : (setLane s n l).inits = s.inits := rfl
@[simp] theorem setLane_bistFailed (s : State) (n : Nat) (l : LaneCore) : (setLane s n l).bistFailed = s.bistFailed := rfl
@[simp] theorem setLane_readData (s : State) (n : Nat) (l : LaneCore) : (setLane s n l).readData = s.readData := rfl
@[simp] theorem setLane_fuses (s : State) (n : Nat) (l : LaneCore) : (setLane s n l).fuses = s.fuses := rfl
@[simp] theorem setLane_flash (s : State) (n : Nat) (l : LaneCore) : (setLane s n l).flash = s.flash := rfl
@[simp] theorem setLane_gates (s : State) (n : Nat) (l : LaneCore) : (setLane s n l).gates = s.gates := rfl
@[simp] theorem setLane_repaired (s : State) (n : Nat) (l : LaneCore) : (setLane s n l).repaired = s.repaired := rfl
@[simp] theorem setLane_capture (s : State) (n : Nat) (l : LaneCore) : (setLane s n l).capture = s.capture := rfl
@[simp] theorem setLane_lrel (s : State) (n : Nat) (l : LaneCore) : (setLane s n l).lrel = s.lrel := rfl
@[simp] theorem setLane_tb (s : State) (n : Nat) (l : LaneCore) : (setLane s n l).tb = s.tb := rfl
@[simp] theorem setLane_loop (s : State) (n : Nat) (l : LaneCore) : (setLane s n l).loop = s.loop := rfl
@[simp] theorem setLane_glb (s : State) (n : Nat) (l : LaneCore) : (setLane s n l).glb = s.glb := rfl
@[simp] theorem setLane_trigOut (s : State) (n : Nat) (l : LaneCore) : (setLane s n l).trigOut = s.trigOut := rfl
@[simp] theorem setLane_eng (s : State) (n : Nat) (l : LaneCore) : (setLane s n l).eng = s.eng := rfl
@[simp] theorem setLane_ctx (s : State) (n : Nat) (l : LaneCore) : (setLane s n l).ctx = s.ctx := rfl
@[simp] theorem setLane_ret (s : State) (n : Nat) (l : LaneCore) : (setLane s n l).ret = s.ret := rfl
@[simp] theorem setLane_retTx (s : State) (n : Nat) (l : LaneCore) : (setLane s n l).retTx = s.retTx := rfl
@[simp] theorem setLane_stream (s : State) (n : Nat) (l : LaneCore) : (setLane s n l).stream = s.stream := rfl
@[simp] theorem setLane_ring (s : State) (n : Nat) (l : LaneCore) : (setLane s n l).ring = s.ring := rfl
@[simp] theorem setLane_stratus (s : State) (n : Nat) (l : LaneCore) : (setLane s n l).stratus = s.stratus := rfl
@[simp] theorem setLane_cirrus (s : State) (n : Nat) (l : LaneCore) : (setLane s n l).cirrus = s.cirrus := rfl
@[simp] theorem setLane_lineRr (s : State) (n : Nat) (l : LaneCore) : (setLane s n l).lineRr = s.lineRr := rfl
@[simp] theorem setLane_stratusBad (s : State) (n : Nat) (l : LaneCore) : (setLane s n l).stratusBad = s.stratusBad := rfl
@[simp] theorem setLane_stratusCorr (s : State) (n : Nat) (l : LaneCore) : (setLane s n l).stratusCorr = s.stratusCorr := rfl
@[simp] theorem setLane_cirrusBad (s : State) (n : Nat) (l : LaneCore) : (setLane s n l).cirrusBad = s.cirrusBad := rfl
@[simp] theorem setLane_cirrusCorr (s : State) (n : Nat) (l : LaneCore) : (setLane s n l).cirrusCorr = s.cirrusCorr := rfl
@[simp] theorem setLane_tiu (s : State) (n : Nat) (l : LaneCore) : (setLane s n l).tiu = s.tiu := rfl
@[simp] theorem setLane_dfc (s : State) (n : Nat) (l : LaneCore) : (setLane s n l).dfc = s.dfc := rfl
@[simp] theorem setLane_dfl (s : State) (n : Nat) (l : LaneCore) : (setLane s n l).dfl = s.dfl := rfl
@[simp] theorem setLane_job (s : State) (n : Nat) (l : LaneCore) : (setLane s n l).job = s.job := rfl
@[simp] theorem setLane_mt (s : State) (n : Nat) (l : LaneCore) : (setLane s n l).mt = s.mt := rfl
@[simp] theorem setLane_mtLast (s : State) (n : Nat) (l : LaneCore) : (setLane s n l).mtLast = s.mtLast := rfl
@[simp] theorem setLane_spares (s : State) (n : Nat) (l : LaneCore) : (setLane s n l).spares = s.spares := rfl
@[simp] theorem setLane_pcie (s : State) (n : Nat) (l : LaneCore) : (setLane s n l).pcie = s.pcie := rfl
@[simp] theorem setLane_dma (s : State) (n : Nat) (l : LaneCore) : (setLane s n l).dma = s.dma := rfl
@[simp] theorem setLane_smbAddr (s : State) (n : Nat) (l : LaneCore) : (setLane s n l).smbAddr = s.smbAddr := rfl
@[simp] theorem setLane_smbOut (s : State) (n : Nat) (l : LaneCore) : (setLane s n l).smbOut = s.smbOut := rfl
@[simp] theorem setLane_jtag (s : State) (n : Nat) (l : LaneCore) : (setLane s n l).jtag = s.jtag := rfl

/-! ### setRet -/

@[simp] theorem setRet_pending (s : State) (k : Nat) (r : RetCore) : (setRet s k r).pending = s.pending := rfl
@[simp] theorem setRet_time (s : State) (k : Nat) (r : RetCore) : (setRet s k r).time = s.time := rfl
@[simp] theorem setRet_freeCtr (s : State) (k : Nat) (r : RetCore) : (setRet s k r).freeCtr = s.freeCtr := rfl
@[simp] theorem setRet_regs (s : State) (k : Nat) (r : RetCore) : (setRet s k r).regs = s.regs := rfl
@[simp] theorem setRet_cycSet (s : State) (k : Nat) (r : RetCore) : (setRet s k r).cycSet = s.cycSet := rfl
@[simp] theorem setRet_cycInc (s : State) (k : Nat) (r : RetCore) : (setRet s k r).cycInc = s.cycInc := rfl
@[simp] theorem setRet_cycHost (s : State) (k : Nat) (r : RetCore) : (setRet s k r).cycHost = s.cycHost := rfl
@[simp] theorem setRet_cycPrev (s : State) (k : Nat) (r : RetCore) : (setRet s k r).cycPrev = s.cycPrev := rfl
@[simp] theorem setRet_evBoth (s : State) (k : Nat) (r : RetCore) : (setRet s k r).evBoth = s.evBoth := rfl
@[simp] theorem setRet_recOrd (s : State) (k : Nat) (r : RetCore) : (setRet s k r).recOrd = s.recOrd := rfl
@[simp] theorem setRet_guard (s : State) (k : Nat) (r : RetCore) : (setRet s k r).guard = s.guard := rfl
@[simp] theorem setRet_posted (s : State) (k : Nat) (r : RetCore) : (setRet s k r).posted = s.posted := rfl
@[simp] theorem setRet_running (s : State) (k : Nat) (r : RetCore) : (setRet s k r).running = s.running := rfl
@[simp] theorem setRet_warmAt (s : State) (k : Nat) (r : RetCore) : (setRet s k r).warmAt = s.warmAt := rfl
@[simp] theorem setRet_ns (s : State) (k : Nat) (r : RetCore) : (setRet s k r).ns = s.ns := rfl
@[simp] theorem setRet_ramp (s : State) (k : Nat) (r : RetCore) : (setRet s k r).ramp = s.ramp := rfl
@[simp] theorem setRet_disch (s : State) (k : Nat) (r : RetCore) : (setRet s k r).disch = s.disch := rfl
@[simp] theorem setRet_inits (s : State) (k : Nat) (r : RetCore) : (setRet s k r).inits = s.inits := rfl
@[simp] theorem setRet_bistFailed (s : State) (k : Nat) (r : RetCore) : (setRet s k r).bistFailed = s.bistFailed := rfl
@[simp] theorem setRet_readData (s : State) (k : Nat) (r : RetCore) : (setRet s k r).readData = s.readData := rfl
@[simp] theorem setRet_fuses (s : State) (k : Nat) (r : RetCore) : (setRet s k r).fuses = s.fuses := rfl
@[simp] theorem setRet_flash (s : State) (k : Nat) (r : RetCore) : (setRet s k r).flash = s.flash := rfl
@[simp] theorem setRet_gates (s : State) (k : Nat) (r : RetCore) : (setRet s k r).gates = s.gates := rfl
@[simp] theorem setRet_repaired (s : State) (k : Nat) (r : RetCore) : (setRet s k r).repaired = s.repaired := rfl
@[simp] theorem setRet_capture (s : State) (k : Nat) (r : RetCore) : (setRet s k r).capture = s.capture := rfl
@[simp] theorem setRet_lrel (s : State) (k : Nat) (r : RetCore) : (setRet s k r).lrel = s.lrel := rfl
@[simp] theorem setRet_tb (s : State) (k : Nat) (r : RetCore) : (setRet s k r).tb = s.tb := rfl
@[simp] theorem setRet_loop (s : State) (k : Nat) (r : RetCore) : (setRet s k r).loop = s.loop := rfl
@[simp] theorem setRet_glb (s : State) (k : Nat) (r : RetCore) : (setRet s k r).glb = s.glb := rfl
@[simp] theorem setRet_trigOut (s : State) (k : Nat) (r : RetCore) : (setRet s k r).trigOut = s.trigOut := rfl
@[simp] theorem setRet_eng (s : State) (k : Nat) (r : RetCore) : (setRet s k r).eng = s.eng := rfl
@[simp] theorem setRet_ctx (s : State) (k : Nat) (r : RetCore) : (setRet s k r).ctx = s.ctx := rfl
@[simp] theorem setRet_lane (s : State) (k : Nat) (r : RetCore) : (setRet s k r).lane = s.lane := rfl
@[simp] theorem setRet_retTx (s : State) (k : Nat) (r : RetCore) : (setRet s k r).retTx = s.retTx := rfl
@[simp] theorem setRet_stream (s : State) (k : Nat) (r : RetCore) : (setRet s k r).stream = s.stream := rfl
@[simp] theorem setRet_ring (s : State) (k : Nat) (r : RetCore) : (setRet s k r).ring = s.ring := rfl
@[simp] theorem setRet_stratus (s : State) (k : Nat) (r : RetCore) : (setRet s k r).stratus = s.stratus := rfl
@[simp] theorem setRet_cirrus (s : State) (k : Nat) (r : RetCore) : (setRet s k r).cirrus = s.cirrus := rfl
@[simp] theorem setRet_lineRr (s : State) (k : Nat) (r : RetCore) : (setRet s k r).lineRr = s.lineRr := rfl
@[simp] theorem setRet_stratusBad (s : State) (k : Nat) (r : RetCore) : (setRet s k r).stratusBad = s.stratusBad := rfl
@[simp] theorem setRet_stratusCorr (s : State) (k : Nat) (r : RetCore) : (setRet s k r).stratusCorr = s.stratusCorr := rfl
@[simp] theorem setRet_cirrusBad (s : State) (k : Nat) (r : RetCore) : (setRet s k r).cirrusBad = s.cirrusBad := rfl
@[simp] theorem setRet_cirrusCorr (s : State) (k : Nat) (r : RetCore) : (setRet s k r).cirrusCorr = s.cirrusCorr := rfl
@[simp] theorem setRet_tiu (s : State) (k : Nat) (r : RetCore) : (setRet s k r).tiu = s.tiu := rfl
@[simp] theorem setRet_dfc (s : State) (k : Nat) (r : RetCore) : (setRet s k r).dfc = s.dfc := rfl
@[simp] theorem setRet_dfl (s : State) (k : Nat) (r : RetCore) : (setRet s k r).dfl = s.dfl := rfl
@[simp] theorem setRet_job (s : State) (k : Nat) (r : RetCore) : (setRet s k r).job = s.job := rfl
@[simp] theorem setRet_mt (s : State) (k : Nat) (r : RetCore) : (setRet s k r).mt = s.mt := rfl
@[simp] theorem setRet_mtLast (s : State) (k : Nat) (r : RetCore) : (setRet s k r).mtLast = s.mtLast := rfl
@[simp] theorem setRet_spares (s : State) (k : Nat) (r : RetCore) : (setRet s k r).spares = s.spares := rfl
@[simp] theorem setRet_pcie (s : State) (k : Nat) (r : RetCore) : (setRet s k r).pcie = s.pcie := rfl
@[simp] theorem setRet_dma (s : State) (k : Nat) (r : RetCore) : (setRet s k r).dma = s.dma := rfl
@[simp] theorem setRet_smbAddr (s : State) (k : Nat) (r : RetCore) : (setRet s k r).smbAddr = s.smbAddr := rfl
@[simp] theorem setRet_smbOut (s : State) (k : Nat) (r : RetCore) : (setRet s k r).smbOut = s.smbOut := rfl
@[simp] theorem setRet_jtag (s : State) (k : Nat) (r : RetCore) : (setRet s k r).jtag = s.jtag := rfl

/-! ### setStr -/

@[simp] theorem setStr_pending (s : State) (n : Nat) (c : StreamCore) : (setStr s n c).pending = s.pending := rfl
@[simp] theorem setStr_time (s : State) (n : Nat) (c : StreamCore) : (setStr s n c).time = s.time := rfl
@[simp] theorem setStr_freeCtr (s : State) (n : Nat) (c : StreamCore) : (setStr s n c).freeCtr = s.freeCtr := rfl
@[simp] theorem setStr_regs (s : State) (n : Nat) (c : StreamCore) : (setStr s n c).regs = s.regs := rfl
@[simp] theorem setStr_cycSet (s : State) (n : Nat) (c : StreamCore) : (setStr s n c).cycSet = s.cycSet := rfl
@[simp] theorem setStr_cycInc (s : State) (n : Nat) (c : StreamCore) : (setStr s n c).cycInc = s.cycInc := rfl
@[simp] theorem setStr_cycHost (s : State) (n : Nat) (c : StreamCore) : (setStr s n c).cycHost = s.cycHost := rfl
@[simp] theorem setStr_cycPrev (s : State) (n : Nat) (c : StreamCore) : (setStr s n c).cycPrev = s.cycPrev := rfl
@[simp] theorem setStr_evBoth (s : State) (n : Nat) (c : StreamCore) : (setStr s n c).evBoth = s.evBoth := rfl
@[simp] theorem setStr_recOrd (s : State) (n : Nat) (c : StreamCore) : (setStr s n c).recOrd = s.recOrd := rfl
@[simp] theorem setStr_guard (s : State) (n : Nat) (c : StreamCore) : (setStr s n c).guard = s.guard := rfl
@[simp] theorem setStr_posted (s : State) (n : Nat) (c : StreamCore) : (setStr s n c).posted = s.posted := rfl
@[simp] theorem setStr_running (s : State) (n : Nat) (c : StreamCore) : (setStr s n c).running = s.running := rfl
@[simp] theorem setStr_warmAt (s : State) (n : Nat) (c : StreamCore) : (setStr s n c).warmAt = s.warmAt := rfl
@[simp] theorem setStr_ns (s : State) (n : Nat) (c : StreamCore) : (setStr s n c).ns = s.ns := rfl
@[simp] theorem setStr_ramp (s : State) (n : Nat) (c : StreamCore) : (setStr s n c).ramp = s.ramp := rfl
@[simp] theorem setStr_disch (s : State) (n : Nat) (c : StreamCore) : (setStr s n c).disch = s.disch := rfl
@[simp] theorem setStr_inits (s : State) (n : Nat) (c : StreamCore) : (setStr s n c).inits = s.inits := rfl
@[simp] theorem setStr_bistFailed (s : State) (n : Nat) (c : StreamCore) : (setStr s n c).bistFailed = s.bistFailed := rfl
@[simp] theorem setStr_readData (s : State) (n : Nat) (c : StreamCore) : (setStr s n c).readData = s.readData := rfl
@[simp] theorem setStr_fuses (s : State) (n : Nat) (c : StreamCore) : (setStr s n c).fuses = s.fuses := rfl
@[simp] theorem setStr_flash (s : State) (n : Nat) (c : StreamCore) : (setStr s n c).flash = s.flash := rfl
@[simp] theorem setStr_gates (s : State) (n : Nat) (c : StreamCore) : (setStr s n c).gates = s.gates := rfl
@[simp] theorem setStr_repaired (s : State) (n : Nat) (c : StreamCore) : (setStr s n c).repaired = s.repaired := rfl
@[simp] theorem setStr_capture (s : State) (n : Nat) (c : StreamCore) : (setStr s n c).capture = s.capture := rfl
@[simp] theorem setStr_lrel (s : State) (n : Nat) (c : StreamCore) : (setStr s n c).lrel = s.lrel := rfl
@[simp] theorem setStr_tb (s : State) (n : Nat) (c : StreamCore) : (setStr s n c).tb = s.tb := rfl
@[simp] theorem setStr_loop (s : State) (n : Nat) (c : StreamCore) : (setStr s n c).loop = s.loop := rfl
@[simp] theorem setStr_glb (s : State) (n : Nat) (c : StreamCore) : (setStr s n c).glb = s.glb := rfl
@[simp] theorem setStr_trigOut (s : State) (n : Nat) (c : StreamCore) : (setStr s n c).trigOut = s.trigOut := rfl
@[simp] theorem setStr_eng (s : State) (n : Nat) (c : StreamCore) : (setStr s n c).eng = s.eng := rfl
@[simp] theorem setStr_ctx (s : State) (n : Nat) (c : StreamCore) : (setStr s n c).ctx = s.ctx := rfl
@[simp] theorem setStr_lane (s : State) (n : Nat) (c : StreamCore) : (setStr s n c).lane = s.lane := rfl
@[simp] theorem setStr_ret (s : State) (n : Nat) (c : StreamCore) : (setStr s n c).ret = s.ret := rfl
@[simp] theorem setStr_retTx (s : State) (n : Nat) (c : StreamCore) : (setStr s n c).retTx = s.retTx := rfl
@[simp] theorem setStr_ring (s : State) (n : Nat) (c : StreamCore) : (setStr s n c).ring = s.ring := rfl
@[simp] theorem setStr_stratus (s : State) (n : Nat) (c : StreamCore) : (setStr s n c).stratus = s.stratus := rfl
@[simp] theorem setStr_cirrus (s : State) (n : Nat) (c : StreamCore) : (setStr s n c).cirrus = s.cirrus := rfl
@[simp] theorem setStr_lineRr (s : State) (n : Nat) (c : StreamCore) : (setStr s n c).lineRr = s.lineRr := rfl
@[simp] theorem setStr_stratusBad (s : State) (n : Nat) (c : StreamCore) : (setStr s n c).stratusBad = s.stratusBad := rfl
@[simp] theorem setStr_stratusCorr (s : State) (n : Nat) (c : StreamCore) : (setStr s n c).stratusCorr = s.stratusCorr := rfl
@[simp] theorem setStr_cirrusBad (s : State) (n : Nat) (c : StreamCore) : (setStr s n c).cirrusBad = s.cirrusBad := rfl
@[simp] theorem setStr_cirrusCorr (s : State) (n : Nat) (c : StreamCore) : (setStr s n c).cirrusCorr = s.cirrusCorr := rfl
@[simp] theorem setStr_tiu (s : State) (n : Nat) (c : StreamCore) : (setStr s n c).tiu = s.tiu := rfl
@[simp] theorem setStr_dfc (s : State) (n : Nat) (c : StreamCore) : (setStr s n c).dfc = s.dfc := rfl
@[simp] theorem setStr_dfl (s : State) (n : Nat) (c : StreamCore) : (setStr s n c).dfl = s.dfl := rfl
@[simp] theorem setStr_job (s : State) (n : Nat) (c : StreamCore) : (setStr s n c).job = s.job := rfl
@[simp] theorem setStr_mt (s : State) (n : Nat) (c : StreamCore) : (setStr s n c).mt = s.mt := rfl
@[simp] theorem setStr_mtLast (s : State) (n : Nat) (c : StreamCore) : (setStr s n c).mtLast = s.mtLast := rfl
@[simp] theorem setStr_spares (s : State) (n : Nat) (c : StreamCore) : (setStr s n c).spares = s.spares := rfl
@[simp] theorem setStr_pcie (s : State) (n : Nat) (c : StreamCore) : (setStr s n c).pcie = s.pcie := rfl
@[simp] theorem setStr_dma (s : State) (n : Nat) (c : StreamCore) : (setStr s n c).dma = s.dma := rfl
@[simp] theorem setStr_smbAddr (s : State) (n : Nat) (c : StreamCore) : (setStr s n c).smbAddr = s.smbAddr := rfl
@[simp] theorem setStr_smbOut (s : State) (n : Nat) (c : StreamCore) : (setStr s n c).smbOut = s.smbOut := rfl
@[simp] theorem setStr_jtag (s : State) (n : Nat) (c : StreamCore) : (setStr s n c).jtag = s.jtag := rfl

/-! ### setRing -/

@[simp] theorem setRing_pending (s : State) (r : Nat) (c : RingCore) : (setRing s r c).pending = s.pending := rfl
@[simp] theorem setRing_time (s : State) (r : Nat) (c : RingCore) : (setRing s r c).time = s.time := rfl
@[simp] theorem setRing_freeCtr (s : State) (r : Nat) (c : RingCore) : (setRing s r c).freeCtr = s.freeCtr := rfl
@[simp] theorem setRing_regs (s : State) (r : Nat) (c : RingCore) : (setRing s r c).regs = s.regs := rfl
@[simp] theorem setRing_cycSet (s : State) (r : Nat) (c : RingCore) : (setRing s r c).cycSet = s.cycSet := rfl
@[simp] theorem setRing_cycInc (s : State) (r : Nat) (c : RingCore) : (setRing s r c).cycInc = s.cycInc := rfl
@[simp] theorem setRing_cycHost (s : State) (r : Nat) (c : RingCore) : (setRing s r c).cycHost = s.cycHost := rfl
@[simp] theorem setRing_cycPrev (s : State) (r : Nat) (c : RingCore) : (setRing s r c).cycPrev = s.cycPrev := rfl
@[simp] theorem setRing_evBoth (s : State) (r : Nat) (c : RingCore) : (setRing s r c).evBoth = s.evBoth := rfl
@[simp] theorem setRing_recOrd (s : State) (r : Nat) (c : RingCore) : (setRing s r c).recOrd = s.recOrd := rfl
@[simp] theorem setRing_guard (s : State) (r : Nat) (c : RingCore) : (setRing s r c).guard = s.guard := rfl
@[simp] theorem setRing_posted (s : State) (r : Nat) (c : RingCore) : (setRing s r c).posted = s.posted := rfl
@[simp] theorem setRing_running (s : State) (r : Nat) (c : RingCore) : (setRing s r c).running = s.running := rfl
@[simp] theorem setRing_warmAt (s : State) (r : Nat) (c : RingCore) : (setRing s r c).warmAt = s.warmAt := rfl
@[simp] theorem setRing_ns (s : State) (r : Nat) (c : RingCore) : (setRing s r c).ns = s.ns := rfl
@[simp] theorem setRing_ramp (s : State) (r : Nat) (c : RingCore) : (setRing s r c).ramp = s.ramp := rfl
@[simp] theorem setRing_disch (s : State) (r : Nat) (c : RingCore) : (setRing s r c).disch = s.disch := rfl
@[simp] theorem setRing_inits (s : State) (r : Nat) (c : RingCore) : (setRing s r c).inits = s.inits := rfl
@[simp] theorem setRing_bistFailed (s : State) (r : Nat) (c : RingCore) : (setRing s r c).bistFailed = s.bistFailed := rfl
@[simp] theorem setRing_readData (s : State) (r : Nat) (c : RingCore) : (setRing s r c).readData = s.readData := rfl
@[simp] theorem setRing_fuses (s : State) (r : Nat) (c : RingCore) : (setRing s r c).fuses = s.fuses := rfl
@[simp] theorem setRing_flash (s : State) (r : Nat) (c : RingCore) : (setRing s r c).flash = s.flash := rfl
@[simp] theorem setRing_gates (s : State) (r : Nat) (c : RingCore) : (setRing s r c).gates = s.gates := rfl
@[simp] theorem setRing_repaired (s : State) (r : Nat) (c : RingCore) : (setRing s r c).repaired = s.repaired := rfl
@[simp] theorem setRing_capture (s : State) (r : Nat) (c : RingCore) : (setRing s r c).capture = s.capture := rfl
@[simp] theorem setRing_lrel (s : State) (r : Nat) (c : RingCore) : (setRing s r c).lrel = s.lrel := rfl
@[simp] theorem setRing_tb (s : State) (r : Nat) (c : RingCore) : (setRing s r c).tb = s.tb := rfl
@[simp] theorem setRing_loop (s : State) (r : Nat) (c : RingCore) : (setRing s r c).loop = s.loop := rfl
@[simp] theorem setRing_glb (s : State) (r : Nat) (c : RingCore) : (setRing s r c).glb = s.glb := rfl
@[simp] theorem setRing_trigOut (s : State) (r : Nat) (c : RingCore) : (setRing s r c).trigOut = s.trigOut := rfl
@[simp] theorem setRing_eng (s : State) (r : Nat) (c : RingCore) : (setRing s r c).eng = s.eng := rfl
@[simp] theorem setRing_ctx (s : State) (r : Nat) (c : RingCore) : (setRing s r c).ctx = s.ctx := rfl
@[simp] theorem setRing_lane (s : State) (r : Nat) (c : RingCore) : (setRing s r c).lane = s.lane := rfl
@[simp] theorem setRing_ret (s : State) (r : Nat) (c : RingCore) : (setRing s r c).ret = s.ret := rfl
@[simp] theorem setRing_retTx (s : State) (r : Nat) (c : RingCore) : (setRing s r c).retTx = s.retTx := rfl
@[simp] theorem setRing_stream (s : State) (r : Nat) (c : RingCore) : (setRing s r c).stream = s.stream := rfl
@[simp] theorem setRing_stratus (s : State) (r : Nat) (c : RingCore) : (setRing s r c).stratus = s.stratus := rfl
@[simp] theorem setRing_cirrus (s : State) (r : Nat) (c : RingCore) : (setRing s r c).cirrus = s.cirrus := rfl
@[simp] theorem setRing_lineRr (s : State) (r : Nat) (c : RingCore) : (setRing s r c).lineRr = s.lineRr := rfl
@[simp] theorem setRing_stratusBad (s : State) (r : Nat) (c : RingCore) : (setRing s r c).stratusBad = s.stratusBad := rfl
@[simp] theorem setRing_stratusCorr (s : State) (r : Nat) (c : RingCore) : (setRing s r c).stratusCorr = s.stratusCorr := rfl
@[simp] theorem setRing_cirrusBad (s : State) (r : Nat) (c : RingCore) : (setRing s r c).cirrusBad = s.cirrusBad := rfl
@[simp] theorem setRing_cirrusCorr (s : State) (r : Nat) (c : RingCore) : (setRing s r c).cirrusCorr = s.cirrusCorr := rfl
@[simp] theorem setRing_tiu (s : State) (r : Nat) (c : RingCore) : (setRing s r c).tiu = s.tiu := rfl
@[simp] theorem setRing_dfc (s : State) (r : Nat) (c : RingCore) : (setRing s r c).dfc = s.dfc := rfl
@[simp] theorem setRing_dfl (s : State) (r : Nat) (c : RingCore) : (setRing s r c).dfl = s.dfl := rfl
@[simp] theorem setRing_job (s : State) (r : Nat) (c : RingCore) : (setRing s r c).job = s.job := rfl
@[simp] theorem setRing_mt (s : State) (r : Nat) (c : RingCore) : (setRing s r c).mt = s.mt := rfl
@[simp] theorem setRing_mtLast (s : State) (r : Nat) (c : RingCore) : (setRing s r c).mtLast = s.mtLast := rfl
@[simp] theorem setRing_spares (s : State) (r : Nat) (c : RingCore) : (setRing s r c).spares = s.spares := rfl
@[simp] theorem setRing_pcie (s : State) (r : Nat) (c : RingCore) : (setRing s r c).pcie = s.pcie := rfl
@[simp] theorem setRing_dma (s : State) (r : Nat) (c : RingCore) : (setRing s r c).dma = s.dma := rfl
@[simp] theorem setRing_smbAddr (s : State) (r : Nat) (c : RingCore) : (setRing s r c).smbAddr = s.smbAddr := rfl
@[simp] theorem setRing_smbOut (s : State) (r : Nat) (c : RingCore) : (setRing s r c).smbOut = s.smbOut := rfl
@[simp] theorem setRing_jtag (s : State) (r : Nat) (c : RingCore) : (setRing s r c).jtag = s.jtag := rfl

/-! ### setTiu -/

@[simp] theorem setTiu_pending (s : State) (i : Nat) (t : TiuCore) : (setTiu s i t).pending = s.pending := rfl
@[simp] theorem setTiu_time (s : State) (i : Nat) (t : TiuCore) : (setTiu s i t).time = s.time := rfl
@[simp] theorem setTiu_freeCtr (s : State) (i : Nat) (t : TiuCore) : (setTiu s i t).freeCtr = s.freeCtr := rfl
@[simp] theorem setTiu_regs (s : State) (i : Nat) (t : TiuCore) : (setTiu s i t).regs = s.regs := rfl
@[simp] theorem setTiu_cycSet (s : State) (i : Nat) (t : TiuCore) : (setTiu s i t).cycSet = s.cycSet := rfl
@[simp] theorem setTiu_cycInc (s : State) (i : Nat) (t : TiuCore) : (setTiu s i t).cycInc = s.cycInc := rfl
@[simp] theorem setTiu_cycHost (s : State) (i : Nat) (t : TiuCore) : (setTiu s i t).cycHost = s.cycHost := rfl
@[simp] theorem setTiu_cycPrev (s : State) (i : Nat) (t : TiuCore) : (setTiu s i t).cycPrev = s.cycPrev := rfl
@[simp] theorem setTiu_evBoth (s : State) (i : Nat) (t : TiuCore) : (setTiu s i t).evBoth = s.evBoth := rfl
@[simp] theorem setTiu_recOrd (s : State) (i : Nat) (t : TiuCore) : (setTiu s i t).recOrd = s.recOrd := rfl
@[simp] theorem setTiu_guard (s : State) (i : Nat) (t : TiuCore) : (setTiu s i t).guard = s.guard := rfl
@[simp] theorem setTiu_posted (s : State) (i : Nat) (t : TiuCore) : (setTiu s i t).posted = s.posted := rfl
@[simp] theorem setTiu_running (s : State) (i : Nat) (t : TiuCore) : (setTiu s i t).running = s.running := rfl
@[simp] theorem setTiu_warmAt (s : State) (i : Nat) (t : TiuCore) : (setTiu s i t).warmAt = s.warmAt := rfl
@[simp] theorem setTiu_ns (s : State) (i : Nat) (t : TiuCore) : (setTiu s i t).ns = s.ns := rfl
@[simp] theorem setTiu_ramp (s : State) (i : Nat) (t : TiuCore) : (setTiu s i t).ramp = s.ramp := rfl
@[simp] theorem setTiu_disch (s : State) (i : Nat) (t : TiuCore) : (setTiu s i t).disch = s.disch := rfl
@[simp] theorem setTiu_inits (s : State) (i : Nat) (t : TiuCore) : (setTiu s i t).inits = s.inits := rfl
@[simp] theorem setTiu_bistFailed (s : State) (i : Nat) (t : TiuCore) : (setTiu s i t).bistFailed = s.bistFailed := rfl
@[simp] theorem setTiu_readData (s : State) (i : Nat) (t : TiuCore) : (setTiu s i t).readData = s.readData := rfl
@[simp] theorem setTiu_fuses (s : State) (i : Nat) (t : TiuCore) : (setTiu s i t).fuses = s.fuses := rfl
@[simp] theorem setTiu_flash (s : State) (i : Nat) (t : TiuCore) : (setTiu s i t).flash = s.flash := rfl
@[simp] theorem setTiu_gates (s : State) (i : Nat) (t : TiuCore) : (setTiu s i t).gates = s.gates := rfl
@[simp] theorem setTiu_repaired (s : State) (i : Nat) (t : TiuCore) : (setTiu s i t).repaired = s.repaired := rfl
@[simp] theorem setTiu_capture (s : State) (i : Nat) (t : TiuCore) : (setTiu s i t).capture = s.capture := rfl
@[simp] theorem setTiu_lrel (s : State) (i : Nat) (t : TiuCore) : (setTiu s i t).lrel = s.lrel := rfl
@[simp] theorem setTiu_tb (s : State) (i : Nat) (t : TiuCore) : (setTiu s i t).tb = s.tb := rfl
@[simp] theorem setTiu_loop (s : State) (i : Nat) (t : TiuCore) : (setTiu s i t).loop = s.loop := rfl
@[simp] theorem setTiu_glb (s : State) (i : Nat) (t : TiuCore) : (setTiu s i t).glb = s.glb := rfl
@[simp] theorem setTiu_trigOut (s : State) (i : Nat) (t : TiuCore) : (setTiu s i t).trigOut = s.trigOut := rfl
@[simp] theorem setTiu_eng (s : State) (i : Nat) (t : TiuCore) : (setTiu s i t).eng = s.eng := rfl
@[simp] theorem setTiu_ctx (s : State) (i : Nat) (t : TiuCore) : (setTiu s i t).ctx = s.ctx := rfl
@[simp] theorem setTiu_lane (s : State) (i : Nat) (t : TiuCore) : (setTiu s i t).lane = s.lane := rfl
@[simp] theorem setTiu_ret (s : State) (i : Nat) (t : TiuCore) : (setTiu s i t).ret = s.ret := rfl
@[simp] theorem setTiu_retTx (s : State) (i : Nat) (t : TiuCore) : (setTiu s i t).retTx = s.retTx := rfl
@[simp] theorem setTiu_stream (s : State) (i : Nat) (t : TiuCore) : (setTiu s i t).stream = s.stream := rfl
@[simp] theorem setTiu_ring (s : State) (i : Nat) (t : TiuCore) : (setTiu s i t).ring = s.ring := rfl
@[simp] theorem setTiu_stratus (s : State) (i : Nat) (t : TiuCore) : (setTiu s i t).stratus = s.stratus := rfl
@[simp] theorem setTiu_cirrus (s : State) (i : Nat) (t : TiuCore) : (setTiu s i t).cirrus = s.cirrus := rfl
@[simp] theorem setTiu_lineRr (s : State) (i : Nat) (t : TiuCore) : (setTiu s i t).lineRr = s.lineRr := rfl
@[simp] theorem setTiu_stratusBad (s : State) (i : Nat) (t : TiuCore) : (setTiu s i t).stratusBad = s.stratusBad := rfl
@[simp] theorem setTiu_stratusCorr (s : State) (i : Nat) (t : TiuCore) : (setTiu s i t).stratusCorr = s.stratusCorr := rfl
@[simp] theorem setTiu_cirrusBad (s : State) (i : Nat) (t : TiuCore) : (setTiu s i t).cirrusBad = s.cirrusBad := rfl
@[simp] theorem setTiu_cirrusCorr (s : State) (i : Nat) (t : TiuCore) : (setTiu s i t).cirrusCorr = s.cirrusCorr := rfl
@[simp] theorem setTiu_dfc (s : State) (i : Nat) (t : TiuCore) : (setTiu s i t).dfc = s.dfc := rfl
@[simp] theorem setTiu_dfl (s : State) (i : Nat) (t : TiuCore) : (setTiu s i t).dfl = s.dfl := rfl
@[simp] theorem setTiu_job (s : State) (i : Nat) (t : TiuCore) : (setTiu s i t).job = s.job := rfl
@[simp] theorem setTiu_mt (s : State) (i : Nat) (t : TiuCore) : (setTiu s i t).mt = s.mt := rfl
@[simp] theorem setTiu_mtLast (s : State) (i : Nat) (t : TiuCore) : (setTiu s i t).mtLast = s.mtLast := rfl
@[simp] theorem setTiu_spares (s : State) (i : Nat) (t : TiuCore) : (setTiu s i t).spares = s.spares := rfl
@[simp] theorem setTiu_pcie (s : State) (i : Nat) (t : TiuCore) : (setTiu s i t).pcie = s.pcie := rfl
@[simp] theorem setTiu_dma (s : State) (i : Nat) (t : TiuCore) : (setTiu s i t).dma = s.dma := rfl
@[simp] theorem setTiu_smbAddr (s : State) (i : Nat) (t : TiuCore) : (setTiu s i t).smbAddr = s.smbAddr := rfl
@[simp] theorem setTiu_smbOut (s : State) (i : Nat) (t : TiuCore) : (setTiu s i t).smbOut = s.smbOut := rfl
@[simp] theorem setTiu_jtag (s : State) (i : Nat) (t : TiuCore) : (setTiu s i t).jtag = s.jtag := rfl

/-! ### setDfc -/

@[simp] theorem setDfc_pending (s : State) (j : Nat) (c : DfcCore) : (setDfc s j c).pending = s.pending := rfl
@[simp] theorem setDfc_time (s : State) (j : Nat) (c : DfcCore) : (setDfc s j c).time = s.time := rfl
@[simp] theorem setDfc_freeCtr (s : State) (j : Nat) (c : DfcCore) : (setDfc s j c).freeCtr = s.freeCtr := rfl
@[simp] theorem setDfc_regs (s : State) (j : Nat) (c : DfcCore) : (setDfc s j c).regs = s.regs := rfl
@[simp] theorem setDfc_cycSet (s : State) (j : Nat) (c : DfcCore) : (setDfc s j c).cycSet = s.cycSet := rfl
@[simp] theorem setDfc_cycInc (s : State) (j : Nat) (c : DfcCore) : (setDfc s j c).cycInc = s.cycInc := rfl
@[simp] theorem setDfc_cycHost (s : State) (j : Nat) (c : DfcCore) : (setDfc s j c).cycHost = s.cycHost := rfl
@[simp] theorem setDfc_cycPrev (s : State) (j : Nat) (c : DfcCore) : (setDfc s j c).cycPrev = s.cycPrev := rfl
@[simp] theorem setDfc_evBoth (s : State) (j : Nat) (c : DfcCore) : (setDfc s j c).evBoth = s.evBoth := rfl
@[simp] theorem setDfc_recOrd (s : State) (j : Nat) (c : DfcCore) : (setDfc s j c).recOrd = s.recOrd := rfl
@[simp] theorem setDfc_guard (s : State) (j : Nat) (c : DfcCore) : (setDfc s j c).guard = s.guard := rfl
@[simp] theorem setDfc_posted (s : State) (j : Nat) (c : DfcCore) : (setDfc s j c).posted = s.posted := rfl
@[simp] theorem setDfc_running (s : State) (j : Nat) (c : DfcCore) : (setDfc s j c).running = s.running := rfl
@[simp] theorem setDfc_warmAt (s : State) (j : Nat) (c : DfcCore) : (setDfc s j c).warmAt = s.warmAt := rfl
@[simp] theorem setDfc_ns (s : State) (j : Nat) (c : DfcCore) : (setDfc s j c).ns = s.ns := rfl
@[simp] theorem setDfc_ramp (s : State) (j : Nat) (c : DfcCore) : (setDfc s j c).ramp = s.ramp := rfl
@[simp] theorem setDfc_disch (s : State) (j : Nat) (c : DfcCore) : (setDfc s j c).disch = s.disch := rfl
@[simp] theorem setDfc_inits (s : State) (j : Nat) (c : DfcCore) : (setDfc s j c).inits = s.inits := rfl
@[simp] theorem setDfc_bistFailed (s : State) (j : Nat) (c : DfcCore) : (setDfc s j c).bistFailed = s.bistFailed := rfl
@[simp] theorem setDfc_readData (s : State) (j : Nat) (c : DfcCore) : (setDfc s j c).readData = s.readData := rfl
@[simp] theorem setDfc_fuses (s : State) (j : Nat) (c : DfcCore) : (setDfc s j c).fuses = s.fuses := rfl
@[simp] theorem setDfc_flash (s : State) (j : Nat) (c : DfcCore) : (setDfc s j c).flash = s.flash := rfl
@[simp] theorem setDfc_gates (s : State) (j : Nat) (c : DfcCore) : (setDfc s j c).gates = s.gates := rfl
@[simp] theorem setDfc_repaired (s : State) (j : Nat) (c : DfcCore) : (setDfc s j c).repaired = s.repaired := rfl
@[simp] theorem setDfc_capture (s : State) (j : Nat) (c : DfcCore) : (setDfc s j c).capture = s.capture := rfl
@[simp] theorem setDfc_lrel (s : State) (j : Nat) (c : DfcCore) : (setDfc s j c).lrel = s.lrel := rfl
@[simp] theorem setDfc_tb (s : State) (j : Nat) (c : DfcCore) : (setDfc s j c).tb = s.tb := rfl
@[simp] theorem setDfc_loop (s : State) (j : Nat) (c : DfcCore) : (setDfc s j c).loop = s.loop := rfl
@[simp] theorem setDfc_glb (s : State) (j : Nat) (c : DfcCore) : (setDfc s j c).glb = s.glb := rfl
@[simp] theorem setDfc_trigOut (s : State) (j : Nat) (c : DfcCore) : (setDfc s j c).trigOut = s.trigOut := rfl
@[simp] theorem setDfc_eng (s : State) (j : Nat) (c : DfcCore) : (setDfc s j c).eng = s.eng := rfl
@[simp] theorem setDfc_ctx (s : State) (j : Nat) (c : DfcCore) : (setDfc s j c).ctx = s.ctx := rfl
@[simp] theorem setDfc_lane (s : State) (j : Nat) (c : DfcCore) : (setDfc s j c).lane = s.lane := rfl
@[simp] theorem setDfc_ret (s : State) (j : Nat) (c : DfcCore) : (setDfc s j c).ret = s.ret := rfl
@[simp] theorem setDfc_retTx (s : State) (j : Nat) (c : DfcCore) : (setDfc s j c).retTx = s.retTx := rfl
@[simp] theorem setDfc_stream (s : State) (j : Nat) (c : DfcCore) : (setDfc s j c).stream = s.stream := rfl
@[simp] theorem setDfc_ring (s : State) (j : Nat) (c : DfcCore) : (setDfc s j c).ring = s.ring := rfl
@[simp] theorem setDfc_stratus (s : State) (j : Nat) (c : DfcCore) : (setDfc s j c).stratus = s.stratus := rfl
@[simp] theorem setDfc_cirrus (s : State) (j : Nat) (c : DfcCore) : (setDfc s j c).cirrus = s.cirrus := rfl
@[simp] theorem setDfc_lineRr (s : State) (j : Nat) (c : DfcCore) : (setDfc s j c).lineRr = s.lineRr := rfl
@[simp] theorem setDfc_stratusBad (s : State) (j : Nat) (c : DfcCore) : (setDfc s j c).stratusBad = s.stratusBad := rfl
@[simp] theorem setDfc_stratusCorr (s : State) (j : Nat) (c : DfcCore) : (setDfc s j c).stratusCorr = s.stratusCorr := rfl
@[simp] theorem setDfc_cirrusBad (s : State) (j : Nat) (c : DfcCore) : (setDfc s j c).cirrusBad = s.cirrusBad := rfl
@[simp] theorem setDfc_cirrusCorr (s : State) (j : Nat) (c : DfcCore) : (setDfc s j c).cirrusCorr = s.cirrusCorr := rfl
@[simp] theorem setDfc_tiu (s : State) (j : Nat) (c : DfcCore) : (setDfc s j c).tiu = s.tiu := rfl
@[simp] theorem setDfc_dfl (s : State) (j : Nat) (c : DfcCore) : (setDfc s j c).dfl = s.dfl := rfl
@[simp] theorem setDfc_job (s : State) (j : Nat) (c : DfcCore) : (setDfc s j c).job = s.job := rfl
@[simp] theorem setDfc_mt (s : State) (j : Nat) (c : DfcCore) : (setDfc s j c).mt = s.mt := rfl
@[simp] theorem setDfc_mtLast (s : State) (j : Nat) (c : DfcCore) : (setDfc s j c).mtLast = s.mtLast := rfl
@[simp] theorem setDfc_spares (s : State) (j : Nat) (c : DfcCore) : (setDfc s j c).spares = s.spares := rfl
@[simp] theorem setDfc_pcie (s : State) (j : Nat) (c : DfcCore) : (setDfc s j c).pcie = s.pcie := rfl
@[simp] theorem setDfc_dma (s : State) (j : Nat) (c : DfcCore) : (setDfc s j c).dma = s.dma := rfl
@[simp] theorem setDfc_smbAddr (s : State) (j : Nat) (c : DfcCore) : (setDfc s j c).smbAddr = s.smbAddr := rfl
@[simp] theorem setDfc_smbOut (s : State) (j : Nat) (c : DfcCore) : (setDfc s j c).smbOut = s.smbOut := rfl
@[simp] theorem setDfc_jtag (s : State) (j : Nat) (c : DfcCore) : (setDfc s j c).jtag = s.jtag := rfl

/-! ### setDfl -/

@[simp] theorem setDfl_pending (s : State) (k : Nat) (c : DflCore) : (setDfl s k c).pending = s.pending := rfl
@[simp] theorem setDfl_time (s : State) (k : Nat) (c : DflCore) : (setDfl s k c).time = s.time := rfl
@[simp] theorem setDfl_freeCtr (s : State) (k : Nat) (c : DflCore) : (setDfl s k c).freeCtr = s.freeCtr := rfl
@[simp] theorem setDfl_regs (s : State) (k : Nat) (c : DflCore) : (setDfl s k c).regs = s.regs := rfl
@[simp] theorem setDfl_cycSet (s : State) (k : Nat) (c : DflCore) : (setDfl s k c).cycSet = s.cycSet := rfl
@[simp] theorem setDfl_cycInc (s : State) (k : Nat) (c : DflCore) : (setDfl s k c).cycInc = s.cycInc := rfl
@[simp] theorem setDfl_cycHost (s : State) (k : Nat) (c : DflCore) : (setDfl s k c).cycHost = s.cycHost := rfl
@[simp] theorem setDfl_cycPrev (s : State) (k : Nat) (c : DflCore) : (setDfl s k c).cycPrev = s.cycPrev := rfl
@[simp] theorem setDfl_evBoth (s : State) (k : Nat) (c : DflCore) : (setDfl s k c).evBoth = s.evBoth := rfl
@[simp] theorem setDfl_recOrd (s : State) (k : Nat) (c : DflCore) : (setDfl s k c).recOrd = s.recOrd := rfl
@[simp] theorem setDfl_guard (s : State) (k : Nat) (c : DflCore) : (setDfl s k c).guard = s.guard := rfl
@[simp] theorem setDfl_posted (s : State) (k : Nat) (c : DflCore) : (setDfl s k c).posted = s.posted := rfl
@[simp] theorem setDfl_running (s : State) (k : Nat) (c : DflCore) : (setDfl s k c).running = s.running := rfl
@[simp] theorem setDfl_warmAt (s : State) (k : Nat) (c : DflCore) : (setDfl s k c).warmAt = s.warmAt := rfl
@[simp] theorem setDfl_ns (s : State) (k : Nat) (c : DflCore) : (setDfl s k c).ns = s.ns := rfl
@[simp] theorem setDfl_ramp (s : State) (k : Nat) (c : DflCore) : (setDfl s k c).ramp = s.ramp := rfl
@[simp] theorem setDfl_disch (s : State) (k : Nat) (c : DflCore) : (setDfl s k c).disch = s.disch := rfl
@[simp] theorem setDfl_inits (s : State) (k : Nat) (c : DflCore) : (setDfl s k c).inits = s.inits := rfl
@[simp] theorem setDfl_bistFailed (s : State) (k : Nat) (c : DflCore) : (setDfl s k c).bistFailed = s.bistFailed := rfl
@[simp] theorem setDfl_readData (s : State) (k : Nat) (c : DflCore) : (setDfl s k c).readData = s.readData := rfl
@[simp] theorem setDfl_fuses (s : State) (k : Nat) (c : DflCore) : (setDfl s k c).fuses = s.fuses := rfl
@[simp] theorem setDfl_flash (s : State) (k : Nat) (c : DflCore) : (setDfl s k c).flash = s.flash := rfl
@[simp] theorem setDfl_gates (s : State) (k : Nat) (c : DflCore) : (setDfl s k c).gates = s.gates := rfl
@[simp] theorem setDfl_repaired (s : State) (k : Nat) (c : DflCore) : (setDfl s k c).repaired = s.repaired := rfl
@[simp] theorem setDfl_capture (s : State) (k : Nat) (c : DflCore) : (setDfl s k c).capture = s.capture := rfl
@[simp] theorem setDfl_lrel (s : State) (k : Nat) (c : DflCore) : (setDfl s k c).lrel = s.lrel := rfl
@[simp] theorem setDfl_tb (s : State) (k : Nat) (c : DflCore) : (setDfl s k c).tb = s.tb := rfl
@[simp] theorem setDfl_loop (s : State) (k : Nat) (c : DflCore) : (setDfl s k c).loop = s.loop := rfl
@[simp] theorem setDfl_glb (s : State) (k : Nat) (c : DflCore) : (setDfl s k c).glb = s.glb := rfl
@[simp] theorem setDfl_trigOut (s : State) (k : Nat) (c : DflCore) : (setDfl s k c).trigOut = s.trigOut := rfl
@[simp] theorem setDfl_eng (s : State) (k : Nat) (c : DflCore) : (setDfl s k c).eng = s.eng := rfl
@[simp] theorem setDfl_ctx (s : State) (k : Nat) (c : DflCore) : (setDfl s k c).ctx = s.ctx := rfl
@[simp] theorem setDfl_lane (s : State) (k : Nat) (c : DflCore) : (setDfl s k c).lane = s.lane := rfl
@[simp] theorem setDfl_ret (s : State) (k : Nat) (c : DflCore) : (setDfl s k c).ret = s.ret := rfl
@[simp] theorem setDfl_retTx (s : State) (k : Nat) (c : DflCore) : (setDfl s k c).retTx = s.retTx := rfl
@[simp] theorem setDfl_stream (s : State) (k : Nat) (c : DflCore) : (setDfl s k c).stream = s.stream := rfl
@[simp] theorem setDfl_ring (s : State) (k : Nat) (c : DflCore) : (setDfl s k c).ring = s.ring := rfl
@[simp] theorem setDfl_stratus (s : State) (k : Nat) (c : DflCore) : (setDfl s k c).stratus = s.stratus := rfl
@[simp] theorem setDfl_cirrus (s : State) (k : Nat) (c : DflCore) : (setDfl s k c).cirrus = s.cirrus := rfl
@[simp] theorem setDfl_lineRr (s : State) (k : Nat) (c : DflCore) : (setDfl s k c).lineRr = s.lineRr := rfl
@[simp] theorem setDfl_stratusBad (s : State) (k : Nat) (c : DflCore) : (setDfl s k c).stratusBad = s.stratusBad := rfl
@[simp] theorem setDfl_stratusCorr (s : State) (k : Nat) (c : DflCore) : (setDfl s k c).stratusCorr = s.stratusCorr := rfl
@[simp] theorem setDfl_cirrusBad (s : State) (k : Nat) (c : DflCore) : (setDfl s k c).cirrusBad = s.cirrusBad := rfl
@[simp] theorem setDfl_cirrusCorr (s : State) (k : Nat) (c : DflCore) : (setDfl s k c).cirrusCorr = s.cirrusCorr := rfl
@[simp] theorem setDfl_tiu (s : State) (k : Nat) (c : DflCore) : (setDfl s k c).tiu = s.tiu := rfl
@[simp] theorem setDfl_dfc (s : State) (k : Nat) (c : DflCore) : (setDfl s k c).dfc = s.dfc := rfl
@[simp] theorem setDfl_job (s : State) (k : Nat) (c : DflCore) : (setDfl s k c).job = s.job := rfl
@[simp] theorem setDfl_mt (s : State) (k : Nat) (c : DflCore) : (setDfl s k c).mt = s.mt := rfl
@[simp] theorem setDfl_mtLast (s : State) (k : Nat) (c : DflCore) : (setDfl s k c).mtLast = s.mtLast := rfl
@[simp] theorem setDfl_spares (s : State) (k : Nat) (c : DflCore) : (setDfl s k c).spares = s.spares := rfl
@[simp] theorem setDfl_pcie (s : State) (k : Nat) (c : DflCore) : (setDfl s k c).pcie = s.pcie := rfl
@[simp] theorem setDfl_dma (s : State) (k : Nat) (c : DflCore) : (setDfl s k c).dma = s.dma := rfl
@[simp] theorem setDfl_smbAddr (s : State) (k : Nat) (c : DflCore) : (setDfl s k c).smbAddr = s.smbAddr := rfl
@[simp] theorem setDfl_smbOut (s : State) (k : Nat) (c : DflCore) : (setDfl s k c).smbOut = s.smbOut := rfl
@[simp] theorem setDfl_jtag (s : State) (k : Nat) (c : DflCore) : (setDfl s k c).jtag = s.jtag := rfl

/-! ### setJob -/

@[simp] theorem setJob_pending (s : State) (j : Nat) (c : Job) : (setJob s j c).pending = s.pending := rfl
@[simp] theorem setJob_time (s : State) (j : Nat) (c : Job) : (setJob s j c).time = s.time := rfl
@[simp] theorem setJob_freeCtr (s : State) (j : Nat) (c : Job) : (setJob s j c).freeCtr = s.freeCtr := rfl
@[simp] theorem setJob_regs (s : State) (j : Nat) (c : Job) : (setJob s j c).regs = s.regs := rfl
@[simp] theorem setJob_cycSet (s : State) (j : Nat) (c : Job) : (setJob s j c).cycSet = s.cycSet := rfl
@[simp] theorem setJob_cycInc (s : State) (j : Nat) (c : Job) : (setJob s j c).cycInc = s.cycInc := rfl
@[simp] theorem setJob_cycHost (s : State) (j : Nat) (c : Job) : (setJob s j c).cycHost = s.cycHost := rfl
@[simp] theorem setJob_cycPrev (s : State) (j : Nat) (c : Job) : (setJob s j c).cycPrev = s.cycPrev := rfl
@[simp] theorem setJob_evBoth (s : State) (j : Nat) (c : Job) : (setJob s j c).evBoth = s.evBoth := rfl
@[simp] theorem setJob_recOrd (s : State) (j : Nat) (c : Job) : (setJob s j c).recOrd = s.recOrd := rfl
@[simp] theorem setJob_guard (s : State) (j : Nat) (c : Job) : (setJob s j c).guard = s.guard := rfl
@[simp] theorem setJob_posted (s : State) (j : Nat) (c : Job) : (setJob s j c).posted = s.posted := rfl
@[simp] theorem setJob_running (s : State) (j : Nat) (c : Job) : (setJob s j c).running = s.running := rfl
@[simp] theorem setJob_warmAt (s : State) (j : Nat) (c : Job) : (setJob s j c).warmAt = s.warmAt := rfl
@[simp] theorem setJob_ns (s : State) (j : Nat) (c : Job) : (setJob s j c).ns = s.ns := rfl
@[simp] theorem setJob_ramp (s : State) (j : Nat) (c : Job) : (setJob s j c).ramp = s.ramp := rfl
@[simp] theorem setJob_disch (s : State) (j : Nat) (c : Job) : (setJob s j c).disch = s.disch := rfl
@[simp] theorem setJob_inits (s : State) (j : Nat) (c : Job) : (setJob s j c).inits = s.inits := rfl
@[simp] theorem setJob_bistFailed (s : State) (j : Nat) (c : Job) : (setJob s j c).bistFailed = s.bistFailed := rfl
@[simp] theorem setJob_readData (s : State) (j : Nat) (c : Job) : (setJob s j c).readData = s.readData := rfl
@[simp] theorem setJob_fuses (s : State) (j : Nat) (c : Job) : (setJob s j c).fuses = s.fuses := rfl
@[simp] theorem setJob_flash (s : State) (j : Nat) (c : Job) : (setJob s j c).flash = s.flash := rfl
@[simp] theorem setJob_gates (s : State) (j : Nat) (c : Job) : (setJob s j c).gates = s.gates := rfl
@[simp] theorem setJob_repaired (s : State) (j : Nat) (c : Job) : (setJob s j c).repaired = s.repaired := rfl
@[simp] theorem setJob_capture (s : State) (j : Nat) (c : Job) : (setJob s j c).capture = s.capture := rfl
@[simp] theorem setJob_lrel (s : State) (j : Nat) (c : Job) : (setJob s j c).lrel = s.lrel := rfl
@[simp] theorem setJob_tb (s : State) (j : Nat) (c : Job) : (setJob s j c).tb = s.tb := rfl
@[simp] theorem setJob_loop (s : State) (j : Nat) (c : Job) : (setJob s j c).loop = s.loop := rfl
@[simp] theorem setJob_glb (s : State) (j : Nat) (c : Job) : (setJob s j c).glb = s.glb := rfl
@[simp] theorem setJob_trigOut (s : State) (j : Nat) (c : Job) : (setJob s j c).trigOut = s.trigOut := rfl
@[simp] theorem setJob_eng (s : State) (j : Nat) (c : Job) : (setJob s j c).eng = s.eng := rfl
@[simp] theorem setJob_ctx (s : State) (j : Nat) (c : Job) : (setJob s j c).ctx = s.ctx := rfl
@[simp] theorem setJob_lane (s : State) (j : Nat) (c : Job) : (setJob s j c).lane = s.lane := rfl
@[simp] theorem setJob_ret (s : State) (j : Nat) (c : Job) : (setJob s j c).ret = s.ret := rfl
@[simp] theorem setJob_retTx (s : State) (j : Nat) (c : Job) : (setJob s j c).retTx = s.retTx := rfl
@[simp] theorem setJob_stream (s : State) (j : Nat) (c : Job) : (setJob s j c).stream = s.stream := rfl
@[simp] theorem setJob_ring (s : State) (j : Nat) (c : Job) : (setJob s j c).ring = s.ring := rfl
@[simp] theorem setJob_stratus (s : State) (j : Nat) (c : Job) : (setJob s j c).stratus = s.stratus := rfl
@[simp] theorem setJob_cirrus (s : State) (j : Nat) (c : Job) : (setJob s j c).cirrus = s.cirrus := rfl
@[simp] theorem setJob_lineRr (s : State) (j : Nat) (c : Job) : (setJob s j c).lineRr = s.lineRr := rfl
@[simp] theorem setJob_stratusBad (s : State) (j : Nat) (c : Job) : (setJob s j c).stratusBad = s.stratusBad := rfl
@[simp] theorem setJob_stratusCorr (s : State) (j : Nat) (c : Job) : (setJob s j c).stratusCorr = s.stratusCorr := rfl
@[simp] theorem setJob_cirrusBad (s : State) (j : Nat) (c : Job) : (setJob s j c).cirrusBad = s.cirrusBad := rfl
@[simp] theorem setJob_cirrusCorr (s : State) (j : Nat) (c : Job) : (setJob s j c).cirrusCorr = s.cirrusCorr := rfl
@[simp] theorem setJob_tiu (s : State) (j : Nat) (c : Job) : (setJob s j c).tiu = s.tiu := rfl
@[simp] theorem setJob_dfc (s : State) (j : Nat) (c : Job) : (setJob s j c).dfc = s.dfc := rfl
@[simp] theorem setJob_dfl (s : State) (j : Nat) (c : Job) : (setJob s j c).dfl = s.dfl := rfl
@[simp] theorem setJob_mt (s : State) (j : Nat) (c : Job) : (setJob s j c).mt = s.mt := rfl
@[simp] theorem setJob_mtLast (s : State) (j : Nat) (c : Job) : (setJob s j c).mtLast = s.mtLast := rfl
@[simp] theorem setJob_spares (s : State) (j : Nat) (c : Job) : (setJob s j c).spares = s.spares := rfl
@[simp] theorem setJob_pcie (s : State) (j : Nat) (c : Job) : (setJob s j c).pcie = s.pcie := rfl
@[simp] theorem setJob_dma (s : State) (j : Nat) (c : Job) : (setJob s j c).dma = s.dma := rfl
@[simp] theorem setJob_smbAddr (s : State) (j : Nat) (c : Job) : (setJob s j c).smbAddr = s.smbAddr := rfl
@[simp] theorem setJob_smbOut (s : State) (j : Nat) (c : Job) : (setJob s j c).smbOut = s.smbOut := rfl
@[simp] theorem setJob_jtag (s : State) (j : Nat) (c : Job) : (setJob s j c).jtag = s.jtag := rfl

/-! ### setDma -/

@[simp] theorem setDma_pending (s : State) (c : Nat) (d : DmaCore) : (setDma s c d).pending = s.pending := rfl
@[simp] theorem setDma_time (s : State) (c : Nat) (d : DmaCore) : (setDma s c d).time = s.time := rfl
@[simp] theorem setDma_freeCtr (s : State) (c : Nat) (d : DmaCore) : (setDma s c d).freeCtr = s.freeCtr := rfl
@[simp] theorem setDma_regs (s : State) (c : Nat) (d : DmaCore) : (setDma s c d).regs = s.regs := rfl
@[simp] theorem setDma_cycSet (s : State) (c : Nat) (d : DmaCore) : (setDma s c d).cycSet = s.cycSet := rfl
@[simp] theorem setDma_cycInc (s : State) (c : Nat) (d : DmaCore) : (setDma s c d).cycInc = s.cycInc := rfl
@[simp] theorem setDma_cycHost (s : State) (c : Nat) (d : DmaCore) : (setDma s c d).cycHost = s.cycHost := rfl
@[simp] theorem setDma_cycPrev (s : State) (c : Nat) (d : DmaCore) : (setDma s c d).cycPrev = s.cycPrev := rfl
@[simp] theorem setDma_evBoth (s : State) (c : Nat) (d : DmaCore) : (setDma s c d).evBoth = s.evBoth := rfl
@[simp] theorem setDma_recOrd (s : State) (c : Nat) (d : DmaCore) : (setDma s c d).recOrd = s.recOrd := rfl
@[simp] theorem setDma_guard (s : State) (c : Nat) (d : DmaCore) : (setDma s c d).guard = s.guard := rfl
@[simp] theorem setDma_posted (s : State) (c : Nat) (d : DmaCore) : (setDma s c d).posted = s.posted := rfl
@[simp] theorem setDma_running (s : State) (c : Nat) (d : DmaCore) : (setDma s c d).running = s.running := rfl
@[simp] theorem setDma_warmAt (s : State) (c : Nat) (d : DmaCore) : (setDma s c d).warmAt = s.warmAt := rfl
@[simp] theorem setDma_ns (s : State) (c : Nat) (d : DmaCore) : (setDma s c d).ns = s.ns := rfl
@[simp] theorem setDma_ramp (s : State) (c : Nat) (d : DmaCore) : (setDma s c d).ramp = s.ramp := rfl
@[simp] theorem setDma_disch (s : State) (c : Nat) (d : DmaCore) : (setDma s c d).disch = s.disch := rfl
@[simp] theorem setDma_inits (s : State) (c : Nat) (d : DmaCore) : (setDma s c d).inits = s.inits := rfl
@[simp] theorem setDma_bistFailed (s : State) (c : Nat) (d : DmaCore) : (setDma s c d).bistFailed = s.bistFailed := rfl
@[simp] theorem setDma_readData (s : State) (c : Nat) (d : DmaCore) : (setDma s c d).readData = s.readData := rfl
@[simp] theorem setDma_fuses (s : State) (c : Nat) (d : DmaCore) : (setDma s c d).fuses = s.fuses := rfl
@[simp] theorem setDma_flash (s : State) (c : Nat) (d : DmaCore) : (setDma s c d).flash = s.flash := rfl
@[simp] theorem setDma_gates (s : State) (c : Nat) (d : DmaCore) : (setDma s c d).gates = s.gates := rfl
@[simp] theorem setDma_repaired (s : State) (c : Nat) (d : DmaCore) : (setDma s c d).repaired = s.repaired := rfl
@[simp] theorem setDma_capture (s : State) (c : Nat) (d : DmaCore) : (setDma s c d).capture = s.capture := rfl
@[simp] theorem setDma_lrel (s : State) (c : Nat) (d : DmaCore) : (setDma s c d).lrel = s.lrel := rfl
@[simp] theorem setDma_tb (s : State) (c : Nat) (d : DmaCore) : (setDma s c d).tb = s.tb := rfl
@[simp] theorem setDma_loop (s : State) (c : Nat) (d : DmaCore) : (setDma s c d).loop = s.loop := rfl
@[simp] theorem setDma_glb (s : State) (c : Nat) (d : DmaCore) : (setDma s c d).glb = s.glb := rfl
@[simp] theorem setDma_trigOut (s : State) (c : Nat) (d : DmaCore) : (setDma s c d).trigOut = s.trigOut := rfl
@[simp] theorem setDma_eng (s : State) (c : Nat) (d : DmaCore) : (setDma s c d).eng = s.eng := rfl
@[simp] theorem setDma_ctx (s : State) (c : Nat) (d : DmaCore) : (setDma s c d).ctx = s.ctx := rfl
@[simp] theorem setDma_lane (s : State) (c : Nat) (d : DmaCore) : (setDma s c d).lane = s.lane := rfl
@[simp] theorem setDma_ret (s : State) (c : Nat) (d : DmaCore) : (setDma s c d).ret = s.ret := rfl
@[simp] theorem setDma_retTx (s : State) (c : Nat) (d : DmaCore) : (setDma s c d).retTx = s.retTx := rfl
@[simp] theorem setDma_stream (s : State) (c : Nat) (d : DmaCore) : (setDma s c d).stream = s.stream := rfl
@[simp] theorem setDma_ring (s : State) (c : Nat) (d : DmaCore) : (setDma s c d).ring = s.ring := rfl
@[simp] theorem setDma_stratus (s : State) (c : Nat) (d : DmaCore) : (setDma s c d).stratus = s.stratus := rfl
@[simp] theorem setDma_cirrus (s : State) (c : Nat) (d : DmaCore) : (setDma s c d).cirrus = s.cirrus := rfl
@[simp] theorem setDma_lineRr (s : State) (c : Nat) (d : DmaCore) : (setDma s c d).lineRr = s.lineRr := rfl
@[simp] theorem setDma_stratusBad (s : State) (c : Nat) (d : DmaCore) : (setDma s c d).stratusBad = s.stratusBad := rfl
@[simp] theorem setDma_stratusCorr (s : State) (c : Nat) (d : DmaCore) : (setDma s c d).stratusCorr = s.stratusCorr := rfl
@[simp] theorem setDma_cirrusBad (s : State) (c : Nat) (d : DmaCore) : (setDma s c d).cirrusBad = s.cirrusBad := rfl
@[simp] theorem setDma_cirrusCorr (s : State) (c : Nat) (d : DmaCore) : (setDma s c d).cirrusCorr = s.cirrusCorr := rfl
@[simp] theorem setDma_tiu (s : State) (c : Nat) (d : DmaCore) : (setDma s c d).tiu = s.tiu := rfl
@[simp] theorem setDma_dfc (s : State) (c : Nat) (d : DmaCore) : (setDma s c d).dfc = s.dfc := rfl
@[simp] theorem setDma_dfl (s : State) (c : Nat) (d : DmaCore) : (setDma s c d).dfl = s.dfl := rfl
@[simp] theorem setDma_job (s : State) (c : Nat) (d : DmaCore) : (setDma s c d).job = s.job := rfl
@[simp] theorem setDma_mt (s : State) (c : Nat) (d : DmaCore) : (setDma s c d).mt = s.mt := rfl
@[simp] theorem setDma_mtLast (s : State) (c : Nat) (d : DmaCore) : (setDma s c d).mtLast = s.mtLast := rfl
@[simp] theorem setDma_spares (s : State) (c : Nat) (d : DmaCore) : (setDma s c d).spares = s.spares := rfl
@[simp] theorem setDma_pcie (s : State) (c : Nat) (d : DmaCore) : (setDma s c d).pcie = s.pcie := rfl
@[simp] theorem setDma_smbAddr (s : State) (c : Nat) (d : DmaCore) : (setDma s c d).smbAddr = s.smbAddr := rfl
@[simp] theorem setDma_smbOut (s : State) (c : Nat) (d : DmaCore) : (setDma s c d).smbOut = s.smbOut := rfl
@[simp] theorem setDma_jtag (s : State) (c : Nat) (d : DmaCore) : (setDma s c d).jtag = s.jtag := rfl

/-! ### Reads after writes -/

@[simp] theorem rd_wr_self (s : State) (off : Nat) (v : Word) : rd (wr s off v) off = v := tabGet_tabSet_self _ _ _ _

theorem rd_wr_ne (s : State) {off o : Nat} (v : Word) (h : o ≠ off) : rd (wr s off v) o = rd s o :=
  tabGet_tabSet_ne _ _ _ _ h

/-- A read sees only the register file. -/
theorem rd_congr {s t : State} (h : t.regs = s.regs) (off : Nat) : rd t off = rd s off := by simp [rd, h]

@[simp] theorem rd_setEng (s : State) (n : Nat) (e : EngCore) (off : Nat) : rd (setEng s n e) off = rd s off := rfl
@[simp] theorem rd_setLane (s : State) (n : Nat) (l : LaneCore) (off : Nat) : rd (setLane s n l) off = rd s off := rfl
@[simp] theorem rd_setRet (s : State) (k : Nat) (r : RetCore) (off : Nat) : rd (setRet s k r) off = rd s off := rfl
@[simp] theorem rd_setStr (s : State) (n : Nat) (c : StreamCore) (off : Nat) : rd (setStr s n c) off = rd s off := rfl
@[simp] theorem rd_setRing (s : State) (r : Nat) (c : RingCore) (off : Nat) : rd (setRing s r c) off = rd s off := rfl
@[simp] theorem rd_setTiu (s : State) (i : Nat) (t : TiuCore) (off : Nat) : rd (setTiu s i t) off = rd s off := rfl
@[simp] theorem rd_setDfc (s : State) (j : Nat) (c : DfcCore) (off : Nat) : rd (setDfc s j c) off = rd s off := rfl
@[simp] theorem rd_setDfl (s : State) (k : Nat) (c : DflCore) (off : Nat) : rd (setDfl s k c) off = rd s off := rfl
@[simp] theorem rd_setJob (s : State) (j : Nat) (c : Job) (off : Nat) : rd (setJob s j c) off = rd s off := rfl
@[simp] theorem rd_setDma (s : State) (c : Nat) (d : DmaCore) (off : Nat) : rd (setDma s c d) off = rd s off := rfl

@[simp] theorem getEng_wr (s : State) (off : Nat) (v : Word) (x : Nat) : getEng (wr s off v) x = getEng s x := rfl
@[simp] theorem getEng_setEng_self (s : State) (n : Nat) (e : EngCore) : getEng (setEng s n e) n = e := tabGet_tabSet_self _ _ _ _
theorem getEng_setEng_ne (s : State) (n : Nat) (e : EngCore) {x : Nat} (h : x ≠ n) : getEng (setEng s n e) x = getEng s x :=
  tabGet_tabSet_ne _ _ _ _ h
@[simp] theorem getEng_setLane (s : State) (n : Nat) (l : LaneCore) (x : Nat) : getEng (setLane s n l) x = getEng s x := rfl
@[simp] theorem getEng_setRet (s : State) (k : Nat) (r : RetCore) (x : Nat) : getEng (setRet s k r) x = getEng s x := rfl
@[simp] theorem getEng_setStr (s : State) (n : Nat) (c : StreamCore) (x : Nat) : getEng (setStr s n c) x = getEng s x := rfl
@[simp] theorem getEng_setRing (s : State) (r : Nat) (c : RingCore) (x : Nat) : getEng (setRing s r c) x = getEng s x := rfl
@[simp] theorem getEng_setTiu (s : State) (i : Nat) (t : TiuCore) (x : Nat) : getEng (setTiu s i t) x = getEng s x := rfl
@[simp] theorem getEng_setDfc (s : State) (j : Nat) (c : DfcCore) (x : Nat) : getEng (setDfc s j c) x = getEng s x := rfl
@[simp] theorem getEng_setDfl (s : State) (k : Nat) (c : DflCore) (x : Nat) : getEng (setDfl s k c) x = getEng s x := rfl
@[simp] theorem getEng_setJob (s : State) (j : Nat) (c : Job) (x : Nat) : getEng (setJob s j c) x = getEng s x := rfl
@[simp] theorem getEng_setDma (s : State) (c : Nat) (d : DmaCore) (x : Nat) : getEng (setDma s c d) x = getEng s x := rfl
@[simp] theorem getLane_wr (s : State) (off : Nat) (v : Word) (x : Nat) : getLane (wr s off v) x = getLane s x := rfl
@[simp] theorem getLane_setLane_self (s : State) (n : Nat) (l : LaneCore) : getLane (setLane s n l) n = l := tabGet_tabSet_self _ _ _ _
theorem getLane_setLane_ne (s : State) (n : Nat) (l : LaneCore) {x : Nat} (h : x ≠ n) : getLane (setLane s n l) x = getLane s x :=
  tabGet_tabSet_ne _ _ _ _ h
@[simp] theorem getLane_setEng (s : State) (n : Nat) (e : EngCore) (x : Nat) : getLane (setEng s n e) x = getLane s x := rfl
@[simp] theorem getLane_setRet (s : State) (k : Nat) (r : RetCore) (x : Nat) : getLane (setRet s k r) x = getLane s x := rfl
@[simp] theorem getLane_setStr (s : State) (n : Nat) (c : StreamCore) (x : Nat) : getLane (setStr s n c) x = getLane s x := rfl
@[simp] theorem getLane_setRing (s : State) (r : Nat) (c : RingCore) (x : Nat) : getLane (setRing s r c) x = getLane s x := rfl
@[simp] theorem getLane_setTiu (s : State) (i : Nat) (t : TiuCore) (x : Nat) : getLane (setTiu s i t) x = getLane s x := rfl
@[simp] theorem getLane_setDfc (s : State) (j : Nat) (c : DfcCore) (x : Nat) : getLane (setDfc s j c) x = getLane s x := rfl
@[simp] theorem getLane_setDfl (s : State) (k : Nat) (c : DflCore) (x : Nat) : getLane (setDfl s k c) x = getLane s x := rfl
@[simp] theorem getLane_setJob (s : State) (j : Nat) (c : Job) (x : Nat) : getLane (setJob s j c) x = getLane s x := rfl
@[simp] theorem getLane_setDma (s : State) (c : Nat) (d : DmaCore) (x : Nat) : getLane (setDma s c d) x = getLane s x := rfl
@[simp] theorem getRet_wr (s : State) (off : Nat) (v : Word) (x : Nat) : getRet (wr s off v) x = getRet s x := rfl
@[simp] theorem getRet_setRet_self (s : State) (k : Nat) (r : RetCore) : getRet (setRet s k r) k = r := tabGet_tabSet_self _ _ _ _
theorem getRet_setRet_ne (s : State) (k : Nat) (r : RetCore) {x : Nat} (h : x ≠ k) : getRet (setRet s k r) x = getRet s x :=
  tabGet_tabSet_ne _ _ _ _ h
@[simp] theorem getRet_setEng (s : State) (n : Nat) (e : EngCore) (x : Nat) : getRet (setEng s n e) x = getRet s x := rfl
@[simp] theorem getRet_setLane (s : State) (n : Nat) (l : LaneCore) (x : Nat) : getRet (setLane s n l) x = getRet s x := rfl
@[simp] theorem getRet_setStr (s : State) (n : Nat) (c : StreamCore) (x : Nat) : getRet (setStr s n c) x = getRet s x := rfl
@[simp] theorem getRet_setRing (s : State) (r : Nat) (c : RingCore) (x : Nat) : getRet (setRing s r c) x = getRet s x := rfl
@[simp] theorem getRet_setTiu (s : State) (i : Nat) (t : TiuCore) (x : Nat) : getRet (setTiu s i t) x = getRet s x := rfl
@[simp] theorem getRet_setDfc (s : State) (j : Nat) (c : DfcCore) (x : Nat) : getRet (setDfc s j c) x = getRet s x := rfl
@[simp] theorem getRet_setDfl (s : State) (k : Nat) (c : DflCore) (x : Nat) : getRet (setDfl s k c) x = getRet s x := rfl
@[simp] theorem getRet_setJob (s : State) (j : Nat) (c : Job) (x : Nat) : getRet (setJob s j c) x = getRet s x := rfl
@[simp] theorem getRet_setDma (s : State) (c : Nat) (d : DmaCore) (x : Nat) : getRet (setDma s c d) x = getRet s x := rfl
@[simp] theorem getStr_wr (s : State) (off : Nat) (v : Word) (x : Nat) : getStr (wr s off v) x = getStr s x := rfl
@[simp] theorem getStr_setStr_self (s : State) (n : Nat) (c : StreamCore) : getStr (setStr s n c) n = c := tabGet_tabSet_self _ _ _ _
theorem getStr_setStr_ne (s : State) (n : Nat) (c : StreamCore) {x : Nat} (h : x ≠ n) : getStr (setStr s n c) x = getStr s x :=
  tabGet_tabSet_ne _ _ _ _ h
@[simp] theorem getStr_setEng (s : State) (n : Nat) (e : EngCore) (x : Nat) : getStr (setEng s n e) x = getStr s x := rfl
@[simp] theorem getStr_setLane (s : State) (n : Nat) (l : LaneCore) (x : Nat) : getStr (setLane s n l) x = getStr s x := rfl
@[simp] theorem getStr_setRet (s : State) (k : Nat) (r : RetCore) (x : Nat) : getStr (setRet s k r) x = getStr s x := rfl
@[simp] theorem getStr_setRing (s : State) (r : Nat) (c : RingCore) (x : Nat) : getStr (setRing s r c) x = getStr s x := rfl
@[simp] theorem getStr_setTiu (s : State) (i : Nat) (t : TiuCore) (x : Nat) : getStr (setTiu s i t) x = getStr s x := rfl
@[simp] theorem getStr_setDfc (s : State) (j : Nat) (c : DfcCore) (x : Nat) : getStr (setDfc s j c) x = getStr s x := rfl
@[simp] theorem getStr_setDfl (s : State) (k : Nat) (c : DflCore) (x : Nat) : getStr (setDfl s k c) x = getStr s x := rfl
@[simp] theorem getStr_setJob (s : State) (j : Nat) (c : Job) (x : Nat) : getStr (setJob s j c) x = getStr s x := rfl
@[simp] theorem getStr_setDma (s : State) (c : Nat) (d : DmaCore) (x : Nat) : getStr (setDma s c d) x = getStr s x := rfl
@[simp] theorem getRing_wr (s : State) (off : Nat) (v : Word) (x : Nat) : getRing (wr s off v) x = getRing s x := rfl
@[simp] theorem getRing_setRing_self (s : State) (r : Nat) (c : RingCore) : getRing (setRing s r c) r = c := tabGet_tabSet_self _ _ _ _
theorem getRing_setRing_ne (s : State) (r : Nat) (c : RingCore) {x : Nat} (h : x ≠ r) : getRing (setRing s r c) x = getRing s x :=
  tabGet_tabSet_ne _ _ _ _ h
@[simp] theorem getRing_setEng (s : State) (n : Nat) (e : EngCore) (x : Nat) : getRing (setEng s n e) x = getRing s x := rfl
@[simp] theorem getRing_setLane (s : State) (n : Nat) (l : LaneCore) (x : Nat) : getRing (setLane s n l) x = getRing s x := rfl
@[simp] theorem getRing_setRet (s : State) (k : Nat) (r : RetCore) (x : Nat) : getRing (setRet s k r) x = getRing s x := rfl
@[simp] theorem getRing_setStr (s : State) (n : Nat) (c : StreamCore) (x : Nat) : getRing (setStr s n c) x = getRing s x := rfl
@[simp] theorem getRing_setTiu (s : State) (i : Nat) (t : TiuCore) (x : Nat) : getRing (setTiu s i t) x = getRing s x := rfl
@[simp] theorem getRing_setDfc (s : State) (j : Nat) (c : DfcCore) (x : Nat) : getRing (setDfc s j c) x = getRing s x := rfl
@[simp] theorem getRing_setDfl (s : State) (k : Nat) (c : DflCore) (x : Nat) : getRing (setDfl s k c) x = getRing s x := rfl
@[simp] theorem getRing_setJob (s : State) (j : Nat) (c : Job) (x : Nat) : getRing (setJob s j c) x = getRing s x := rfl
@[simp] theorem getRing_setDma (s : State) (c : Nat) (d : DmaCore) (x : Nat) : getRing (setDma s c d) x = getRing s x := rfl
@[simp] theorem getTiu_wr (s : State) (off : Nat) (v : Word) (x : Nat) : getTiu (wr s off v) x = getTiu s x := rfl
@[simp] theorem getTiu_setTiu_self (s : State) (i : Nat) (t : TiuCore) : getTiu (setTiu s i t) i = t := tabGet_tabSet_self _ _ _ _
theorem getTiu_setTiu_ne (s : State) (i : Nat) (t : TiuCore) {x : Nat} (h : x ≠ i) : getTiu (setTiu s i t) x = getTiu s x :=
  tabGet_tabSet_ne _ _ _ _ h
@[simp] theorem getTiu_setEng (s : State) (n : Nat) (e : EngCore) (x : Nat) : getTiu (setEng s n e) x = getTiu s x := rfl
@[simp] theorem getTiu_setLane (s : State) (n : Nat) (l : LaneCore) (x : Nat) : getTiu (setLane s n l) x = getTiu s x := rfl
@[simp] theorem getTiu_setRet (s : State) (k : Nat) (r : RetCore) (x : Nat) : getTiu (setRet s k r) x = getTiu s x := rfl
@[simp] theorem getTiu_setStr (s : State) (n : Nat) (c : StreamCore) (x : Nat) : getTiu (setStr s n c) x = getTiu s x := rfl
@[simp] theorem getTiu_setRing (s : State) (r : Nat) (c : RingCore) (x : Nat) : getTiu (setRing s r c) x = getTiu s x := rfl
@[simp] theorem getTiu_setDfc (s : State) (j : Nat) (c : DfcCore) (x : Nat) : getTiu (setDfc s j c) x = getTiu s x := rfl
@[simp] theorem getTiu_setDfl (s : State) (k : Nat) (c : DflCore) (x : Nat) : getTiu (setDfl s k c) x = getTiu s x := rfl
@[simp] theorem getTiu_setJob (s : State) (j : Nat) (c : Job) (x : Nat) : getTiu (setJob s j c) x = getTiu s x := rfl
@[simp] theorem getTiu_setDma (s : State) (c : Nat) (d : DmaCore) (x : Nat) : getTiu (setDma s c d) x = getTiu s x := rfl
@[simp] theorem getDfc_wr (s : State) (off : Nat) (v : Word) (x : Nat) : getDfc (wr s off v) x = getDfc s x := rfl
@[simp] theorem getDfc_setDfc_self (s : State) (j : Nat) (c : DfcCore) : getDfc (setDfc s j c) j = c := tabGet_tabSet_self _ _ _ _
theorem getDfc_setDfc_ne (s : State) (j : Nat) (c : DfcCore) {x : Nat} (h : x ≠ j) : getDfc (setDfc s j c) x = getDfc s x :=
  tabGet_tabSet_ne _ _ _ _ h
@[simp] theorem getDfc_setEng (s : State) (n : Nat) (e : EngCore) (x : Nat) : getDfc (setEng s n e) x = getDfc s x := rfl
@[simp] theorem getDfc_setLane (s : State) (n : Nat) (l : LaneCore) (x : Nat) : getDfc (setLane s n l) x = getDfc s x := rfl
@[simp] theorem getDfc_setRet (s : State) (k : Nat) (r : RetCore) (x : Nat) : getDfc (setRet s k r) x = getDfc s x := rfl
@[simp] theorem getDfc_setStr (s : State) (n : Nat) (c : StreamCore) (x : Nat) : getDfc (setStr s n c) x = getDfc s x := rfl
@[simp] theorem getDfc_setRing (s : State) (r : Nat) (c : RingCore) (x : Nat) : getDfc (setRing s r c) x = getDfc s x := rfl
@[simp] theorem getDfc_setTiu (s : State) (i : Nat) (t : TiuCore) (x : Nat) : getDfc (setTiu s i t) x = getDfc s x := rfl
@[simp] theorem getDfc_setDfl (s : State) (k : Nat) (c : DflCore) (x : Nat) : getDfc (setDfl s k c) x = getDfc s x := rfl
@[simp] theorem getDfc_setJob (s : State) (j : Nat) (c : Job) (x : Nat) : getDfc (setJob s j c) x = getDfc s x := rfl
@[simp] theorem getDfc_setDma (s : State) (c : Nat) (d : DmaCore) (x : Nat) : getDfc (setDma s c d) x = getDfc s x := rfl
@[simp] theorem getDfl_wr (s : State) (off : Nat) (v : Word) (x : Nat) : getDfl (wr s off v) x = getDfl s x := rfl
@[simp] theorem getDfl_setDfl_self (s : State) (k : Nat) (c : DflCore) : getDfl (setDfl s k c) k = c := tabGet_tabSet_self _ _ _ _
theorem getDfl_setDfl_ne (s : State) (k : Nat) (c : DflCore) {x : Nat} (h : x ≠ k) : getDfl (setDfl s k c) x = getDfl s x :=
  tabGet_tabSet_ne _ _ _ _ h
@[simp] theorem getDfl_setEng (s : State) (n : Nat) (e : EngCore) (x : Nat) : getDfl (setEng s n e) x = getDfl s x := rfl
@[simp] theorem getDfl_setLane (s : State) (n : Nat) (l : LaneCore) (x : Nat) : getDfl (setLane s n l) x = getDfl s x := rfl
@[simp] theorem getDfl_setRet (s : State) (k : Nat) (r : RetCore) (x : Nat) : getDfl (setRet s k r) x = getDfl s x := rfl
@[simp] theorem getDfl_setStr (s : State) (n : Nat) (c : StreamCore) (x : Nat) : getDfl (setStr s n c) x = getDfl s x := rfl
@[simp] theorem getDfl_setRing (s : State) (r : Nat) (c : RingCore) (x : Nat) : getDfl (setRing s r c) x = getDfl s x := rfl
@[simp] theorem getDfl_setTiu (s : State) (i : Nat) (t : TiuCore) (x : Nat) : getDfl (setTiu s i t) x = getDfl s x := rfl
@[simp] theorem getDfl_setDfc (s : State) (j : Nat) (c : DfcCore) (x : Nat) : getDfl (setDfc s j c) x = getDfl s x := rfl
@[simp] theorem getDfl_setJob (s : State) (j : Nat) (c : Job) (x : Nat) : getDfl (setJob s j c) x = getDfl s x := rfl
@[simp] theorem getDfl_setDma (s : State) (c : Nat) (d : DmaCore) (x : Nat) : getDfl (setDma s c d) x = getDfl s x := rfl
@[simp] theorem getJob_wr (s : State) (off : Nat) (v : Word) (x : Nat) : getJob (wr s off v) x = getJob s x := rfl
@[simp] theorem getJob_setJob_self (s : State) (j : Nat) (c : Job) : getJob (setJob s j c) j = c := tabGet_tabSet_self _ _ _ _
theorem getJob_setJob_ne (s : State) (j : Nat) (c : Job) {x : Nat} (h : x ≠ j) : getJob (setJob s j c) x = getJob s x :=
  tabGet_tabSet_ne _ _ _ _ h
@[simp] theorem getJob_setEng (s : State) (n : Nat) (e : EngCore) (x : Nat) : getJob (setEng s n e) x = getJob s x := rfl
@[simp] theorem getJob_setLane (s : State) (n : Nat) (l : LaneCore) (x : Nat) : getJob (setLane s n l) x = getJob s x := rfl
@[simp] theorem getJob_setRet (s : State) (k : Nat) (r : RetCore) (x : Nat) : getJob (setRet s k r) x = getJob s x := rfl
@[simp] theorem getJob_setStr (s : State) (n : Nat) (c : StreamCore) (x : Nat) : getJob (setStr s n c) x = getJob s x := rfl
@[simp] theorem getJob_setRing (s : State) (r : Nat) (c : RingCore) (x : Nat) : getJob (setRing s r c) x = getJob s x := rfl
@[simp] theorem getJob_setTiu (s : State) (i : Nat) (t : TiuCore) (x : Nat) : getJob (setTiu s i t) x = getJob s x := rfl
@[simp] theorem getJob_setDfc (s : State) (j : Nat) (c : DfcCore) (x : Nat) : getJob (setDfc s j c) x = getJob s x := rfl
@[simp] theorem getJob_setDfl (s : State) (k : Nat) (c : DflCore) (x : Nat) : getJob (setDfl s k c) x = getJob s x := rfl
@[simp] theorem getJob_setDma (s : State) (c : Nat) (d : DmaCore) (x : Nat) : getJob (setDma s c d) x = getJob s x := rfl
@[simp] theorem getDma_wr (s : State) (off : Nat) (v : Word) (x : Nat) : getDma (wr s off v) x = getDma s x := rfl
@[simp] theorem getDma_setDma_self (s : State) (c : Nat) (d : DmaCore) : getDma (setDma s c d) c = d := tabGet_tabSet_self _ _ _ _
theorem getDma_setDma_ne (s : State) (c : Nat) (d : DmaCore) {x : Nat} (h : x ≠ c) : getDma (setDma s c d) x = getDma s x :=
  tabGet_tabSet_ne _ _ _ _ h
@[simp] theorem getDma_setEng (s : State) (n : Nat) (e : EngCore) (x : Nat) : getDma (setEng s n e) x = getDma s x := rfl
@[simp] theorem getDma_setLane (s : State) (n : Nat) (l : LaneCore) (x : Nat) : getDma (setLane s n l) x = getDma s x := rfl
@[simp] theorem getDma_setRet (s : State) (k : Nat) (r : RetCore) (x : Nat) : getDma (setRet s k r) x = getDma s x := rfl
@[simp] theorem getDma_setStr (s : State) (n : Nat) (c : StreamCore) (x : Nat) : getDma (setStr s n c) x = getDma s x := rfl
@[simp] theorem getDma_setRing (s : State) (r : Nat) (c : RingCore) (x : Nat) : getDma (setRing s r c) x = getDma s x := rfl
@[simp] theorem getDma_setTiu (s : State) (i : Nat) (t : TiuCore) (x : Nat) : getDma (setTiu s i t) x = getDma s x := rfl
@[simp] theorem getDma_setDfc (s : State) (j : Nat) (c : DfcCore) (x : Nat) : getDma (setDfc s j c) x = getDma s x := rfl
@[simp] theorem getDma_setDfl (s : State) (k : Nat) (c : DflCore) (x : Nat) : getDma (setDfl s k c) x = getDma s x := rfl
@[simp] theorem getDma_setJob (s : State) (j : Nat) (c : Job) (x : Nat) : getDma (setJob s j c) x = getDma s x := rfl

/-! ### Fields of registers -/

theorem rd_wrF_self (s : State) (off lo w n : Nat) : rd (wrF s off lo w n) off = setFld (rd s off) lo w n := rd_wr_self _ _ _

theorem rd_wrF_ne (s : State) {off o : Nat} (lo w n : Nat) (h : o ≠ off) : rd (wrF s off lo w n) o = rd s o :=
  rd_wr_ne _ _ h

theorem rdF_wrF_self (s : State) (off lo w n : Nat) (h : lo + w ≤ 32) : rdF (wrF s off lo w n) off lo w = n % 2 ^ w := by
  rw [rdF, rd_wrF_self, fld_setFld_self _ _ _ _ h]

theorem rdF_wrF_disjoint (s : State) (off lo w n a k : Nat) (h : a + k ≤ lo ∨ lo + w ≤ a) :
    rdF (wrF s off lo w n) off a k = rdF s off a k := by
  rw [rdF, rd_wrF_self, fld_setFld_disjoint _ _ _ _ _ _ h, rdF]

theorem rdF_wrF_ne (s : State) {off o : Nat} (lo w n a k : Nat) (h : o ≠ off) :
    rdF (wrF s off lo w n) o a k = rdF s o a k := by
  rw [rdF, rd_wrF_ne _ _ _ _ h, rdF]

theorem rd_wrBit_ne (s : State) {off o : Nat} (i : Nat) (b : Bool) (h : o ≠ off) : rd (wrBit s off i b) o = rd s o :=
  rd_wr_ne _ _ h

theorem rdBit_wrBit_self (s : State) (off i : Nat) (b : Bool) (h : i < 32) : rdBit (wrBit s off i b) off i = b := by
  rw [rdBit, wrBit, rd_wr_self, bitAt_setBit_self _ _ _ h]

theorem rd_wr64_ne (s : State) {off o : Nat} (n : Nat) (h : o ≠ off) (h' : o ≠ off + 4) : rd (wr64 s off n) o = rd s o := by
  rw [wr64, rd_wr_ne _ _ h', rd_wr_ne _ _ h]

theorem rd64_wr64_self (s : State) (off n : Nat) (h : n < 2 ^ 64) : rd64 (wr64 s off n) off = n := by
  have h1 : rd (wr64 s off n) off = BitVec.ofNat 32 n := by
    rw [wr64, rd_wr_ne _ _ (by omega), rd_wr_self]
  have h2 : rd (wr64 s off n) (off + 4) = BitVec.ofNat 32 (n / 2 ^ 32) := by rw [wr64, rd_wr_self]
  rw [rd64, h1, h2, BitVec.toNat_ofNat, BitVec.toNat_ofNat]
  omega

theorem rd_hwOr_self (s : State) (off : Nat) (m : Word) : rd (hwOr s off m) off = rd s off ||| m := rd_wr_self _ _ _

theorem rd_hwOr_ne (s : State) {off o : Nat} (m : Word) (h : o ≠ off) : rd (hwOr s off m) o = rd s o := rd_wr_ne _ _ h

theorem rd_hwClr_ne (s : State) {off o : Nat} (m : Word) (h : o ≠ off) : rd (hwClr s off m) o = rd s o := rd_wr_ne _ _ h

theorem rd_ctrAdd_ne (s : State) {off o : Nat} (n : Nat) (h : o ≠ off) : rd (ctrAdd s off n) o = rd s o := rd_wr_ne _ _ h

end Sys2Proof.Machine
end

