-- ==== Sys2Proof/Laws/Commands.lean ====
section
/-! SUPPORT. Laws of the mailbox commands' shared operations: rows, checks, starting, holding and completing. -/

namespace Sys2Proof.Machine

/-! ### Checks -/

@[simp] theorem firstFail_nil : firstFail [] = none := rfl
@[simp] theorem firstFail_none (r : List (Option Fail)) : firstFail (none :: r) = firstFail r := rfl
@[simp] theorem firstFail_some (f : Fail) (r : List (Option Fail)) : firstFail (some f :: r) = some f := rfl

@[simp] theorem firstFail_ite (p : Prop) [Decidable p] (x : Option Fail) (r : List (Option Fail)) :
    firstFail ((if p then none else x) :: r) = if p then firstFail r else firstFail (x :: r) := by
  split <;> simp

theorem firstFail_append (l r : List (Option Fail)) :
    firstFail (l ++ r) = (firstFail l).or (firstFail r) := by
  induction l with
  | nil => simp
  | cons a l ih => cases a <;> simp_all

@[simp] theorem failIf_false (st : Nat) (r : List Nat) : failIf false st r = none := rfl
@[simp] theorem failIf_true (st : Nat) (r : List Nat) : failIf true st r = some { status := st, res := r } := rfl
@[simp] theorem needArg_true (i : Nat) : needArg true i = none := rfl
@[simp] theorem needRange_true (i : Nat) : needRange true i = none := rfl
@[simp] theorem needState_true (c i st : Nat) : needState true c i st = none := rfl
@[simp] theorem needOpen_true (s : State) (c : Nat) : needOpen s true c = none := rfl

theorem needArg_of {b : Bool} (h : b = true) (i : Nat) : needArg b i = none := by subst h; rfl
theorem needRange_of {b : Bool} (h : b = true) (i : Nat) : needRange b i = none := by subst h; rfl
theorem needState_of {b : Bool} (h : b = true) (c i st : Nat) : needState b c i st = none := by subst h; rfl

theorem needFree_none {s : State} {l : List Res} (h : Safety.NoneHolds s l) : needFree s l = none := by
  have : s.running.find? (fun c => c.held.any (fun r => l.contains r)) = none := by
    rw [List.find?_eq_none]
    intro c hc
    simp only [List.any_eq_true, List.contains_eq_mem, decide_eq_true_eq, not_exists, not_and]
    exact fun r hr => h.1 c hc r hr
  rw [needFree, this, h.2]
  rfl

theorem needDoms_none {s : State} {ds : List Nat} (h : Safety.Ready s ds) : needDoms s ds = none := by
  have : ds.find? (fun d => !domReady s d) = none := by
    rw [List.find?_eq_none]
    intro d hd
    simp [h d hd]
  rw [needDoms, this]

theorem needCap_none {s : State} {l : List Nat} (h : capState s ∈ l) : needCap s l = none := by
  simp [needCap, List.contains_eq_mem, h]

theorem noSched_none {s : State} {m : Nat} (h : cmdSched s m = false) : noSched s m = none := by simp [noSched, h]
theorem schedBits_none {s : State} {m : Nat} (h : cmdSched s m = false) : schedBits s m = none := by simp [schedBits, h]
theorem schedRange_none {s : State} {m : Nat} (p lead : Nat) (h : cmdSched s m = false) : schedRange s m p lead = none := by
  simp [schedRange, h]

theorem needAll_none {α : Type} {l : List α} {f : α → Option Fail} (h : ∀ a ∈ l, f a = none) : needAll l f = none := by
  induction l with
  | nil => rfl
  | cons a l ih => simp_all [needAll]

/-- Where every check passes, the command executes. -/
theorem checked_pass {s : State} {m : Nat} {l : List (Option Fail)} (body : State → State) (h : firstFail l = none) :
    checked s m l body = body s := by simp [checked, h]

/-- A failed check completes the command with its status and result words, a BAD_STATE drawing a free value. -/
theorem checked_fail {s : State} {m : Nat} {l : List (Option Fail)} (body : State → State) {f : Fail}
    (h : firstFail l = some f) : checked s m l body =
      completeCmd (if f.status = stBAD_STATE then { s with freeCtr := s.freeCtr + 1 } else s) m f.status f.res := by
  simp [checked, h]

/-! ### Rows -/

theorem fwRow_waits {s : State} {m : Nat} (op : Nat) (body : State → State) (h : fwStarts s m = false) :
    fwRow s m op body = s := by simp [fwRow, h]

theorem fwRow_executing {s e : State} {m op : Nat} (body : State → State) (h : Safety.Executing s m op e) :
    fwRow s m op body = body e := by
  obtain ⟨h1, h2, rfl, -⟩ := h
  simp [fwRow, h1, h2]

/-! ### Completing, starting, holding -/

@[simp] theorem putRes_regs_only (s : State) (m i : Nat) (l : List Nat) :
    (putRes s m i l).stratus = s.stratus ∧ (putRes s m i l).cirrus = s.cirrus ∧ (putRes s m i l).running = s.running ∧
    (putRes s m i l).posted = s.posted ∧ (putRes s m i l).pending = s.pending := by
  induction l generalizing s i with
  | nil => simp [putRes]
  | cons v l ih => simpa [putRes] using ih (wr s (resR m i) (BitVec.ofNat 32 v)) (i + 1)

theorem rd_putRes_out (s : State) (m i : Nat) (l : List Nat) {o : Nat} (h : o < resR m i ∨ resR m (i + l.length) ≤ o) :
    rd (putRes s m i l) o = rd s o := by
  induction l generalizing s i with
  | nil => rfl
  | cons v l ih =>
    simp only [resR, mR, List.length_cons] at h ih ⊢
    rw [putRes, ih _ _ (by omega), rd_wr_ne _ _ (by simp only [resR, mR]; omega)]

theorem rd_putRes_at (s : State) (m i : Nat) (l : List Nat) {j : Nat} (h : j < l.length) :
    rd (putRes s m i l) (resR m (i + j)) = BitVec.ofNat 32 (l.getD j 0) := by
  induction l generalizing s i j with
  | nil => simp at h
  | cons v l ih =>
    rw [putRes]
    cases j with
    | zero => rw [rd_putRes_out _ _ _ _ (by simp only [resR, mR]; omega)]; simp [rd_wr_self]
    | succ j =>
      have := ih (wr s (resR m i) (BitVec.ofNat 32 v)) (i + 1) (j := j) (by simpa using h)
      rw [show i + (j + 1) = i + 1 + j by omega, this]; simp

/-- Starting a command changes its mailbox's state, execution tick and result words only (R50, R52). -/
theorem rd_startCmd_out (s : State) (m : Nat) {o : Nat} (h1 : o ≠ mR m 0x14) (h2 : o ≠ mR m 0x20) (h3 : o ≠ mR m 0x24)
    (h4 : o < resR m 0 ∨ resR m 256 ≤ o) : rd (startCmd s m) o = rd s o := by
  have h5 : o ≠ mR m 0x20 + 4 := h3
  rw [startCmd, wr64, rd_wr_ne _ _ h5, rd_wr_ne _ _ h2, rd_wrF_ne _ _ _ _ h1]
  refine (tabGet_filter_keys (resetVal o) s.regs
    (fun x => !(decide (resR m 0 ≤ x) && decide (x < resR m 256))) o).trans (if_pos ?_)
  simp only [Bool.not_eq_true', Bool.and_eq_false_iff, decide_eq_false_iff_not]
  omega

end Sys2Proof.Machine
end

