-- ==== Sys2Proof/Laws/Keeps.lean ====
section
/-! SUPPORT. The two frames every operation meets: `Still`, the queue and both memories stay as they are, and `Keeps`, the
queue stays and the memories keep their canonical form. One lemma per operation stands in the files of Laws/Frame. -/

namespace Sys2Proof.Machine

/-- The queue and both memories are the same. -/
def Still (s t : State) : Prop := t.pending = s.pending ∧ t.stratus = s.stratus ∧ t.cirrus = s.cirrus

/-- The queue is the same, and the memories are in canonical form where they were. -/
def Keeps (s t : State) : Prop := t.pending = s.pending ∧ (Safety.Inv s → Safety.Inv t)

theorem Still.refl (s : State) : Still s s := ⟨rfl, rfl, rfl⟩
theorem Still.step {s t u : State} (h : Still s t) (k : Still t u) : Still s u :=
  ⟨k.1.trans h.1, k.2.1.trans h.2.1, k.2.2.trans h.2.2⟩
theorem Keeps.refl (s : State) : Keeps s s := ⟨rfl, id⟩
theorem Still.keeps {s t : State} (h : Still s t) : Keeps s t :=
  ⟨h.1, fun i => ⟨by rw [h.2.1]; exact i.1, by rw [h.2.2]; exact i.2⟩⟩
theorem Keeps.trans {s t u : State} (h : Keeps s t) (k : Keeps t u) : Keeps s u := ⟨k.1.trans h.1, k.2 ∘ h.2⟩
theorem Keeps.step {s t u : State} (h : Keeps s t) (k : Still t u) : Keeps s u := h.trans k.keeps

theorem Still.fold {α : Type} {f : State → α → State} {l : List α} {s t : State} (h : Still s t)
    (k : ∀ u x, Still u (f u x)) : Still s (l.foldl f t) := by
  induction l generalizing t with
  | nil => exact h
  | cons x l ih => exact ih (h.step (k t x))

theorem Keeps.fold {α : Type} {f : State → α → State} {l : List α} {s t : State} (h : Keeps s t)
    (k : ∀ u x, Keeps u (f u x)) : Keeps s (l.foldl f t) := by
  induction l generalizing t with
  | nil => exact h
  | cons x l ih => exact ih (h.trans (k t x))

theorem Still.foldFst {α β : Type} {f : State × β → α → State × β} {l : List α} {s : State} {p : State × β} (h : Still s p.1)
    (k : ∀ q x, Still q.1 (f q x).1) : Still s (l.foldl f p).1 := by
  induction l generalizing p with
  | nil => exact h
  | cons x l ih => exact ih (h.step (k p x))

theorem Still.foldSnd {α β : Type} {f : β × State → α → β × State} {l : List α} {s : State} {p : β × State} (h : Still s p.2)
    (k : ∀ q x, Still q.2 (f q x).2) : Still s (l.foldl f p).2 := by
  induction l generalizing p with
  | nil => exact h
  | cons x l ih => exact ih (h.step (k p x))

theorem Keeps.foldFst {α β : Type} {f : State × β → α → State × β} {l : List α} {s : State} {p : State × β} (h : Keeps s p.1)
    (k : ∀ q x, Keeps q.1 (f q x).1) : Keeps s (l.foldl f p).1 := by
  induction l generalizing p with
  | nil => exact h
  | cons x l ih => exact ih (h.trans (k p x))

theorem Keeps.foldSnd {α β : Type} {f : β × State → α → β × State} {l : List α} {s : State} {p : β × State} (h : Keeps s p.2)
    (k : ∀ q x, Keeps q.2 (f q x).2) : Keeps s (l.foldl f p).2 := by
  induction l generalizing p with
  | nil => exact h
  | cons x l ih => exact ih (h.trans (k p x))

theorem Still.ite {c : Prop} [Decidable c] {s t u : State} (h : Still s t) (k : Still s u) : Still s (if c then t else u) := by
  split
  · exact h
  · exact k

theorem Keeps.ite {c : Prop} [Decidable c] {s t u : State} (h : Keeps s t) (k : Keeps s u) : Keeps s (if c then t else u) := by
  split
  · exact h
  · exact k

theorem Still.each {α : Type} {f : State → α → State} {l : List α} {s t : State} (h : Still s t)
    (k : ∀ u x, Still u (f u x)) : Still s (forEach l t f) := h.fold k
theorem Keeps.each {α : Type} {f : State → α → State} {l : List α} {s t : State} (h : Keeps s t)
    (k : ∀ u x, Keeps u (f u x)) : Keeps s (forEach l t f) := h.fold k
theorem Still.times {f : State → Nat → State} {n : Nat} {s t : State} (h : Still s t)
    (k : ∀ u x, Still u (f u x)) : Still s (forN n t f) := h.fold k
theorem Keeps.times {f : State → Nat → State} {n : Nat} {s t : State} (h : Keeps s t)
    (k : ∀ u x, Keeps u (f u x)) : Keeps s (forN n t f) := h.fold k

theorem Still.snd {α : Type} {s t : State} {a : α} {p : α × State} (h : Still s p.2) (e : p = (a, t)) : Still s t := by
  subst e; exact h
theorem Still.fst {α : Type} {s t : State} {a : α} {p : State × α} (h : Still s p.1) (e : p = (t, a)) : Still s t := by
  subst e; exact h
theorem Still.thd {α β : Type} {s t : State} {a : α} {b : β} {p : α × β × State} (h : Still s p.2.2) (e : p = (a, b, t)) :
    Still s t := by
  subst e; exact h
theorem Keeps.snd {α : Type} {s t : State} {a : α} {p : α × State} (h : Keeps s p.2) (e : p = (a, t)) : Keeps s t := by
  subst e; exact h
theorem Keeps.fst {α : Type} {s t : State} {a : α} {p : State × α} (h : Keeps s p.1) (e : p = (t, a)) : Keeps s t := by
  subst e; exact h
theorem Keeps.thd {α β : Type} {s t : State} {a : α} {b : β} {p : α × β × State} (h : Keeps s p.2.2) (e : p = (a, b, t)) :
    Keeps s t := by
  subst e; exact h

/-- An update of other fields. -/
theorem Still.upd {s t : State} (h : Still s t) {time' : BitVec 56} {freeCtr' : Nat} {regs' : Tab Word} {cycSet' : Tab Word} {cycInc' : Tab Nat} {cycHost' :
    Tab Word} {cycPrev' : Tab Word} {evBoth' : List Nat} {recOrd' : Nat} {guard' : Option GuardLatch} {posted' :
    List Nat} {running' : List RunCmd} {warmAt' : Option Nat} {ns' : Nat} {ramp' : Tab Nat} {disch' : Tab Nat}
    {inits' : List Nat} {bistFailed' : List Nat} {readData' : Word} {fuses' : Fuses} {flash' : Flash} {gates' : Gates} {repaired' : Bool}
    {capture' : Capture} {lrel' : Nat} {tb' : Timebase} {loop' : LoopCore} {glb' : Globals} {trigOut' : TrigOut}
    {eng' : Tab EngCore} {ctx' : CtxStore} {lane' : Tab LaneCore} {ret' : Tab RetCore} {retTx' : List (Nat × List
    Word)} {stream' : Tab StreamCore} {ring' : Tab RingCore} {lineRr' : Tab Nat} {stratusBad' : List Nat}
    {stratusCorr' : List Nat} {cirrusBad' : List Nat} {cirrusCorr' : List Nat} {tiu' : Tab TiuCore} {dfc' : Tab
    DfcCore} {dfl' : Tab DflCore} {job' : Tab Job} {mt' : Option MtJob} {mtLast' : Option MtJob} {spares' : List
    Spare} {pcie' : Pcie} {dma' : Tab DmaCore} {smbAddr' : BitVec 2} {smbOut' : Option SmbAnswer} {jtag' : Jtag} :
    Still s {
      pending := t.pending, time := time', freeCtr := freeCtr', regs := regs'
      cycSet := cycSet', cycInc := cycInc', cycHost := cycHost', cycPrev := cycPrev'
      evBoth := evBoth', recOrd := recOrd', guard := guard', posted := posted'
      running := running', warmAt := warmAt', ns := ns', ramp := ramp'
      disch := disch', inits := inits', bistFailed := bistFailed', readData := readData', fuses := fuses'
      flash := flash', gates := gates', repaired := repaired', capture := capture'
      lrel := lrel', tb := tb', loop := loop', glb := glb'
      trigOut := trigOut', eng := eng', ctx := ctx', lane := lane'
      ret := ret', retTx := retTx', stream := stream', ring := ring'
      stratus := t.stratus, cirrus := t.cirrus, lineRr := lineRr', stratusBad := stratusBad'
      stratusCorr := stratusCorr', cirrusBad := cirrusBad', cirrusCorr := cirrusCorr', tiu := tiu'
      dfc := dfc', dfl := dfl', job := job', mt := mt'
      mtLast := mtLast', spares := spares', pcie := pcie', dma := dma'
      smbAddr := smbAddr', smbOut := smbOut', jtag := jtag' } :=
  h.step ⟨rfl, rfl, rfl⟩

/-- An update of other fields. -/
theorem Keeps.upd {s t : State} (h : Keeps s t) {time' : BitVec 56} {freeCtr' : Nat} {regs' : Tab Word} {cycSet' : Tab Word} {cycInc' : Tab Nat} {cycHost' :
    Tab Word} {cycPrev' : Tab Word} {evBoth' : List Nat} {recOrd' : Nat} {guard' : Option GuardLatch} {posted' :
    List Nat} {running' : List RunCmd} {warmAt' : Option Nat} {ns' : Nat} {ramp' : Tab Nat} {disch' : Tab Nat}
    {inits' : List Nat} {bistFailed' : List Nat} {readData' : Word} {fuses' : Fuses} {flash' : Flash} {gates' : Gates} {repaired' : Bool}
    {capture' : Capture} {lrel' : Nat} {tb' : Timebase} {loop' : LoopCore} {glb' : Globals} {trigOut' : TrigOut}
    {eng' : Tab EngCore} {ctx' : CtxStore} {lane' : Tab LaneCore} {ret' : Tab RetCore} {retTx' : List (Nat × List
    Word)} {stream' : Tab StreamCore} {ring' : Tab RingCore} {lineRr' : Tab Nat} {stratusBad' : List Nat}
    {stratusCorr' : List Nat} {cirrusBad' : List Nat} {cirrusCorr' : List Nat} {tiu' : Tab TiuCore} {dfc' : Tab
    DfcCore} {dfl' : Tab DflCore} {job' : Tab Job} {mt' : Option MtJob} {mtLast' : Option MtJob} {spares' : List
    Spare} {pcie' : Pcie} {dma' : Tab DmaCore} {smbAddr' : BitVec 2} {smbOut' : Option SmbAnswer} {jtag' : Jtag} :
    Keeps s {
      pending := t.pending, time := time', freeCtr := freeCtr', regs := regs'
      cycSet := cycSet', cycInc := cycInc', cycHost := cycHost', cycPrev := cycPrev'
      evBoth := evBoth', recOrd := recOrd', guard := guard', posted := posted'
      running := running', warmAt := warmAt', ns := ns', ramp := ramp'
      disch := disch', inits := inits', bistFailed := bistFailed', readData := readData', fuses := fuses'
      flash := flash', gates := gates', repaired := repaired', capture := capture'
      lrel := lrel', tb := tb', loop := loop', glb := glb'
      trigOut := trigOut', eng := eng', ctx := ctx', lane := lane'
      ret := ret', retTx := retTx', stream := stream', ring := ring'
      stratus := t.stratus, cirrus := t.cirrus, lineRr := lineRr', stratusBad := stratusBad'
      stratusCorr := stratusCorr', cirrusBad := cirrusBad', cirrusCorr := cirrusCorr', tiu := tiu'
      dfc := dfc', dfl := dfl', job := job', mt := mt'
      mtLast := mtLast', spares := spares', pcie := pcie', dma := dma'
      smbAddr := smbAddr', smbOut := smbOut', jtag := jtag' } :=
  h.step ⟨rfl, rfl, rfl⟩

end Sys2Proof.Machine
end

