-- ==== Sys2Proof/Laws/Frame/Ops.lean ====
section
/-! SUPPORT. What the operations of Machine/Ops.lean leave alone (Laws/Keeps.lean). -/

namespace Sys2Proof.Machine

theorem still_wr {z : State} (s : State) (off : Nat) (v : Word) (h : Still z s) :
    Still z (wr s off v) := by
  unfold wr
  repeat' first
    | with_reducible assumption
    | dsimp only
    | fail_if_no_progress with_reducible apply Still.upd

theorem keeps_wr {z : State} (s : State) (off : Nat) (v : Word) (h : Keeps z s) :
    Keeps z (wr s off v) := h.step (still_wr s off v (.refl _))

theorem still_wrF {z : State} (s : State) (off lo w n : Nat) (h : Still z s) :
    Still z (wrF s off lo w n) := by
  unfold wrF
  repeat' first
    | with_reducible assumption
    | with_reducible apply still_wr

theorem keeps_wrF {z : State} (s : State) (off lo w n : Nat) (h : Keeps z s) :
    Keeps z (wrF s off lo w n) := h.step (still_wrF s off lo w n (.refl _))

theorem still_wrBit {z : State} (s : State) (off i : Nat) (b : Bool) (h : Still z s) :
    Still z (wrBit s off i b) := by
  unfold wrBit
  repeat' first
    | with_reducible assumption
    | with_reducible apply still_wr

theorem keeps_wrBit {z : State} (s : State) (off i : Nat) (b : Bool) (h : Keeps z s) :
    Keeps z (wrBit s off i b) := h.step (still_wrBit s off i b (.refl _))

theorem still_wr64 {z : State} (s : State) (off : Nat) (n : Nat) (h : Still z s) :
    Still z (wr64 s off n) := by
  unfold wr64
  repeat' first
    | with_reducible assumption
    | with_reducible apply still_wr

theorem keeps_wr64 {z : State} (s : State) (off : Nat) (n : Nat) (h : Keeps z s) :
    Keeps z (wr64 s off n) := h.step (still_wr64 s off n (.refl _))

theorem still_hwOr {z : State} (s : State) (off : Nat) (m : Word) (h : Still z s) :
    Still z (hwOr s off m) := by
  unfold hwOr
  repeat' first
    | with_reducible assumption
    | dsimp only
    | fail_if_no_progress with_reducible apply Still.upd
    | with_reducible apply still_wr

theorem keeps_hwOr {z : State} (s : State) (off : Nat) (m : Word) (h : Keeps z s) :
    Keeps z (hwOr s off m) := h.step (still_hwOr s off m (.refl _))

theorem still_hwClr {z : State} (s : State) (off : Nat) (m : Word) (h : Still z s) :
    Still z (hwClr s off m) := by
  unfold hwClr
  repeat' first
    | with_reducible assumption
    | with_reducible apply still_wr

theorem keeps_hwClr {z : State} (s : State) (off : Nat) (m : Word) (h : Keeps z s) :
    Keeps z (hwClr s off m) := h.step (still_hwClr s off m (.refl _))

theorem still_ctrAdd {z : State} (s : State) (off n : Nat) (h : Still z s) :
    Still z (ctrAdd s off n) := by
  unfold ctrAdd
  repeat' first
    | with_reducible assumption
    | dsimp only
    | fail_if_no_progress with_reducible apply Still.upd
    | with_reducible apply still_wr

theorem keeps_ctrAdd {z : State} (s : State) (off n : Nat) (h : Keeps z s) :
    Keeps z (ctrAdd s off n) := h.step (still_ctrAdd s off n (.refl _))

theorem still_ctrAdd64 {z : State} (s : State) (off n : Nat) (h : Still z s) :
    Still z (ctrAdd64 s off n) := by
  unfold ctrAdd64
  repeat' first
    | with_reducible assumption
    | dsimp only
    | fail_if_no_progress with_reducible apply Still.upd
    | with_reducible apply still_wr64

theorem keeps_ctrAdd64 {z : State} (s : State) (off n : Nat) (h : Keeps z s) :
    Keeps z (ctrAdd64 s off n) := h.step (still_ctrAdd64 s off n (.refl _))

theorem still_ctrAdd16 {z : State} (s : State) (off lo n : Nat) (h : Still z s) :
    Still z (ctrAdd16 s off lo n) := by
  unfold ctrAdd16
  repeat' first
    | with_reducible assumption
    | dsimp only
    | fail_if_no_progress with_reducible apply Still.upd
    | with_reducible apply still_wrF

theorem keeps_ctrAdd16 {z : State} (s : State) (off lo n : Nat) (h : Keeps z s) :
    Keeps z (ctrAdd16 s off lo n) := h.step (still_ctrAdd16 s off lo n (.refl _))

theorem still_fldAdd {z : State} (s : State) (off lo w n : Nat) (h : Still z s) :
    Still z (fldAdd s off lo w n) := by
  unfold fldAdd
  repeat' first
    | with_reducible assumption
    | with_reducible apply still_wrF

theorem keeps_fldAdd {z : State} (s : State) (off lo w n : Nat) (h : Keeps z s) :
    Keeps z (fldAdd s off lo w n) := h.step (still_fldAdd s off lo w n (.refl _))

theorem still_setEng {z : State} (s : State) (n : Nat) (e : EngCore) (h : Still z s) :
    Still z (setEng s n e) := by
  unfold setEng
  repeat' first
    | with_reducible assumption
    | dsimp only
    | fail_if_no_progress with_reducible apply Still.upd

theorem keeps_setEng {z : State} (s : State) (n : Nat) (e : EngCore) (h : Keeps z s) :
    Keeps z (setEng s n e) := h.step (still_setEng s n e (.refl _))

theorem still_modEng {z : State} (s : State) (n : Nat) (f : EngCore → EngCore) (h : Still z s) :
    Still z (modEng s n f) := by
  unfold modEng
  repeat' first
    | with_reducible assumption
    | with_reducible apply still_setEng

theorem keeps_modEng {z : State} (s : State) (n : Nat) (f : EngCore → EngCore) (h : Keeps z s) :
    Keeps z (modEng s n f) := h.step (still_modEng s n f (.refl _))

theorem still_setLane {z : State} (s : State) (n : Nat) (l : LaneCore) (h : Still z s) :
    Still z (setLane s n l) := by
  unfold setLane
  repeat' first
    | with_reducible assumption
    | dsimp only
    | fail_if_no_progress with_reducible apply Still.upd

theorem keeps_setLane {z : State} (s : State) (n : Nat) (l : LaneCore) (h : Keeps z s) :
    Keeps z (setLane s n l) := h.step (still_setLane s n l (.refl _))

theorem still_modLane {z : State} (s : State) (n : Nat) (f : LaneCore → LaneCore) (h : Still z s) :
    Still z (modLane s n f) := by
  unfold modLane
  repeat' first
    | with_reducible assumption
    | with_reducible apply still_setLane

theorem keeps_modLane {z : State} (s : State) (n : Nat) (f : LaneCore → LaneCore) (h : Keeps z s) :
    Keeps z (modLane s n f) := h.step (still_modLane s n f (.refl _))

theorem still_setRet {z : State} (s : State) (k : Nat) (r : RetCore) (h : Still z s) :
    Still z (setRet s k r) := by
  unfold setRet
  repeat' first
    | with_reducible assumption
    | dsimp only
    | fail_if_no_progress with_reducible apply Still.upd

theorem keeps_setRet {z : State} (s : State) (k : Nat) (r : RetCore) (h : Keeps z s) :
    Keeps z (setRet s k r) := h.step (still_setRet s k r (.refl _))

theorem still_setStr {z : State} (s : State) (n : Nat) (c : StreamCore) (h : Still z s) :
    Still z (setStr s n c) := by
  unfold setStr
  repeat' first
    | with_reducible assumption
    | dsimp only
    | fail_if_no_progress with_reducible apply Still.upd

theorem keeps_setStr {z : State} (s : State) (n : Nat) (c : StreamCore) (h : Keeps z s) :
    Keeps z (setStr s n c) := h.step (still_setStr s n c (.refl _))

theorem still_modStr {z : State} (s : State) (n : Nat) (f : StreamCore → StreamCore) (h : Still z s) :
    Still z (modStr s n f) := by
  unfold modStr
  repeat' first
    | with_reducible assumption
    | with_reducible apply still_setStr

theorem keeps_modStr {z : State} (s : State) (n : Nat) (f : StreamCore → StreamCore) (h : Keeps z s) :
    Keeps z (modStr s n f) := h.step (still_modStr s n f (.refl _))

theorem still_setRing {z : State} (s : State) (r : Nat) (c : RingCore) (h : Still z s) :
    Still z (setRing s r c) := by
  unfold setRing
  repeat' first
    | with_reducible assumption
    | dsimp only
    | fail_if_no_progress with_reducible apply Still.upd

theorem keeps_setRing {z : State} (s : State) (r : Nat) (c : RingCore) (h : Keeps z s) :
    Keeps z (setRing s r c) := h.step (still_setRing s r c (.refl _))

theorem still_modRing {z : State} (s : State) (r : Nat) (f : RingCore → RingCore) (h : Still z s) :
    Still z (modRing s r f) := by
  unfold modRing
  repeat' first
    | with_reducible assumption
    | with_reducible apply still_setRing

theorem keeps_modRing {z : State} (s : State) (r : Nat) (f : RingCore → RingCore) (h : Keeps z s) :
    Keeps z (modRing s r f) := h.step (still_modRing s r f (.refl _))

theorem still_setTiu {z : State} (s : State) (i : Nat) (t : TiuCore) (h : Still z s) :
    Still z (setTiu s i t) := by
  unfold setTiu
  repeat' first
    | with_reducible assumption
    | dsimp only
    | fail_if_no_progress with_reducible apply Still.upd

theorem keeps_setTiu {z : State} (s : State) (i : Nat) (t : TiuCore) (h : Keeps z s) :
    Keeps z (setTiu s i t) := h.step (still_setTiu s i t (.refl _))

theorem still_modTiu {z : State} (s : State) (i : Nat) (f : TiuCore → TiuCore) (h : Still z s) :
    Still z (modTiu s i f) := by
  unfold modTiu
  repeat' first
    | with_reducible assumption
    | with_reducible apply still_setTiu

theorem keeps_modTiu {z : State} (s : State) (i : Nat) (f : TiuCore → TiuCore) (h : Keeps z s) :
    Keeps z (modTiu s i f) := h.step (still_modTiu s i f (.refl _))

theorem still_setDfc {z : State} (s : State) (j : Nat) (c : DfcCore) (h : Still z s) :
    Still z (setDfc s j c) := by
  unfold setDfc
  repeat' first
    | with_reducible assumption
    | dsimp only
    | fail_if_no_progress with_reducible apply Still.upd

theorem keeps_setDfc {z : State} (s : State) (j : Nat) (c : DfcCore) (h : Keeps z s) :
    Keeps z (setDfc s j c) := h.step (still_setDfc s j c (.refl _))

theorem still_modDfc {z : State} (s : State) (j : Nat) (f : DfcCore → DfcCore) (h : Still z s) :
    Still z (modDfc s j f) := by
  unfold modDfc
  repeat' first
    | with_reducible assumption
    | with_reducible apply still_setDfc

theorem keeps_modDfc {z : State} (s : State) (j : Nat) (f : DfcCore → DfcCore) (h : Keeps z s) :
    Keeps z (modDfc s j f) := h.step (still_modDfc s j f (.refl _))

theorem still_setDfl {z : State} (s : State) (k : Nat) (c : DflCore) (h : Still z s) :
    Still z (setDfl s k c) := by
  unfold setDfl
  repeat' first
    | with_reducible assumption
    | dsimp only
    | fail_if_no_progress with_reducible apply Still.upd

theorem keeps_setDfl {z : State} (s : State) (k : Nat) (c : DflCore) (h : Keeps z s) :
    Keeps z (setDfl s k c) := h.step (still_setDfl s k c (.refl _))

theorem still_modDfl {z : State} (s : State) (k : Nat) (f : DflCore → DflCore) (h : Still z s) :
    Still z (modDfl s k f) := by
  unfold modDfl
  repeat' first
    | with_reducible assumption
    | with_reducible apply still_setDfl

theorem keeps_modDfl {z : State} (s : State) (k : Nat) (f : DflCore → DflCore) (h : Keeps z s) :
    Keeps z (modDfl s k f) := h.step (still_modDfl s k f (.refl _))

theorem still_setJob {z : State} (s : State) (j : Nat) (c : Job) (h : Still z s) :
    Still z (setJob s j c) := by
  unfold setJob
  repeat' first
    | with_reducible assumption
    | dsimp only
    | fail_if_no_progress with_reducible apply Still.upd

theorem keeps_setJob {z : State} (s : State) (j : Nat) (c : Job) (h : Keeps z s) :
    Keeps z (setJob s j c) := h.step (still_setJob s j c (.refl _))

theorem still_modJob {z : State} (s : State) (j : Nat) (f : Job → Job) (h : Still z s) :
    Still z (modJob s j f) := by
  unfold modJob
  repeat' first
    | with_reducible assumption
    | with_reducible apply still_setJob

theorem keeps_modJob {z : State} (s : State) (j : Nat) (f : Job → Job) (h : Keeps z s) :
    Keeps z (modJob s j f) := h.step (still_modJob s j f (.refl _))

theorem still_setDma {z : State} (s : State) (c : Nat) (d : DmaCore) (h : Still z s) :
    Still z (setDma s c d) := by
  unfold setDma
  repeat' first
    | with_reducible assumption
    | dsimp only
    | fail_if_no_progress with_reducible apply Still.upd

theorem keeps_setDma {z : State} (s : State) (c : Nat) (d : DmaCore) (h : Keeps z s) :
    Keeps z (setDma s c d) := h.step (still_setDma s c d (.refl _))

theorem still_drawFree {z : State} (s : State) (h : Still z s) :
    Still z (drawFree s).2 := by
  unfold drawFree
  repeat' first
    | with_reducible assumption
    | dsimp only
    | fail_if_no_progress with_reducible apply Still.upd

theorem keeps_drawFree {z : State} (s : State) (h : Keeps z s) :
    Keeps z (drawFree s).2 := h.step (still_drawFree s (.refl _))

end Sys2Proof.Machine
end

