-- ==== Sys2Proof/Laws/Frame/Flags.lean ====
section
/-! SUPPORT. What the operations of Machine/Flags.lean leave alone (Laws/Keeps.lean). -/

namespace Sys2Proof.Machine

theorem still_raiseSrc {z : State} (s : State) (k : Nat) (h : Still z s) :
    Still z (raiseSrc s k) := by
  unfold raiseSrc
  repeat' first
    | with_reducible assumption
    | with_reducible apply still_hwOr

theorem keeps_raiseSrc {z : State} (s : State) (k : Nat) (h : Keeps z s) :
    Keeps z (raiseSrc s k) := h.step (still_raiseSrc s k (.refl _))

theorem still_setCause {z : State} (s : State) (off : Nat) (en : Word) (k : Nat) (m : Word) (h : Still z s) :
    Still z (setCause s off en k m) := by
  unfold setCause
  repeat' first
    | with_reducible assumption
    | dsimp only
    | with_reducible apply still_hwOr
    | with_reducible apply still_raiseSrc
    | with_reducible apply Still.ite

theorem keeps_setCause {z : State} (s : State) (off : Nat) (en : Word) (k : Nat) (m : Word) (h : Keeps z s) :
    Keeps z (setCause s off en k m) := h.step (still_setCause s off en k m (.refl _))

theorem still_laneEvent {z : State} (s : State) (n : Nat) (m : Word) (h : Still z s) :
    Still z (laneEvent s n m) := by
  unfold laneEvent
  repeat' first
    | with_reducible assumption
    | with_reducible apply still_setCause

theorem keeps_laneEvent {z : State} (s : State) (n : Nat) (m : Word) (h : Keeps z s) :
    Keeps z (laneEvent s n m) := h.step (still_laneEvent s n m (.refl _))

theorem still_engEvent {z : State} (s : State) (n : Nat) (m : Word) (h : Still z s) :
    Still z (engEvent s n m) := by
  unfold engEvent
  repeat' first
    | with_reducible assumption
    | with_reducible apply still_setCause

theorem keeps_engEvent {z : State} (s : State) (n : Nat) (m : Word) (h : Keeps z s) :
    Keeps z (engEvent s n m) := h.step (still_engEvent s n m (.refl _))

theorem still_tiuEvent {z : State} (s : State) (i : Nat) (m : Word) (h : Still z s) :
    Still z (tiuEvent s i m) := by
  unfold tiuEvent
  repeat' first
    | with_reducible assumption
    | with_reducible apply still_setCause

theorem keeps_tiuEvent {z : State} (s : State) (i : Nat) (m : Word) (h : Keeps z s) :
    Keeps z (tiuEvent s i m) := h.step (still_tiuEvent s i m (.refl _))

theorem still_ringPend {z : State} (s : State) (r : Nat) (h : Still z s) :
    Still z (ringPend s r) := by
  unfold ringPend
  repeat' first
    | with_reducible assumption
    | with_reducible apply still_setCause

theorem keeps_ringPend {z : State} (s : State) (r : Nat) (h : Keeps z s) :
    Keeps z (ringPend s r) := h.step (still_ringPend s r (.refl _))

theorem still_dfcEvent {z : State} (s : State) (j : Nat) (m : Word) (h : Still z s) :
    Still z (dfcEvent s j m) := by
  unfold dfcEvent
  repeat' first
    | with_reducible assumption
    | with_reducible apply still_setCause

theorem keeps_dfcEvent {z : State} (s : State) (j : Nat) (m : Word) (h : Keeps z s) :
    Keeps z (dfcEvent s j m) := h.step (still_dfcEvent s j m (.refl _))

theorem still_dflEvent {z : State} (s : State) (k : Nat) (m : Word) (h : Still z s) :
    Still z (dflEvent s k m) := by
  unfold dflEvent
  repeat' first
    | with_reducible assumption
    | with_reducible apply still_setCause

theorem keeps_dflEvent {z : State} (s : State) (k : Nat) (m : Word) (h : Keeps z s) :
    Keeps z (dflEvent s k m) := h.step (still_dflEvent s k m (.refl _))

theorem still_mbxDoneEvent {z : State} (s : State) (m : Nat) (h : Still z s) :
    Still z (mbxDoneEvent s m) := by
  unfold mbxDoneEvent
  repeat' first
    | with_reducible assumption
    | with_reducible apply still_setCause

theorem keeps_mbxDoneEvent {z : State} (s : State) (m : Nat) (h : Keeps z s) :
    Keeps z (mbxDoneEvent s m) := h.step (still_mbxDoneEvent s m (.refl _))

theorem still_captureEvent {z : State} (s : State) (m : Word) (h : Still z s) :
    Still z (captureEvent s m) := by
  unfold captureEvent
  repeat' first
    | with_reducible assumption
    | with_reducible apply still_setCause

theorem keeps_captureEvent {z : State} (s : State) (m : Word) (h : Keeps z s) :
    Keeps z (captureEvent s m) := h.step (still_captureEvent s m (.refl _))

theorem still_fwStatusEvent {z : State} (s : State) (m : Word) (h : Still z s) :
    Still z (fwStatusEvent s m) := by
  unfold fwStatusEvent
  repeat' first
    | with_reducible assumption
    | with_reducible apply still_setCause

theorem keeps_fwStatusEvent {z : State} (s : State) (m : Word) (h : Keeps z s) :
    Keeps z (fwStatusEvent s m) := h.step (still_fwStatusEvent s m (.refl _))

theorem still_tbEvent {z : State} (s : State) (m : Word) (h : Still z s) :
    Still z (tbEvent s m) := by
  unfold tbEvent
  repeat' first
    | with_reducible assumption
    | with_reducible apply still_setCause

theorem keeps_tbEvent {z : State} (s : State) (m : Word) (h : Keeps z s) :
    Keeps z (tbEvent s m) := h.step (still_tbEvent s m (.refl _))

theorem still_ctxEvent {z : State} (s : State) (m : Word) (h : Still z s) :
    Still z (ctxEvent s m) := by
  unfold ctxEvent
  repeat' first
    | with_reducible assumption
    | with_reducible apply still_setCause

theorem keeps_ctxEvent {z : State} (s : State) (m : Word) (h : Keeps z s) :
    Keeps z (ctxEvent s m) := h.step (still_ctxEvent s m (.refl _))

theorem still_strEvent {z : State} (s : State) (m : Word) (h : Still z s) :
    Still z (strEvent s m) := by
  unfold strEvent
  repeat' first
    | with_reducible assumption
    | with_reducible apply still_setCause

theorem keeps_strEvent {z : State} (s : State) (m : Word) (h : Keeps z s) :
    Keeps z (strEvent s m) := h.step (still_strEvent s m (.refl _))

theorem still_rplEvent {z : State} (s : State) (m : Word) (h : Still z s) :
    Still z (rplEvent s m) := by
  unfold rplEvent
  repeat' first
    | with_reducible assumption
    | with_reducible apply still_setCause

theorem keeps_rplEvent {z : State} (s : State) (m : Word) (h : Keeps z s) :
    Keeps z (rplEvent s m) := h.step (still_rplEvent s m (.refl _))

theorem still_pcieEvent {z : State} (s : State) (m : Word) (h : Still z s) :
    Still z (pcieEvent s m) := by
  unfold pcieEvent
  repeat' first
    | with_reducible assumption
    | with_reducible apply still_setCause

theorem keeps_pcieEvent {z : State} (s : State) (m : Word) (h : Keeps z s) :
    Keeps z (pcieEvent s m) := h.step (still_pcieEvent s m (.refl _))

theorem still_dmaDoneEvent {z : State} (s : State) (c : Nat) (h : Still z s) :
    Still z (dmaDoneEvent s c) := by
  unfold dmaDoneEvent
  repeat' first
    | with_reducible assumption
    | with_reducible apply still_setCause

theorem keeps_dmaDoneEvent {z : State} (s : State) (c : Nat) (h : Keeps z s) :
    Keeps z (dmaDoneEvent s c) := h.step (still_dmaDoneEvent s c (.refl _))

theorem still_dmaHaltEvent {z : State} (s : State) (c : Nat) (h : Still z s) :
    Still z (dmaHaltEvent s c) := by
  unfold dmaHaltEvent
  repeat' first
    | with_reducible assumption
    | with_reducible apply still_setCause

theorem keeps_dmaHaltEvent {z : State} (s : State) (c : Nat) (h : Keeps z s) :
    Keeps z (dmaHaltEvent s c) := h.step (still_dmaHaltEvent s c (.refl _))

theorem still_mtEvent {z : State} (s : State) (m : Word) (h : Still z s) :
    Still z (mtEvent s m) := by
  unfold mtEvent
  repeat' first
    | with_reducible assumption
    | with_reducible apply still_setCause

theorem keeps_mtEvent {z : State} (s : State) (m : Word) (h : Keeps z s) :
    Keeps z (mtEvent s m) := h.step (still_mtEvent s m (.refl _))

theorem still_accessViolation {z : State} (s : State) (m : Word) (cause off : Nat) (h : Still z s) :
    Still z (accessViolation s m cause off) := by
  unfold accessViolation
  repeat' first
    | with_reducible assumption
    | with_reducible apply still_setCause
    | with_reducible apply still_wr

theorem keeps_accessViolation {z : State} (s : State) (m : Word) (cause off : Nat) (h : Keeps z s) :
    Keeps z (accessViolation s m cause off) := h.step (still_accessViolation s m cause off (.refl _))

end Sys2Proof.Machine
end

