-- ==== Sys2Proof/Laws/Frame/Operands.lean ====
section
/-! SUPPORT. What the operations of Machine/Operands.lean leave alone (Laws/Keeps.lean). -/

namespace Sys2Proof.Machine

theorem still_putRes {z : State} (s : State) (m i : Nat) (l : List Nat) (h : Still z s) :
    Still z (putRes s m i l) := by
  induction l generalizing s i with
  | nil => exact h
  | cons v l ih => exact ih _ _ (still_wr _ _ _ h)

theorem keeps_putRes {z : State} (s : State) (m i : Nat) (l : List Nat) (h : Keeps z s) :
    Keeps z (putRes s m i l) := h.step (still_putRes s m i l (.refl _))

theorem still_startCmd {z : State} (s : State) (m : Nat) (h : Still z s) :
    Still z (startCmd s m) := by
  unfold startCmd
  repeat' first
    | with_reducible assumption
    | dsimp only
    | fail_if_no_progress with_reducible apply Still.upd
    | with_reducible apply still_wr64
    | with_reducible apply still_wrF

theorem keeps_startCmd {z : State} (s : State) (m : Nat) (h : Keeps z s) :
    Keeps z (startCmd s m) := h.step (still_startCmd s m (.refl _))

theorem still_completeCmd {z : State} (s : State) (m status : Nat) (res : List Nat) (h : Still z s) :
    Still z (completeCmd s m status res) := by
  unfold completeCmd
  repeat' first
    | with_reducible assumption
    | dsimp only
    | fail_if_no_progress with_reducible apply Still.upd
    | with_reducible apply still_putRes
    | with_reducible apply still_wr
    | with_reducible apply still_wrF
    | with_reducible apply still_mbxDoneEvent
    | with_reducible apply Still.ite

theorem keeps_completeCmd {z : State} (s : State) (m status : Nat) (res : List Nat) (h : Keeps z s) :
    Keeps z (completeCmd s m status res) := h.step (still_completeCmd s m status res (.refl _))

theorem still_holdCmd {z : State} (s : State) (m : Nat) (w : Wait) (held : List Res) (h : Still z s) :
    Still z (holdCmd s m w held) := by
  unfold holdCmd
  repeat' first
    | with_reducible assumption
    | dsimp only
    | fail_if_no_progress with_reducible apply Still.upd

theorem keeps_holdCmd {z : State} (s : State) (m : Nat) (w : Wait) (held : List Res) (h : Keeps z s) :
    Keeps z (holdCmd s m w held) := h.step (still_holdCmd s m w held (.refl _))

theorem still_fwRow {z : State} (s : State) (m op : Nat) (body : State → State) (h : Still z s) (k : Still z (body (startCmd s m))) :
    Still z (fwRow s m op body) := by
  unfold fwRow
  repeat' first
    | with_reducible assumption
    | with_reducible apply Still.ite
    | split
    | with_reducible apply still_completeCmd
    | with_reducible apply still_startCmd

theorem keeps_fwRow {z : State} (s : State) (m op : Nat) (body : State → State) (h : Keeps z s) (k : Keeps z (body (startCmd s m))) :
    Keeps z (fwRow s m op body) := by
  unfold fwRow
  repeat' first
    | with_reducible assumption
    | with_reducible apply Keeps.ite
    | split
    | with_reducible apply keeps_completeCmd
    | with_reducible apply keeps_startCmd

theorem still_checked {z : State} (s : State) (m : Nat) (checks : List (Option Fail)) (body : State → State) (h : Still z s) (k : Still z (body s)) :
    Still z (checked s m checks body) := by
  unfold checked
  repeat' first
    | with_reducible assumption
    | with_reducible apply Still.ite
    | split
    | with_reducible apply still_completeCmd
    | fail_if_no_progress with_reducible apply Still.upd

theorem keeps_checked {z : State} (s : State) (m : Nat) (checks : List (Option Fail)) (body : State → State) (h : Keeps z s) (k : Keeps z (body s)) :
    Keeps z (checked s m checks body) := by
  unfold checked
  repeat' first
    | with_reducible assumption
    | with_reducible apply Keeps.ite
    | split
    | with_reducible apply keeps_completeCmd
    | fail_if_no_progress with_reducible apply Keeps.upd

end Sys2Proof.Machine
end

