-- ==== Sys2Proof/Laws/Frame/Codec.lean ====
section
/-! SUPPORT. What the operations of Machine/Codec.lean leave alone (Laws/Keeps.lean). -/

namespace Sys2Proof.Machine

theorem still_loopQueue {z : State} (s : State) (f : BitVec 192) (h : Still z s) :
    Still z (loopQueue s f) := by
  unfold loopQueue
  repeat' first
    | with_reducible assumption
    | dsimp only
    | fail_if_no_progress with_reducible apply Still.upd

theorem keeps_loopQueue {z : State} (s : State) (f : BitVec 192) (h : Keeps z s) :
    Keeps z (loopQueue s f) := h.step (still_loopQueue s f (.refl _))

theorem still_loopSendHalt {z : State} (s : State) (cause : Nat) (h : Still z s) :
    Still z (loopSendHalt s cause) := by
  unfold loopSendHalt
  repeat' first
    | with_reducible assumption
    | with_reducible apply still_loopQueue
    | with_reducible apply Still.ite

theorem keeps_loopSendHalt {z : State} (s : State) (cause : Nat) (h : Keeps z s) :
    Keeps z (loopSendHalt s cause) := h.step (still_loopSendHalt s cause (.refl _))

theorem still_loopSendTrigger {z : State} (s : State) (t : Int) (seg src : Nat) (h : Still z s) :
    Still z (loopSendTrigger s t seg src) := by
  unfold loopSendTrigger
  repeat' first
    | with_reducible assumption
    | dsimp only
    | fail_if_no_progress with_reducible apply Still.upd
    | with_reducible apply Still.ite

theorem keeps_loopSendTrigger {z : State} (s : State) (t : Int) (seg src : Nat) (h : Keeps z s) :
    Keeps z (loopSendTrigger s t seg src) := h.step (still_loopSendTrigger s t seg src (.refl _))

end Sys2Proof.Machine
end

