-- ==== Sys2Proof/Laws/Frame/EngCtl.lean ====
section
/-! SUPPORT. What the operations of Machine/EngCtl.lean leave alone (Laws/Keeps.lean). -/

namespace Sys2Proof.Machine

theorem still_setRun {z : State} (s : State) (e r : Nat) (h : Still z s) :
    Still z (setRun s e r) := by
  unfold setRun
  repeat' first
    | with_reducible assumption
    | with_reducible apply still_wrF

theorem keeps_setRun {z : State} (s : State) (e r : Nat) (h : Keeps z s) :
    Keeps z (setRun s e r) := h.step (still_setRun s e r (.refl _))

theorem still_wr48 {z : State} (s : State) (off n : Nat) (h : Still z s) :
    Still z (wr48 s off n) := by
  unfold wr48
  repeat' first
    | with_reducible assumption
    | with_reducible apply still_wrF
    | with_reducible apply still_wr

theorem keeps_wr48 {z : State} (s : State) (off n : Nat) (h : Keeps z s) :
    Keeps z (wr48 s off n) := h.step (still_wr48 s off n (.refl _))

theorem still_engPub {z : State} (s : State) (e v : Nat) (h : Still z s) :
    Still z (engPub s e v) := by
  unfold engPub
  repeat' first
    | with_reducible assumption
    | dsimp only
    | fail_if_no_progress with_reducible apply Still.upd
    | with_reducible apply still_wrF
    | with_reducible apply still_setEng

theorem keeps_engPub {z : State} (s : State) (e v : Nat) (h : Keeps z s) :
    Keeps z (engPub s e v) := h.step (still_engPub s e v (.refl _))

theorem still_engDiscard {z : State} (s : State) (e : Nat) (h : Still z s) :
    Still z (engDiscard s e) := by
  unfold engDiscard
  repeat' first
    | with_reducible assumption
    | dsimp only
    | fail_if_no_progress with_reducible apply Still.upd
    | with_reducible apply still_setEng
    | with_reducible apply still_ctrAdd
    | with_reducible apply Still.ite

theorem keeps_engDiscard {z : State} (s : State) (e : Nat) (h : Keeps z s) :
    Keeps z (engDiscard s e) := h.step (still_engDiscard s e (.refl _))

theorem still_engClearNotices {z : State} (s : State) (e : Nat) (h : Still z s) :
    Still z (engClearNotices s e) := by
  unfold engClearNotices
  repeat' first
    | with_reducible assumption
    | dsimp only
    | fail_if_no_progress with_reducible apply Still.upd
    | with_reducible apply still_wrBit
    | with_reducible apply still_modEng

theorem keeps_engClearNotices {z : State} (s : State) (e : Nat) (h : Keeps z s) :
    Keeps z (engClearNotices s e) := h.step (still_engClearNotices s e (.refl _))

theorem still_engEnter {z : State} (s : State) (e run : Nat) (h : Still z s) :
    Still z (engEnter s e run) := by
  unfold engEnter
  repeat' first
    | with_reducible assumption
    | with_reducible apply still_engDiscard
    | with_reducible apply still_engClearNotices
    | with_reducible apply still_setRun

theorem keeps_engEnter {z : State} (s : State) (e run : Nat) (h : Keeps z s) :
    Keeps z (engEnter s e run) := h.step (still_engEnter s e run (.refl _))

theorem still_engEnterSound {z : State} (s : State) (e run : Nat) (h : Still z s) :
    Still z (engEnterSound s e run) := by
  unfold engEnterSound
  repeat' first
    | with_reducible assumption
    | with_reducible apply still_engEnter

theorem keeps_engEnterSound {z : State} (s : State) (e run : Nat) (h : Keeps z s) :
    Keeps z (engEnterSound s e run) := h.step (still_engEnterSound s e run (.refl _))

theorem still_engSetLevel {z : State} (s : State) (e v : Nat) (h : Still z s) :
    Still z (engSetLevel s e v) := by
  unfold engSetLevel
  repeat' first
    | with_reducible assumption
    | dsimp only
    | fail_if_no_progress with_reducible apply Still.upd
    | with_reducible apply still_hwOr
    | with_reducible apply still_modEng
    | with_reducible apply still_wrF
    | with_reducible apply Still.ite

theorem keeps_engSetLevel {z : State} (s : State) (e v : Nat) (h : Keeps z s) :
    Keeps z (engSetLevel s e v) := h.step (still_engSetLevel s e v (.refl _))

theorem still_engStartValues {z : State} (s : State) (e : Nat) (h : Still z s) :
    Still z (engStartValues s e) := by
  unfold engStartValues
  repeat' first
    | with_reducible assumption
    | with_reducible exact Still.refl _
    | dsimp only
    | fail_if_no_progress with_reducible apply Still.upd
    | with_reducible apply still_engSetLevel
    | with_reducible apply still_modEng
    | with_reducible apply still_wr48
    | with_reducible apply still_wrBit
    | with_reducible apply still_engPub
    | (with_reducible apply Still.times; rotate_left; intro _ _)
    | with_reducible apply Still.ite

theorem keeps_engStartValues {z : State} (s : State) (e : Nat) (h : Keeps z s) :
    Keeps z (engStartValues s e) := h.step (still_engStartValues s e (.refl _))

theorem still_engStart {z : State} (s : State) (e run : Nat) (h : Still z s) :
    Still z (engStart s e run) := by
  unfold engStart
  repeat' first
    | with_reducible assumption
    | dsimp only
    | fail_if_no_progress with_reducible apply Still.upd
    | with_reducible apply still_engDiscard
    | with_reducible apply still_engStartValues
    | with_reducible apply still_modEng
    | with_reducible apply still_wrF
    | with_reducible apply still_wr
    | with_reducible apply still_setRun

theorem keeps_engStart {z : State} (s : State) (e run : Nat) (h : Keeps z s) :
    Keeps z (engStart s e run) := h.step (still_engStart s e run (.refl _))

theorem still_engsHalt {z : State} (s : State) (h : Still z s) :
    Still z (engsHalt s) := by
  unfold engsHalt
  repeat' first
    | with_reducible assumption
    | with_reducible exact Still.refl _
    | dsimp only
    | with_reducible apply still_engEnter
    | (with_reducible apply Still.each; rotate_left; intro _ _)
    | with_reducible apply Still.ite

theorem keeps_engsHalt {z : State} (s : State) (h : Keeps z s) :
    Keeps z (engsHalt s) := h.step (still_engsHalt s (.refl _))

theorem still_trigIgnored {z : State} (s : State) (e : Nat) (h : Still z s) :
    Still z (trigIgnored s e) := by
  unfold trigIgnored
  repeat' first
    | with_reducible assumption
    | with_reducible apply still_engEvent
    | with_reducible apply still_ctrAdd

theorem keeps_trigIgnored {z : State} (s : State) (e : Nat) (h : Keeps z s) :
    Keeps z (trigIgnored s e) := h.step (still_trigIgnored s e (.refl _))

end Sys2Proof.Machine
end

