-- ==== Sys2Proof/Laws/Frame/Chains.lean ====
section
/-! SUPPORT. What the operations of Machine/Chains.lean leave alone (Laws/Keeps.lean). -/

namespace Sys2Proof.Machine

theorem still_setDfcState {z : State} (s : State) (j v : Nat) (h : Still z s) :
    Still z (setDfcState s j v) := by
  unfold setDfcState
  repeat' first
    | with_reducible assumption
    | with_reducible apply still_wrF

theorem keeps_setDfcState {z : State} (s : State) (j v : Nat) (h : Keeps z s) :
    Keeps z (setDfcState s j v) := h.step (still_setDfcState s j v (.refl _))

end Sys2Proof.Machine
end

