-- ==== Sys2Proof/Laws/Frame/Rings.lean ====
section
/-! SUPPORT. What the operations of Machine/Rings.lean leave alone (Laws/Keeps.lean). -/

namespace Sys2Proof.Machine

theorem still_takeOrd {z : State} (s : State) (h : Still z s) :
    Still z (takeOrd s).2 := by
  unfold takeOrd
  repeat' first
    | with_reducible assumption
    | dsimp only
    | fail_if_no_progress with_reducible apply Still.upd

theorem keeps_takeOrd {z : State} (s : State) (h : Keeps z s) :
    Keeps z (takeOrd s).2 := h.step (still_takeOrd s (.refl _))

theorem still_stageShow {z : State} (s : State) (n : Nat) (h : Still z s) :
    Still z (stageShow s n) := by
  unfold stageShow
  repeat' first
    | with_reducible assumption
    | dsimp only
    | with_reducible apply still_wrF
    | with_reducible apply Still.ite

theorem keeps_stageShow {z : State} (s : State) (n : Nat) (h : Keeps z s) :
    Keeps z (stageShow s n) := h.step (still_stageShow s n (.refl _))

theorem still_stagePush {z : State} (s : State) (n : Nat) (r : Rec) (w : Nat) (h : Still z s) :
    Still z (stagePush s n r w) := by
  unfold stagePush
  repeat' first
    | with_reducible assumption
    | dsimp only
    | fail_if_no_progress with_reducible apply Still.upd
    | with_reducible apply still_modStr

theorem keeps_stagePush {z : State} (s : State) (n : Nat) (r : Rec) (w : Nat) (h : Keeps z s) :
    Keeps z (stagePush s n r w) := h.step (still_stagePush s n r w (.refl _))

theorem still_stageRec {z : State} (s : State) (n ring : Nat) (typ : BitVec 4) (flags : BitVec 8) (words : List Word64) (first last : Word64) (w : Nat) (h : Still z s) :
    Still z (stageRec s n ring typ flags words first last w) := by
  unfold stageRec
  repeat' first
    | with_reducible assumption
    | dsimp only
    | with_reducible apply still_takeOrd
    | with_reducible apply still_stagePush

theorem keeps_stageRec {z : State} (s : State) (n ring : Nat) (typ : BitVec 4) (flags : BitVec 8) (words : List Word64) (first last : Word64) (w : Nat) (h : Keeps z s) :
    Keeps z (stageRec s n ring typ flags words first last w) := h.step (still_stageRec s n ring typ flags words first last w (.refl _))

theorem still_stageNew {z : State} (s : State) (n ring : Nat) (typ : BitVec 4) (flags : BitVec 8) (words : List Word64) (first last : Word64) (h : Still z s) :
    Still z (stageNew s n ring typ flags words first last) := by
  unfold stageNew
  repeat' first
    | with_reducible assumption
    | with_reducible apply still_stageRec

theorem keeps_stageNew {z : State} (s : State) (n ring : Nat) (typ : BitVec 4) (flags : BitVec 8) (words : List Word64) (first last : Word64) (h : Keeps z s) :
    Keeps z (stageNew s n ring typ flags words first last) := h.step (still_stageNew s n ring typ flags words first last (.refl _))

theorem still_stageOvf {z : State} (s : State) (n : Nat) (h : Still z s) :
    Still z (stageOvf s n) := by
  unfold stageOvf
  repeat' first
    | with_reducible assumption
    | with_reducible apply still_strEvent
    | with_reducible apply still_wr

theorem keeps_stageOvf {z : State} (s : State) (n : Nat) (h : Keeps z s) :
    Keeps z (stageOvf s n) := h.step (still_stageOvf s n (.refl _))

theorem still_otherDrop {z : State} (s : State) (n : Nat) (ts : Word64) (h : Still z s) :
    Still z (otherDrop s n ts) := by
  unfold otherDrop
  repeat' first
    | with_reducible assumption
    | dsimp only
    | fail_if_no_progress with_reducible apply Still.upd
    | with_reducible apply still_ctrAdd
    | with_reducible apply still_modStr
    | with_reducible apply still_stageOvf
    | split

theorem keeps_otherDrop {z : State} (s : State) (n : Nat) (ts : Word64) (h : Keeps z s) :
    Keeps z (otherDrop s n ts) := h.step (still_otherDrop s n ts (.refl _))

theorem still_stageOther {z : State} (s : State) (n ring : Nat) (typ : BitVec 4) (flags : BitVec 8) (words : List Word64) (first last : Word64) (h : Still z s) :
    Still z (stageOther s n ring typ flags words first last) := by
  unfold stageOther
  repeat' first
    | with_reducible assumption
    | dsimp only
    | with_reducible apply still_otherDrop
    | with_reducible apply still_stageNew
    | with_reducible apply Still.ite

theorem keeps_stageOther {z : State} (s : State) (n ring : Nat) (typ : BitVec 4) (flags : BitVec 8) (words : List Word64) (first last : Word64) (h : Keeps z s) :
    Keeps z (stageOther s n ring typ flags words first last) := h.step (still_stageOther s n ring typ flags words first last (.refl _))

theorem still_otherAdd {z : State} (s : State) (n : Nat) (k : Int) (fl : BitVec 8) (items : List Word64) (fresh : OpenRec) (h : Still z s) :
    Still z (otherAdd s n k fl items fresh) := by
  unfold otherAdd
  repeat' first
    | with_reducible assumption
    | dsimp only
    | fail_if_no_progress with_reducible apply Still.upd
    | with_reducible apply still_setStr
    | with_reducible apply still_otherDrop
    | with_reducible apply still_modStr
    | with_reducible apply Still.ite

theorem keeps_otherAdd {z : State} (s : State) (n : Nat) (k : Int) (fl : BitVec 8) (items : List Word64) (fresh : OpenRec) (h : Keeps z s) :
    Keeps z (otherAdd s n k fl items fresh) := h.step (still_otherAdd s n k fl items fresh (.refl _))

theorem keeps_stratusPut {z : State} (s : State) (w : Nat) (v : Word64) (bad : Bool) (h : Keeps z s) :
    Keeps z (stratusPut s w v bad) :=
  h.trans ⟨rfl, fun i => ⟨Memory.wf_memWriteWord w v i.1, i.2⟩⟩

theorem keeps_cirrusPut {z : State} (s : State) (w : Nat) (v : Word64) (bad : Bool) (h : Keeps z s) :
    Keeps z (cirrusPut s w v bad) :=
  h.trans ⟨rfl, fun i => ⟨i.1, Memory.wf_memWriteWord w v i.2⟩⟩

theorem keeps_ringPutWord {z : State} (s : State) (r w : Nat) (v : Word64) (bad : Bool) (h : Keeps z s) :
    Keeps z (ringPutWord s r w v bad) := by
  unfold ringPutWord
  repeat' first
    | with_reducible assumption
    | with_reducible apply keeps_cirrusPut
    | with_reducible apply keeps_stratusPut
    | with_reducible apply Keeps.ite

theorem keeps_ringPutWords {z : State} (s : State) (r p k : Nat) (vs : List Word64) (bad : List Nat) (h : Keeps z s) :
    Keeps z (ringPutWords s r p k vs bad) := by
  induction vs generalizing s p k with
  | nil => exact h
  | cons v vs ih => exact ih _ _ _ (keeps_ringPutWord _ _ _ _ _ h)

theorem still_countChannel {z : State} (s : State) (w : Nat) (h : Still z s) :
    Still z (countChannel s w) := by
  unfold countChannel
  repeat' first
    | with_reducible assumption
    | dsimp only
    | with_reducible apply still_raiseSrc
    | with_reducible apply still_ctrAdd
    | with_reducible apply Still.ite

theorem keeps_countChannel {z : State} (s : State) (w : Nat) (h : Keeps z s) :
    Keeps z (countChannel s w) := h.step (still_countChannel s w (.refl _))

theorem still_countRingRead {z : State} (s : State) (r w : Nat) (h : Still z s) :
    Still z (countRingRead s r w) := by
  unfold countRingRead
  repeat' first
    | with_reducible assumption
    | dsimp only
    | with_reducible apply still_ctrAdd
    | with_reducible apply still_ctrAdd16
    | with_reducible apply still_strEvent
    | with_reducible apply still_countChannel
    | with_reducible apply Still.ite

theorem keeps_countRingRead {z : State} (s : State) (r w : Nat) (h : Keeps z s) :
    Keeps z (countRingRead s r w) := h.step (still_countRingRead s r w (.refl _))

theorem still_ringHeadFetch {z : State} (s : State) (r : Nat) (h : Still z s) :
    Still z (ringHeadFetch s r) := by
  unfold ringHeadFetch
  repeat' first
    | with_reducible assumption
    | with_reducible apply still_countRingRead
    | with_reducible apply Still.ite

theorem keeps_ringHeadFetch {z : State} (s : State) (r : Nat) (h : Keeps z s) :
    Keeps z (ringHeadFetch s r) := h.step (still_ringHeadFetch s r (.refl _))

theorem still_ringNotice {z : State} (s : State) (r : Nat) (h : Still z s) :
    Still z (ringNotice s r) := by
  unfold ringNotice
  repeat' first
    | with_reducible assumption
    | dsimp only
    | fail_if_no_progress with_reducible apply Still.upd
    | with_reducible apply still_modRing
    | with_reducible apply still_wrF
    | with_reducible apply still_ringPend

theorem keeps_ringNotice {z : State} (s : State) (r : Nat) (h : Keeps z s) :
    Keeps z (ringNotice s r) := h.step (still_ringNotice s r (.refl _))

theorem still_ringStatusSet {z : State} (s : State) (r : Nat) (m : Word) (h : Still z s) :
    Still z (ringStatusSet s r m) := by
  unfold ringStatusSet
  repeat' first
    | with_reducible assumption
    | dsimp only
    | with_reducible apply still_hwOr
    | with_reducible apply still_ringPend
    | with_reducible apply Still.ite

theorem keeps_ringStatusSet {z : State} (s : State) (r : Nat) (m : Word) (h : Keeps z s) :
    Keeps z (ringStatusSet s r m) := h.step (still_ringStatusSet s r m (.refl _))

theorem keeps_ringCommit {z : State} (s : State) (r : Nat) (rec : Rec) (h : Keeps z s) :
    Keeps z (ringCommit s r rec) := by
  unfold ringCommit
  repeat' first
    | with_reducible assumption
    | dsimp only
    | fail_if_no_progress with_reducible apply Keeps.upd
    | with_reducible apply keeps_ringPutWords
    | with_reducible apply keeps_ringPutWord
    | with_reducible apply keeps_wr64
    | with_reducible apply keeps_wrF
    | with_reducible apply keeps_fldAdd
    | with_reducible apply keeps_ctrAdd64
    | with_reducible apply keeps_modRing
    | with_reducible apply keeps_ringPend
    | with_reducible apply keeps_ringNotice
    | with_reducible apply Keeps.ite

theorem still_ringDrop {z : State} (s : State) (r : Nat) (rec : Rec) (h : Still z s) :
    Still z (ringDrop s r rec) := by
  unfold ringDrop
  repeat' first
    | with_reducible assumption
    | dsimp only
    | fail_if_no_progress with_reducible apply Still.upd
    | with_reducible apply still_modRing
    | with_reducible apply still_ringStatusSet
    | with_reducible apply still_wrBit
    | with_reducible apply still_ctrAdd

theorem keeps_ringDrop {z : State} (s : State) (r : Nat) (rec : Rec) (h : Keeps z s) :
    Keeps z (ringDrop s r rec) := h.step (still_ringDrop s r rec (.refl _))

theorem still_ringRaise {z : State} (s : State) (r o oldRel newRel : Nat) (h : Still z s) :
    Still z (ringRaise s r o oldRel newRel) := by
  unfold ringRaise
  repeat' first
    | with_reducible assumption
    | dsimp only
    | with_reducible apply still_wr64
    | with_reducible apply Still.ite

theorem keeps_ringRaise {z : State} (s : State) (r o oldRel newRel : Nat) (h : Keeps z s) :
    Keeps z (ringRaise s r o oldRel newRel) := h.step (still_ringRaise s r o oldRel newRel (.refl _))

theorem still_ringSetRel {z : State} (s : State) (r newRel : Nat) (h : Still z s) :
    Still z (ringSetRel s r newRel) := by
  unfold ringSetRel
  repeat' first
    | with_reducible assumption
    | dsimp only
    | with_reducible apply still_wr64
    | with_reducible apply still_ringRaise

theorem keeps_ringSetRel {z : State} (s : State) (r newRel : Nat) (h : Keeps z s) :
    Keeps z (ringSetRel s r newRel) := h.step (still_ringSetRel s r newRel (.refl _))

theorem still_ringAutoRelease {z : State} (s : State) (r need fuel : Nat) (h : Still z s) :
    Still z (ringAutoRelease s r need fuel).1 := by
  induction fuel generalizing s with
  | zero => exact h
  | succ n ih =>
    unfold ringAutoRelease
    repeat' first
      | with_reducible assumption
      | dsimp only
      | with_reducible apply ih
      | with_reducible apply still_countRingRead
      | with_reducible apply still_modRing
      | with_reducible apply still_ringStatusSet
      | with_reducible apply still_ringSetRel
      | with_reducible apply still_ringRaise
      | with_reducible apply still_hwOr
      | split

theorem keeps_ringAutoRelease {z : State} (s : State) (r need fuel : Nat) (h : Keeps z s) :
    Keeps z (ringAutoRelease s r need fuel).1 := h.step (still_ringAutoRelease s r need fuel (.refl _))

theorem keeps_ringOffer {z : State} (s : State) (r : Nat) (rec : Rec) (h : Keeps z s) :
    Keeps z (ringOffer s r rec) := by
  unfold ringOffer
  repeat' first
    | with_reducible assumption
    | dsimp only
    | with_reducible apply keeps_ringDrop
    | with_reducible apply keeps_ringCommit
    | with_reducible apply keeps_ringAutoRelease
    | refine Keeps.fst ?_ (by assumption)
    | with_reducible apply Keeps.ite

theorem keeps_ringGapCommit {z : State} (s : State) (r : Nat) (h : Keeps z s) :
    Keeps z (ringGapCommit s r) := by
  unfold ringGapCommit
  repeat' first
    | with_reducible assumption
    | dsimp only
    | fail_if_no_progress with_reducible apply Keeps.upd
    | with_reducible apply keeps_setRing
    | with_reducible apply keeps_takeOrd
    | with_reducible apply keeps_modRing
    | with_reducible apply keeps_ringCommit
    | with_reducible apply keeps_ctrAdd64
    | with_reducible apply keeps_wrBit
    | refine Keeps.snd ?_ (by assumption)
    | with_reducible apply Keeps.ite
    | split

theorem still_ringSetMark {z : State} (s : State) (r p : Nat) (h : Still z s) :
    Still z (ringSetMark s r p) := by
  unfold ringSetMark
  repeat' first
    | with_reducible assumption
    | dsimp only
    | with_reducible apply still_wr64
    | with_reducible apply still_hwOr
    | with_reducible apply Still.ite

theorem keeps_ringSetMark {z : State} (s : State) (r p : Nat) (h : Keeps z s) :
    Keeps z (ringSetMark s r p) := h.step (still_ringSetMark s r p (.refl _))

theorem still_ringDoorbellOp {z : State} (s : State) (r : Nat) (v : Word) (h : Still z s) :
    Still z (ringDoorbellOp s r v) := by
  unfold ringDoorbellOp
  repeat' first
    | with_reducible assumption
    | dsimp only
    | with_reducible apply still_wr64
    | with_reducible apply still_hwOr
    | with_reducible apply still_ringSetMark
    | with_reducible apply still_ringSetRel
    | with_reducible apply Still.ite

theorem keeps_ringDoorbellOp {z : State} (s : State) (r : Nat) (v : Word) (h : Keeps z s) :
    Keeps z (ringDoorbellOp s r v) := h.step (still_ringDoorbellOp s r v (.refl _))

theorem still_ringDoorbell {z : State} (s : State) (r : Nat) (v : Word) (h : Still z s) :
    Still z (ringDoorbell s r v) := by
  unfold ringDoorbell
  repeat' first
    | with_reducible assumption
    | dsimp only
    | fail_if_no_progress with_reducible apply Still.upd
    | with_reducible apply still_modRing
    | with_reducible apply Still.ite

theorem keeps_ringDoorbell {z : State} (s : State) (r : Nat) (v : Word) (h : Keeps z s) :
    Keeps z (ringDoorbell s r v) := h.step (still_ringDoorbell s r v (.refl _))

theorem still_ringApply {z : State} (s : State) (r : Nat) (h : Still z s) :
    Still z (ringApply s r) := by
  unfold ringApply
  repeat' first
    | with_reducible assumption
    | dsimp only
    | fail_if_no_progress with_reducible apply Still.upd
    | with_reducible apply still_ringDoorbellOp
    | with_reducible apply still_setRing
    | split

theorem keeps_ringApply {z : State} (s : State) (r : Nat) (h : Keeps z s) :
    Keeps z (ringApply s r) := h.step (still_ringApply s r (.refl _))

theorem still_ringTick {z : State} (s : State) (r : Nat) (h : Still z s) :
    Still z (ringTick s r) := by
  unfold ringTick
  repeat' first
    | with_reducible assumption
    | dsimp only
    | fail_if_no_progress with_reducible apply Still.upd
    | with_reducible apply still_setRing
    | with_reducible apply still_ringNotice
    | with_reducible apply Still.ite

theorem keeps_ringTick {z : State} (s : State) (r : Nat) (h : Keeps z s) :
    Keeps z (ringTick s r) := h.step (still_ringTick s r (.refl _))

theorem still_ringClear {z : State} (s : State) (r : Nat) (h : Still z s) :
    Still z (ringClear s r) := by
  unfold ringClear
  repeat' first
    | with_reducible assumption
    | dsimp only
    | fail_if_no_progress with_reducible apply Still.upd
    | with_reducible apply still_setRing

theorem keeps_ringClear {z : State} (s : State) (r : Nat) (h : Keeps z s) :
    Keeps z (ringClear s r) := h.step (still_ringClear s r (.refl _))

theorem still_ringDelete {z : State} (s : State) (r : Nat) (h : Still z s) :
    Still z (ringDelete s r) := by
  unfold ringDelete
  repeat' first
    | with_reducible assumption
    | with_reducible apply still_hwClr
    | with_reducible apply still_ringClear

theorem keeps_ringDelete {z : State} (s : State) (r : Nat) (h : Keeps z s) :
    Keeps z (ringDelete s r) := h.step (still_ringDelete s r (.refl _))

theorem still_ringCreate {z : State} (s : State) (r base log : Nat) (auto compact : Bool) (thresh timer : Nat) (h : Still z s) :
    Still z (ringCreate s r base log auto compact thresh timer) := by
  unfold ringCreate
  repeat' first
    | with_reducible assumption
    | dsimp only
    | with_reducible apply still_ringClear
    | with_reducible apply still_wr
    | with_reducible apply still_wr64

theorem keeps_ringCreate {z : State} (s : State) (r base log : Nat) (auto compact : Bool) (thresh timer : Nat) (h : Keeps z s) :
    Keeps z (ringCreate s r base log auto compact thresh timer) := h.step (still_ringCreate s r base log auto compact thresh timer (.refl _))

theorem still_stageCount {z : State} (s : State) (n : Nat) (rec : Rec) (h : Still z s) :
    Still z (stageCount s n rec) := by
  unfold stageCount
  repeat' first
    | with_reducible assumption
    | dsimp only
    | fail_if_no_progress with_reducible apply Still.upd
    | with_reducible apply still_strEvent
    | with_reducible apply still_ctrAdd
    | with_reducible apply still_modStr
    | with_reducible apply Still.ite

theorem keeps_stageCount {z : State} (s : State) (n : Nat) (rec : Rec) (h : Keeps z s) :
    Keeps z (stageCount s n rec) := h.step (still_stageCount s n rec (.refl _))

theorem still_segBaseCheck {z : State} (s : State) (h : Still z s) :
    Still z (segBaseCheck s) := by
  unfold segBaseCheck
  repeat' first
    | with_reducible assumption
    | with_reducible exact Still.refl _
    | dsimp only
    | fail_if_no_progress with_reducible apply Still.upd
    | with_reducible apply still_wr64
    | (with_reducible apply Still.each; rotate_left; intro _ _)
    | with_reducible apply Still.ite

theorem keeps_segBaseCheck {z : State} (s : State) (h : Keeps z s) :
    Keeps z (segBaseCheck s) := h.step (still_segBaseCheck s (.refl _))

theorem still_recordLost {z : State} (s : State) (n : Nat) (h : Still z s) :
    Still z (recordLost s n) := by
  unfold recordLost
  repeat' first
    | with_reducible assumption
    | with_reducible apply still_dfcEvent
    | with_reducible apply still_ctrAdd
    | with_reducible apply Still.ite

theorem keeps_recordLost {z : State} (s : State) (n : Nat) (h : Keeps z s) :
    Keeps z (recordLost s n) := h.step (still_recordLost s n (.refl _))

theorem keeps_recordCommit {z : State} (s : State) (n : Nat) (h : Keeps z s) :
    Keeps z (recordCommit s n) := by
  unfold recordCommit
  repeat' first
    | with_reducible assumption
    | dsimp only
    | fail_if_no_progress with_reducible apply Keeps.upd
    | with_reducible apply keeps_stageCount
    | with_reducible apply keeps_modStr
    | with_reducible apply keeps_ringOffer
    | with_reducible apply keeps_ctrAdd64
    | with_reducible apply keeps_segBaseCheck
    | with_reducible apply keeps_recordLost
    | with_reducible apply Keeps.ite
    | split

end Sys2Proof.Machine
end

