-- ==== Sys2Proof/Laws/Frame/Staging.lean ====
section
/-! SUPPORT. What the operations of Machine/Staging.lean leave alone (Laws/Keeps.lean). -/

namespace Sys2Proof.Machine

theorem still_drainTick {z : State} (s : State) (h : Still z s) :
    Still z (drainTick s) := by
  unfold drainTick
  repeat' first
    | with_reducible assumption
    | with_reducible exact Still.refl _
    | dsimp only
    | fail_if_no_progress with_reducible apply Still.upd
    | with_reducible apply still_modStr
    | with_reducible apply still_stageShow
    | (with_reducible apply Still.each; rotate_left; intro _ _)

theorem keeps_drainTick {z : State} (s : State) (h : Keeps z s) :
    Keeps z (drainTick s) := h.step (still_drainTick s (.refl _))

theorem still_stageResume {z : State} (s : State) (n : Nat) (h : Still z s) :
    Still z (stageResume s n) := by
  unfold stageResume
  repeat' first
    | with_reducible assumption
    | dsimp only
    | fail_if_no_progress with_reducible apply Still.upd
    | with_reducible apply still_modStr
    | with_reducible apply still_stageNew
    | with_reducible apply Still.ite
    | split

theorem keeps_stageResume {z : State} (s : State) (n : Nat) (h : Keeps z s) :
    Keeps z (stageResume s n) := h.step (still_stageResume s n (.refl _))

theorem still_bankGrant {z : State} (s : State) (b : Nat) (h : Still z s) :
    Still z (bankGrant s b) := by
  unfold bankGrant
  repeat' first
    | with_reducible assumption
    | dsimp only
    | fail_if_no_progress with_reducible apply Still.upd
    | with_reducible apply still_modStr
    | with_reducible apply still_ctrAdd
    | with_reducible apply Still.ite
    | split

theorem keeps_bankGrant {z : State} (s : State) (b : Nat) (h : Keeps z s) :
    Keeps z (bankGrant s b) := h.step (still_bankGrant s b (.refl _))

theorem still_lineTick {z : State} (s : State) (h : Still z s) :
    Still z (lineTick s) := by
  unfold lineTick
  repeat' first
    | with_reducible assumption
    | with_reducible exact Still.refl _
    | dsimp only
    | with_reducible apply still_bankGrant
    | (with_reducible apply Still.times; rotate_left; intro _ _)
    | with_reducible apply Still.ite

theorem keeps_lineTick {z : State} (s : State) (h : Keeps z s) :
    Keeps z (lineTick s) := h.step (still_lineTick s (.refl _))

theorem still_stagingEnd {z : State} (s : State) (h : Still z s) :
    Still z (stagingEnd s) := by
  unfold stagingEnd
  repeat' first
    | with_reducible assumption
    | with_reducible exact Still.refl _
    | dsimp only
    | with_reducible apply still_drainTick
    | with_reducible apply still_stageResume
    | (with_reducible apply Still.each; rotate_left; intro _ _)

theorem keeps_stagingEnd {z : State} (s : State) (h : Keeps z s) :
    Keeps z (stagingEnd s) := h.step (still_stagingEnd s (.refl _))

end Sys2Proof.Machine
end

