-- ==== Sys2Proof/Laws/Frame/Capture.lean ====
section
/-! SUPPORT. What the operations of Machine/Capture.lean leave alone (Laws/Keeps.lean). -/

namespace Sys2Proof.Machine

theorem still_closeOpen {z : State} (s : State) (n : Nat) (fl : BitVec 8) (h : Still z s) :
    Still z (closeOpen s n fl) := by
  unfold closeOpen
  repeat' first
    | with_reducible assumption
    | dsimp only
    | fail_if_no_progress with_reducible apply Still.upd
    | with_reducible apply still_setStr
    | with_reducible apply still_stageRec
    | with_reducible apply still_otherDrop
    | with_reducible apply Still.ite
    | split

theorem keeps_closeOpen {z : State} (s : State) (n : Nat) (fl : BitVec 8) (h : Keeps z s) :
    Keeps z (closeOpen s n fl) := h.step (still_closeOpen s n fl (.refl _))

theorem still_stageGap {z : State} (s : State) (n : Nat) (f : Int) (cnt cause : Nat) (h : Still z s) :
    Still z (stageGap s n f cnt cause) := by
  unfold stageGap
  repeat' first
    | with_reducible assumption
    | dsimp only
    | with_reducible apply still_stageNew

theorem keeps_stageGap {z : State} (s : State) (n : Nat) (f : Int) (cnt cause : Nat) (h : Keeps z s) :
    Keeps z (stageGap s n f cnt cause) := h.step (still_stageGap s n f cnt cause (.refl _))

theorem still_stageLoss {z : State} (s : State) (n : Nat) (l : Loss) (h : Still z s) :
    Still z (stageLoss s n l) := by
  unfold stageLoss
  repeat' first
    | with_reducible assumption
    | with_reducible apply still_stageNew
    | with_reducible apply Still.ite

theorem keeps_stageLoss {z : State} (s : State) (n : Nat) (l : Loss) (h : Keeps z s) :
    Keeps z (stageLoss s n l) := h.step (still_stageLoss s n l (.refl _))

theorem still_endLoss {z : State} (s : State) (n : Nat) (h : Still z s) :
    Still z (endLoss s n) := by
  unfold endLoss
  repeat' first
    | with_reducible assumption
    | dsimp only
    | fail_if_no_progress with_reducible apply Still.upd
    | with_reducible apply still_stageLoss
    | with_reducible apply still_setStr
    | split

theorem keeps_endLoss {z : State} (s : State) (n : Nat) (h : Keeps z s) :
    Keeps z (endLoss s n) := h.step (still_endLoss s n (.refl _))

theorem still_endDead {z : State} (s : State) (n : Nat) (h : Still z s) :
    Still z (endDead s n) := by
  unfold endDead
  repeat' first
    | with_reducible assumption
    | dsimp only
    | fail_if_no_progress with_reducible apply Still.upd
    | with_reducible apply still_modStr
    | with_reducible apply still_stageGap
    | with_reducible apply Still.ite
    | split

theorem keeps_endDead {z : State} (s : State) (n : Nat) (h : Keeps z s) :
    Keeps z (endDead s n) := h.step (still_endDead s n (.refl _))

theorem still_endStream {z : State} (s : State) (n : Nat) (h : Still z s) :
    Still z (endStream s n) := by
  unfold endStream
  repeat' first
    | with_reducible assumption
    | with_reducible apply still_endLoss
    | with_reducible apply still_endDead
    | with_reducible apply still_closeOpen

theorem keeps_endStream {z : State} (s : State) (n : Nat) (h : Keeps z s) :
    Keeps z (endStream s n) := h.step (still_endStream s n (.refl _))

theorem still_setCapState {z : State} (s : State) (v : Nat) (h : Still z s) :
    Still z (setCapState s v) := by
  unfold setCapState
  repeat' first
    | with_reducible assumption
    | with_reducible apply still_wrF

theorem keeps_setCapState {z : State} (s : State) (v : Nat) (h : Keeps z s) :
    Keeps z (setCapState s v) := h.step (still_setCapState s v (.refl _))

theorem still_showHalted {z : State} (s : State) (cause : Nat) (h : Still z s) :
    Still z (showHalted s cause) := by
  unfold showHalted
  repeat' first
    | with_reducible assumption
    | with_reducible apply still_captureEvent
    | with_reducible apply still_engsHalt
    | with_reducible apply still_wrF
    | with_reducible apply still_setCapState

theorem keeps_showHalted {z : State} (s : State) (cause : Nat) (h : Keeps z s) :
    Keeps z (showHalted s cause) := h.step (still_showHalted s cause (.refl _))

theorem still_captureHalt {z : State} (s : State) (cause : Nat) (h : Still z s) :
    Still z (captureHalt s cause) := by
  unfold captureHalt
  repeat' first
    | with_reducible assumption
    | dsimp only
    | fail_if_no_progress with_reducible apply Still.upd
    | with_reducible apply still_loopSendHalt
    | with_reducible apply still_showHalted
    | with_reducible apply Still.ite

theorem keeps_captureHalt {z : State} (s : State) (cause : Nat) (h : Keeps z s) :
    Keeps z (captureHalt s cause) := h.step (still_captureHalt s cause (.refl _))

theorem still_trigsJudge {z : State} (s : State) (h : Still z s) :
    Still z (trigsJudge s) := by
  unfold trigsJudge
  repeat' first
    | with_reducible assumption
    | dsimp only
    | fail_if_no_progress with_reducible apply Still.upd
    | with_reducible apply Still.ite

theorem keeps_trigsJudge {z : State} (s : State) (h : Keeps z s) :
    Keeps z (trigsJudge s) := h.step (still_trigsJudge s (.refl _))

theorem still_stageTrig {z : State} (s : State) (n : Nat) (t : Trig) (h : Still z s) :
    Still z (stageTrig s n t) := by
  unfold stageTrig
  repeat' first
    | with_reducible assumption
    | dsimp only
    | with_reducible apply still_stageNew

theorem keeps_stageTrig {z : State} (s : State) (n : Nat) (t : Trig) (h : Keeps z s) :
    Keeps z (stageTrig s n t) := h.step (still_stageTrig s n t (.refl _))

theorem still_writeTrigs {z : State} (s : State) (t : Trig) (pick : Nat → Bool) (h : Still z s) :
    Still z (writeTrigs s t pick) := by
  unfold writeTrigs
  repeat' first
    | with_reducible assumption
    | with_reducible exact Still.refl _
    | dsimp only
    | fail_if_no_progress with_reducible apply Still.upd
    | with_reducible apply still_stageTrig
    | (with_reducible apply Still.each; rotate_left; intro _ _)

theorem keeps_writeTrigs {z : State} (s : State) (t : Trig) (pick : Nat → Bool) (h : Keeps z s) :
    Keeps z (writeTrigs s t pick) := h.step (still_writeTrigs s t pick (.refl _))

theorem still_trigsBefore {z : State} (s : State) (n : Nat) (ts : Int) (h : Still z s) :
    Still z (trigsBefore s n ts) := by
  unfold trigsBefore
  repeat' first
    | with_reducible assumption
    | with_reducible exact Still.refl _
    | dsimp only
    | with_reducible apply still_writeTrigs
    | (with_reducible apply Still.each; rotate_left; intro _ _)

theorem keeps_trigsBefore {z : State} (s : State) (n : Nat) (ts : Int) (h : Keeps z s) :
    Keeps z (trigsBefore s n ts) := h.step (still_trigsBefore s n ts (.refl _))

theorem still_autoWin {z : State} (s : State) (t : Int) (n : Nat) (h : Still z s) :
    Still z (autoWin s t n) := by
  unfold autoWin
  repeat' first
    | with_reducible assumption
    | dsimp only
    | fail_if_no_progress with_reducible apply Still.upd
    | with_reducible apply still_modStr
    | with_reducible apply Still.ite

theorem keeps_autoWin {z : State} (s : State) (t : Int) (n : Nat) (h : Keeps z s) :
    Keeps z (autoWin s t n) := h.step (still_autoWin s t n (.refl _))

theorem still_honour {z : State} (s : State) (t : Int) (src origin : Nat) (h : Still z s) :
    Still z (honour s t src origin) := by
  unfold honour
  repeat' first
    | with_reducible assumption
    | with_reducible exact Still.refl _
    | dsimp only
    | fail_if_no_progress with_reducible apply Still.upd
    | with_reducible apply still_autoWin
    | (with_reducible apply Still.each; rotate_left; intro _ _)

theorem keeps_honour {z : State} (s : State) (t : Int) (src origin : Nat) (h : Keeps z s) :
    Keeps z (honour s t src origin) := h.step (still_honour s t src origin (.refl _))

theorem still_replaceTrig {z : State} (s : State) (seg : Nat) (t : Int) (src origin : Nat) (h : Still z s) :
    Still z (replaceTrig s seg t src origin) := by
  unfold replaceTrig
  repeat' first
    | with_reducible assumption
    | with_reducible exact Still.refl _
    | dsimp only
    | fail_if_no_progress with_reducible apply Still.upd
    | with_reducible apply still_autoWin
    | with_reducible apply still_modStr
    | (with_reducible apply Still.each; rotate_left; intro _ _)
    | with_reducible apply Still.ite
    | split

theorem keeps_replaceTrig {z : State} (s : State) (seg : Nat) (t : Int) (src origin : Nat) (h : Keeps z s) :
    Keeps z (replaceTrig s seg t src origin) := h.step (still_replaceTrig s seg t src origin (.refl _))

theorem still_ignoreAssert {z : State} (s : State) (a : Assertion) (h : Still z s) :
    Still z (ignoreAssert s a) := by
  unfold ignoreAssert
  repeat' first
    | with_reducible assumption
    | with_reducible apply still_trigIgnored
    | with_reducible apply Still.ite

theorem keeps_ignoreAssert {z : State} (s : State) (a : Assertion) (h : Keeps z s) :
    Keeps z (ignoreAssert s a) := h.step (still_ignoreAssert s a (.refl _))

theorem still_decideDue {z : State} (s : State) (fuel : Nat) (h : Still z s) :
    Still z (decideDue s fuel) := by
  induction fuel generalizing s with
  | zero => exact h
  | succ n ih =>
    unfold decideDue
    repeat' first
      | with_reducible assumption
      | with_reducible exact Still.refl _
      | dsimp only
      | fail_if_no_progress with_reducible apply Still.upd
      | with_reducible apply still_ignoreAssert
      | with_reducible apply still_replaceTrig
      | with_reducible apply still_honour
      | with_reducible apply still_loopSendTrigger
      | (with_reducible apply Still.each; rotate_left; intro _ _)
      | with_reducible apply Still.ite
      | split
      | with_reducible apply ih

theorem keeps_decideDue {z : State} (s : State) (fuel : Nat) (h : Keeps z s) :
    Keeps z (decideDue s fuel) := h.step (still_decideDue s fuel (.refl _))

theorem still_triggerDecide {z : State} (s : State) (h : Still z s) :
    Still z (triggerDecide s) := by
  unfold triggerDecide
  repeat' first
    | with_reducible assumption
    | with_reducible apply still_decideDue

theorem keeps_triggerDecide {z : State} (s : State) (h : Keeps z s) :
    Keeps z (triggerDecide s) := h.step (still_triggerDecide s (.refl _))

theorem still_assertTrigger {z : State} (s : State) (e : Nat) (t : Int) (h : Still z s) :
    Still z (assertTrigger s e t) := by
  unfold assertTrigger
  repeat' first
    | with_reducible assumption
    | dsimp only
    | fail_if_no_progress with_reducible apply Still.upd
    | with_reducible apply still_trigIgnored
    | with_reducible apply Still.ite

theorem keeps_assertTrigger {z : State} (s : State) (e : Nat) (t : Int) (h : Keeps z s) :
    Keeps z (assertTrigger s e t) := h.step (still_assertTrigger s e t (.refl _))

theorem still_showTriggered {z : State} (s : State) (h : Still z s) :
    Still z (showTriggered s) := by
  unfold showTriggered
  repeat' first
    | with_reducible assumption
    | dsimp only
    | fail_if_no_progress with_reducible apply Still.upd
    | with_reducible apply still_captureEvent
    | with_reducible apply still_setCapState
    | with_reducible apply Still.ite
    | split

theorem keeps_showTriggered {z : State} (s : State) (h : Keeps z s) :
    Keeps z (showTriggered s) := h.step (still_showTriggered s (.refl _))

theorem still_closeSegment {z : State} (s : State) (seg : Nat) (fin : Int) (n : Nat) (h : Still z s) :
    Still z (closeSegment s seg fin n) := by
  unfold closeSegment
  repeat' first
    | with_reducible assumption
    | dsimp only
    | fail_if_no_progress with_reducible apply Still.upd
    | with_reducible apply still_closeOpen
    | with_reducible apply still_stageGap
    | with_reducible apply still_setStr
    | with_reducible apply still_stageLoss
    | with_reducible apply still_modStr
    | with_reducible apply Still.ite
    | split

theorem keeps_closeSegment {z : State} (s : State) (seg : Nat) (fin : Int) (n : Nat) (h : Keeps z s) :
    Keeps z (closeSegment s seg fin n) := h.step (still_closeSegment s seg fin n (.refl _))

theorem still_segRestart {z : State} (s : State) (h : Still z s) :
    Still z (segRestart s) := by
  unfold segRestart
  repeat' first
    | with_reducible assumption
    | with_reducible exact Still.refl _
    | dsimp only
    | with_reducible apply still_engStart
    | (with_reducible apply Still.each; rotate_left; intro _ _)
    | with_reducible apply Still.ite

theorem keeps_segRestart {z : State} (s : State) (h : Keeps z s) :
    Keeps z (segRestart s) := h.step (still_segRestart s (.refl _))

theorem still_segmentEnd {z : State} (sIn : State) (h : Still z sIn) :
    Still z (segmentEnd sIn) := by
  unfold segmentEnd
  repeat' first
    | with_reducible assumption
    | with_reducible exact Still.refl _
    | dsimp only
    | fail_if_no_progress with_reducible apply Still.upd
    | with_reducible apply still_showTriggered
    | with_reducible apply still_writeTrigs
    | with_reducible apply still_closeSegment
    | with_reducible apply still_captureEvent
    | with_reducible apply still_wrF
    | with_reducible apply still_showHalted
    | with_reducible apply still_loopSendHalt
    | with_reducible apply still_segRestart
    | with_reducible apply still_setCapState
    | with_reducible apply still_segBaseCheck
    | (with_reducible apply Still.each; rotate_left; intro _ _)
    | with_reducible apply Still.ite
    | split

theorem keeps_segmentEnd {z : State} (sIn : State) (h : Keeps z sIn) :
    Keeps z (segmentEnd sIn) := h.step (still_segmentEnd sIn (.refl _))

theorem still_enterArmed {z : State} (sIn : State) (segs depth : Nat) (h : Still z sIn) :
    Still z (enterArmed sIn segs depth) := by
  unfold enterArmed
  repeat' first
    | with_reducible assumption
    | with_reducible exact Still.refl _
    | dsimp only
    | fail_if_no_progress with_reducible apply Still.upd
    | with_reducible apply still_writeTrigs
    | with_reducible apply still_endStream
    | with_reducible apply still_closeOpen
    | with_reducible apply still_modRing
    | with_reducible apply still_wr64
    | with_reducible apply still_modStr
    | with_reducible apply still_wrF
    | with_reducible apply still_engStart
    | with_reducible apply still_captureEvent
    | with_reducible apply still_setCapState
    | (with_reducible apply Still.each; rotate_left; intro _ _)
    | with_reducible apply Still.ite

theorem keeps_enterArmed {z : State} (sIn : State) (segs depth : Nat) (h : Keeps z sIn) :
    Keeps z (enterArmed sIn segs depth) := h.step (still_enterArmed sIn segs depth (.refl _))

end Sys2Proof.Machine
end

