-- ==== Sys2Proof/Laws/Frame/RecordFormer.lean ====
section
/-! SUPPORT. What the operations of Machine/RecordFormer.lean leave alone (Laws/Keeps.lean). -/

namespace Sys2Proof.Machine

theorem still_stageMark {z : State} (s : State) (n : Nat) (k : Int) (m : MarkAct) (h : Still z s) :
    Still z (stageMark s n k m) := by
  unfold stageMark
  repeat' first
    | with_reducible assumption
    | dsimp only
    | with_reducible apply still_stageNew
    | with_reducible apply Still.ite

theorem keeps_stageMark {z : State} (s : State) (n : Nat) (k : Int) (m : MarkAct) (h : Keeps z s) :
    Keeps z (stageMark s n k m) := h.step (still_stageMark s n k m (.refl _))

theorem still_stageMarks {z : State} (s : State) (n : Nat) (k : Int) (x : Option Slice) (h : Still z s) :
    Still z (stageMarks s n k x) := by
  unfold stageMarks
  repeat' first
    | with_reducible assumption
    | with_reducible exact Still.refl _
    | dsimp only
    | with_reducible apply still_stageMark
    | (with_reducible apply Still.each; rotate_left; intro _ _)
    | split

theorem keeps_stageMarks {z : State} (s : State) (n : Nat) (k : Int) (x : Option Slice) (h : Keeps z s) :
    Keeps z (stageMarks s n k x) := h.step (still_stageMarks s n k x (.refl _))

theorem still_stageActions {z : State} (s : State) (n : Nat) (k : Int) (x : Option Slice) (h : Still z s) :
    Still z (stageActions s n k x) := by
  unfold stageActions
  repeat' first
    | with_reducible assumption
    | with_reducible exact Still.refl _
    | dsimp only
    | with_reducible apply still_writeTrigs
    | with_reducible apply still_stageMarks
    | (with_reducible apply Still.each; rotate_left; intro _ _)

theorem keeps_stageActions {z : State} (s : State) (n : Nat) (k : Int) (x : Option Slice) (h : Keeps z s) :
    Keeps z (stageActions s n k x) := h.step (still_stageActions s n k x (.refl _))

theorem still_dropTick {z : State} (s : State) (n : Nat) (k : Int) (h : Still z s) :
    Still z (dropTick s n k) := by
  unfold dropTick
  repeat' first
    | with_reducible assumption
    | dsimp only
    | fail_if_no_progress with_reducible apply Still.upd
    | with_reducible apply still_ctrAdd
    | with_reducible apply still_setStr
    | with_reducible apply still_stageOvf
    | with_reducible apply Still.ite
    | split

theorem keeps_dropTick {z : State} (s : State) (n : Nat) (k : Int) (h : Keeps z s) :
    Keeps z (dropTick s n k) := h.step (still_dropTick s n k (.refl _))

theorem still_addItem {z : State} (s : State) (n : Nat) (k : Int) (typ : BitVec 4) (head : Word64) (fl : BitVec 8) (it : Word64) (h : Still z s) :
    Still z (addItem s n k typ head fl it) := by
  unfold addItem
  repeat' first
    | with_reducible assumption
    | dsimp only
    | fail_if_no_progress with_reducible apply Still.upd
    | with_reducible apply still_setStr

theorem keeps_addItem {z : State} (s : State) (n : Nat) (k : Int) (typ : BitVec 4) (head : Word64) (fl : BitVec 8) (it : Word64) (h : Keeps z s) :
    Keeps z (addItem s n k typ head fl it) := h.step (still_addItem s n k typ head fl it (.refl _))

theorem still_placeItem {z : State} (s : State) (n : Nat) (k : Int) (typ : BitVec 4) (head : Word64) (fl : BitVec 8) (it : Word64) (h : Still z s) :
    Still z (placeItem s n k typ head fl it) := by
  unfold placeItem
  repeat' first
    | with_reducible assumption
    | dsimp only
    | with_reducible apply still_addItem
    | with_reducible apply still_dropTick
    | with_reducible apply still_closeOpen
    | with_reducible apply still_modStr
    | with_reducible apply Still.ite

theorem keeps_placeItem {z : State} (s : State) (n : Nat) (k : Int) (typ : BitVec 4) (head : Word64) (fl : BitVec 8) (it : Word64) (h : Keeps z s) :
    Keeps z (placeItem s n k typ head fl it) := h.step (still_placeItem s n k typ head fl it (.refl _))

theorem still_storeSample {z : State} (s : State) (n : Nat) (k : Int) (p : Word) (h : Still z s) :
    Still z (storeSample s n k p) := by
  unfold storeSample
  repeat' first
    | with_reducible assumption
    | dsimp only
    | with_reducible apply still_placeItem
    | with_reducible apply still_closeOpen
    | with_reducible apply Still.ite

theorem keeps_storeSample {z : State} (s : State) (n : Nat) (k : Int) (p : Word) (h : Keeps z s) :
    Keeps z (storeSample s n k p) := h.step (still_storeSample s n k p (.refl _))

theorem still_storeTrans {z : State} (s : State) (n : Nat) (k : Int) (p : Word) (entry ref : Bool) (h : Still z s) :
    Still z (storeTrans s n k p entry ref) := by
  unfold storeTrans
  repeat' first
    | with_reducible assumption
    | dsimp only
    | fail_if_no_progress with_reducible apply Still.upd
    | with_reducible apply still_closeOpen
    | with_reducible apply still_placeItem
    | with_reducible apply still_modStr
    | with_reducible apply Still.ite
    | split

theorem keeps_storeTrans {z : State} (s : State) (n : Nat) (k : Int) (p : Word) (entry ref : Bool) (h : Keeps z s) :
    Keeps z (storeTrans s n k p entry ref) := h.step (still_storeTrans s n k p entry ref (.refl _))

theorem still_formGood {z : State} (s : State) (n : Nat) (k : Int) (x : Slice) (h : Still z s) :
    Still z (formGood s n k x) := by
  unfold formGood
  repeat' first
    | with_reducible assumption
    | dsimp only
    | fail_if_no_progress with_reducible apply Still.upd
    | with_reducible apply still_setStr
    | with_reducible apply still_closeOpen
    | with_reducible apply still_stageActions
    | with_reducible apply still_storeSample
    | with_reducible apply still_modStr
    | with_reducible apply still_storeTrans
    | with_reducible apply Still.ite

theorem keeps_formGood {z : State} (s : State) (n : Nat) (k : Int) (x : Slice) (h : Keeps z s) :
    Keeps z (formGood s n k x) := h.step (still_formGood s n k x (.refl _))

theorem still_formLost {z : State} (s : State) (n : Nat) (k : Int) (x : Option Slice) (h : Still z s) :
    Still z (formLost s n k x) := by
  unfold formLost
  repeat' first
    | with_reducible assumption
    | dsimp only
    | fail_if_no_progress with_reducible apply Still.upd
    | with_reducible apply still_dropTick
    | with_reducible apply still_stageActions
    | with_reducible apply still_modStr
    | with_reducible apply Still.ite
    | split

theorem keeps_formLost {z : State} (s : State) (n : Nat) (k : Int) (x : Option Slice) (h : Keeps z s) :
    Keeps z (formLost s n k x) := h.step (still_formLost s n k x (.refl _))

theorem still_formDead {z : State} (s : State) (n : Nat) (k : Int) (x : Option Slice) (h : Still z s) :
    Still z (formDead s n k x) := by
  unfold formDead
  repeat' first
    | with_reducible assumption
    | dsimp only
    | fail_if_no_progress with_reducible apply Still.upd
    | with_reducible apply still_stageActions
    | with_reducible apply still_closeOpen
    | with_reducible apply still_stageGap
    | with_reducible apply still_modStr
    | with_reducible apply Still.ite

theorem keeps_formDead {z : State} (s : State) (n : Nat) (k : Int) (x : Option Slice) (h : Keeps z s) :
    Keeps z (formDead s n k x) := h.step (still_formDead s n k x (.refl _))

theorem still_formBad {z : State} (s : State) (n : Nat) (k : Int) (x : Slice) (first : Tick) (h : Still z s) :
    Still z (formBad s n k x first) := by
  unfold formBad
  repeat' first
    | with_reducible assumption
    | dsimp only
    | fail_if_no_progress with_reducible apply Still.upd
    | with_reducible apply still_closeOpen
    | with_reducible apply still_stageGap
    | with_reducible apply still_modStr
    | with_reducible apply still_stageActions
    | with_reducible apply Still.ite

theorem keeps_formBad {z : State} (s : State) (n : Nat) (k : Int) (x : Slice) (first : Tick) (h : Keeps z s) :
    Keeps z (formBad s n k x first) := h.step (still_formBad s n k x first (.refl _))

theorem still_formHalt {z : State} (s : State) (n : Nat) (k : Int) (h : Still z s) :
    Still z (formHalt s n k) := by
  unfold formHalt
  repeat' first
    | with_reducible assumption
    | with_reducible apply still_stageActions
    | with_reducible apply still_endStream

theorem keeps_formHalt {z : State} (s : State) (n : Nat) (k : Int) (h : Keeps z s) :
    Keeps z (formHalt s n k) := h.step (still_formHalt s n k (.refl _))

theorem still_formSlice {z : State} (s : State) (n : Nat) (k : Int) (x : Option Slice) (h : Still z s) :
    Still z (formSlice s n k x) := by
  unfold formSlice
  repeat' first
    | with_reducible assumption
    | dsimp only
    | fail_if_no_progress with_reducible apply Still.upd
    | with_reducible apply still_formDead
    | with_reducible apply still_formBad
    | with_reducible apply still_endDead
    | with_reducible apply still_formGood
    | with_reducible apply still_modStr
    | with_reducible apply still_stageActions
    | with_reducible apply still_closeOpen
    | with_reducible apply Still.ite
    | split

theorem keeps_formSlice {z : State} (s : State) (n : Nat) (k : Int) (x : Option Slice) (h : Keeps z s) :
    Keeps z (formSlice s n k x) := h.step (still_formSlice s n k x (.refl _))

theorem still_recordFormerSlice {z : State} (s : State) (n : Nat) (h : Still z s) :
    Still z (recordFormerSlice s n) := by
  unfold recordFormerSlice
  repeat' first
    | with_reducible assumption
    | with_reducible exact Still.refl _
    | dsimp only
    | fail_if_no_progress with_reducible apply Still.upd
    | with_reducible apply still_modStr
    | with_reducible apply still_closeSegment
    | with_reducible apply still_formLost
    | with_reducible apply still_formSlice
    | with_reducible apply still_endLoss
    | with_reducible apply still_formHalt
    | (with_reducible apply Still.each; rotate_left; intro _ _)
    | with_reducible apply Still.ite
    | split

theorem keeps_recordFormerSlice {z : State} (s : State) (n : Nat) (h : Keeps z s) :
    Keeps z (recordFormerSlice s n) := h.step (still_recordFormerSlice s n (.refl _))

theorem still_windowAction {z : State} (s : State) (n : Nat) (a : Int) (isOpen : Bool) (h : Still z s) :
    Still z (windowAction s n a isOpen) := by
  unfold windowAction
  repeat' first
    | with_reducible assumption
    | dsimp only
    | fail_if_no_progress with_reducible apply Still.upd
    | with_reducible apply still_setStr
    | with_reducible apply Still.ite
    | split

theorem keeps_windowAction {z : State} (s : State) (n : Nat) (a : Int) (isOpen : Bool) (h : Keeps z s) :
    Keeps z (windowAction s n a isOpen) := h.step (still_windowAction s n a isOpen (.refl _))

theorem still_flushClose {z : State} (s : State) (cmd : RunCmd) (h : Still z s) :
    Still z (flushClose s cmd) := by
  unfold flushClose
  repeat' first
    | with_reducible assumption
    | with_reducible exact Still.refl _
    | dsimp only
    | fail_if_no_progress with_reducible apply Still.upd
    | with_reducible apply still_closeOpen
    | (with_reducible apply Still.each; rotate_left; intro _ _)
    | with_reducible apply Still.ite
    | split

theorem keeps_flushClose {z : State} (s : State) (cmd : RunCmd) (h : Keeps z s) :
    Keeps z (flushClose s cmd) := h.step (still_flushClose s cmd (.refl _))

theorem still_flushForcedClose {z : State} (s : State) (r : Nat) (h : Still z s) :
    Still z (flushForcedClose s r) := by
  unfold flushForcedClose
  repeat' first
    | with_reducible assumption
    | dsimp only
    | with_reducible apply still_flushClose
    | split

theorem keeps_flushForcedClose {z : State} (s : State) (r : Nat) (h : Keeps z s) :
    Keeps z (flushForcedClose s r) := h.step (still_flushForcedClose s r (.refl _))

theorem still_offLaneTick {z : State} (s : State) (h : Still z s) :
    Still z (offLaneTick s) := by
  unfold offLaneTick
  repeat' first
    | with_reducible assumption
    | with_reducible exact Still.refl _
    | dsimp only
    | with_reducible apply still_stageMarks
    | (with_reducible apply Still.each; rotate_left; intro _ _)
    | with_reducible apply Still.ite

theorem keeps_offLaneTick {z : State} (s : State) (h : Keeps z s) :
    Keeps z (offLaneTick s) := h.step (still_offLaneTick s (.refl _))

theorem still_trigRecordsDue {z : State} (s : State) (h : Still z s) :
    Still z (trigRecordsDue s) := by
  unfold trigRecordsDue
  repeat' first
    | with_reducible assumption
    | with_reducible exact Still.refl _
    | dsimp only
    | with_reducible apply still_writeTrigs
    | (with_reducible apply Still.each; rotate_left; intro _ _)
    | with_reducible apply Still.ite

theorem keeps_trigRecordsDue {z : State} (s : State) (h : Keeps z s) :
    Keeps z (trigRecordsDue s) := h.step (still_trigRecordsDue s (.refl _))

end Sys2Proof.Machine
end

