-- ==== Sys2Proof/Laws/Frame/Budget.lean ====
section
/-! SUPPORT. What the operations of Machine/Budget.lean leave alone (Laws/Keeps.lean). -/

namespace Sys2Proof.Machine

theorem still_budgetCheckCmd {z : State} (s : State) (m : Nat) (h : Still z s) :
    Still z (budgetCheckCmd s m) := by
  unfold budgetCheckCmd
  repeat' first
    | with_reducible assumption
    | dsimp only
    | with_reducible apply still_checked
    | with_reducible apply still_completeCmd

theorem keeps_budgetCheckCmd {z : State} (s : State) (m : Nat) (h : Keeps z s) :
    Keeps z (budgetCheckCmd s m) := h.step (still_budgetCheckCmd s m (.refl _))

end Sys2Proof.Machine
end

