-- ==== Sys2Proof/Laws/Frame/Gates.lean ====
section
/-! SUPPORT. What the operations of Machine/Gates.lean leave alone (Laws/Keeps.lean). -/

namespace Sys2Proof.Machine

theorem still_gateShow {z : State} (s : State) (h : Still z s) :
    Still z (gateShow s) := by
  unfold gateShow
  repeat' first
    | with_reducible assumption
    | with_reducible apply still_wr

theorem keeps_gateShow {z : State} (s : State) (h : Keeps z s) :
    Keeps z (gateShow s) := h.step (still_gateShow s (.refl _))

theorem still_setGates {z : State} (s : State) (g : Gates) (h : Still z s) :
    Still z (setGates s g) := by
  unfold setGates
  repeat' first
    | with_reducible assumption
    | dsimp only
    | fail_if_no_progress with_reducible apply Still.upd
    | with_reducible apply still_gateShow

theorem keeps_setGates {z : State} (s : State) (g : Gates) (h : Keeps z s) :
    Keeps z (setGates s g) := h.step (still_setGates s g (.refl _))

theorem still_gateBoot {z : State} (s : State) (cold : Bool) (h : Still z s) :
    Still z (gateBoot s cold) := by
  unfold gateBoot
  repeat' first
    | with_reducible assumption
    | with_reducible exact Still.refl _
    | dsimp only
    | fail_if_no_progress with_reducible apply Still.upd
    | with_reducible apply still_wr
    | with_reducible apply still_setGates
    | (with_reducible apply Still.times; rotate_left; intro _ _)

theorem keeps_gateBoot {z : State} (s : State) (cold : Bool) (h : Keeps z s) :
    Keeps z (gateBoot s cold) := h.step (still_gateBoot s cold (.refl _))

theorem still_gateSave {z : State} (s : State) (verifies : Bool) (h : Still z s) :
    Still z (gateSave s verifies) := by
  unfold gateSave
  repeat' first
    | with_reducible assumption
    | dsimp only
    | fail_if_no_progress with_reducible apply Still.upd
    | with_reducible apply still_setGates
    | with_reducible apply Still.ite

theorem keeps_gateSave {z : State} (s : State) (verifies : Bool) (h : Keeps z s) :
    Keeps z (gateSave s verifies) := h.step (still_gateSave s verifies (.refl _))

theorem still_gateChallengeCmd {z : State} (s : State) (m : Nat) (h : Still z s) :
    Still z (gateChallengeCmd s m) := by
  unfold gateChallengeCmd
  repeat' first
    | with_reducible assumption
    | dsimp only
    | fail_if_no_progress with_reducible apply Still.upd
    | with_reducible apply still_checked
    | with_reducible apply still_drawFree
    | with_reducible apply still_setGates
    | with_reducible apply still_completeCmd

theorem keeps_gateChallengeCmd {z : State} (s : State) (m : Nat) (h : Keeps z s) :
    Keeps z (gateChallengeCmd s m) := h.step (still_gateChallengeCmd s m (.refl _))

theorem still_gateResponseCmd {z : State} (s : State) (m : Nat) (h : Still z s) :
    Still z (gateResponseCmd s m) := by
  unfold gateResponseCmd
  repeat' first
    | with_reducible assumption
    | dsimp only
    | fail_if_no_progress with_reducible apply Still.upd
    | with_reducible apply still_checked
    | with_reducible apply still_setGates
    | with_reducible apply still_completeCmd
    | with_reducible apply still_ctrAdd
    | with_reducible apply Still.ite

theorem keeps_gateResponseCmd {z : State} (s : State) (m : Nat) (h : Keeps z s) :
    Keeps z (gateResponseCmd s m) := h.step (still_gateResponseCmd s m (.refl _))

theorem still_gatePasswordSetCmd {z : State} (s : State) (m : Nat) (h : Still z s) :
    Still z (gatePasswordSetCmd s m) := by
  unfold gatePasswordSetCmd
  repeat' first
    | with_reducible assumption
    | dsimp only
    | fail_if_no_progress with_reducible apply Still.upd
    | with_reducible apply still_checked
    | with_reducible apply still_completeCmd
    | with_reducible apply still_setGates

theorem keeps_gatePasswordSetCmd {z : State} (s : State) (m : Nat) (h : Keeps z s) :
    Keeps z (gatePasswordSetCmd s m) := h.step (still_gatePasswordSetCmd s m (.refl _))

theorem still_gateUnlockCmd {z : State} (s : State) (m : Nat) (h : Still z s) :
    Still z (gateUnlockCmd s m) := by
  unfold gateUnlockCmd
  repeat' first
    | with_reducible assumption
    | dsimp only
    | fail_if_no_progress with_reducible apply Still.upd
    | with_reducible apply still_checked
    | with_reducible apply still_setGates
    | with_reducible apply still_completeCmd
    | with_reducible apply still_ctrAdd
    | with_reducible apply Still.ite

theorem keeps_gateUnlockCmd {z : State} (s : State) (m : Nat) (h : Keeps z s) :
    Keeps z (gateUnlockCmd s m) := h.step (still_gateUnlockCmd s m (.refl _))

theorem still_gateLockCmd {z : State} (s : State) (m : Nat) (h : Still z s) :
    Still z (gateLockCmd s m) := by
  unfold gateLockCmd
  repeat' first
    | with_reducible assumption
    | dsimp only
    | fail_if_no_progress with_reducible apply Still.upd
    | with_reducible apply still_checked
    | with_reducible apply still_setGates
    | with_reducible apply still_completeCmd
    | with_reducible apply Still.ite

theorem keeps_gateLockCmd {z : State} (s : State) (m : Nat) (h : Keeps z s) :
    Keeps z (gateLockCmd s m) := h.step (still_gateLockCmd s m (.refl _))

theorem still_serviceLocked {z : State} (s : State) (m : Nat) (h : Still z s) :
    Still z (serviceLocked s m) := by
  unfold serviceLocked
  repeat' first
    | with_reducible assumption
    | with_reducible apply still_completeCmd
    | with_reducible apply still_startCmd

theorem keeps_serviceLocked {z : State} (s : State) (m : Nat) (h : Keeps z s) :
    Keeps z (serviceLocked s m) := h.step (still_serviceLocked s m (.refl _))

theorem still_nonceExpiry {z : State} (s : State) (h : Still z s) :
    Still z (nonceExpiry s) := by
  unfold nonceExpiry
  repeat' first
    | with_reducible assumption
    | dsimp only
    | fail_if_no_progress with_reducible apply Still.upd
    | with_reducible apply still_setGates
    | with_reducible apply Still.ite

theorem keeps_nonceExpiry {z : State} (s : State) (h : Keeps z s) :
    Keeps z (nonceExpiry s) := h.step (still_nonceExpiry s (.refl _))

end Sys2Proof.Machine
end

