-- ==== Sys2Proof/Laws/Frame/Context.lean ====
section
/-! SUPPORT. What the operations of Machine/Context.lean leave alone (Laws/Keeps.lean). -/

namespace Sys2Proof.Machine

theorem still_ctxRecord {z : State} (s : State) (r : Int) (e : CtxEntry) (reason way set : Nat) (h : Still z s) :
    Still z (ctxRecord s r e reason way set) := by
  unfold ctxRecord
  repeat' first
    | with_reducible assumption
    | with_reducible apply still_stageOther
    | with_reducible apply still_trigsBefore
    | with_reducible apply Still.ite

theorem keeps_ctxRecord {z : State} (s : State) (r : Int) (e : CtxEntry) (reason way set : Nat) (h : Keeps z s) :
    Keeps z (ctxRecord s r e reason way set) := h.step (still_ctxRecord s r e reason way set (.refl _))

theorem still_ctxPut {z : State} (s : State) (set : Nat) (ways : List CtxEntry) (h : Still z s) :
    Still z (ctxPut s set ways) := by
  unfold ctxPut
  repeat' first
    | with_reducible assumption
    | dsimp only
    | fail_if_no_progress with_reducible apply Still.upd

theorem keeps_ctxPut {z : State} (s : State) (set : Nat) (ways : List CtxEntry) (h : Keeps z s) :
    Keeps z (ctxPut s set ways) := h.step (still_ctxPut s set ways (.refl _))

theorem still_ctxRead {z : State} (s : State) (set : Nat) (r : Int) (h : Still z s) :
    Still z (ctxRead s set r) := by
  unfold ctxRead
  repeat' first
    | with_reducible assumption
    | dsimp only
    | fail_if_no_progress with_reducible apply Still.upd
    | with_reducible apply still_ctxEvent
    | with_reducible apply still_ctrAdd
    | with_reducible apply still_ctxPut
    | with_reducible apply still_ctxRecord
    | with_reducible apply Still.ite

theorem keeps_ctxRead {z : State} (s : State) (set : Nat) (r : Int) (h : Keeps z s) :
    Keeps z (ctxRead s set r) := h.step (still_ctxRead s set r (.refl _))

theorem still_ctxPurgeWay {z : State} (s : State) (set : Nat) (r : Int) (reason w : Nat) (h : Still z s) :
    Still z (ctxPurgeWay s set r reason w) := by
  unfold ctxPurgeWay
  repeat' first
    | with_reducible assumption
    | dsimp only
    | with_reducible apply still_ctxRecord
    | with_reducible apply still_ctxEvent
    | with_reducible apply still_ctrAdd
    | with_reducible apply still_ctxPut

theorem keeps_ctxPurgeWay {z : State} (s : State) (set : Nat) (r : Int) (reason w : Nat) (h : Keeps z s) :
    Keeps z (ctxPurgeWay s set r reason w) := h.step (still_ctxPurgeWay s set r reason w (.refl _))

theorem still_ctxPurge {z : State} (s : State) (set : Nat) (r : Int) (reason lim margin : Nat) (h : Still z s) :
    Still z (ctxPurge s set r reason lim margin) := by
  unfold ctxPurge
  repeat' first
    | with_reducible assumption
    | with_reducible exact Still.refl _
    | dsimp only
    | with_reducible apply still_ctxPurgeWay
    | (with_reducible apply Still.times; rotate_left; intro _ _)
    | with_reducible apply Still.ite

theorem keeps_ctxPurge {z : State} (s : State) (set : Nat) (r : Int) (reason lim margin : Nat) (h : Keeps z s) :
    Keeps z (ctxPurge s set r reason lim margin) := h.step (still_ctxPurge s set r reason lim margin (.refl _))

theorem still_ctxInsert {z : State} (s : State) (set : Nat) (q : CtxReq) (h : Still z s) :
    Still z (ctxInsert s set q).1 := by
  unfold ctxInsert
  repeat' first
    | with_reducible assumption
    | dsimp only
    | with_reducible apply still_ctxPut
    | with_reducible apply still_ctxEvent
    | with_reducible apply still_ctrAdd
    | with_reducible apply still_ctxRecord
    | with_reducible apply Still.ite
    | split

theorem keeps_ctxInsert {z : State} (s : State) (set : Nat) (q : CtxReq) (h : Keeps z s) :
    Keeps z (ctxInsert s set q).1 := h.step (still_ctxInsert s set q (.refl _))

theorem still_ctxOperate {z : State} (s : State) (set : Nat) (q : CtxReq) (h : Still z s) :
    Still z (ctxOperate s set q).1 := by
  unfold ctxOperate
  repeat' first
    | with_reducible assumption
    | dsimp only
    | fail_if_no_progress with_reducible apply Still.upd
    | with_reducible apply still_ctxPut
    | with_reducible apply still_ctxInsert
    | refine Still.fst ?_ (by assumption)
    | with_reducible apply Still.ite
    | split

theorem keeps_ctxOperate {z : State} (s : State) (set : Nat) (q : CtxReq) (h : Keeps z s) :
    Keeps z (ctxOperate s set q).1 := h.step (still_ctxOperate s set q (.refl _))

theorem still_ctxLose {z : State} (s : State) (m : Nat) (h : Still z s) :
    Still z (ctxLose s m) := by
  unfold ctxLose
  repeat' first
    | with_reducible assumption
    | with_reducible apply still_ctrAdd
    | with_reducible apply Still.ite

theorem keeps_ctxLose {z : State} (s : State) (m : Nat) (h : Keeps z s) :
    Keeps z (ctxLose s m) := h.step (still_ctxLose s m (.refl _))

theorem still_ctxPop {z : State} (s : State) (m : Nat) (h : Still z s) :
    Still z (ctxPop s m) := by
  unfold ctxPop
  repeat' first
    | with_reducible assumption
    | dsimp only
    | fail_if_no_progress with_reducible apply Still.upd
    | with_reducible apply still_modEng
    | with_reducible apply Still.ite

theorem keeps_ctxPop {z : State} (s : State) (m : Nat) (h : Keeps z s) :
    Keeps z (ctxPop s m) := h.step (still_ctxPop s m (.refl _))

theorem still_ctxAwait {z : State} (s : State) (m : Nat) (q : CtxReq) (h : Still z s) :
    Still z (ctxAwait s m q) := by
  unfold ctxAwait
  repeat' first
    | with_reducible assumption
    | dsimp only
    | fail_if_no_progress with_reducible apply Still.upd
    | with_reducible apply still_modEng
    | with_reducible apply Still.ite

theorem keeps_ctxAwait {z : State} (s : State) (m : Nat) (q : CtxReq) (h : Keeps z s) :
    Keeps z (ctxAwait s m q) := h.step (still_ctxAwait s m q (.refl _))

theorem still_ctxReturn {z : State} (s : State) (m g : Nat) (q : CtxReq) (a : CtxAns) (h : Still z s) :
    Still z (ctxReturn s m g q a) := by
  unfold ctxReturn
  repeat' first
    | with_reducible assumption
    | dsimp only
    | fail_if_no_progress with_reducible apply Still.upd
    | with_reducible apply still_modEng
    | with_reducible apply still_wr
    | with_reducible apply Still.ite

theorem keeps_ctxReturn {z : State} (s : State) (m g : Nat) (q : CtxReq) (a : CtxAns) (h : Keeps z s) :
    Keeps z (ctxReturn s m g q a) := h.step (still_ctxReturn s m g q a (.refl _))

theorem still_ctxServe {z : State} (s : State) (b m : Nat) (q : CtxReq) (set : Nat) (h : Still z s) :
    Still z (ctxServe s b m q set) := by
  unfold ctxServe
  repeat' first
    | with_reducible assumption
    | with_reducible exact Still.refl _
    | dsimp only
    | fail_if_no_progress with_reducible apply Still.upd
    | with_reducible apply still_ctxLose
    | with_reducible apply still_ctrAdd64
    | with_reducible apply still_ctxPop
    | (with_reducible apply Still.each; rotate_left; intro _ _)

theorem keeps_ctxServe {z : State} (s : State) (b m : Nat) (q : CtxReq) (set : Nat) (h : Keeps z s) :
    Keeps z (ctxServe s b m q set) := h.step (still_ctxServe s b m q set (.refl _))

theorem still_ctxGrant {z : State} (s : State) (m op : Nat) (h : Still z s) :
    Still z (ctxGrant s m op) := by
  unfold ctxGrant
  repeat' first
    | with_reducible assumption
    | dsimp only
    | with_reducible apply still_ctxAwait
    | with_reducible apply still_ctxServe
    | with_reducible apply Still.ite
    | split

theorem keeps_ctxGrant {z : State} (s : State) (m op : Nat) (h : Keeps z s) :
    Keeps z (ctxGrant s m op) := h.step (still_ctxGrant s m op (.refl _))

theorem still_ctxIssue {z : State} (s : State) (e : Nat) (q : CtxReq) (h : Still z s) :
    Still z (ctxIssue s e q) := by
  unfold ctxIssue
  repeat' first
    | with_reducible assumption
    | dsimp only
    | fail_if_no_progress with_reducible apply Still.upd
    | with_reducible apply still_ctrAdd64
    | with_reducible apply still_ctrAdd
    | with_reducible apply still_setEng
    | with_reducible apply still_wrF
    | with_reducible apply Still.ite

theorem keeps_ctxIssue {z : State} (s : State) (e : Nat) (q : CtxReq) (h : Keeps z s) :
    Keeps z (ctxIssue s e q) := h.step (still_ctxIssue s e q (.refl _))

theorem still_ctxExtIssue {z : State} (s : State) (m : Nat) (q : CtxReq) (h : Still z s) :
    Still z (ctxExtIssue s m q) := by
  unfold ctxExtIssue
  repeat' first
    | with_reducible assumption
    | dsimp only
    | fail_if_no_progress with_reducible apply Still.upd

theorem keeps_ctxExtIssue {z : State} (s : State) (m : Nat) (q : CtxReq) (h : Keeps z s) :
    Keeps z (ctxExtIssue s m q) := h.step (still_ctxExtIssue s m q (.refl _))

theorem still_ctxTick {z : State} (s : State) (h : Still z s) :
    Still z (ctxTick s) := by
  unfold ctxTick
  repeat' first
    | with_reducible assumption
    | with_reducible exact Still.refl _
    | dsimp only
    | with_reducible apply still_ctrAdd
    | (with_reducible apply Still.each; rotate_left; intro _ _)

theorem keeps_ctxTick {z : State} (s : State) (h : Keeps z s) :
    Keeps z (ctxTick s) := h.step (still_ctxTick s (.refl _))

theorem still_ctxSweep {z : State} (s : State) (b : Nat) (h : Still z s) :
    Still z (ctxSweep s b) := by
  unfold ctxSweep
  repeat' first
    | with_reducible assumption
    | dsimp only
    | fail_if_no_progress with_reducible apply Still.upd
    | with_reducible apply still_ctxPurge
    | with_reducible apply still_ctxRead
    | with_reducible apply still_ctrAdd
    | with_reducible apply Still.ite

theorem keeps_ctxSweep {z : State} (s : State) (b : Nat) (h : Keeps z s) :
    Keeps z (ctxSweep s b) := h.step (still_ctxSweep s b (.refl _))

theorem still_setCtxState {z : State} (s : State) (v : Nat) (h : Still z s) :
    Still z (setCtxState s v) := by
  unfold setCtxState
  repeat' first
    | with_reducible assumption
    | with_reducible apply still_wrF

theorem keeps_setCtxState {z : State} (s : State) (v : Nat) (h : Keeps z s) :
    Keeps z (setCtxState s v) := h.step (still_setCtxState s v (.refl _))

theorem still_ctxClearRow {z : State} (s : State) (row : Nat) (h : Still z s) :
    Still z (ctxClearRow s row) := by
  unfold ctxClearRow
  repeat' first
    | with_reducible assumption
    | dsimp only
    | fail_if_no_progress with_reducible apply Still.upd

theorem keeps_ctxClearRow {z : State} (s : State) (row : Nat) (h : Keeps z s) :
    Keeps z (ctxClearRow s row) := h.step (still_ctxClearRow s row (.refl _))

theorem still_ctxStartClear {z : State} (s : State) (switchOn : Bool) (h : Still z s) :
    Still z (ctxStartClear s switchOn) := by
  unfold ctxStartClear
  repeat' first
    | with_reducible assumption
    | dsimp only
    | fail_if_no_progress with_reducible apply Still.upd
    | with_reducible apply still_ctxClearRow
    | with_reducible apply still_setCtxState

theorem keeps_ctxStartClear {z : State} (s : State) (switchOn : Bool) (h : Keeps z s) :
    Keeps z (ctxStartClear s switchOn) := h.step (still_ctxStartClear s switchOn (.refl _))

theorem still_ctxClearTick {z : State} (s : State) (d : Nat) (h : Still z s) :
    Still z (ctxClearTick s d) := by
  unfold ctxClearTick
  repeat' first
    | with_reducible assumption
    | with_reducible exact Still.refl _
    | dsimp only
    | with_reducible apply still_ctxClearRow
    | (with_reducible apply Still.times; rotate_left; intro _ _)
    | with_reducible apply Still.ite
    | split

theorem keeps_ctxClearTick {z : State} (s : State) (d : Nat) (h : Keeps z s) :
    Keeps z (ctxClearTick s d) := h.step (still_ctxClearTick s d (.refl _))

theorem still_ctxSwitchOn {z : State} (s : State) (h : Still z s) :
    Still z (ctxSwitchOn s) := by
  unfold ctxSwitchOn
  repeat' first
    | with_reducible assumption
    | dsimp only
    | fail_if_no_progress with_reducible apply Still.upd
    | with_reducible apply still_wr64
    | with_reducible apply still_wr
    | with_reducible apply still_ctxStartClear

theorem keeps_ctxSwitchOn {z : State} (s : State) (h : Keeps z s) :
    Keeps z (ctxSwitchOn s) := h.step (still_ctxSwitchOn s (.refl _))

theorem still_ctxSwitchOff {z : State} (s : State) (h : Still z s) :
    Still z (ctxSwitchOff s) := by
  unfold ctxSwitchOff
  repeat' first
    | with_reducible assumption
    | with_reducible exact Still.refl _
    | dsimp only
    | fail_if_no_progress with_reducible apply Still.upd
    | with_reducible apply still_ctrAdd
    | with_reducible apply still_setEng
    | with_reducible apply still_wr64
    | with_reducible apply still_wr
    | (with_reducible apply Still.each; rotate_left; intro _ _)
    | with_reducible apply Still.ite

theorem keeps_ctxSwitchOff {z : State} (s : State) (h : Keeps z s) :
    Keeps z (ctxSwitchOff s) := h.step (still_ctxSwitchOff s (.refl _))

theorem still_dumpRecs {z : State} (s : State) (ring : Nat) (ts : Word64) (set : Nat) (h : Still z s) :
    Still z (dumpRecs s ring ts set).1 := by
  unfold dumpRecs
  repeat' first
    | with_reducible assumption
    | with_reducible exact Still.refl _
    | dsimp only
    | with_reducible apply still_takeOrd
    | refine Still.snd ?_ (by assumption)
    | (with_reducible apply Still.foldFst; rotate_left; intro _ _)
    | with_reducible apply Still.ite
    | split

theorem keeps_dumpRecs {z : State} (s : State) (ring : Nat) (ts : Word64) (set : Nat) (h : Keeps z s) :
    Keeps z (dumpRecs s ring ts set).1 := h.step (still_dumpRecs s ring ts set (.refl _))

theorem still_runWait {z : State} (s : State) (c : RunCmd) (w : Wait) (h : Still z s) :
    Still z (runWait s c w) := by
  unfold runWait
  repeat' first
    | with_reducible assumption
    | dsimp only
    | fail_if_no_progress with_reducible apply Still.upd

theorem keeps_runWait {z : State} (s : State) (c : RunCmd) (w : Wait) (h : Keeps z s) :
    Keeps z (runWait s c w) := h.step (still_runWait s c w (.refl _))

theorem still_dumpNext {z : State} (s : State) (c : RunCmd) (ring : Nat) (ts : Word64) (next n : Nat) (r : Int) (h : Still z s) :
    Still z (dumpNext s c ring ts next n r) := by
  unfold dumpNext
  repeat' first
    | with_reducible assumption
    | with_reducible apply still_runWait
    | with_reducible apply still_ctxExtIssue
    | with_reducible apply still_completeCmd
    | with_reducible apply still_wrF
    | with_reducible apply Still.ite

theorem keeps_dumpNext {z : State} (s : State) (c : RunCmd) (ring : Nat) (ts : Word64) (next n : Nat) (r : Int) (h : Keeps z s) :
    Keeps z (dumpNext s c ring ts next n r) := h.step (still_dumpNext s c ring ts next n r (.refl _))

theorem still_dumpForm {z : State} (s : State) (set : Nat) (r : Int) (limit : Nat) (h : Still z s) :
    Still z (dumpForm s set r limit) := by
  unfold dumpForm
  repeat' first
    | with_reducible assumption
    | dsimp only
    | with_reducible apply still_dumpRecs
    | with_reducible apply still_ctxPurge
    | with_reducible apply still_dumpNext
    | with_reducible apply still_runWait
    | refine Still.fst ?_ (by assumption)
    | with_reducible apply Still.ite
    | split

theorem keeps_dumpForm {z : State} (s : State) (set : Nat) (r : Int) (limit : Nat) (h : Keeps z s) :
    Keeps z (dumpForm s set r limit) := h.step (still_dumpForm s set r limit (.refl _))

theorem still_ctxPerform {z : State} (s : State) (f : CtxFlight) (h : Still z s) :
    Still z (ctxPerform s f) := by
  unfold ctxPerform
  repeat' first
    | with_reducible assumption
    | dsimp only
    | with_reducible apply still_ctxRead
    | with_reducible apply still_dumpForm
    | with_reducible apply still_ctxPurge
    | with_reducible apply still_ctxOperate
    | with_reducible apply still_ctxReturn
    | refine Still.fst ?_ (by assumption)
    | with_reducible apply Still.ite

theorem keeps_ctxPerform {z : State} (s : State) (f : CtxFlight) (h : Keeps z s) :
    Keeps z (ctxPerform s f) := h.step (still_ctxPerform s f (.refl _))

theorem still_ctxFlightTick {z : State} (s : State) (h : Still z s) :
    Still z (ctxFlightTick s) := by
  unfold ctxFlightTick
  repeat' first
    | with_reducible assumption
    | with_reducible exact Still.refl _
    | dsimp only
    | fail_if_no_progress with_reducible apply Still.upd
    | with_reducible apply still_ctxPerform
    | (with_reducible apply Still.each; rotate_left; intro _ _)

theorem keeps_ctxFlightTick {z : State} (s : State) (h : Keeps z s) :
    Keeps z (ctxFlightTick s) := h.step (still_ctxFlightTick s (.refl _))

theorem keeps_dumpTick {z : State} (s : State) (c : RunCmd) (h : Keeps z s) :
    Keeps z (dumpTick s c) := by
  unfold dumpTick
  repeat' first
    | with_reducible assumption
    | dsimp only
    | with_reducible apply keeps_ringOffer
    | with_reducible apply keeps_dumpNext
    | with_reducible apply keeps_runWait
    | with_reducible apply keeps_ctxServe
    | with_reducible apply Keeps.ite
    | split

theorem still_dumpStart {z : State} (s : State) (m ring : Nat) (held : List Res) (h : Still z s) :
    Still z (dumpStart s m ring held) := by
  unfold dumpStart
  repeat' first
    | with_reducible assumption
    | dsimp only
    | with_reducible apply still_holdCmd
    | with_reducible apply still_ctxExtIssue
    | with_reducible apply still_wrF

theorem keeps_dumpStart {z : State} (s : State) (m ring : Nat) (held : List Res) (h : Keeps z s) :
    Keeps z (dumpStart s m ring held) := h.step (still_dumpStart s m ring held (.refl _))

end Sys2Proof.Machine
end

