-- ==== Sys2Proof/Laws/Frame/Microcode.lean ====
section
/-! SUPPORT. What the operations of Machine/Microcode.lean leave alone (Laws/Keeps.lean). -/

namespace Sys2Proof.Machine

theorem still_loadEngine {z : State} (s : State) (at_ : Nat) (image : List (BitVec 256)) (e : Nat) (h : Still z s) :
    Still z (loadEngine s at_ image e) := by
  unfold loadEngine
  repeat' first
    | with_reducible assumption
    | dsimp only
    | fail_if_no_progress with_reducible apply Still.upd
    | with_reducible apply still_modEng
    | with_reducible apply still_setRun
    | with_reducible apply still_engEnter
    | with_reducible apply Still.ite

theorem keeps_loadEngine {z : State} (s : State) (at_ : Nat) (image : List (BitVec 256)) (e : Nat) (h : Keeps z s) :
    Keeps z (loadEngine s at_ image e) := h.step (still_loadEngine s at_ image e (.refl _))

end Sys2Proof.Machine
end

