-- ==== Sys2Proof/Laws/Frame/Resources.lean ====
section
/-! SUPPORT. What the operations of Machine/Resources.lean leave alone (Laws/Keeps.lean). -/

namespace Sys2Proof.Machine

theorem still_keepEdges {z : State} (s : State) (e : Nat) (l : List EdgeRes) (h : Still z s) :
    Still z (keepEdges s e l) := by
  unfold keepEdges
  repeat' first
    | with_reducible assumption
    | with_reducible exact Still.refl _
    | dsimp only
    | fail_if_no_progress with_reducible apply Still.upd
    | with_reducible apply still_modEng
    | with_reducible apply still_ctrAdd
    | (with_reducible apply Still.each; rotate_left; intro _ _)
    | with_reducible apply Still.ite

theorem keeps_keepEdges {z : State} (s : State) (e : Nat) (l : List EdgeRes) (h : Keeps z s) :
    Keeps z (keepEdges s e l) := h.step (still_keepEdges s e l (.refl _))

theorem still_evalEngine {z : State} (s : State) (e : Nat) (tick : Tick) (recTick : Int) (ms : List MemberSlice) (last : Bool) (h : Still z s) :
    Still z (evalEngine s e tick recTick ms last) := by
  unfold evalEngine
  repeat' first
    | with_reducible assumption
    | with_reducible exact Still.refl _
    | dsimp only
    | fail_if_no_progress with_reducible apply Still.upd
    | with_reducible apply still_modEng
    | with_reducible apply still_keepEdges
    | with_reducible apply still_engEvent
    | with_reducible apply still_ctrAdd
    | (with_reducible apply Still.each; rotate_left; intro _ _)
    | with_reducible apply Still.ite

theorem keeps_evalEngine {z : State} (s : State) (e : Nat) (tick : Tick) (recTick : Int) (ms : List MemberSlice) (last : Bool) (h : Keeps z s) :
    Keeps z (evalEngine s e tick recTick ms last) := h.step (still_evalEngine s e tick recTick ms last (.refl _))

end Sys2Proof.Machine
end

