-- ==== Sys2Proof/Laws/Frame/Engines.lean ====
section
/-! SUPPORT. What the operations of Machine/Engines.lean leave alone (Laws/Keeps.lean). -/

namespace Sys2Proof.Machine

theorem still_cntStep {z : State} (s : State) (e i op : Nat) (auto : Bool) (h : Still z s) :
    Still z (cntStep s e i op auto) := by
  unfold cntStep
  repeat' first
    | with_reducible assumption
    | dsimp only
    | fail_if_no_progress with_reducible apply Still.upd
    | with_reducible apply still_wr48
    | with_reducible apply still_modEng
    | with_reducible apply Still.ite

theorem keeps_cntStep {z : State} (s : State) (e i op : Nat) (auto : Bool) (h : Keeps z s) :
    Keeps z (cntStep s e i op auto) := h.step (still_cntStep s e i op auto (.refl _))

theorem still_tmrRestore {z : State} (s : State) (e k : Nat) (h : Still z s) :
    Still z (tmrRestore s e k) := by
  unfold tmrRestore
  repeat' first
    | with_reducible assumption
    | dsimp only
    | with_reducible apply still_wrBit
    | with_reducible apply still_wr48
    | split

theorem keeps_tmrRestore {z : State} (s : State) (e k : Nat) (h : Keeps z s) :
    Keeps z (tmrRestore s e k) := h.step (still_tmrRestore s e k (.refl _))

theorem still_tmrStep {z : State} (s : State) (e k op : Nat) (h : Still z s) :
    Still z (tmrStep s e k op) := by
  unfold tmrStep
  repeat' first
    | with_reducible assumption
    | dsimp only
    | fail_if_no_progress with_reducible apply Still.upd
    | with_reducible apply still_tmrRestore
    | with_reducible apply still_modEng
    | with_reducible apply still_wrBit
    | with_reducible apply still_wr48
    | with_reducible apply Still.ite

theorem keeps_tmrStep {z : State} (s : State) (e k op : Nat) (h : Keeps z s) :
    Keeps z (tmrStep s e k op) := h.step (still_tmrStep s e k op (.refl _))

theorem still_tmrCount {z : State} (s : State) (e k : Nat) (h : Still z s) :
    Still z (tmrCount s e k) := by
  unfold tmrCount
  repeat' first
    | with_reducible assumption
    | dsimp only
    | with_reducible apply still_wrBit
    | with_reducible apply still_wr48
    | with_reducible apply Still.ite

theorem keeps_tmrCount {z : State} (s : State) (e k : Nat) (h : Keeps z s) :
    Keeps z (tmrCount s e k) := h.step (still_tmrCount s e k (.refl _))

theorem still_tmrTick {z : State} (s : State) (e : Nat) (h : Still z s) :
    Still z (tmrTick s e) := by
  unfold tmrTick
  repeat' first
    | with_reducible assumption
    | with_reducible exact Still.refl _
    | dsimp only
    | with_reducible apply still_tmrCount
    | (with_reducible apply Still.times; rotate_left; intro _ _)

theorem keeps_tmrTick {z : State} (s : State) (e : Nat) (h : Keeps z s) :
    Keeps z (tmrTick s e) := h.step (still_tmrTick s e (.refl _))

theorem still_timerLimit {z : State} (s : State) (e k : Nat) (h : Still z s) :
    Still z (timerLimit s e k) := by
  unfold timerLimit
  repeat' first
    | with_reducible assumption
    | dsimp only
    | fail_if_no_progress with_reducible apply Still.upd
    | with_reducible apply still_modEng
    | with_reducible apply still_tmrCount
    | with_reducible apply Still.ite

theorem keeps_timerLimit {z : State} (s : State) (e k : Nat) (h : Keeps z s) :
    Keeps z (timerLimit s e k) := h.step (still_timerLimit s e k (.refl _))

theorem still_snapLoad {z : State} (s : State) (e : Nat) (paused : Bool) (h : Still z s) :
    Still z (snapLoad s e paused) := by
  unfold snapLoad
  repeat' first
    | with_reducible assumption
    | with_reducible exact Still.refl _
    | dsimp only
    | with_reducible apply still_tmrTick
    | with_reducible apply still_wr64
    | with_reducible apply still_wr
    | (with_reducible apply Still.times; rotate_left; intro _ _)

theorem keeps_snapLoad {z : State} (s : State) (e : Nat) (paused : Bool) (h : Keeps z s) :
    Keeps z (snapLoad s e paused) := h.step (still_snapLoad s e paused (.refl _))

theorem still_noticeTake {z : State} (s : State) (e : Nat) (bitNo : Nat) (clr : Notices → Option Tick → Notices) (h : Still z s) :
    Still z (noticeTake s e bitNo clr) := by
  unfold noticeTake
  repeat' first
    | with_reducible assumption
    | dsimp only
    | fail_if_no_progress with_reducible apply Still.upd
    | with_reducible apply still_modEng
    | with_reducible apply still_engEvent

theorem keeps_noticeTake {z : State} (s : State) (e : Nat) (bitNo : Nat) (clr : Notices → Option Tick → Notices) (h : Keeps z s) :
    Keeps z (noticeTake s e bitNo clr) := h.step (still_noticeTake s e bitNo clr (.refl _))

theorem still_noticeStop {z : State} (s : State) (e : Nat) (h : Still z s) :
    Still z (noticeStop s e) := by
  unfold noticeStop
  repeat' first
    | with_reducible assumption
    | dsimp only
    | fail_if_no_progress with_reducible apply Still.upd
    | with_reducible apply still_modJob
    | with_reducible apply still_engEnter
    | with_reducible apply Still.ite
    | split

theorem keeps_noticeStop {z : State} (s : State) (e : Nat) (h : Keeps z s) :
    Keeps z (noticeStop s e) := h.step (still_noticeStop s e (.refl _))

theorem still_noticesApply {z : State} (s : State) (e : Nat) (x : Nat) (paused : Bool) (h : Still z s) :
    Still z (noticesApply s e x paused) := by
  unfold noticesApply
  repeat' first
    | with_reducible assumption
    | dsimp only
    | fail_if_no_progress with_reducible apply Still.upd
    | with_reducible apply still_noticeTake
    | with_reducible apply still_snapLoad
    | with_reducible apply still_engSetLevel
    | with_reducible apply still_modEng
    | with_reducible apply still_setRun
    | with_reducible apply still_noticeStop
    | with_reducible apply Still.ite

theorem keeps_noticesApply {z : State} (s : State) (e : Nat) (x : Nat) (paused : Bool) (h : Keeps z s) :
    Keeps z (noticesApply s e x paused) := h.step (still_noticesApply s e x paused (.refl _))

theorem still_noticeWrite {z : State} (s : State) (e : Nat) (m : Nat) (h : Still z s) :
    Still z (noticeWrite s e m) := by
  unfold noticeWrite
  repeat' first
    | with_reducible assumption
    | dsimp only
    | fail_if_no_progress with_reducible apply Still.upd
    | with_reducible apply still_modEng
    | with_reducible apply still_engEvent
    | with_reducible apply still_setRun
    | with_reducible apply Still.ite

theorem keeps_noticeWrite {z : State} (s : State) (e : Nat) (m : Nat) (h : Keeps z s) :
    Keeps z (noticeWrite s e m) := h.step (still_noticeWrite s e m (.refl _))

theorem still_noticesTick {z : State} (s : State) (e : Nat) (h : Still z s) :
    Still z (noticesTick s e) := by
  unfold noticesTick
  repeat' first
    | with_reducible assumption
    | dsimp only
    | fail_if_no_progress with_reducible apply Still.upd
    | with_reducible apply still_noticesApply
    | with_reducible apply still_engClearNotices
    | with_reducible apply still_modEng
    | with_reducible apply still_wrBit
    | with_reducible apply Still.ite

theorem keeps_noticesTick {z : State} (s : State) (e : Nat) (h : Keeps z s) :
    Keeps z (noticesTick s e) := h.step (still_noticesTick s e (.refl _))

theorem still_sliceMod {z : State} (s : State) (n : Nat) (t : Tick) (create : Bool) (f : Slice → Slice) (h : Still z s) :
    Still z (sliceMod s n t create f) := by
  unfold sliceMod
  repeat' first
    | with_reducible assumption
    | dsimp only
    | fail_if_no_progress with_reducible apply Still.upd
    | with_reducible apply still_setLane
    | with_reducible apply Still.ite

theorem keeps_sliceMod {z : State} (s : State) (n : Nat) (t : Tick) (create : Bool) (f : Slice → Slice) (h : Keeps z s) :
    Keeps z (sliceMod s n t create f) := h.step (still_sliceMod s n t create f (.refl _))

theorem still_replayMark {z : State} (s0 s : State) (e pc id : Nat) (recTick : Int) (trig : Bool) (h : Still z s) :
    Still z (replayMark s0 s e pc id recTick trig) := by
  unfold replayMark
  repeat' first
    | with_reducible assumption
    | dsimp only
    | fail_if_no_progress with_reducible apply Still.upd
    | with_reducible apply still_stageNew
    | with_reducible apply still_modJob
    | with_reducible apply Still.ite
    | split

theorem keeps_replayMark {z : State} (s0 s : State) (e pc id : Nat) (recTick : Int) (trig : Bool) (h : Keeps z s) :
    Keeps z (replayMark s0 s e pc id recTick trig) := h.step (still_replayMark s0 s e pc id recTick trig (.refl _))

theorem still_recordActions {z : State} (s0 s : State) (e pc : Nat) (u : MicroWord) (v : Eval) (h : Still z s) :
    Still z (recordActions s0 s e pc u v) := by
  unfold recordActions
  repeat' first
    | with_reducible assumption
    | with_reducible exact Still.refl _
    | dsimp only
    | fail_if_no_progress with_reducible apply Still.upd
    | with_reducible apply still_replayMark
    | with_reducible apply still_modJob
    | with_reducible apply still_sliceMod
    | with_reducible apply still_windowAction
    | with_reducible apply still_assertTrigger
    | (with_reducible apply Still.each; rotate_left; intro _ _)
    | with_reducible apply Still.ite
    | split

theorem keeps_recordActions {z : State} (s0 s : State) (e pc : Nat) (u : MicroWord) (v : Eval) (h : Keeps z s) :
    Keeps z (recordActions s0 s e pc u v) := h.step (still_recordActions s0 s e pc u v (.refl _))

theorem still_storeAction {z : State} (s : State) (e : Nat) (store : Nat) (v : Eval) (h : Still z s) :
    Still z (storeAction s e store v) := by
  unfold storeAction
  repeat' first
    | with_reducible assumption
    | with_reducible exact Still.refl _
    | dsimp only
    | fail_if_no_progress with_reducible apply Still.upd
    | with_reducible apply still_modEng
    | with_reducible apply still_sliceMod
    | (with_reducible apply Still.each; rotate_left; intro _ _)
    | with_reducible apply Still.ite

theorem keeps_storeAction {z : State} (s : State) (e : Nat) (store : Nat) (v : Eval) (h : Keeps z s) :
    Keeps z (storeAction s e store v) := h.step (still_storeAction s e store v (.refl _))

theorem still_contextAction {z : State} (s0 s : State) (e x : Nat) (u : MicroWord) (v : Eval) (h : Still z s) :
    Still z (contextAction s0 s e x u v) := by
  unfold contextAction
  repeat' first
    | with_reducible assumption
    | with_reducible apply still_ctxIssue
    | with_reducible apply Still.ite

theorem keeps_contextAction {z : State} (s0 s : State) (e x : Nat) (u : MicroWord) (v : Eval) (h : Keeps z s) :
    Keeps z (contextAction s0 s e x u v) := h.step (still_contextAction s0 s e x u v (.refl _))

theorem still_engFault {z : State} (s : State) (e : Nat) (h : Still z s) :
    Still z (engFault s e) := by
  unfold engFault
  repeat' first
    | with_reducible assumption
    | with_reducible exact Still.refl _
    | dsimp only
    | fail_if_no_progress with_reducible apply Still.upd
    | with_reducible apply still_engEvent
    | with_reducible apply still_engEnter
    | with_reducible apply still_modJob
    | with_reducible apply still_captureHalt
    | with_reducible apply still_closeOpen
    | (with_reducible apply Still.each; rotate_left; intro _ _)
    | with_reducible apply Still.ite
    | split

theorem keeps_engFault {z : State} (s : State) (e : Nat) (h : Keeps z s) :
    Keeps z (engFault s e) := h.step (still_engFault s e (.refl _))

theorem still_execWord {z : State} (s : State) (e : Nat) (u : MicroWord) (h : Still z s) :
    Still z (execWord s e u) := by
  unfold execWord
  extract_lets
  repeat' first
    | with_reducible assumption
    | with_reducible apply Still.ite
    | with_reducible apply still_setEng
    | with_reducible apply still_engEvent
    | with_reducible apply still_cntStep
    | with_reducible apply still_tmrStep
    | with_reducible apply still_engPub
    | with_reducible apply still_storeAction
    | with_reducible apply still_recordActions
    | with_reducible apply still_contextAction
    | with_reducible apply still_engSetLevel
    | with_reducible apply still_modTiu
    | with_reducible apply still_wrF
    | with_reducible apply still_setRun
    | with_reducible apply still_noticesApply
    | (with_reducible apply Still.each; rotate_left; intro _ _)
    | (with_reducible apply Still.times; rotate_left; intro _ _)
    | with_reducible exact Still.refl _
    | split

theorem keeps_execWord {z : State} (s : State) (e : Nat) (u : MicroWord) (h : Keeps z s) :
    Keeps z (execWord s e u) := h.step (still_execWord s e u (.refl _))

theorem still_engineWord {z : State} (s : State) (e op : Nat) (h : Still z s) :
    Still z (engineWord s e op) := by
  unfold engineWord
  repeat' first
    | with_reducible assumption
    | dsimp only
    | with_reducible apply still_engFault
    | with_reducible apply still_execWord
    | with_reducible apply still_engEvent
    | with_reducible apply still_ctrAdd
    | with_reducible apply Still.ite

theorem keeps_engineWord {z : State} (s : State) (e op : Nat) (h : Keeps z s) :
    Keeps z (engineWord s e op) := h.step (still_engineWord s e op (.refl _))

theorem still_engReset {z : State} (s : State) (e : Nat) (h : Still z s) :
    Still z (engReset s e) := by
  unfold engReset
  repeat' first
    | with_reducible assumption
    | dsimp only
    | fail_if_no_progress with_reducible apply Still.upd
    | with_reducible apply still_engStartValues
    | with_reducible apply still_engDiscard
    | with_reducible apply still_engClearNotices
    | with_reducible apply still_engEnter
    | with_reducible apply still_modEng
    | with_reducible apply Still.ite

theorem keeps_engReset {z : State} (s : State) (e : Nat) (h : Keeps z s) :
    Keeps z (engReset s e) := h.step (still_engReset s e (.refl _))

theorem still_pausedQual {z : State} (s : State) (e : Nat) (h : Still z s) :
    Still z (pausedQual s e) := by
  unfold pausedQual
  repeat' first
    | with_reducible assumption
    | with_reducible exact Still.refl _
    | dsimp only
    | fail_if_no_progress with_reducible apply Still.upd
    | with_reducible apply still_sliceMod
    | (with_reducible apply Still.each; rotate_left; intro _ _)
    | with_reducible apply Still.ite

theorem keeps_pausedQual {z : State} (s : State) (e : Nat) (h : Keeps z s) :
    Keeps z (pausedQual s e) := h.step (still_pausedQual s e (.refl _))

theorem still_pausedCount {z : State} (s : State) (e : Nat) (h : Still z s) :
    Still z (pausedCount s e) := by
  unfold pausedCount
  repeat' first
    | with_reducible assumption
    | with_reducible exact Still.refl _
    | dsimp only
    | with_reducible apply still_cntStep
    | (with_reducible apply Still.times; rotate_left; intro _ _)
    | with_reducible apply Still.ite

theorem keeps_pausedCount {z : State} (s : State) (e : Nat) (h : Keeps z s) :
    Keeps z (pausedCount s e) := h.step (still_pausedCount s e (.refl _))

theorem still_engHear {z : State} (s : State) (e : Nat) (h : Still z s) :
    Still z (engHear s e) := by
  unfold engHear
  repeat' first
    | with_reducible assumption
    | dsimp only
    | with_reducible apply still_evalEngine
    | with_reducible apply Still.ite

theorem keeps_engHear {z : State} (s : State) (e : Nat) (h : Keeps z s) :
    Keeps z (engHear s e) := h.step (still_engHear s e (.refl _))

theorem still_engTickEnd {z : State} (s : State) (e : Nat) (h : Still z s) :
    Still z (engTickEnd s e) := by
  unfold engTickEnd
  repeat' first
    | with_reducible assumption
    | dsimp only
    | fail_if_no_progress with_reducible apply Still.upd
    | with_reducible apply still_pausedCount
    | with_reducible apply still_pausedQual
    | with_reducible apply still_tmrTick
    | with_reducible apply still_modEng
    | with_reducible apply Still.ite

theorem keeps_engTickEnd {z : State} (s : State) (e : Nat) (h : Keeps z s) :
    Keeps z (engTickEnd s e) := h.step (still_engTickEnd s e (.refl _))

end Sys2Proof.Machine
end

