-- ==== Sys2Proof/Laws/Frame/Globals.lean ====
section
/-! SUPPORT. What the operations of Machine/Globals.lean leave alone (Laws/Keeps.lean). -/

namespace Sys2Proof.Machine

theorem still_globalQueue {z : State} (s : State) (due bitNo : Nat) (k : GKind) (h : Still z s) :
    Still z (globalQueue s due bitNo k) := by
  unfold globalQueue
  repeat' first
    | with_reducible assumption
    | dsimp only
    | fail_if_no_progress with_reducible apply Still.upd

theorem keeps_globalQueue {z : State} (s : State) (due bitNo : Nat) (k : GKind) (h : Keeps z s) :
    Keeps z (globalQueue s due bitNo k) := h.step (still_globalQueue s due bitNo k (.refl _))

theorem still_globalAt {z : State} (s : State) (due bitNo : Nat) (v : Bool) (h : Still z s) :
    Still z (globalAt s due bitNo v) := by
  unfold globalAt
  repeat' first
    | with_reducible assumption
    | with_reducible apply still_globalQueue

theorem keeps_globalAt {z : State} (s : State) (due bitNo : Nat) (v : Bool) (h : Keeps z s) :
    Keeps z (globalAt s due bitNo v) := h.step (still_globalAt s due bitNo v (.refl _))

theorem still_globalPulse {z : State} (s : State) (due bitNo : Nat) (h : Still z s) :
    Still z (globalPulse s due bitNo) := by
  unfold globalPulse
  repeat' first
    | with_reducible assumption
    | with_reducible apply still_globalQueue

theorem keeps_globalPulse {z : State} (s : State) (due bitNo : Nat) (h : Keeps z s) :
    Keeps z (globalPulse s due bitNo) := h.step (still_globalPulse s due bitNo (.refl _))

theorem still_globalTick {z : State} (s : State) (h : Still z s) :
    Still z (globalTick s) := by
  unfold globalTick
  repeat' first
    | with_reducible assumption
    | with_reducible exact Still.refl _
    | dsimp only
    | fail_if_no_progress with_reducible apply Still.upd

theorem keeps_globalTick {z : State} (s : State) (h : Keeps z s) :
    Keeps z (globalTick s) := h.step (still_globalTick s (.refl _))

theorem still_trigInSample {z : State} (s : State) (h : Still z s) :
    Still z (trigInSample s) := by
  unfold trigInSample
  repeat' first
    | with_reducible assumption
    | dsimp only
    | fail_if_no_progress with_reducible apply Still.upd
    | with_reducible apply Still.ite

theorem keeps_trigInSample {z : State} (s : State) (h : Keeps z s) :
    Keeps z (trigInSample s) := h.step (still_trigInSample s (.refl _))

theorem still_trigIn {z : State} (s : State) (p : Nat) (level : Bool) (h : Still z s) :
    Still z (trigIn s p level) := by
  unfold trigIn
  repeat' first
    | with_reducible assumption
    | dsimp only
    | fail_if_no_progress with_reducible apply Still.upd

theorem keeps_trigIn {z : State} (s : State) (p : Nat) (level : Bool) (h : Keeps z s) :
    Keeps z (trigIn s p level) := h.step (still_trigIn s p level (.refl _))

theorem still_gforceWrite {z : State} (s : State) (v : BitVec 8) (h : Still z s) :
    Still z (gforceWrite s v) := by
  unfold gforceWrite
  repeat' first
    | with_reducible assumption
    | with_reducible exact Still.refl _
    | dsimp only
    | fail_if_no_progress with_reducible apply Still.upd
    | with_reducible apply still_globalAt
    | (with_reducible apply Still.times; rotate_left; intro _ _)
    | with_reducible apply Still.ite

theorem keeps_gforceWrite {z : State} (s : State) (v : BitVec 8) (h : Keeps z s) :
    Keeps z (gforceWrite s v) := h.step (still_gforceWrite s v (.refl _))

theorem still_trigOutQueue {z : State} (s : State) (p due : Nat) (v : Bool) (h : Still z s) :
    Still z (trigOutQueue s p due v) := by
  unfold trigOutQueue
  repeat' first
    | with_reducible assumption
    | with_reducible exact Still.refl _
    | dsimp only
    | fail_if_no_progress with_reducible apply Still.upd
    | with_reducible apply still_drawFree

theorem keeps_trigOutQueue {z : State} (s : State) (p due : Nat) (v : Bool) (h : Keeps z s) :
    Keeps z (trigOutQueue s p due v) := h.step (still_trigOutQueue s p due v (.refl _))

theorem still_trigOutSample {z : State} (s : State) (p : Nat) (h : Still z s) :
    Still z (trigOutSample s p) := by
  unfold trigOutSample
  repeat' first
    | with_reducible assumption
    | dsimp only
    | fail_if_no_progress with_reducible apply Still.upd
    | with_reducible apply still_trigOutQueue
    | with_reducible apply Still.ite

theorem keeps_trigOutSample {z : State} (s : State) (p : Nat) (h : Keeps z s) :
    Keeps z (trigOutSample s p) := h.step (still_trigOutSample s p (.refl _))

theorem still_trigOutPulse {z : State} (s : State) (t : Nat) (h : Still z s) :
    Still z (trigOutPulse s t) := by
  unfold trigOutPulse
  repeat' first
    | with_reducible assumption
    | with_reducible exact Still.refl _
    | dsimp only
    | with_reducible apply still_trigOutQueue
    | (with_reducible apply Still.times; rotate_left; intro _ _)
    | with_reducible apply Still.ite

theorem keeps_trigOutPulse {z : State} (s : State) (t : Nat) (h : Keeps z s) :
    Keeps z (trigOutPulse s t) := h.step (still_trigOutPulse s t (.refl _))

theorem still_pinSet {z : State} (s : State) (p : Nat) (v : Bool) (h : Still z s) :
    Still z (pinSet s p v) := by
  unfold pinSet
  repeat' first
    | with_reducible assumption
    | dsimp only
    | fail_if_no_progress with_reducible apply Still.upd

theorem keeps_pinSet {z : State} (s : State) (p : Nat) (v : Bool) (h : Keeps z s) :
    Keeps z (pinSet s p v) := h.step (still_pinSet s p v (.refl _))

theorem still_pinFollow {z : State} (s : State) (p : Nat) (h : Still z s) :
    Still z (pinFollow s p) := by
  unfold pinFollow
  repeat' first
    | with_reducible assumption
    | dsimp only
    | fail_if_no_progress with_reducible apply Still.upd
    | with_reducible apply still_pinSet
    | with_reducible apply Still.ite

theorem keeps_pinFollow {z : State} (s : State) (p : Nat) (h : Keeps z s) :
    Keeps z (pinFollow s p) := h.step (still_pinFollow s p (.refl _))

theorem still_trigOutTick {z : State} (s : State) (h : Still z s) :
    Still z (trigOutTick s) := by
  unfold trigOutTick
  repeat' first
    | with_reducible assumption
    | with_reducible exact Still.refl _
    | dsimp only
    | fail_if_no_progress with_reducible apply Still.upd
    | with_reducible apply still_pinFollow
    | (with_reducible apply Still.times; rotate_left; intro _ _)

theorem keeps_trigOutTick {z : State} (s : State) (h : Keeps z s) :
    Keeps z (trigOutTick s) := h.step (still_trigOutTick s (.refl _))

theorem still_trigPulseEnd {z : State} (s : State) (p : Nat) (h : Still z s) :
    Still z (trigPulseEnd s p) := by
  unfold trigPulseEnd
  repeat' first
    | with_reducible assumption
    | dsimp only
    | fail_if_no_progress with_reducible apply Still.upd
    | with_reducible apply still_pinSet
    | with_reducible apply Still.ite

theorem keeps_trigPulseEnd {z : State} (s : State) (p : Nat) (h : Keeps z s) :
    Keeps z (trigPulseEnd s p) := h.step (still_trigPulseEnd s p (.refl _))

theorem still_trigOutEnd {z : State} (s : State) (p : Nat) (h : Still z s) :
    Still z (trigOutEnd s p) := by
  unfold trigOutEnd
  repeat' first
    | with_reducible assumption
    | with_reducible apply still_trigOutSample
    | with_reducible apply still_trigPulseEnd

theorem keeps_trigOutEnd {z : State} (s : State) (p : Nat) (h : Keeps z s) :
    Keeps z (trigOutEnd s p) := h.step (still_trigOutEnd s p (.refl _))

theorem still_decideTriggers {z : State} (s : State) (h : Still z s) :
    Still z (decideTriggers s) := by
  unfold decideTriggers
  repeat' first
    | with_reducible assumption
    | with_reducible exact Still.refl _
    | dsimp only
    | with_reducible apply still_triggerDecide
    | with_reducible apply still_trigOutPulse
    | (with_reducible apply Still.each; rotate_left; intro _ _)

theorem keeps_decideTriggers {z : State} (s : State) (h : Keeps z s) :
    Keeps z (decideTriggers s) := h.step (still_decideTriggers s (.refl _))

end Sys2Proof.Machine
end

