-- ==== Sys2Proof/Laws/Frame/Tiu.lean ====
section
/-! SUPPORT. What the operations of Machine/Tiu.lean leave alone (Laws/Keeps.lean). -/

namespace Sys2Proof.Machine

theorem still_setTiuState {z : State} (s : State) (i v : Nat) (h : Still z s) :
    Still z (setTiuState s i v) := by
  unfold setTiuState
  repeat' first
    | with_reducible assumption
    | with_reducible apply still_wrF

theorem keeps_setTiuState {z : State} (s : State) (i v : Nat) (h : Keeps z s) :
    Keeps z (setTiuState s i v) := h.step (still_setTiuState s i v (.refl _))

theorem still_tiuRaw {z : State} (s : State) (i : Nat) (c2 : Nat) (n : Nat) (h : Still z s) :
    Still z (tiuRaw s i c2 n).2 := by
  unfold tiuRaw
  repeat' first
    | with_reducible assumption
    | dsimp only
    | with_reducible apply still_drawFree

theorem keeps_tiuRaw {z : State} (s : State) (i : Nat) (c2 : Nat) (n : Nat) (h : Keeps z s) :
    Keeps z (tiuRaw s i c2 n).2 := h.step (still_tiuRaw s i c2 n (.refl _))

theorem still_tiuPulse {z : State} (s : State) (kind i due : Nat) (h : Still z s) :
    Still z (tiuPulse s kind i due) := by
  unfold tiuPulse
  repeat' first
    | with_reducible assumption
    | with_reducible exact Still.refl _
    | dsimp only
    | with_reducible apply still_globalPulse
    | (with_reducible apply Still.each; rotate_left; intro _ _)

theorem keeps_tiuPulse {z : State} (s : State) (kind i due : Nat) (h : Keeps z s) :
    Keeps z (tiuPulse s kind i due) := h.step (still_tiuPulse s kind i due (.refl _))

theorem still_stampOpen {z : State} (s : State) (i : Nat) (o : OpenRec) (es : List (List Word64)) (h : Still z s) :
    Still z (stampOpen s i o es) := by
  unfold stampOpen
  repeat' first
    | with_reducible assumption
    | dsimp only
    | fail_if_no_progress with_reducible apply Still.upd
    | with_reducible apply still_modStr

theorem keeps_stampOpen {z : State} (s : State) (i : Nat) (o : OpenRec) (es : List (List Word64)) (h : Keeps z s) :
    Keeps z (stampOpen s i o es) := h.step (still_stampOpen s i o es (.refl _))

theorem still_stampForm {z : State} (s : State) (i : Nat) (k : Int) (h : Still z s) :
    Still z (stampForm s i k) := by
  unfold stampForm
  repeat' first
    | with_reducible assumption
    | dsimp only
    | fail_if_no_progress with_reducible apply Still.upd
    | with_reducible apply still_stampOpen
    | with_reducible apply still_closeOpen
    | with_reducible apply still_trigsBefore
    | with_reducible apply Still.ite
    | split

theorem keeps_stampForm {z : State} (s : State) (i : Nat) (k : Int) (h : Keeps z s) :
    Keeps z (stampForm s i k) := h.step (still_stampForm s i k (.refl _))

theorem still_stampEntry {z : State} (s : State) (i : Nat) (ts : Int) (kind : Nat) (ws : List Word64) (h : Still z s) :
    Still z (stampEntry s i ts kind ws) := by
  unfold stampEntry
  repeat' first
    | with_reducible assumption
    | dsimp only
    | with_reducible apply still_otherAdd
    | with_reducible apply still_stampForm
    | with_reducible apply Still.ite

theorem keeps_stampEntry {z : State} (s : State) (i : Nat) (ts : Int) (kind : Nat) (ws : List Word64) (h : Keeps z s) :
    Keeps z (stampEntry s i ts kind ws) := h.step (still_stampEntry s i ts kind ws (.refl _))

theorem still_tiuStage {z : State} (s : State) (i : Nat) (r : TiuRec) (h : Still z s) :
    Still z (tiuStage s i r) := by
  unfold tiuStage
  repeat' first
    | with_reducible assumption
    | dsimp only
    | with_reducible apply still_stageOther

theorem keeps_tiuStage {z : State} (s : State) (i : Nat) (r : TiuRec) (h : Keeps z s) :
    Keeps z (tiuStage s i r) := h.step (still_tiuStage s i r (.refl _))

theorem still_tiuRecord {z : State} (s : State) (i : Nat) (typ : BitVec 4) (ts : Int) (words : List Word64) (h : Still z s) :
    Still z (tiuRecord s i typ ts words) := by
  unfold tiuRecord
  repeat' first
    | with_reducible assumption
    | dsimp only
    | fail_if_no_progress with_reducible apply Still.upd
    | with_reducible apply still_modTiu
    | with_reducible apply still_tiuStage
    | with_reducible apply Still.ite

theorem keeps_tiuRecord {z : State} (s : State) (i : Nat) (typ : BitVec 4) (ts : Int) (words : List Word64) (h : Keeps z s) :
    Keeps z (tiuRecord s i typ ts words) := h.step (still_tiuRecord s i typ ts words (.refl _))

theorem still_stampEnd {z : State} (s : State) (i : Nat) (h : Still z s) :
    Still z (stampEnd s i) := by
  unfold stampEnd
  repeat' first
    | with_reducible assumption
    | dsimp only
    | fail_if_no_progress with_reducible apply Still.upd
    | with_reducible apply still_modTiu
    | with_reducible apply still_closeOpen
    | with_reducible apply Still.ite
    | split

theorem keeps_stampEnd {z : State} (s : State) (i : Nat) (h : Keeps z s) :
    Keeps z (stampEnd s i) := h.step (still_stampEnd s i (.refl _))

theorem still_holdPass {z : State} (s : State) (i : Nat) (r : TiuRec) (h : Still z s) :
    Still z (holdPass s i r) := by
  unfold holdPass
  repeat' first
    | with_reducible assumption
    | dsimp only
    | with_reducible apply still_closeOpen
    | with_reducible apply still_trigsBefore
    | with_reducible apply still_tiuStage
    | with_reducible apply Still.ite
    | split

theorem keeps_holdPass {z : State} (s : State) (i : Nat) (r : TiuRec) (h : Keeps z s) :
    Keeps z (holdPass s i r) := h.step (still_holdPass s i r (.refl _))

theorem still_holdTick {z : State} (s : State) (i : Nat) (k : Int) (h : Still z s) :
    Still z (holdTick s i k) := by
  unfold holdTick
  repeat' first
    | with_reducible assumption
    | with_reducible exact Still.refl _
    | dsimp only
    | fail_if_no_progress with_reducible apply Still.upd
    | with_reducible apply still_modTiu
    | with_reducible apply still_holdPass
    | (with_reducible apply Still.each; rotate_left; intro _ _)

theorem keeps_holdTick {z : State} (s : State) (i : Nat) (k : Int) (h : Keeps z s) :
    Keeps z (holdTick s i k) := h.step (still_holdTick s i k (.refl _))

theorem still_tiuEnd {z : State} (s : State) (i cause st : Nat) (h : Still z s) :
    Still z (tiuEnd s i cause st) := by
  unfold tiuEnd
  repeat' first
    | with_reducible assumption
    | with_reducible exact Still.refl _
    | dsimp only
    | fail_if_no_progress with_reducible apply Still.upd
    | with_reducible apply still_ctrAdd
    | with_reducible apply still_drawFree
    | with_reducible apply still_stampEnd
    | with_reducible apply still_tiuRecord
    | with_reducible apply still_wr64
    | with_reducible apply still_tiuEvent
    | with_reducible apply still_wrF
    | with_reducible apply still_tiuPulse
    | with_reducible apply still_modTiu
    | with_reducible apply still_setTiuState
    | refine Still.snd ?_ (by assumption)
    | (with_reducible apply Still.each; rotate_left; intro _ _)
    | with_reducible apply Still.ite

theorem keeps_tiuEnd {z : State} (s : State) (i cause st : Nat) (h : Keeps z s) :
    Keeps z (tiuEnd s i cause st) := h.step (still_tiuEnd s i cause st (.refl _))

theorem still_tiuGateOpen {z : State} (s : State) (i : Nat) (h : Still z s) :
    Still z (tiuGateOpen s i) := by
  unfold tiuGateOpen
  repeat' first
    | with_reducible assumption
    | with_reducible exact Still.refl _
    | dsimp only
    | fail_if_no_progress with_reducible apply Still.upd
    | with_reducible apply still_wr
    | with_reducible apply still_wrF
    | with_reducible apply still_setTiuState
    | with_reducible apply still_modTiu
    | (with_reducible apply Still.each; rotate_left; intro _ _)
    | (with_reducible apply Still.fold; rotate_left; intro _ _)
    | with_reducible apply Still.ite

theorem keeps_tiuGateOpen {z : State} (s : State) (i : Nat) (h : Keeps z s) :
    Keeps z (tiuGateOpen s i) := h.step (still_tiuGateOpen s i (.refl _))

theorem still_tiuCount {z : State} (s : State) (i : Nat) (h : Still z s) :
    Still z (tiuCount s i) := by
  unfold tiuCount
  repeat' first
    | with_reducible assumption
    | dsimp only
    | with_reducible apply still_wrF
    | with_reducible apply still_tiuEnd
    | with_reducible apply Still.ite

theorem keeps_tiuCount {z : State} (s : State) (i : Nat) (h : Keeps z s) :
    Keeps z (tiuCount s i) := h.step (still_tiuCount s i (.refl _))

theorem still_tiuResult {z : State} (s : State) (i : Nat) (st d : Int) (coin win : Bool) (h : Still z s) :
    Still z (tiuResult s i st d coin win) := by
  unfold tiuResult
  repeat' first
    | with_reducible assumption
    | dsimp only
    | fail_if_no_progress with_reducible apply Still.upd
    | with_reducible apply still_wr64
    | with_reducible apply still_setTiu
    | with_reducible apply still_ctrAdd
    | with_reducible apply still_tiuEvent
    | with_reducible apply still_tiuPulse
    | with_reducible apply still_stampEntry
    | with_reducible apply still_tiuCount
    | with_reducible apply Still.ite

theorem keeps_tiuResult {z : State} (s : State) (i : Nat) (st d : Int) (coin win : Bool) (h : Keeps z s) :
    Keeps z (tiuResult s i st d coin win) := h.step (still_tiuResult s i st d coin win (.refl _))

theorem still_tiuStopEdge {z : State} (s : State) (i : Nat) (p : Int) (h : Still z s) :
    Still z (tiuStopEdge s i p) := by
  unfold tiuStopEdge
  repeat' first
    | with_reducible assumption
    | dsimp only
    | fail_if_no_progress with_reducible apply Still.upd
    | with_reducible apply still_ctrAdd
    | with_reducible apply still_tiuPulse
    | with_reducible apply still_tiuEvent
    | with_reducible apply still_tiuResult
    | with_reducible apply still_setTiu
    | with_reducible apply Still.ite
    | split

theorem keeps_tiuStopEdge {z : State} (s : State) (i : Nat) (p : Int) (h : Keeps z s) :
    Keeps z (tiuStopEdge s i p) := h.step (still_tiuStopEdge s i p (.refl _))

theorem still_tiuPairEdge {z : State} (s : State) (i : Nat) (p : Int) (opens : Bool) (h : Still z s) :
    Still z (tiuPairEdge s i p opens) := by
  unfold tiuPairEdge
  repeat' first
    | with_reducible assumption
    | dsimp only
    | fail_if_no_progress with_reducible apply Still.upd
    | with_reducible apply still_setTiu
    | with_reducible apply still_tiuResult
    | with_reducible apply Still.ite
    | split

theorem keeps_tiuPairEdge {z : State} (s : State) (i : Nat) (p : Int) (opens : Bool) (h : Keeps z s) :
    Keeps z (tiuPairEdge s i p opens) := h.step (still_tiuPairEdge s i p opens (.refl _))

theorem still_tiuFreqEdge {z : State} (s : State) (i : Nat) (p : Int) (h : Still z s) :
    Still z (tiuFreqEdge s i p) := by
  unfold tiuFreqEdge
  repeat' first
    | with_reducible assumption
    | dsimp only
    | fail_if_no_progress with_reducible apply Still.upd
    | with_reducible apply still_modTiu
    | with_reducible apply still_tiuCount

theorem keeps_tiuFreqEdge {z : State} (s : State) (i : Nat) (p : Int) (h : Keeps z s) :
    Keeps z (tiuFreqEdge s i p) := h.step (still_tiuFreqEdge s i p (.refl _))

theorem still_tiuStartEdge {z : State} (s : State) (i : Nat) (p : Int) (rising : Bool) (h : Still z s) :
    Still z (tiuStartEdge s i p rising) := by
  unfold tiuStartEdge
  repeat' first
    | with_reducible assumption
    | dsimp only
    | fail_if_no_progress with_reducible apply Still.upd
    | with_reducible apply still_tiuCount
    | with_reducible apply still_stampEntry
    | with_reducible apply still_ctrAdd
    | with_reducible apply still_setTiu
    | with_reducible apply still_tiuPairEdge
    | with_reducible apply still_tiuFreqEdge
    | with_reducible apply Still.ite

theorem keeps_tiuStartEdge {z : State} (s : State) (i : Nat) (p : Int) (rising : Bool) (h : Keeps z s) :
    Keeps z (tiuStartEdge s i p rising) := h.step (still_tiuStartEdge s i p rising (.refl _))

theorem still_stampRequestEnd {z : State} (s : State) (i : Nat) (p : Option Int) (h : Still z s) :
    Still z (stampRequestEnd s i p) := by
  unfold stampRequestEnd
  repeat' first
    | with_reducible assumption
    | dsimp only
    | fail_if_no_progress with_reducible apply Still.upd
    | with_reducible apply still_setTiuState
    | with_reducible apply still_setTiu
    | with_reducible apply still_tiuEvent
    | with_reducible apply still_tiuRecord
    | with_reducible apply Still.ite

theorem keeps_stampRequestEnd {z : State} (s : State) (i : Nat) (p : Option Int) (h : Keeps z s) :
    Keeps z (stampRequestEnd s i p) := h.step (still_stampRequestEnd s i p (.refl _))

theorem still_tiuSkip {z : State} (s : State) (i : Nat) (h : Still z s) :
    Still z (tiuSkip s i) := by
  unfold tiuSkip
  repeat' first
    | with_reducible assumption
    | dsimp only
    | fail_if_no_progress with_reducible apply Still.upd
    | with_reducible apply still_modTiu
    | with_reducible apply still_ctrAdd

theorem keeps_tiuSkip {z : State} (s : State) (i : Nat) (h : Keeps z s) :
    Keeps z (tiuSkip s i) := h.step (still_tiuSkip s i (.refl _))

theorem still_tiuJudgeEdge {z : State} (s : State) (i : Nat) (e : TiuEdge) (h : Still z s) :
    Still z (tiuJudgeEdge s i e) := by
  unfold tiuJudgeEdge
  repeat' first
    | with_reducible assumption
    | dsimp only
    | fail_if_no_progress with_reducible apply Still.upd
    | with_reducible apply still_tiuRaw
    | with_reducible apply still_tiuSkip
    | with_reducible apply still_wr64
    | with_reducible apply still_modTiu
    | with_reducible apply still_tiuPulse
    | with_reducible apply still_stampRequestEnd
    | with_reducible apply still_tiuStopEdge
    | with_reducible apply still_tiuStartEdge
    | refine Still.snd ?_ (by assumption)
    | with_reducible apply Still.ite
    | split

theorem keeps_tiuJudgeEdge {z : State} (s : State) (i : Nat) (e : TiuEdge) (h : Keeps z s) :
    Keeps z (tiuJudgeEdge s i e) := h.step (still_tiuJudgeEdge s i e (.refl _))

theorem still_tiuJudge {z : State} (s : State) (i : Nat) (h : Still z s) :
    Still z (tiuJudge s i) := by
  unfold tiuJudge
  repeat' first
    | with_reducible assumption
    | with_reducible exact Still.refl _
    | dsimp only
    | fail_if_no_progress with_reducible apply Still.upd
    | with_reducible apply still_setTiu
    | with_reducible apply still_tiuJudgeEdge
    | (with_reducible apply Still.each; rotate_left; intro _ _)
    | with_reducible apply Still.ite

theorem keeps_tiuJudge {z : State} (s : State) (i : Nat) (h : Keeps z s) :
    Keeps z (tiuJudge s i) := h.step (still_tiuJudge s i (.refl _))

theorem still_tiuJudgeAll {z : State} (s : State) (h : Still z s) :
    Still z (tiuJudgeAll s) := by
  unfold tiuJudgeAll
  repeat' first
    | with_reducible assumption
    | with_reducible exact Still.refl _
    | dsimp only
    | with_reducible apply still_tiuJudge
    | (with_reducible apply Still.each; rotate_left; intro _ _)

theorem keeps_tiuJudgeAll {z : State} (s : State) (h : Keeps z s) :
    Keeps z (tiuJudgeAll s) := h.step (still_tiuJudgeAll s (.refl _))

theorem still_tiuSample {z : State} (s : State) (h : Still z s) :
    Still z (tiuSample s) := by
  unfold tiuSample
  repeat' first
    | with_reducible assumption
    | with_reducible exact Still.refl _
    | dsimp only
    | fail_if_no_progress with_reducible apply Still.upd
    | with_reducible apply still_globalAt
    | (with_reducible apply Still.times; rotate_left; intro _ _)
    | with_reducible apply Still.ite

theorem keeps_tiuSample {z : State} (s : State) (h : Keeps z s) :
    Keeps z (tiuSample s) := h.step (still_tiuSample s (.refl _))

theorem still_tiuTickEnd {z : State} (s : State) (h : Still z s) :
    Still z (tiuTickEnd s) := by
  unfold tiuTickEnd
  repeat' first
    | with_reducible assumption
    | with_reducible apply still_tiuSample
    | with_reducible apply still_tiuJudgeAll

theorem keeps_tiuTickEnd {z : State} (s : State) (h : Keeps z s) :
    Keeps z (tiuTickEnd s) := h.step (still_tiuTickEnd s (.refl _))

theorem still_tiuLevel {z : State} (s : State) (i : Nat) (rising passed : Bool) (h : Still z s) :
    Still z (tiuLevel s i rising passed) := by
  unfold tiuLevel
  repeat' first
    | with_reducible assumption
    | dsimp only
    | fail_if_no_progress with_reducible apply Still.upd
    | with_reducible apply still_modTiu
    | with_reducible apply still_drawFree
    | refine Still.snd ?_ (by assumption)
    | with_reducible apply Still.ite

theorem keeps_tiuLevel {z : State} (s : State) (i : Nat) (rising passed : Bool) (h : Keeps z s) :
    Keeps z (tiuLevel s i rising passed) := h.step (still_tiuLevel s i rising passed (.refl _))

theorem still_ptiEdge {z : State} (s : State) (i : Nat) (rising : Bool) (phase code : Nat) (h : Still z s) :
    Still z (ptiEdge s i rising phase code) := by
  unfold ptiEdge
  repeat' first
    | with_reducible assumption
    | dsimp only
    | fail_if_no_progress with_reducible apply Still.upd
    | with_reducible apply still_tiuLevel
    | with_reducible apply still_modTiu
    | with_reducible apply Still.ite

theorem keeps_ptiEdge {z : State} (s : State) (i : Nat) (rising : Bool) (phase code : Nat) (h : Keeps z s) :
    Keeps z (ptiEdge s i rising phase code) := h.step (still_ptiEdge s i rising phase code (.refl _))

theorem still_tiuGateClose {z : State} (sIn : State) (i : Nat) (h : Still z sIn) :
    Still z (tiuGateClose sIn i) := by
  unfold tiuGateClose
  repeat' first
    | with_reducible assumption
    | dsimp only
    | with_reducible apply still_tiuJudgeAll
    | with_reducible apply still_tiuEnd
    | with_reducible apply Still.ite

theorem keeps_tiuGateClose {z : State} (sIn : State) (i : Nat) (h : Keeps z sIn) :
    Keeps z (tiuGateClose sIn i) := h.step (still_tiuGateClose sIn i (.refl _))

theorem still_tiuNoStop {z : State} (sIn : State) (i : Nat) (h : Still z sIn) :
    Still z (tiuNoStop sIn i) := by
  unfold tiuNoStop
  repeat' first
    | with_reducible assumption
    | dsimp only
    | fail_if_no_progress with_reducible apply Still.upd
    | with_reducible apply still_tiuJudgeAll
    | with_reducible apply still_ctrAdd
    | with_reducible apply still_setTiu
    | with_reducible apply Still.ite
    | split

theorem keeps_tiuNoStop {z : State} (sIn : State) (i : Nat) (h : Keeps z sIn) :
    Keeps z (tiuNoStop sIn i) := h.step (still_tiuNoStop sIn i (.refl _))

theorem still_tiuWinChanged {z : State} (s : State) (i : Nat) (h : Still z s) :
    Still z (tiuWinChanged s i) := by
  unfold tiuWinChanged
  repeat' first
    | with_reducible assumption
    | dsimp only
    | fail_if_no_progress with_reducible apply Still.upd
    | with_reducible apply still_tiuEvent
    | with_reducible apply still_wrF
    | with_reducible apply still_modTiu
    | with_reducible apply Still.ite

theorem keeps_tiuWinChanged {z : State} (s : State) (i : Nat) (h : Keeps z s) :
    Keeps z (tiuWinChanged s i) := h.step (still_tiuWinChanged s i (.refl _))

theorem still_stampTimeout {z : State} (sIn : State) (i : Nat) (h : Still z sIn) :
    Still z (stampTimeout sIn i) := by
  unfold stampTimeout
  repeat' first
    | with_reducible assumption
    | dsimp only
    | with_reducible apply still_tiuJudgeAll
    | with_reducible apply still_stampRequestEnd
    | with_reducible apply Still.ite
    | split

theorem keeps_stampTimeout {z : State} (sIn : State) (i : Nat) (h : Keeps z sIn) :
    Keeps z (stampTimeout sIn i) := h.step (still_stampTimeout sIn i (.refl _))

theorem still_tiuCalDone {z : State} (s : State) (i n1 n2 : Nat) (h : Still z s) :
    Still z (tiuCalDone s i n1 n2) := by
  unfold tiuCalDone
  repeat' first
    | with_reducible assumption
    | dsimp only
    | fail_if_no_progress with_reducible apply Still.upd
    | with_reducible apply still_setTiuState
    | with_reducible apply still_modTiu
    | with_reducible apply still_wr
    | with_reducible apply still_tiuEvent
    | with_reducible apply Still.ite

theorem keeps_tiuCalDone {z : State} (s : State) (i n1 n2 : Nat) (h : Keeps z s) :
    Keeps z (tiuCalDone s i n1 n2) := h.step (still_tiuCalDone s i n1 n2 (.refl _))

theorem still_tiuCalStart {z : State} (s : State) (i : Nat) (h : Still z s) :
    Still z (tiuCalStart s i) := by
  unfold tiuCalStart
  repeat' first
    | with_reducible assumption
    | dsimp only
    | fail_if_no_progress with_reducible apply Still.upd
    | with_reducible apply still_modTiu
    | with_reducible apply still_setTiuState

theorem keeps_tiuCalStart {z : State} (s : State) (i : Nat) (h : Keeps z s) :
    Keeps z (tiuCalStart s i) := h.step (still_tiuCalStart s i (.refl _))

theorem still_tiuLocked {z : State} (s : State) (h : Still z s) :
    Still z (tiuLocked s) := by
  unfold tiuLocked
  repeat' first
    | with_reducible assumption
    | with_reducible exact Still.refl _
    | with_reducible apply still_tiuCalStart
    | (with_reducible apply Still.times; rotate_left; intro _ _)

theorem keeps_tiuLocked {z : State} (s : State) (h : Keeps z s) :
    Keeps z (tiuLocked s) := h.step (still_tiuLocked s (.refl _))

theorem still_tiuCmdFault {z : State} (s : State) (c : RunCmd) (h : Still z s) :
    Still z (tiuCmdFault s c) := by
  unfold tiuCmdFault
  repeat' first
    | with_reducible assumption
    | dsimp only
    | with_reducible apply still_completeCmd
    | split

theorem keeps_tiuCmdFault {z : State} (s : State) (c : RunCmd) (h : Keeps z s) :
    Keeps z (tiuCmdFault s c) := h.step (still_tiuCmdFault s c (.refl _))

theorem still_requestDrop {z : State} (s : State) (i n : Nat) (h : Still z s) :
    Still z (requestDrop s i n) := by
  unfold requestDrop
  repeat' first
    | with_reducible assumption
    | with_reducible apply still_tiuEvent
    | with_reducible apply still_ctrAdd
    | with_reducible apply Still.ite

theorem keeps_requestDrop {z : State} (s : State) (i n : Nat) (h : Keeps z s) :
    Keeps z (requestDrop s i n) := h.step (still_requestDrop s i n (.refl _))

theorem still_requestLost {z : State} (s : State) (i : Nat) (h : Still z s) :
    Still z (requestLost s i) := by
  unfold requestLost
  repeat' first
    | with_reducible assumption
    | dsimp only
    | fail_if_no_progress with_reducible apply Still.upd
    | with_reducible apply still_requestDrop
    | with_reducible apply still_modTiu
    | with_reducible apply Still.ite

theorem keeps_requestLost {z : State} (s : State) (i : Nat) (h : Keeps z s) :
    Keeps z (requestLost s i) := h.step (still_requestLost s i (.refl _))

theorem still_tiuNoClock {z : State} (s : State) (h : Still z s) :
    Still z (tiuNoClock s) := by
  unfold tiuNoClock
  repeat' first
    | with_reducible assumption
    | with_reducible exact Still.refl _
    | dsimp only
    | fail_if_no_progress with_reducible apply Still.upd
    | with_reducible apply still_tiuEnd
    | with_reducible apply still_modTiu
    | with_reducible apply still_setTiuState
    | with_reducible apply still_requestLost
    | with_reducible apply still_tiuCmdFault
    | (with_reducible apply Still.each; rotate_left; intro _ _)
    | (with_reducible apply Still.times; rotate_left; intro _ _)
    | with_reducible apply Still.ite

theorem keeps_tiuNoClock {z : State} (s : State) (h : Keeps z s) :
    Keeps z (tiuNoClock s) := h.step (still_tiuNoClock s (.refl _))

theorem still_tiuInputOff {z : State} (s : State) (i : Nat) (h : Still z s) :
    Still z (tiuInputOff s i) := by
  unfold tiuInputOff
  repeat' first
    | with_reducible assumption
    | dsimp only
    | fail_if_no_progress with_reducible apply Still.upd
    | with_reducible apply still_tiuEvent
    | with_reducible apply still_wrF
    | with_reducible apply still_requestLost
    | with_reducible apply still_setTiu
    | with_reducible apply still_setTiuState
    | with_reducible apply still_modStr
    | with_reducible apply Still.ite

theorem keeps_tiuInputOff {z : State} (s : State) (i : Nat) (h : Keeps z s) :
    Keeps z (tiuInputOff s i) := h.step (still_tiuInputOff s i (.refl _))

theorem still_tiuOff {z : State} (s : State) (h : Still z s) :
    Still z (tiuOff s) := by
  unfold tiuOff
  repeat' first
    | with_reducible assumption
    | with_reducible exact Still.refl _
    | dsimp only
    | with_reducible apply still_tiuInputOff
    | with_reducible apply still_tiuCmdFault
    | (with_reducible apply Still.each; rotate_left; intro _ _)
    | (with_reducible apply Still.times; rotate_left; intro _ _)

theorem keeps_tiuOff {z : State} (s : State) (h : Keeps z s) :
    Keeps z (tiuOff s) := h.step (still_tiuOff s (.refl _))

theorem still_tiuRequests {z : State} (s : State) (i : Nat) (h : Still z s) :
    Still z (tiuRequests s i) := by
  unfold tiuRequests
  repeat' first
    | with_reducible assumption
    | with_reducible exact Still.refl _
    | dsimp only
    | fail_if_no_progress with_reducible apply Still.upd
    | with_reducible apply still_setTiu
    | with_reducible apply still_requestDrop
    | with_reducible apply still_modTiu
    | with_reducible apply still_setTiuState
    | with_reducible apply Still.ite

theorem keeps_tiuRequests {z : State} (s : State) (i : Nat) (h : Keeps z s) :
    Keeps z (tiuRequests s i) := h.step (still_tiuRequests s i (.refl _))

theorem still_tiuInputTick {z : State} (s : State) (i : Nat) (h : Still z s) :
    Still z (tiuInputTick s i) := by
  unfold tiuInputTick
  repeat' first
    | with_reducible assumption
    | dsimp only
    | fail_if_no_progress with_reducible apply Still.upd
    | with_reducible apply still_modTiu
    | with_reducible apply still_holdTick
    | with_reducible apply still_stampForm
    | with_reducible apply still_tiuRequests
    | with_reducible apply Still.ite

theorem keeps_tiuInputTick {z : State} (s : State) (i : Nat) (h : Keeps z s) :
    Keeps z (tiuInputTick s i) := h.step (still_tiuInputTick s i (.refl _))

theorem still_tiuTick {z : State} (s : State) (h : Still z s) :
    Still z (tiuTick s) := by
  unfold tiuTick
  repeat' first
    | with_reducible assumption
    | with_reducible exact Still.refl _
    | with_reducible apply still_tiuInputTick
    | (with_reducible apply Still.each; rotate_left; intro _ _)

theorem keeps_tiuTick {z : State} (s : State) (h : Keeps z s) :
    Keeps z (tiuTick s) := h.step (still_tiuTick s (.refl _))

end Sys2Proof.Machine
end

