-- ==== Sys2Proof/Laws/Frame/Dfc.lean ====
section
/-! SUPPORT. What the operations of Machine/Dfc.lean leave alone (Laws/Keeps.lean). -/

namespace Sys2Proof.Machine

theorem still_thrGlobal {z : State} (s0 s : State) (b : Nat) (h : Still z s) :
    Still z (thrGlobal s0 s b) := by
  unfold thrGlobal
  repeat' first
    | with_reducible assumption
    | with_reducible apply still_globalAt
    | with_reducible apply Still.ite

theorem keeps_thrGlobal {z : State} (s0 s : State) (b : Nat) (h : Keeps z s) :
    Keeps z (thrGlobal s0 s b) := h.step (still_thrGlobal s0 s b (.refl _))

theorem still_thrApply {z : State} (s : State) (j t : Nat) (x : ThrSet) (h : Still z s) :
    Still z (thrApply s j t x) := by
  unfold thrApply
  repeat' first
    | with_reducible assumption
    | dsimp only
    | fail_if_no_progress with_reducible apply Still.upd
    | with_reducible apply still_modDfc
    | with_reducible apply still_wrBit
    | with_reducible apply still_thrGlobal
    | with_reducible apply Still.ite

theorem keeps_thrApply {z : State} (s : State) (j t : Nat) (x : ThrSet) (h : Keeps z s) :
    Keeps z (thrApply s j t x) := h.step (still_thrApply s j t x (.refl _))

theorem still_thrCompare {z : State} (s : State) (j : Nat) (v : Int) (t : Nat) (h : Still z s) :
    Still z (thrCompare s j v t) := by
  unfold thrCompare
  repeat' first
    | with_reducible assumption
    | dsimp only
    | with_reducible apply still_wrBit
    | with_reducible apply still_dfcEvent
    | with_reducible apply still_thrGlobal
    | with_reducible apply Still.ite

theorem keeps_thrCompare {z : State} (s : State) (j : Nat) (v : Int) (t : Nat) (h : Keeps z s) :
    Keeps z (thrCompare s j v t) := h.step (still_thrCompare s j v t (.refl _))

theorem still_thrOutput {z : State} (s : State) (j : Nat) (c : ThrCmp) (h : Still z s) :
    Still z (thrOutput s j c) := by
  unfold thrOutput
  repeat' first
    | with_reducible assumption
    | with_reducible exact Still.refl _
    | dsimp only
    | with_reducible apply still_thrApply
    | with_reducible apply still_thrCompare
    | (with_reducible apply Still.times; rotate_left; intro _ _)
    | with_reducible apply Still.ite
    | split

theorem keeps_thrOutput {z : State} (s : State) (j : Nat) (c : ThrCmp) (h : Keeps z s) :
    Keeps z (thrOutput s j c) := h.step (still_thrOutput s j c (.refl _))

theorem still_thrTick {z : State} (s : State) (j : Nat) (h : Still z s) :
    Still z (thrTick s j) := by
  unfold thrTick
  repeat' first
    | with_reducible assumption
    | with_reducible exact Still.refl _
    | dsimp only
    | fail_if_no_progress with_reducible apply Still.upd
    | with_reducible apply still_modDfc
    | with_reducible apply still_thrOutput
    | (with_reducible apply Still.each; rotate_left; intro _ _)
    | with_reducible apply Still.ite

theorem keeps_thrTick {z : State} (s : State) (j : Nat) (h : Keeps z s) :
    Keeps z (thrTick s j) := h.step (still_thrTick s j (.refl _))

theorem still_thrInactive {z : State} (s : State) (j : Nat) (h : Still z s) :
    Still z (thrInactive s j) := by
  unfold thrInactive
  repeat' first
    | with_reducible assumption
    | with_reducible exact Still.refl _
    | dsimp only
    | fail_if_no_progress with_reducible apply Still.upd
    | with_reducible apply still_modDfc
    | with_reducible apply still_thrGlobal
    | with_reducible apply still_wrBit
    | (with_reducible apply Still.times; rotate_left; intro _ _)
    | with_reducible apply Still.ite

theorem keeps_thrInactive {z : State} (s : State) (j : Nat) (h : Keeps z s) :
    Keeps z (thrInactive s j) := h.step (still_thrInactive s j (.refl _))

theorem still_dfcRounded {z : State} (s : State) (num : Int) (den : Nat) (h : Still z s) :
    Still z (dfcRounded s num den).2 := by
  unfold dfcRounded
  repeat' first
    | with_reducible assumption
    | dsimp only
    | with_reducible apply still_drawFree

theorem keeps_dfcRounded {z : State} (s : State) (num : Int) (den : Nat) (h : Keeps z s) :
    Keeps z (dfcRounded s num den).2 := h.step (still_dfcRounded s num den (.refl _))

theorem still_dfcPreset {z : State} (s : State) (j : Nat) (r : Int) (h : Still z s) :
    Still z (dfcPreset s j r).2 := by
  unfold dfcPreset
  repeat' first
    | with_reducible assumption
    | dsimp only
    | with_reducible apply still_dfcRounded

theorem keeps_dfcPreset {z : State} (s : State) (j : Nat) (r : Int) (h : Keeps z s) :
    Keeps z (dfcPreset s j r).2 := h.step (still_dfcPreset s j r (.refl _))

theorem still_dfcResample {z : State} (s : State) (j : Nat) (p : Int) (h : Still z s) :
    Still z (dfcResample s j p).2 := by
  unfold dfcResample
  repeat' first
    | with_reducible assumption
    | dsimp only
    | with_reducible apply still_dfcRounded

theorem keeps_dfcResample {z : State} (s : State) (j : Nat) (p : Int) (h : Keeps z s) :
    Keeps z (dfcResample s j p).2 := h.step (still_dfcResample s j p (.refl _))

theorem still_dfcBoxcar {z : State} (s : State) (j : Nat) (p : Int) (h : Still z s) :
    Still z (dfcBoxcar s j p).2 := by
  unfold dfcBoxcar
  repeat' first
    | with_reducible assumption
    | dsimp only
    | with_reducible apply still_dfcRounded

theorem keeps_dfcBoxcar {z : State} (s : State) (j : Nat) (p : Int) (h : Keeps z s) :
    Keeps z (dfcBoxcar s j p).2 := h.step (still_dfcBoxcar s j p (.refl _))

theorem still_dfcValue {z : State} (s : State) (j : Nat) (p : Int) (h : Still z s) :
    Still z (dfcValue s j p).2 := by
  unfold dfcValue
  repeat' first
    | with_reducible assumption
    | dsimp only
    | with_reducible apply still_dfcBoxcar
    | with_reducible apply still_dfcResample
    | with_reducible apply still_dfcPreset
    | refine Still.snd ?_ (by assumption)
    | with_reducible apply Still.ite
    | split

theorem keeps_dfcValue {z : State} (s : State) (j : Nat) (p : Int) (h : Keeps z s) :
    Keeps z (dfcValue s j p).2 := h.step (still_dfcValue s j p (.refl _))

theorem still_dfcCompute {z : State} (s : State) (j : Nat) (h : Still z s) :
    Still z (dfcCompute s j) := by
  unfold dfcCompute
  repeat' first
    | with_reducible assumption
    | dsimp only
    | fail_if_no_progress with_reducible apply Still.upd
    | with_reducible apply still_dfcValue
    | with_reducible apply still_setDfc
    | with_reducible apply still_ctrAdd64
    | with_reducible apply still_wr
    | with_reducible apply still_dfcEvent
    | with_reducible apply still_ctrAdd
    | with_reducible apply still_setDfcState
    | refine Still.snd ?_ (by assumption)
    | with_reducible apply Still.ite

theorem keeps_dfcCompute {z : State} (s : State) (j : Nat) (h : Keeps z s) :
    Keeps z (dfcCompute s j) := h.step (still_dfcCompute s j (.refl _))

theorem still_dfcOutput {z : State} (s : State) (j : Nat) (h : Still z s) :
    Still z (dfcOutput s j) := by
  unfold dfcOutput
  repeat' first
    | with_reducible assumption
    | with_reducible apply still_dfcCompute
    | with_reducible apply Still.ite

theorem keeps_dfcOutput {z : State} (s : State) (j : Nat) (h : Keeps z s) :
    Keeps z (dfcOutput s j) := h.step (still_dfcOutput s j (.refl _))

theorem still_dfcDrain {z : State} (s : State) (j : Nat) (fuel : Nat) (h : Still z s) :
    Still z (dfcDrain s j fuel) := by
  induction fuel generalizing s j with
  | zero => exact h
  | succ n ih =>
    unfold dfcDrain
    repeat' first
      | with_reducible assumption
      | with_reducible apply still_dfcCompute
      | with_reducible apply Still.ite
      | split
      | with_reducible apply ih

theorem keeps_dfcDrain {z : State} (s : State) (j : Nat) (fuel : Nat) (h : Keeps z s) :
    Keeps z (dfcDrain s j fuel) := h.step (still_dfcDrain s j fuel (.refl _))

theorem still_dfcRestart {z : State} (s : State) (j : Nat) (e : Int) (h : Still z s) :
    Still z (dfcRestart s j e) := by
  unfold dfcRestart
  repeat' first
    | with_reducible assumption
    | dsimp only
    | fail_if_no_progress with_reducible apply Still.upd
    | with_reducible apply still_modDfc
    | with_reducible apply still_setDfcState

theorem keeps_dfcRestart {z : State} (s : State) (j : Nat) (e : Int) (h : Keeps z s) :
    Keeps z (dfcRestart s j e) := h.step (still_dfcRestart s j e (.refl _))

theorem still_dfcReset {z : State} (s : State) (j : Nat) (e : Int) (h : Still z s) :
    Still z (dfcReset s j e) := by
  unfold dfcReset
  repeat' first
    | with_reducible assumption
    | with_reducible apply still_dfcRestart
    | with_reducible apply still_dfcDrain
    | with_reducible apply Still.ite

theorem keeps_dfcReset {z : State} (s : State) (j : Nat) (e : Int) (h : Keeps z s) :
    Keeps z (dfcReset s j e) := h.step (still_dfcReset s j e (.refl _))

theorem still_dfcSyncAt {z : State} (s : State) (j : Nat) (e : Int) (h : Still z s) :
    Still z (dfcSyncAt s j e) := by
  unfold dfcSyncAt
  repeat' first
    | with_reducible assumption
    | dsimp only
    | fail_if_no_progress with_reducible apply Still.upd
    | with_reducible apply still_modDfc
    | with_reducible apply Still.ite

theorem keeps_dfcSyncAt {z : State} (s : State) (j : Nat) (e : Int) (h : Keeps z s) :
    Keeps z (dfcSyncAt s j e) := h.step (still_dfcSyncAt s j e (.refl _))

theorem still_dfcResets {z : State} (s : State) (j : Nat) (k : Int) (h : Still z s) :
    Still z (dfcResets s j k) := by
  unfold dfcResets
  repeat' first
    | with_reducible assumption
    | with_reducible exact Still.refl _
    | dsimp only
    | fail_if_no_progress with_reducible apply Still.upd
    | with_reducible apply still_modDfc
    | with_reducible apply still_dfcReset
    | (with_reducible apply Still.each; rotate_left; intro _ _)

theorem keeps_dfcResets {z : State} (s : State) (j : Nat) (k : Int) (h : Keeps z s) :
    Keeps z (dfcResets s j k) := h.step (still_dfcResets s j k (.refl _))

theorem still_dfcPush {z : State} (s : State) (j : Nat) (k : Int) (x : Option (Int × Bool)) (h : Still z s) :
    Still z (dfcPush s j k x) := by
  unfold dfcPush
  repeat' first
    | with_reducible assumption
    | dsimp only
    | fail_if_no_progress with_reducible apply Still.upd
    | with_reducible apply still_dfcResets
    | with_reducible apply still_setDfc
    | with_reducible apply Still.ite

theorem keeps_dfcPush {z : State} (s : State) (j : Nat) (k : Int) (x : Option (Int × Bool)) (h : Keeps z s) :
    Keeps z (dfcPush s j k x) := h.step (still_dfcPush s j k x (.refl _))

theorem still_dfcFill {z : State} (s : State) (j : Nat) (k : Int) (fuel : Nat) (h : Still z s) :
    Still z (dfcFill s j k fuel) := by
  induction fuel generalizing s j k with
  | zero => exact h
  | succ n ih =>
    unfold dfcFill
    repeat' first
      | with_reducible assumption
      | dsimp only
      | with_reducible apply still_dfcPush
      | with_reducible apply Still.ite
      | split
      | with_reducible apply ih

theorem keeps_dfcFill {z : State} (s : State) (j : Nat) (k : Int) (fuel : Nat) (h : Keeps z s) :
    Keeps z (dfcFill s j k fuel) := h.step (still_dfcFill s j k fuel (.refl _))

theorem still_dfcTake {z : State} (s : State) (n : Nat) (k : Int) (valid : Bool) (p : Word) (j : Nat) (h : Still z s) :
    Still z (dfcTake s n k valid p j) := by
  unfold dfcTake
  repeat' first
    | with_reducible assumption
    | dsimp only
    | with_reducible apply still_dfcPush
    | with_reducible apply still_dfcFill

theorem keeps_dfcTake {z : State} (s : State) (n : Nat) (k : Int) (valid : Bool) (p : Word) (j : Nat) (h : Keeps z s) :
    Keeps z (dfcTake s n k valid p j) := h.step (still_dfcTake s n k valid p j (.refl _))

theorem still_dfcMarkBad {z : State} (s : State) (n : Nat) (f : Int) (h : Still z s) :
    Still z (dfcMarkBad s n f) := by
  unfold dfcMarkBad
  repeat' first
    | with_reducible assumption
    | with_reducible exact Still.refl _
    | dsimp only
    | fail_if_no_progress with_reducible apply Still.upd
    | with_reducible apply still_modDfc
    | (with_reducible apply Still.each; rotate_left; intro _ _)
    | with_reducible apply Still.ite

theorem keeps_dfcMarkBad {z : State} (s : State) (n : Nat) (f : Int) (h : Keeps z s) :
    Keeps z (dfcMarkBad s n f) := h.step (still_dfcMarkBad s n f (.refl _))

theorem still_dfcClose {z : State} (s : State) (j : Nat) (fl : BitVec 8) (h : Still z s) :
    Still z (dfcClose s j fl) := by
  unfold dfcClose
  repeat' first
    | with_reducible assumption
    | dsimp only
    | fail_if_no_progress with_reducible apply Still.upd
    | with_reducible apply still_closeOpen
    | with_reducible apply still_trigsBefore
    | with_reducible apply still_dfcEvent
    | with_reducible apply still_ctrAdd
    | with_reducible apply still_modStr
    | with_reducible apply Still.ite
    | split

theorem keeps_dfcClose {z : State} (s : State) (j : Nat) (fl : BitVec 8) (h : Keeps z s) :
    Keeps z (dfcClose s j fl) := h.step (still_dfcClose s j fl (.refl _))

theorem still_dfcRelease {z : State} (s : State) (j : Nat) (o : DfcOut) (h : Still z s) :
    Still z (dfcRelease s j o) := by
  unfold dfcRelease
  repeat' first
    | with_reducible assumption
    | dsimp only
    | with_reducible apply still_dfcClose
    | with_reducible apply still_dfcEvent
    | with_reducible apply still_ctrAdd
    | with_reducible apply still_wr
    | with_reducible apply still_otherAdd
    | with_reducible apply Still.ite
    | split

theorem keeps_dfcRelease {z : State} (s : State) (j : Nat) (o : DfcOut) (h : Keeps z s) :
    Keeps z (dfcRelease s j o) := h.step (still_dfcRelease s j o (.refl _))

theorem still_dfcReleases {z : State} (s : State) (j : Nat) (fuel : Nat) (h : Still z s) :
    Still z (dfcReleases s j fuel) := by
  induction fuel generalizing s j with
  | zero => exact h
  | succ n ih =>
    unfold dfcReleases
    repeat' first
      | with_reducible assumption
      | dsimp only
      | fail_if_no_progress with_reducible apply Still.upd
      | with_reducible apply still_dfcRelease
      | with_reducible apply still_modDfc
      | with_reducible apply Still.ite
      | split
      | with_reducible apply ih

theorem keeps_dfcReleases {z : State} (s : State) (j : Nat) (fuel : Nat) (h : Keeps z s) :
    Keeps z (dfcReleases s j fuel) := h.step (still_dfcReleases s j fuel (.refl _))

theorem still_dfcChainTick {z : State} (s : State) (j : Nat) (h : Still z s) :
    Still z (dfcChainTick s j) := by
  unfold dfcChainTick
  repeat' first
    | with_reducible assumption
    | dsimp only
    | with_reducible apply still_dfcReleases
    | with_reducible apply still_thrTick
    | with_reducible apply still_dfcFill
    | with_reducible apply Still.ite

theorem keeps_dfcChainTick {z : State} (s : State) (j : Nat) (h : Keeps z s) :
    Keeps z (dfcChainTick s j) := h.step (still_dfcChainTick s j (.refl _))

theorem still_dfcTick {z : State} (s : State) (h : Still z s) :
    Still z (dfcTick s) := by
  unfold dfcTick
  repeat' first
    | with_reducible assumption
    | with_reducible exact Still.refl _
    | with_reducible apply still_dfcChainTick
    | (with_reducible apply Still.each; rotate_left; intro _ _)
    | with_reducible apply Still.ite

theorem keeps_dfcTick {z : State} (s : State) (h : Keeps z s) :
    Keeps z (dfcTick s) := h.step (still_dfcTick s (.refl _))

theorem still_dfcSwitch {z : State} (s : State) (on : Bool) (h : Still z s) :
    Still z (dfcSwitch s on) := by
  unfold dfcSwitch
  repeat' first
    | with_reducible assumption
    | with_reducible exact Still.refl _
    | dsimp only
    | fail_if_no_progress with_reducible apply Still.upd
    | with_reducible apply still_thrInactive
    | with_reducible apply still_modStr
    | with_reducible apply still_wr
    | (with_reducible apply Still.times; rotate_left; intro _ _)
    | (with_reducible apply Still.fold; rotate_left; intro _ _)

theorem keeps_dfcSwitch {z : State} (s : State) (on : Bool) (h : Keeps z s) :
    Keeps z (dfcSwitch s on) := h.step (still_dfcSwitch s on (.refl _))

theorem still_sliceAtLaneInput {z : State} (s : State) (n : Nat) (payload : Word) (marker : Bool) (h : Still z s) :
    Still z (sliceAtLaneInput s n payload marker) := by
  unfold sliceAtLaneInput
  repeat' first
    | with_reducible assumption
    | with_reducible exact Still.refl _
    | dsimp only
    | fail_if_no_progress with_reducible apply Still.upd
    | with_reducible apply still_modLane
    | with_reducible apply still_wrBit
    | with_reducible apply still_dfcTake
    | (with_reducible apply Still.each; rotate_left; intro _ _)
    | with_reducible apply Still.ite

theorem keeps_sliceAtLaneInput {z : State} (s : State) (n : Nat) (payload : Word) (marker : Bool) (h : Keeps z s) :
    Keeps z (sliceAtLaneInput s n payload marker) := h.step (still_sliceAtLaneInput s n payload marker (.refl _))

end Sys2Proof.Machine
end

