-- ==== Sys2Proof/Laws/Frame/Lanes.lean ====
section
/-! SUPPORT. What the operations of Machine/Lanes.lean leave alone (Laws/Keeps.lean). -/

namespace Sys2Proof.Machine

theorem still_setLaneState {z : State} (s : State) (n v : Nat) (h : Still z s) :
    Still z (setLaneState s n v) := by
  unfold setLaneState
  repeat' first
    | with_reducible assumption
    | with_reducible apply still_wrF

theorem keeps_setLaneState {z : State} (s : State) (n v : Nat) (h : Keeps z s) :
    Keeps z (setLaneState s n v) := h.step (still_setLaneState s n v (.refl _))

theorem still_retQueue {z : State} (s : State) (k : Nat) (f : RetFrame) (h : Still z s) :
    Still z (retQueue s k f) := by
  unfold retQueue
  repeat' first
    | with_reducible assumption
    | dsimp only
    | fail_if_no_progress with_reducible apply Still.upd
    | with_reducible apply still_setRet

theorem keeps_retQueue {z : State} (s : State) (k : Nat) (f : RetFrame) (h : Keeps z s) :
    Keeps z (retQueue s k f) := h.step (still_retQueue s k f (.refl _))

theorem still_fwFrame {z : State} (s : State) (k dest typ op : Nat) (body : List Word) (sync : List Nat) (h : Still z s) :
    Still z (fwFrame s k dest typ op body sync) := by
  unfold fwFrame
  repeat' first
    | with_reducible assumption
    | dsimp only
    | with_reducible apply still_drawFree
    | with_reducible apply still_retQueue

theorem keeps_fwFrame {z : State} (s : State) (k dest typ op : Nat) (body : List Word) (sync : List Nat) (h : Keeps z s) :
    Keeps z (fwFrame s k dest typ op body sync) := h.step (still_fwFrame s k dest typ op body sync (.refl _))

theorem still_fwLaneFrame {z : State} (s : State) (n typ op : Nat) (body : List Word) (h : Still z s) :
    Still z (fwLaneFrame s n typ op body) := by
  unfold fwLaneFrame
  repeat' first
    | with_reducible assumption
    | with_reducible apply still_fwFrame

theorem keeps_fwLaneFrame {z : State} (s : State) (n typ op : Nat) (body : List Word) (h : Keeps z s) :
    Keeps z (fwLaneFrame s n typ op body) := h.step (still_fwLaneFrame s n typ op body (.refl _))

theorem still_syncGo {z : State} (s : State) (k : Nat) (h : Still z s) :
    Still z (syncGo s k) := by
  unfold syncGo
  repeat' first
    | with_reducible assumption
    | with_reducible exact Still.refl _
    | dsimp only
    | fail_if_no_progress with_reducible apply Still.upd
    | with_reducible apply still_setRet
    | (with_reducible apply Still.each; rotate_left; intro _ _)
    | with_reducible apply Still.ite
    | split

theorem keeps_syncGo {z : State} (s : State) (k : Nat) (h : Keeps z s) :
    Keeps z (syncGo s k) := h.step (still_syncGo s k (.refl _))

theorem still_returnSuperframe {z : State} (s0 : State) (k : Nat) (h : Still z s0) :
    Still z (returnSuperframe s0 k) := by
  unfold returnSuperframe
  repeat' first
    | with_reducible assumption
    | dsimp only
    | fail_if_no_progress with_reducible apply Still.upd
    | with_reducible apply still_syncGo
    | with_reducible apply still_setRet
    | with_reducible apply Still.ite

theorem keeps_returnSuperframe {z : State} (s0 : State) (k : Nat) (h : Keeps z s0) :
    Keeps z (returnSuperframe s0 k) := h.step (still_returnSuperframe s0 k (.refl _))

theorem still_retTick {z : State} (s : State) (k : Nat) (h : Still z s) :
    Still z (retTick s k) := by
  unfold retTick
  repeat' first
    | with_reducible assumption
    | dsimp only
    | fail_if_no_progress with_reducible apply Still.upd
    | with_reducible apply still_setRet
    | with_reducible apply still_completeCmd
    | with_reducible apply Still.ite
    | split

theorem keeps_retTick {z : State} (s : State) (k : Nat) (h : Keeps z s) :
    Keeps z (retTick s k) := h.step (still_retTick s k (.refl _))

theorem still_retIdle {z : State} (s : State) (k : Nat) (h : Still z s) :
    Still z (retIdle s k) := by
  unfold retIdle
  repeat' first
    | with_reducible assumption
    | with_reducible exact Still.refl _
    | dsimp only
    | fail_if_no_progress with_reducible apply Still.upd
    | with_reducible apply still_setRet
    | with_reducible apply still_completeCmd
    | (with_reducible apply Still.each; rotate_left; intro _ _)
    | with_reducible apply Still.ite

theorem keeps_retIdle {z : State} (s : State) (k : Nat) (h : Keeps z s) :
    Keeps z (retIdle s k) := h.step (still_retIdle s k (.refl _))

theorem still_unlive {z : State} (s : State) (n : Nat) (t : Tick) (h : Still z s) :
    Still z (unlive s n t) := by
  unfold unlive
  repeat' first
    | with_reducible assumption
    | dsimp only
    | fail_if_no_progress with_reducible apply Still.upd
    | with_reducible apply still_modLane

theorem keeps_unlive {z : State} (s : State) (n : Nat) (t : Tick) (h : Keeps z s) :
    Keeps z (unlive s n t) := h.step (still_unlive s n t (.refl _))

theorem still_badSuperframe {z : State} (s : State) (n : Nat) (f : Tick) (c : Nat) (b : Word) (h : Still z s) :
    Still z (badSuperframe s n f c b) := by
  unfold badSuperframe
  repeat' first
    | with_reducible assumption
    | dsimp only
    | fail_if_no_progress with_reducible apply Still.upd
    | with_reducible apply still_modLane
    | with_reducible apply still_laneEvent
    | with_reducible apply still_ctrAdd
    | with_reducible apply still_wr64
    | with_reducible apply still_dfcMarkBad

theorem keeps_badSuperframe {z : State} (s : State) (n : Nat) (f : Tick) (c : Nat) (b : Word) (h : Keeps z s) :
    Keeps z (badSuperframe s n f c b) := h.step (still_badSuperframe s n f c b (.refl _))

theorem still_badCrc {z : State} (s : State) (n : Nat) (f : Tick) (h : Still z s) :
    Still z (badCrc s n f) := by
  unfold badCrc
  repeat' first
    | with_reducible assumption
    | with_reducible apply still_badSuperframe

theorem keeps_badCrc {z : State} (s : State) (n : Nat) (f : Tick) (h : Keeps z s) :
    Keeps z (badCrc s n f) := h.step (still_badCrc s n f (.refl _))

theorem still_badSync {z : State} (s : State) (n : Nat) (f : Tick) (h : Still z s) :
    Still z (badSync s n f) := by
  unfold badSync
  repeat' first
    | with_reducible assumption
    | with_reducible apply still_badSuperframe

theorem keeps_badSync {z : State} (s : State) (n : Nat) (f : Tick) (h : Keeps z s) :
    Keeps z (badSync s n f) := h.step (still_badSync s n f (.refl _))

theorem still_badFmt {z : State} (s : State) (n : Nat) (f : Tick) (h : Still z s) :
    Still z (badFmt s n f) := by
  unfold badFmt
  repeat' first
    | with_reducible assumption
    | with_reducible apply still_badSuperframe

theorem keeps_badFmt {z : State} (s : State) (n : Nat) (f : Tick) (h : Keeps z s) :
    Keeps z (badFmt s n f) := h.step (still_badFmt s n f (.refl _))

theorem still_laneLoseAt {z : State} (s : State) (n : Nat) (f : Tick) (h : Still z s) :
    Still z (laneLoseAt s n f) := by
  unfold laneLoseAt
  repeat' first
    | with_reducible assumption
    | dsimp only
    | fail_if_no_progress with_reducible apply Still.upd
    | with_reducible apply still_badCrc
    | with_reducible apply still_modLane
    | with_reducible apply still_unlive
    | with_reducible apply still_hwClr
    | with_reducible apply still_setLaneState
    | with_reducible apply still_laneEvent
    | with_reducible apply still_ctrAdd
    | with_reducible apply Still.ite
    | split

theorem keeps_laneLoseAt {z : State} (s : State) (n : Nat) (f : Tick) (h : Keeps z s) :
    Keeps z (laneLoseAt s n f) := h.step (still_laneLoseAt s n f (.refl _))

theorem still_laneLose {z : State} (s : State) (n : Nat) (h : Still z s) :
    Still z (laneLose s n) := by
  unfold laneLose
  repeat' first
    | with_reducible assumption
    | dsimp only
    | fail_if_no_progress with_reducible apply Still.upd
    | with_reducible apply still_laneLoseAt
    | with_reducible apply still_hwClr
    | with_reducible apply still_modLane
    | with_reducible apply Still.ite

theorem keeps_laneLose {z : State} (s : State) (n : Nat) (h : Keeps z s) :
    Keeps z (laneLose s n) := h.step (still_laneLose s n (.refl _))

theorem still_laneLosing {z : State} (s : State) (n : Nat) (h : Still z s) :
    Still z (laneLosing s n) := by
  unfold laneLosing
  repeat' first
    | with_reducible assumption
    | dsimp only
    | fail_if_no_progress with_reducible apply Still.upd
    | with_reducible apply still_modLane
    | with_reducible apply Still.ite

theorem keeps_laneLosing {z : State} (s : State) (n : Nat) (h : Keeps z s) :
    Keeps z (laneLosing s n) := h.step (still_laneLosing s n (.refl _))

theorem still_laneLossDue {z : State} (s : State) (n : Nat) (h : Still z s) :
    Still z (laneLossDue s n) := by
  unfold laneLossDue
  repeat' first
    | with_reducible assumption
    | dsimp only
    | fail_if_no_progress with_reducible apply Still.upd
    | with_reducible apply still_laneLose
    | with_reducible apply still_modLane
    | with_reducible apply Still.ite
    | split

theorem keeps_laneLossDue {z : State} (s : State) (n : Nat) (h : Keeps z s) :
    Keeps z (laneLossDue s n) := h.step (still_laneLossDue s n (.refl _))

theorem still_acceptStatus {z : State} (s : State) (n : Nat) (v : Word) (h : Still z s) :
    Still z (acceptStatus s n v) := by
  unfold acceptStatus
  repeat' first
    | with_reducible assumption
    | dsimp only
    | with_reducible apply still_wr
    | with_reducible apply still_laneEvent
    | with_reducible apply Still.ite

theorem keeps_acceptStatus {z : State} (s : State) (n : Nat) (v : Word) (h : Keeps z s) :
    Keeps z (acceptStatus s n v) := h.step (still_acceptStatus s n v (.refl _))

theorem still_sfVerdict {z : State} (s : State) (n : Nat) (p : SfPend) (crcOk : Bool) (h : Still z s) :
    Still z (sfVerdict s n p crcOk) := by
  unfold sfVerdict
  repeat' first
    | with_reducible assumption
    | dsimp only
    | fail_if_no_progress with_reducible apply Still.upd
    | with_reducible apply still_ctrAdd64
    | with_reducible apply still_badCrc
    | with_reducible apply still_badSync
    | with_reducible apply still_badFmt
    | with_reducible apply still_modLane
    | with_reducible apply Still.ite

theorem keeps_sfVerdict {z : State} (s : State) (n : Nat) (p : SfPend) (crcOk : Bool) (h : Keeps z s) :
    Keeps z (sfVerdict s n p crcOk) := h.step (still_sfVerdict s n p crcOk (.refl _))

theorem still_setWander {z : State} (s : State) (n : Nat) (w : BitVec 16) (h : Still z s) :
    Still z (setWander s n w) := by
  unfold setWander
  repeat' first
    | with_reducible assumption
    | with_reducible apply still_wrBit
    | with_reducible apply still_wrF

theorem keeps_setWander {z : State} (s : State) (n : Nat) (w : BitVec 16) (h : Keeps z s) :
    Keeps z (setWander s n w) := h.step (still_setWander s n w (.refl _))

theorem still_superframe {z : State} (s : State) (n : Nat) (line : List (BitVec 40)) (wander : BitVec 16) (h : Still z s) :
    Still z (superframe s n line wander) := by
  unfold superframe
  repeat' first
    | with_reducible assumption
    | dsimp only
    | fail_if_no_progress with_reducible apply Still.upd
    | with_reducible apply still_setWander
    | with_reducible apply still_modLane
    | with_reducible apply still_laneLosing
    | with_reducible apply Still.ite

theorem keeps_superframe {z : State} (s : State) (n : Nat) (line : List (BitVec 40)) (wander : BitVec 16) (h : Keeps z s) :
    Keeps z (superframe s n line wander) := h.step (still_superframe s n line wander (.refl _))

theorem still_modSf {z : State} (s : State) (n : Nat) (f : SfState → SfState) (h : Still z s) :
    Still z (modSf s n f) := by
  unfold modSf
  repeat' first
    | with_reducible assumption
    | dsimp only
    | fail_if_no_progress with_reducible apply Still.upd
    | with_reducible apply still_modLane

theorem keeps_modSf {z : State} (s : State) (n : Nat) (f : SfState → SfState) (h : Keeps z s) :
    Keeps z (modSf s n f) := h.step (still_modSf s n f (.refl _))

theorem still_setLocked {z : State} (s : State) (n : Nat) (v : Bool) (f : Tick) (h : Still z s) :
    Still z (setLocked s n v f) := by
  unfold setLocked
  repeat' first
    | with_reducible assumption
    | dsimp only
    | fail_if_no_progress with_reducible apply Still.upd
    | with_reducible apply still_wrBit
    | with_reducible apply still_laneLoseAt
    | with_reducible apply still_modSf
    | with_reducible apply Still.ite

theorem keeps_setLocked {z : State} (s : State) (n : Nat) (v : Bool) (f : Tick) (h : Keeps z s) :
    Keeps z (setLocked s n v f) := h.step (still_setLocked s n v f (.refl _))

theorem still_sfMarker {z : State} (s : State) (n : Nat) (c : SfCur) (h : Still z s) :
    Still z (sfMarker s n c) := by
  unfold sfMarker
  repeat' first
    | with_reducible assumption
    | dsimp only
    | fail_if_no_progress with_reducible apply Still.upd
    | with_reducible apply still_modSf
    | with_reducible apply still_setLocked

theorem keeps_sfMarker {z : State} (s : State) (n : Nat) (c : SfCur) (h : Keeps z s) :
    Keeps z (sfMarker s n c) := h.step (still_sfMarker s n c (.refl _))

theorem still_sfStatus {z : State} (s : State) (n : Nat) (c : SfCur) (h : Still z s) :
    Still z (sfStatus s n c) := by
  unfold sfStatus
  repeat' first
    | with_reducible assumption
    | dsimp only
    | fail_if_no_progress with_reducible apply Still.upd
    | with_reducible apply still_acceptStatus
    | with_reducible apply still_modSf
    | with_reducible apply Still.ite

theorem keeps_sfStatus {z : State} (s : State) (n : Nat) (c : SfCur) (h : Keeps z s) :
    Keeps z (sfStatus s n c) := h.step (still_sfStatus s n c (.refl _))

theorem still_sfCrc {z : State} (s : State) (n : Nat) (c : SfCur) (h : Still z s) :
    Still z (sfCrc s n c) := by
  unfold sfCrc
  repeat' first
    | with_reducible assumption
    | dsimp only
    | fail_if_no_progress with_reducible apply Still.upd
    | with_reducible apply still_sfVerdict
    | with_reducible apply still_modSf
    | with_reducible apply Still.ite
    | split

theorem keeps_sfCrc {z : State} (s : State) (n : Nat) (c : SfCur) (h : Keeps z s) :
    Keeps z (sfCrc s n c) := h.step (still_sfCrc s n c (.refl _))

theorem still_sfScr {z : State} (s : State) (n : Nat) (c : SfCur) (h : Still z s) :
    Still z (sfScr s n c) := by
  unfold sfScr
  repeat' first
    | with_reducible assumption
    | dsimp only
    | fail_if_no_progress with_reducible apply Still.upd
    | with_reducible apply still_wrBit
    | with_reducible apply still_modSf
    | with_reducible apply still_setLocked
    | with_reducible apply Still.ite

theorem keeps_sfScr {z : State} (s : State) (n : Nat) (c : SfCur) (h : Keeps z s) :
    Keeps z (sfScr s n c) := h.step (still_sfScr s n c (.refl _))

theorem still_sfTake {z : State} (s : State) (n : Nat) (h : Still z s) :
    Still z (sfTake s n) := by
  unfold sfTake
  repeat' first
    | with_reducible assumption
    | dsimp only
    | fail_if_no_progress with_reducible apply Still.upd
    | with_reducible apply still_modSf
    | with_reducible apply still_sfMarker
    | with_reducible apply still_sfStatus
    | with_reducible apply still_sfCrc
    | with_reducible apply still_sfScr
    | with_reducible apply Still.ite
    | split

theorem keeps_sfTake {z : State} (s : State) (n : Nat) (h : Keeps z s) :
    Keeps z (sfTake s n) := h.step (still_sfTake s n (.refl _))

theorem still_sfTick {z : State} (s : State) (n : Nat) (h : Still z s) :
    Still z (sfTick s n) := by
  unfold sfTick
  repeat' first
    | with_reducible assumption
    | with_reducible exact Still.refl _
    | dsimp only
    | with_reducible apply still_laneLossDue
    | with_reducible apply still_sfTake
    | (with_reducible apply Still.times; rotate_left; intro _ _)

theorem keeps_sfTick {z : State} (s : State) (n : Nat) (h : Keeps z s) :
    Keeps z (sfTick s n) := h.step (still_sfTick s n (.refl _))

theorem still_enterPhase {z : State} (s : State) (n p : Nat) (h : Still z s) :
    Still z (enterPhase s n p) := by
  unfold enterPhase
  repeat' first
    | with_reducible assumption
    | dsimp only
    | fail_if_no_progress with_reducible apply Still.upd
    | with_reducible apply still_modLane
    | with_reducible apply still_wrF
    | with_reducible apply still_setLaneState

theorem keeps_enterPhase {z : State} (s : State) (n p : Nat) (h : Keeps z s) :
    Keeps z (enterPhase s n p) := h.step (still_enterPhase s n p (.refl _))

theorem still_laneFail {z : State} (s : State) (n reason : Nat) (h : Still z s) :
    Still z (laneFail s n reason) := by
  unfold laneFail
  repeat' first
    | with_reducible assumption
    | dsimp only
    | fail_if_no_progress with_reducible apply Still.upd
    | with_reducible apply still_modLane
    | with_reducible apply still_laneEvent
    | with_reducible apply still_wrF
    | with_reducible apply still_setLaneState

theorem keeps_laneFail {z : State} (s : State) (n reason : Nat) (h : Keeps z s) :
    Keeps z (laneFail s n reason) := h.step (still_laneFail s n reason (.refl _))

theorem still_startPhase4 {z : State} (s : State) (ls : List Nat) (h : Still z s) :
    Still z (startPhase4 s ls) := by
  unfold startPhase4
  repeat' first
    | with_reducible assumption
    | with_reducible exact Still.refl _
    | dsimp only
    | with_reducible apply still_fwFrame
    | with_reducible apply still_enterPhase
    | (with_reducible apply Still.each; rotate_left; intro _ _)
    | split

theorem keeps_startPhase4 {z : State} (s : State) (ls : List Nat) (h : Keeps z s) :
    Keeps z (startPhase4 s ls) := h.step (still_startPhase4 s ls (.refl _))

theorem still_enterPhase6 {z : State} (s : State) (n : Nat) (h : Still z s) :
    Still z (enterPhase6 s n) := by
  unfold enterPhase6
  repeat' first
    | with_reducible assumption
    | dsimp only
    | fail_if_no_progress with_reducible apply Still.upd
    | with_reducible apply still_enterPhase
    | with_reducible apply still_modLane
    | with_reducible apply still_fwLaneFrame
    | with_reducible apply still_laneFail
    | with_reducible apply Still.ite

theorem keeps_enterPhase6 {z : State} (s : State) (n : Nat) (h : Keeps z s) :
    Keeps z (enterPhase6 s n) := h.step (still_enterPhase6 s n (.refl _))

theorem still_endPhase5 {z : State} (s : State) (ls : List Nat) (setRel : Bool) (h : Still z s) :
    Still z (endPhase5 s ls setRel) := by
  unfold endPhase5
  repeat' first
    | with_reducible assumption
    | with_reducible exact Still.refl _
    | dsimp only
    | fail_if_no_progress with_reducible apply Still.upd
    | with_reducible apply still_wr
    | with_reducible apply still_modLane
    | with_reducible apply still_enterPhase6
    | with_reducible apply still_laneFail
    | (with_reducible apply Still.each; rotate_left; intro _ _)
    | with_reducible apply Still.ite

theorem keeps_endPhase5 {z : State} (s : State) (ls : List Nat) (setRel : Bool) (h : Keeps z s) :
    Keeps z (endPhase5 s ls setRel) := h.step (still_endPhase5 s ls setRel (.refl _))

theorem still_trainCheck {z : State} (s : State) (m : Nat) (ls : List Nat) (setRel : Bool) (fuel : Nat) (h : Still z s) :
    Still z (trainCheck s m ls setRel fuel) := by
  induction fuel generalizing s m ls setRel with
  | zero => exact h
  | succ n ih =>
    unfold trainCheck
    repeat' first
      | with_reducible assumption
      | dsimp only
      | with_reducible apply still_startPhase4
      | with_reducible apply still_endPhase5
      | with_reducible apply still_completeCmd
      | with_reducible apply Still.ite
      | split
      | with_reducible apply ih

theorem keeps_trainCheck {z : State} (s : State) (m : Nat) (ls : List Nat) (setRel : Bool) (fuel : Nat) (h : Keeps z s) :
    Keeps z (trainCheck s m ls setRel fuel) := h.step (still_trainCheck s m ls setRel fuel (.refl _))

theorem still_trainMoved {z : State} (s : State) (n : Nat) (h : Still z s) :
    Still z (trainMoved s n) := by
  unfold trainMoved
  repeat' first
    | with_reducible assumption
    | dsimp only
    | with_reducible apply still_trainCheck
    | split

theorem keeps_trainMoved {z : State} (s : State) (n : Nat) (h : Keeps z s) :
    Keeps z (trainMoved s n) := h.step (still_trainMoved s n (.refl _))

theorem still_idleDetect {z : State} (s : State) (n : Nat) (h : Still z s) :
    Still z (idleDetect s n) := by
  unfold idleDetect
  repeat' first
    | with_reducible assumption
    | with_reducible apply still_enterPhase
    | with_reducible apply Still.ite

theorem keeps_idleDetect {z : State} (s : State) (n : Nat) (h : Keeps z s) :
    Keeps z (idleDetect s n) := h.step (still_idleDetect s n (.refl _))

theorem still_cdrDone {z : State} (s : State) (n : Nat) (h : Still z s) :
    Still z (cdrDone s n) := by
  unfold cdrDone
  repeat' first
    | with_reducible assumption
    | with_reducible apply still_fwLaneFrame
    | with_reducible apply still_enterPhase
    | with_reducible apply Still.ite

theorem keeps_cdrDone {z : State} (s : State) (n : Nat) (h : Keeps z s) :
    Keeps z (cdrDone s n) := h.step (still_cdrDone s n (.refl _))

theorem still_markerLock {z : State} (s : State) (n : Nat) (b : List Word) (h : Still z s) :
    Still z (markerLock s n b) := by
  unfold markerLock
  repeat' first
    | with_reducible assumption
    | dsimp only
    | fail_if_no_progress with_reducible apply Still.upd
    | with_reducible apply still_wr
    | with_reducible apply still_trainMoved
    | with_reducible apply still_modLane
    | with_reducible apply still_laneFail
    | with_reducible apply Still.ite

theorem keeps_markerLock {z : State} (s : State) (n : Nat) (b : List Word) (h : Keeps z s) :
    Keeps z (markerLock s n b) := h.step (still_markerLock s n b (.refl _))

theorem still_enterPhase5 {z : State} (s : State) (n : Nat) (h : Still z s) :
    Still z (enterPhase5 s n) := by
  unfold enterPhase5
  repeat' first
    | with_reducible assumption
    | dsimp only
    | fail_if_no_progress with_reducible apply Still.upd
    | with_reducible apply still_drawFree
    | with_reducible apply still_modLane
    | with_reducible apply still_enterPhase
    | with_reducible apply still_fwLaneFrame

theorem keeps_enterPhase5 {z : State} (s : State) (n : Nat) (h : Keeps z s) :
    Keeps z (enterPhase5 s n) := h.step (still_enterPhase5 s n (.refl _))

theorem still_deskew {z : State} (s : State) (arr : List (Fin 256 × Nat)) (h : Still z s) :
    Still z (deskew s arr) := by
  unfold deskew
  repeat' first
    | with_reducible assumption
    | with_reducible exact Still.refl _
    | dsimp only
    | with_reducible apply still_trainCheck
    | with_reducible apply still_laneFail
    | with_reducible apply still_enterPhase5
    | (with_reducible apply Still.each; rotate_left; intro _ _)
    | with_reducible apply Still.ite
    | split

theorem keeps_deskew {z : State} (s : State) (arr : List (Fin 256 × Nat)) (h : Keeps z s) :
    Keeps z (deskew s arr) := h.step (still_deskew s arr (.refl _))

theorem still_latency {z : State} (s : State) (es : List Echo) (h : Still z s) :
    Still z (latency s es) := by
  unfold latency
  repeat' first
    | with_reducible assumption
    | with_reducible exact Still.refl _
    | dsimp only
    | fail_if_no_progress with_reducible apply Still.upd
    | with_reducible apply still_trainMoved
    | with_reducible apply still_setLane
    | (with_reducible apply Still.each; rotate_left; intro _ _)
    | with_reducible apply Still.ite

theorem keeps_latency {z : State} (s : State) (es : List Echo) (h : Keeps z s) :
    Keeps z (latency s es) := h.step (still_latency s es (.refl _))

theorem still_laneGoLive {z : State} (s : State) (n : Nat) (h : Still z s) :
    Still z (laneGoLive s n) := by
  unfold laneGoLive
  repeat' first
    | with_reducible assumption
    | dsimp only
    | fail_if_no_progress with_reducible apply Still.upd
    | with_reducible apply still_wrF
    | with_reducible apply still_setLaneState
    | with_reducible apply still_modLane
    | with_reducible apply still_trainMoved
    | with_reducible apply Still.ite

theorem keeps_laneGoLive {z : State} (s : State) (n : Nat) (h : Keeps z s) :
    Keeps z (laneGoLive s n) := h.step (still_laneGoLive s n (.refl _))

theorem still_trainingPhaseLimit {z : State} (s : State) (n : Nat) (second : Bool) (h : Still z s) :
    Still z (trainingPhaseLimit s n second) := by
  unfold trainingPhaseLimit
  repeat' first
    | with_reducible assumption
    | dsimp only
    | with_reducible apply still_trainMoved
    | with_reducible apply still_laneFail
    | with_reducible apply Still.ite

theorem keeps_trainingPhaseLimit {z : State} (s : State) (n : Nat) (second : Bool) (h : Keeps z s) :
    Keeps z (trainingPhaseLimit s n second) := h.step (still_trainingPhaseLimit s n second (.refl _))

theorem still_laneUnlock {z : State} (s : State) (n : Nat) (h : Still z s) :
    Still z (laneUnlock s n) := by
  unfold laneUnlock
  repeat' first
    | with_reducible assumption
    | dsimp only
    | fail_if_no_progress with_reducible apply Still.upd
    | with_reducible apply still_modLane
    | with_reducible apply still_hwClr

theorem keeps_laneUnlock {z : State} (s : State) (n : Nat) (h : Keeps z s) :
    Keeps z (laneUnlock s n) := h.step (still_laneUnlock s n (.refl _))

theorem still_laneSetFormat {z : State} (s : State) (n fmt : Nat) (h : Still z s) :
    Still z (laneSetFormat s n fmt) := by
  unfold laneSetFormat
  repeat' first
    | with_reducible assumption
    | dsimp only
    | with_reducible apply still_wrF
    | with_reducible apply still_retIdle
    | with_reducible apply still_setLaneState
    | with_reducible apply still_laneUnlock
    | with_reducible apply still_fwLaneFrame
    | with_reducible apply Still.ite

theorem keeps_laneSetFormat {z : State} (s : State) (n fmt : Nat) (h : Keeps z s) :
    Keeps z (laneSetFormat s n fmt) := h.step (still_laneSetFormat s n fmt (.refl _))

theorem still_laneFormatCmd {z : State} (s : State) (m : Nat) (h : Still z s) :
    Still z (laneFormatCmd s m) := by
  unfold laneFormatCmd
  repeat' first
    | with_reducible assumption
    | with_reducible exact Still.refl _
    | dsimp only
    | with_reducible apply still_laneSetFormat
    | with_reducible apply still_checked
    | with_reducible apply still_completeCmd
    | (with_reducible apply Still.each; rotate_left; intro _ _)

theorem keeps_laneFormatCmd {z : State} (s : State) (m : Nat) (h : Keeps z s) :
    Keeps z (laneFormatCmd s m) := h.step (still_laneFormatCmd s m (.refl _))

theorem still_laneStart {z : State} (s : State) (n : Nat) (h : Still z s) :
    Still z (laneStart s n) := by
  unfold laneStart
  repeat' first
    | with_reducible assumption
    | dsimp only
    | with_reducible apply still_unlive
    | with_reducible apply still_laneUnlock
    | with_reducible apply still_wrF
    | with_reducible apply still_enterPhase
    | with_reducible apply Still.ite

theorem keeps_laneStart {z : State} (s : State) (n : Nat) (h : Keeps z s) :
    Keeps z (laneStart s n) := h.step (still_laneStart s n (.refl _))

theorem still_laneTrainCmd {z : State} (s : State) (m : Nat) (caps : List Nat) (h : Still z s) :
    Still z (laneTrainCmd s m caps) := by
  unfold laneTrainCmd
  repeat' first
    | with_reducible assumption
    | with_reducible exact Still.refl _
    | dsimp only
    | with_reducible apply still_checked
    | with_reducible apply still_holdCmd
    | with_reducible apply still_laneStart
    | with_reducible apply still_trainCheck
    | (with_reducible apply Still.each; rotate_left; intro _ _)

theorem keeps_laneTrainCmd {z : State} (s : State) (m : Nat) (caps : List Nat) (h : Keeps z s) :
    Keeps z (laneTrainCmd s m caps) := h.step (still_laneTrainCmd s m caps (.refl _))

theorem still_laneIdleCmd {z : State} (s : State) (m : Nat) (h : Still z s) :
    Still z (laneIdleCmd s m) := by
  unfold laneIdleCmd
  repeat' first
    | with_reducible assumption
    | with_reducible exact Still.refl _
    | dsimp only
    | with_reducible apply still_checked
    | with_reducible apply still_completeCmd
    | with_reducible apply still_setLaneState
    | with_reducible apply still_laneUnlock
    | (with_reducible apply Still.each; rotate_left; intro _ _)
    | with_reducible apply Still.ite

theorem keeps_laneIdleCmd {z : State} (s : State) (m : Nat) (h : Keeps z s) :
    Keeps z (laneIdleCmd s m) := h.step (still_laneIdleCmd s m (.refl _))

theorem still_returnSendCmd {z : State} (s : State) (m : Nat) (h : Still z s) :
    Still z (returnSendCmd s m) := by
  unfold returnSendCmd
  repeat' first
    | with_reducible assumption
    | dsimp only
    | with_reducible apply still_checked
    | with_reducible apply still_holdCmd
    | with_reducible apply still_retQueue

theorem keeps_returnSendCmd {z : State} (s : State) (m : Nat) (h : Keeps z s) :
    Keeps z (returnSendCmd s m) := h.step (still_returnSendCmd s m (.refl _))

end Sys2Proof.Machine
end

