-- ==== Sys2Proof/Laws/Frame/UnitCmd.lean ====
section
/-! SUPPORT. What the operations of Machine/UnitCmd.lean leave alone (Laws/Keeps.lean). -/

namespace Sys2Proof.Machine

theorem still_ucodeLoadCmd {z : State} (s : State) (m : Nat) (image : ImageRead) (h : Still z s) :
    Still z (ucodeLoadCmd s m image) := by
  unfold ucodeLoadCmd
  repeat' first
    | with_reducible assumption
    | with_reducible exact Still.refl _
    | dsimp only
    | with_reducible apply still_checked
    | with_reducible apply still_completeCmd
    | with_reducible apply still_loadEngine
    | (with_reducible apply Still.each; rotate_left; intro _ _)
    | split

theorem keeps_ucodeLoadCmd {z : State} (s : State) (m : Nat) (image : ImageRead) (h : Keeps z s) :
    Keeps z (ucodeLoadCmd s m image) := h.step (still_ucodeLoadCmd s m image (.refl _))

theorem still_engSetMode {z : State} (s : State) (e : Nat) (replay : Bool) (h : Still z s) :
    Still z (engSetMode s e replay) := by
  unfold engSetMode
  repeat' first
    | with_reducible assumption
    | dsimp only
    | with_reducible apply still_wrBit
    | with_reducible apply still_setRun
    | with_reducible apply Still.ite

theorem keeps_engSetMode {z : State} (s : State) (e : Nat) (replay : Bool) (h : Keeps z s) :
    Keeps z (engSetMode s e replay) := h.step (still_engSetMode s e replay (.refl _))

theorem still_engineModeCmd {z : State} (s : State) (m : Nat) (h : Still z s) :
    Still z (engineModeCmd s m) := by
  unfold engineModeCmd
  repeat' first
    | with_reducible assumption
    | with_reducible exact Still.refl _
    | dsimp only
    | with_reducible apply still_checked
    | with_reducible apply still_completeCmd
    | with_reducible apply still_engSetMode
    | (with_reducible apply Still.each; rotate_left; intro _ _)

theorem keeps_engineModeCmd {z : State} (s : State) (m : Nat) (h : Keeps z s) :
    Keeps z (engineModeCmd s m) := h.step (still_engineModeCmd s m (.refl _))

theorem still_consistDissolve {z : State} (s : State) (e : Nat) (h : Still z s) :
    Still z (consistDissolve s e) := by
  unfold consistDissolve
  repeat' first
    | with_reducible assumption
    | with_reducible exact Still.refl _
    | dsimp only
    | fail_if_no_progress with_reducible apply Still.upd
    | with_reducible apply still_modEng
    | with_reducible apply still_engEnterSound
    | with_reducible apply still_wrF
    | (with_reducible apply Still.each; rotate_left; intro _ _)
    | with_reducible apply Still.ite

theorem keeps_consistDissolve {z : State} (s : State) (e : Nat) (h : Keeps z s) :
    Keeps z (consistDissolve s e) := h.step (still_consistDissolve s e (.refl _))

theorem still_consistFollow {z : State} (s : State) (n : Nat) (h : Still z s) :
    Still z (consistFollow s n) := by
  unfold consistFollow
  repeat' first
    | with_reducible assumption
    | with_reducible exact Still.refl _
    | dsimp only
    | with_reducible apply still_engPub
    | with_reducible apply still_engEnterSound
    | with_reducible apply still_wr
    | (with_reducible apply Still.fold; rotate_left; intro _ _)

theorem keeps_consistFollow {z : State} (s : State) (n : Nat) (h : Keeps z s) :
    Keeps z (consistFollow s n) := h.step (still_consistFollow s n (.refl _))

theorem still_consistForm {z : State} (s : State) (lead k : Nat) (h : Still z s) :
    Still z (consistForm s lead k) := by
  unfold consistForm
  repeat' first
    | with_reducible assumption
    | with_reducible exact Still.refl _
    | dsimp only
    | fail_if_no_progress with_reducible apply Still.upd
    | with_reducible apply still_modEng
    | with_reducible apply still_wrF
    | with_reducible apply still_consistFollow
    | (with_reducible apply Still.times; rotate_left; intro _ _)
    | with_reducible apply Still.ite

theorem keeps_consistForm {z : State} (s : State) (lead k : Nat) (h : Keeps z s) :
    Keeps z (consistForm s lead k) := h.step (still_consistForm s lead k (.refl _))

theorem still_consistSetCmd {z : State} (s : State) (m : Nat) (h : Still z s) :
    Still z (consistSetCmd s m) := by
  unfold consistSetCmd
  repeat' first
    | with_reducible assumption
    | with_reducible exact Still.refl _
    | dsimp only
    | with_reducible apply still_checked
    | with_reducible apply still_consistDissolve
    | with_reducible apply still_completeCmd
    | with_reducible apply still_consistForm
    | (with_reducible apply Still.each; rotate_left; intro _ _)
    | with_reducible apply Still.ite

theorem keeps_consistSetCmd {z : State} (s : State) (m : Nat) (h : Keeps z s) :
    Keeps z (consistSetCmd s m) := h.step (still_consistSetCmd s m (.refl _))

theorem still_engineSnapshotCmd {z : State} (s : State) (m : Nat) (h : Still z s) :
    Still z (engineSnapshotCmd s m) := by
  unfold engineSnapshotCmd
  repeat' first
    | with_reducible assumption
    | dsimp only
    | with_reducible apply still_checked
    | with_reducible apply still_holdCmd

theorem keeps_engineSnapshotCmd {z : State} (s : State) (m : Nat) (h : Keeps z s) :
    Keeps z (engineSnapshotCmd s m) := h.step (still_engineSnapshotCmd s m (.refl _))

theorem still_snapshotWrite {z : State} (s : State) (c : RunCmd) (t r : Nat) (l : List (Nat × List Word64)) (h : Still z s) :
    Still z (snapshotWrite s c t r l) := by
  unfold snapshotWrite
  repeat' first
    | with_reducible assumption
    | dsimp only
    | fail_if_no_progress with_reducible apply Still.upd
    | with_reducible apply still_completeCmd
    | with_reducible apply still_stageNew
    | with_reducible apply Still.ite
    | split

theorem keeps_snapshotWrite {z : State} (s : State) (c : RunCmd) (t r : Nat) (l : List (Nat × List Word64)) (h : Keeps z s) :
    Keeps z (snapshotWrite s c t r l) := h.step (still_snapshotWrite s c t r l (.refl _))

theorem still_snapshotDue {z : State} (s : State) (c : RunCmd) (h : Still z s) :
    Still z (snapshotDue s c) := by
  unfold snapshotDue
  repeat' first
    | with_reducible assumption
    | dsimp only
    | with_reducible apply still_snapshotWrite
    | with_reducible apply Still.ite
    | split

theorem keeps_snapshotDue {z : State} (s : State) (c : RunCmd) (h : Keeps z s) :
    Keeps z (snapshotDue s c) := h.step (still_snapshotDue s c (.refl _))

theorem still_ctxConfigCmd {z : State} (s : State) (m : Nat) (h : Still z s) :
    Still z (ctxConfigCmd s m) := by
  unfold ctxConfigCmd
  repeat' first
    | with_reducible assumption
    | dsimp only
    | fail_if_no_progress with_reducible apply Still.upd
    | with_reducible apply still_checked
    | with_reducible apply still_wrBit
    | with_reducible apply still_completeCmd
    | with_reducible apply still_holdCmd
    | with_reducible apply still_ctxStartClear
    | with_reducible apply still_wr64
    | with_reducible apply Still.ite

theorem keeps_ctxConfigCmd {z : State} (s : State) (m : Nat) (h : Keeps z s) :
    Keeps z (ctxConfigCmd s m) := h.step (still_ctxConfigCmd s m (.refl _))

theorem still_ctxClearCmd {z : State} (s : State) (m : Nat) (h : Still z s) :
    Still z (ctxClearCmd s m) := by
  unfold ctxClearCmd
  repeat' first
    | with_reducible assumption
    | dsimp only
    | with_reducible apply still_checked
    | with_reducible apply still_holdCmd
    | with_reducible apply still_ctxStartClear

theorem keeps_ctxClearCmd {z : State} (s : State) (m : Nat) (h : Keeps z s) :
    Keeps z (ctxClearCmd s m) := h.step (still_ctxClearCmd s m (.refl _))

theorem still_ctxAgeCmd {z : State} (s : State) (m : Nat) (h : Still z s) :
    Still z (ctxAgeCmd s m) := by
  unfold ctxAgeCmd
  repeat' first
    | with_reducible assumption
    | with_reducible exact Still.refl _
    | dsimp only
    | fail_if_no_progress with_reducible apply Still.upd
    | with_reducible apply still_checked
    | with_reducible apply still_wr
    | with_reducible apply still_wrBit
    | with_reducible apply still_completeCmd

theorem keeps_ctxAgeCmd {z : State} (s : State) (m : Nat) (h : Keeps z s) :
    Keeps z (ctxAgeCmd s m) := h.step (still_ctxAgeCmd s m (.refl _))

theorem still_ctxDumpCmd {z : State} (s : State) (m : Nat) (h : Still z s) :
    Still z (ctxDumpCmd s m) := by
  unfold ctxDumpCmd
  repeat' first
    | with_reducible assumption
    | dsimp only
    | with_reducible apply still_checked
    | with_reducible apply still_dumpStart

theorem keeps_ctxDumpCmd {z : State} (s : State) (m : Nat) (h : Keeps z s) :
    Keeps z (ctxDumpCmd s m) := h.step (still_ctxDumpCmd s m (.refl _))

theorem still_ringCreateCmd {z : State} (s : State) (m : Nat) (h : Still z s) :
    Still z (ringCreateCmd s m) := by
  unfold ringCreateCmd
  repeat' first
    | with_reducible assumption
    | dsimp only
    | with_reducible apply still_checked
    | with_reducible apply still_completeCmd
    | with_reducible apply still_ringCreate

theorem keeps_ringCreateCmd {z : State} (s : State) (m : Nat) (h : Keeps z s) :
    Keeps z (ringCreateCmd s m) := h.step (still_ringCreateCmd s m (.refl _))

theorem still_streamSet {z : State} (s : State) (n mode ring act duty rate : Nat) (h : Still z s) :
    Still z (streamSet s n mode ring act duty rate) := by
  unfold streamSet
  repeat' first
    | with_reducible assumption
    | dsimp only
    | fail_if_no_progress with_reducible apply Still.upd
    | with_reducible apply still_closeOpen
    | with_reducible apply still_wrBit
    | with_reducible apply still_wrF
    | with_reducible apply still_modStr
    | with_reducible apply Still.ite

theorem keeps_streamSet {z : State} (s : State) (n mode ring act duty rate : Nat) (h : Keeps z s) :
    Keeps z (streamSet s n mode ring act duty rate) := h.step (still_streamSet s n mode ring act duty rate (.refl _))

theorem still_streamModeCmd {z : State} (s : State) (m : Nat) (h : Still z s) :
    Still z (streamModeCmd s m) := by
  unfold streamModeCmd
  repeat' first
    | with_reducible assumption
    | dsimp only
    | with_reducible apply still_streamSet
    | with_reducible apply still_checked
    | with_reducible apply still_completeCmd

theorem keeps_streamModeCmd {z : State} (s : State) (m : Nat) (h : Keeps z s) :
    Keeps z (streamModeCmd s m) := h.step (still_streamModeCmd s m (.refl _))

theorem still_ringFlushCmd {z : State} (s : State) (m : Nat) (h : Still z s) :
    Still z (ringFlushCmd s m) := by
  unfold ringFlushCmd
  repeat' first
    | with_reducible assumption
    | dsimp only
    | fail_if_no_progress with_reducible apply Still.upd
    | with_reducible apply still_checked
    | with_reducible apply still_holdCmd
    | with_reducible apply still_modRing

theorem keeps_ringFlushCmd {z : State} (s : State) (m : Nat) (h : Keeps z s) :
    Keeps z (ringFlushCmd s m) := h.step (still_ringFlushCmd s m (.refl _))

theorem still_flushTick {z : State} (s : State) (c : RunCmd) (h : Still z s) :
    Still z (flushTick s c) := by
  unfold flushTick
  repeat' first
    | with_reducible assumption
    | dsimp only
    | fail_if_no_progress with_reducible apply Still.upd
    | with_reducible apply still_completeCmd
    | with_reducible apply still_modRing
    | with_reducible apply Still.ite
    | split

theorem keeps_flushTick {z : State} (s : State) (c : RunCmd) (h : Keeps z s) :
    Keeps z (flushTick s c) := h.step (still_flushTick s c (.refl _))

theorem still_ringNoticeTimer {z : State} (s : State) (r : Nat) (h : Still z s) :
    Still z (ringNoticeTimer s r) := by
  unfold ringNoticeTimer
  repeat' first
    | with_reducible assumption
    | with_reducible apply still_ringNotice
    | with_reducible apply Still.ite

theorem keeps_ringNoticeTimer {z : State} (s : State) (r : Nat) (h : Keeps z s) :
    Keeps z (ringNoticeTimer s r) := h.step (still_ringNoticeTimer s r (.refl _))

end Sys2Proof.Machine
end

