-- ==== Sys2Proof/Laws/Frame/CaptureCmd.lean ====
section
/-! SUPPORT. What the operations of Machine/CaptureCmd.lean leave alone (Laws/Keeps.lean). -/

namespace Sys2Proof.Machine

theorem still_armDraw {z : State} (s : State) (h : Still z s) :
    Still z (armDraw s) := by
  unfold armDraw
  repeat' first
    | with_reducible assumption
    | dsimp only
    | with_reducible apply still_drawFree
    | with_reducible apply still_ctxStartClear
    | with_reducible apply still_wr64
    | refine Still.snd ?_ (by assumption)
    | with_reducible apply Still.ite

theorem keeps_armDraw {z : State} (s : State) (h : Keeps z s) :
    Keeps z (armDraw s) := h.step (still_armDraw s (.refl _))

theorem still_forceTrigger {z : State} (s : State) (t : Int) (h : Still z s) :
    Still z (forceTrigger s t) := by
  unfold forceTrigger
  repeat' first
    | with_reducible assumption
    | dsimp only
    | fail_if_no_progress with_reducible apply Still.upd

theorem keeps_forceTrigger {z : State} (s : State) (t : Int) (h : Keeps z s) :
    Keeps z (forceTrigger s t) := h.step (still_forceTrigger s t (.refl _))

theorem still_postScheduled {z : State} (s : State) (m : Nat) (held : List Res) (h : Still z s) :
    Still z (postScheduled s m held) := by
  unfold postScheduled
  repeat' first
    | with_reducible assumption
    | with_reducible apply still_holdCmd
    | with_reducible apply still_wr64

theorem keeps_postScheduled {z : State} (s : State) (m : Nat) (held : List Res) (h : Keeps z s) :
    Keeps z (postScheduled s m held) := h.step (still_postScheduled s m held (.refl _))

theorem still_capturePrepareCmd {z : State} (s : State) (m : Nat) (h : Still z s) :
    Still z (capturePrepareCmd s m) := by
  unfold capturePrepareCmd
  repeat' first
    | with_reducible assumption
    | dsimp only
    | with_reducible apply still_checked
    | with_reducible apply still_completeCmd
    | with_reducible apply still_setCapState

theorem keeps_capturePrepareCmd {z : State} (s : State) (m : Nat) (h : Keeps z s) :
    Keeps z (capturePrepareCmd s m) := h.step (still_capturePrepareCmd s m (.refl _))

theorem still_captureArmCmd {z : State} (s : State) (m : Nat) (h : Still z s) :
    Still z (captureArmCmd s m) := by
  unfold captureArmCmd
  repeat' first
    | with_reducible assumption
    | dsimp only
    | with_reducible apply still_checked
    | with_reducible apply still_armDraw
    | with_reducible apply still_postScheduled
    | with_reducible apply still_holdCmd
    | with_reducible apply still_enterArmed
    | with_reducible apply still_completeCmd
    | with_reducible apply Still.ite

theorem keeps_captureArmCmd {z : State} (s : State) (m : Nat) (h : Keeps z s) :
    Keeps z (captureArmCmd s m) := h.step (still_captureArmCmd s m (.refl _))

theorem still_captureStopCmd {z : State} (s : State) (m : Nat) (h : Still z s) :
    Still z (captureStopCmd s m) := by
  unfold captureStopCmd
  repeat' first
    | with_reducible assumption
    | dsimp only
    | with_reducible apply still_checked
    | with_reducible apply still_postScheduled
    | with_reducible apply still_completeCmd
    | with_reducible apply still_captureHalt
    | with_reducible apply Still.ite

theorem keeps_captureStopCmd {z : State} (s : State) (m : Nat) (h : Keeps z s) :
    Keeps z (captureStopCmd s m) := h.step (still_captureStopCmd s m (.refl _))

theorem still_captureForceCmd {z : State} (s : State) (m : Nat) (h : Still z s) :
    Still z (captureForceCmd s m) := by
  unfold captureForceCmd
  repeat' first
    | with_reducible assumption
    | dsimp only
    | with_reducible apply still_checked
    | with_reducible apply still_postScheduled
    | with_reducible apply still_completeCmd
    | with_reducible apply still_forceTrigger
    | with_reducible apply Still.ite

theorem keeps_captureForceCmd {z : State} (s : State) (m : Nat) (h : Keeps z s) :
    Keeps z (captureForceCmd s m) := h.step (still_captureForceCmd s m (.refl _))

theorem still_captureReleaseCmd {z : State} (s : State) (m : Nat) (h : Still z s) :
    Still z (captureReleaseCmd s m) := by
  unfold captureReleaseCmd
  repeat' first
    | with_reducible assumption
    | with_reducible exact Still.refl _
    | dsimp only
    | fail_if_no_progress with_reducible apply Still.upd
    | with_reducible apply still_checked
    | with_reducible apply still_closeOpen
    | with_reducible apply still_completeCmd
    | with_reducible apply still_setCapState
    | (with_reducible apply Still.each; rotate_left; intro _ _)

theorem keeps_captureReleaseCmd {z : State} (s : State) (m : Nat) (h : Keeps z s) :
    Keeps z (captureReleaseCmd s m) := h.step (still_captureReleaseCmd s m (.refl _))

theorem still_captureStatusCmd {z : State} (s : State) (m : Nat) (h : Still z s) :
    Still z (captureStatusCmd s m) := by
  unfold captureStatusCmd
  repeat' first
    | with_reducible assumption
    | dsimp only
    | with_reducible apply still_checked
    | with_reducible apply still_completeCmd

theorem keeps_captureStatusCmd {z : State} (s : State) (m : Nat) (h : Keeps z s) :
    Keeps z (captureStatusCmd s m) := h.step (still_captureStatusCmd s m (.refl _))

theorem still_clearWaiter {z : State} (s : State) (c : RunCmd) (h : Still z s) :
    Still z (clearWaiter s c) := by
  unfold clearWaiter
  repeat' first
    | with_reducible assumption
    | dsimp only
    | with_reducible apply still_completeCmd
    | with_reducible apply still_enterArmed
    | with_reducible apply Still.ite
    | split

theorem keeps_clearWaiter {z : State} (s : State) (c : RunCmd) (h : Keeps z s) :
    Keeps z (clearWaiter s c) := h.step (still_clearWaiter s c (.refl _))

theorem still_contextStoreClearEnd {z : State} (s : State) (h : Still z s) :
    Still z (contextStoreClearEnd s) := by
  unfold contextStoreClearEnd
  repeat' first
    | with_reducible assumption
    | with_reducible exact Still.refl _
    | dsimp only
    | fail_if_no_progress with_reducible apply Still.upd
    | with_reducible apply still_setCtxState
    | with_reducible apply still_clearWaiter
    | (with_reducible apply Still.each; rotate_left; intro _ _)
    | with_reducible apply Still.ite

theorem keeps_contextStoreClearEnd {z : State} (s : State) (h : Keeps z s) :
    Keeps z (contextStoreClearEnd s) := h.step (still_contextStoreClearEnd s (.refl _))

end Sys2Proof.Machine
end

