-- ==== Sys2Proof/Laws/Frame/Deflate.lean ====
section
/-! SUPPORT. What the operations of Machine/Deflate.lean leave alone (Laws/Keeps.lean). -/

namespace Sys2Proof.Machine

theorem still_setDflState {z : State} (s : State) (k v : Nat) (h : Still z s) :
    Still z (setDflState s k v) := by
  unfold setDflState
  repeat' first
    | with_reducible assumption
    | with_reducible apply still_wrF

theorem keeps_setDflState {z : State} (s : State) (k v : Nat) (h : Keeps z s) :
    Keeps z (setDflState s k v) := h.step (still_setDflState s k v (.refl _))

theorem still_dmaBind {z : State} (s : State) (c : Nat) (k : Option Nat) (h : Still z s) :
    Still z (dmaBind s c k) := by
  unfold dmaBind
  repeat' first
    | with_reducible assumption
    | with_reducible apply still_wrF
    | with_reducible apply still_wrBit

theorem keeps_dmaBind {z : State} (s : State) (c : Nat) (k : Option Nat) (h : Keeps z s) :
    Keeps z (dmaBind s c k) := h.step (still_dmaBind s c k (.refl _))

theorem still_dflEnd {z : State} (s : State) (k cause st : Nat) (flushed : Bool) (h : Still z s) :
    Still z (dflEnd s k cause st flushed) := by
  unfold dflEnd
  repeat' first
    | with_reducible assumption
    | dsimp only
    | fail_if_no_progress with_reducible apply Still.upd
    | with_reducible apply still_dmaBind
    | with_reducible apply still_wrF
    | with_reducible apply still_setDflState
    | with_reducible apply still_dflEvent
    | with_reducible apply still_completeCmd
    | with_reducible apply Still.ite
    | split

theorem keeps_dflEnd {z : State} (s : State) (k cause st : Nat) (flushed : Bool) (h : Keeps z s) :
    Keeps z (dflEnd s k cause st flushed) := h.step (still_dflEnd s k cause st flushed (.refl _))

theorem still_dflAbort {z : State} (s : State) (k cause st : Nat) (h : Still z s) :
    Still z (dflAbort s k cause st) := by
  unfold dflAbort
  repeat' first
    | with_reducible assumption
    | with_reducible apply still_dflEnd
    | with_reducible apply Still.ite

theorem keeps_dflAbort {z : State} (s : State) (k cause st : Nat) (h : Keeps z s) :
    Keeps z (dflAbort s k cause st) := h.step (still_dflAbort s k cause st (.refl _))

theorem still_dflRingDeleted {z : State} (s : State) (r : Nat) (h : Still z s) :
    Still z (dflRingDeleted s r) := by
  unfold dflRingDeleted
  repeat' first
    | with_reducible assumption
    | with_reducible exact Still.refl _
    | dsimp only
    | with_reducible apply still_dflAbort
    | (with_reducible apply Still.times; rotate_left; intro _ _)
    | with_reducible apply Still.ite

theorem keeps_dflRingDeleted {z : State} (s : State) (r : Nat) (h : Keeps z s) :
    Keeps z (dflRingDeleted s r) := h.step (still_dflRingDeleted s r (.refl _))

theorem still_ringDeleteCmd {z : State} (s : State) (m : Nat) (h : Still z s) :
    Still z (ringDeleteCmd s m) := by
  unfold ringDeleteCmd
  repeat' first
    | with_reducible assumption
    | dsimp only
    | with_reducible apply still_checked
    | with_reducible apply still_completeCmd
    | with_reducible apply still_ringDelete
    | with_reducible apply still_dflRingDeleted

theorem keeps_ringDeleteCmd {z : State} (s : State) (m : Nat) (h : Keeps z s) :
    Keeps z (ringDeleteCmd s m) := h.step (still_ringDeleteCmd s m (.refl _))

theorem still_readRecord {z : State} (s : State) (r p : Nat) (h : Still z s) :
    Still z (readRecord s r p).2.2 := by
  unfold readRecord
  repeat' first
    | with_reducible assumption
    | with_reducible exact Still.refl _
    | dsimp only
    | with_reducible apply still_countRingRead
    | (with_reducible apply Still.times; rotate_left; intro _ _)

theorem keeps_readRecord {z : State} (s : State) (r p : Nat) (h : Keeps z s) :
    Keeps z (readRecord s r p).2.2 := h.step (still_readRecord s r p (.refl _))

theorem still_dflRead {z : State} (s : State) (k : Nat) (h : Still z s) :
    Still z (dflRead s k) := by
  unfold dflRead
  repeat' first
    | with_reducible assumption
    | dsimp only
    | fail_if_no_progress with_reducible apply Still.upd
    | with_reducible apply still_setDfl
    | with_reducible apply still_countRingRead
    | with_reducible apply still_readRecord
    | with_reducible apply still_wr
    | with_reducible apply still_wr64
    | with_reducible apply still_dflEvent
    | with_reducible apply still_ctrAdd
    | refine Still.thd ?_ (by assumption)
    | with_reducible apply Still.ite

theorem keeps_dflRead {z : State} (s : State) (k : Nat) (h : Keeps z s) :
    Keeps z (dflRead s k) := h.step (still_dflRead s k (.refl _))

theorem still_dflRecords {z : State} (s : State) (k : Nat) (ts : Word64) (flags : BitVec 8) (btype : Nat) (final : Bool) (fuel : Nat) (l : List Byte) (h : Still z s) :
    Still z (dflRecords s k ts flags btype final fuel l) := by
  induction fuel generalizing s l with
  | zero => exact h
  | succ n ih =>
    unfold dflRecords
    repeat' first
      | with_reducible assumption
      | dsimp only
      | with_reducible apply ih
      | with_reducible apply still_stageNew
      | split

theorem keeps_dflRecords {z : State} (s : State) (k : Nat) (ts : Word64) (flags : BitVec 8) (btype : Nat) (final : Bool) (fuel : Nat) (l : List Byte) (h : Keeps z s) :
    Keeps z (dflRecords s k ts flags btype final fuel l) := h.step (still_dflRecords s k ts flags btype final fuel l (.refl _))

theorem still_dflPut {z : State} (s : State) (k : Nat) (ts : Word64) (flags : BitVec 8) (btype : Nat) (final : Bool) (bytes : List Byte) (h : Still z s) :
    Still z (dflPut s k ts flags btype final bytes) := by
  unfold dflPut
  repeat' first
    | with_reducible assumption
    | dsimp only
    | fail_if_no_progress with_reducible apply Still.upd
    | with_reducible apply still_setDfl
    | with_reducible apply still_wr64
    | with_reducible apply still_dflRecords
    | with_reducible apply Still.ite

theorem keeps_dflPut {z : State} (s : State) (k : Nat) (ts : Word64) (flags : BitVec 8) (btype : Nat) (final : Bool) (bytes : List Byte) (h : Keeps z s) :
    Keeps z (dflPut s k ts flags btype final bytes) := h.step (still_dflPut s k ts flags btype final bytes (.refl _))

theorem still_dflReread {z : State} (s : State) (k : Nat) (h : Still z s) :
    Still z (dflReread s k) := by
  unfold dflReread
  repeat' first
    | with_reducible assumption
    | with_reducible exact Still.refl _
    | dsimp only
    | with_reducible apply still_countRingRead
    | (with_reducible apply Still.times; rotate_left; intro _ _)

theorem keeps_dflReread {z : State} (s : State) (k : Nat) (h : Keeps z s) :
    Keeps z (dflReread s k) := h.step (still_dflReread s k (.refl _))

theorem still_dflCode {z : State} (s : State) (k : Nat) (h : Still z s) :
    Still z (dflCode s k).2.2 := by
  unfold dflCode
  repeat' first
    | with_reducible assumption
    | dsimp only
    | with_reducible apply still_drawFree
    | with_reducible apply still_dflReread
    | refine Still.snd ?_ (by assumption)
    | with_reducible apply Still.ite
    | split

theorem keeps_dflCode {z : State} (s : State) (k : Nat) (h : Keeps z s) :
    Keeps z (dflCode s k).2.2 := h.step (still_dflCode s k (.refl _))

theorem still_dflClose {z : State} (s : State) (k : Nat) (h : Still z s) :
    Still z (dflClose s k) := by
  unfold dflClose
  repeat' first
    | with_reducible assumption
    | dsimp only
    | fail_if_no_progress with_reducible apply Still.upd
    | with_reducible apply still_dflCode
    | with_reducible apply still_dflPut
    | with_reducible apply still_ctrAdd
    | with_reducible apply still_modDfl
    | refine Still.thd ?_ (by assumption)
    | with_reducible apply Still.ite

theorem keeps_dflClose {z : State} (s : State) (k : Nat) (h : Keeps z s) :
    Keeps z (dflClose s k) := h.step (still_dflClose s k (.refl _))

theorem still_dflBlockEnd {z : State} (s : State) (k : Nat) (h : Still z s) :
    Still z (dflBlockEnd s k) := by
  unfold dflBlockEnd
  repeat' first
    | with_reducible assumption
    | dsimp only
    | with_reducible apply still_dflClose
    | with_reducible apply Still.ite

theorem keeps_dflBlockEnd {z : State} (s : State) (k : Nat) (h : Keeps z s) :
    Keeps z (dflBlockEnd s k) := h.step (still_dflBlockEnd s k (.refl _))

theorem still_dflIdle {z : State} (s : State) (k : Nat) (h : Still z s) :
    Still z (dflIdle s k) := by
  unfold dflIdle
  repeat' first
    | with_reducible assumption
    | dsimp only
    | with_reducible apply still_dflClose
    | with_reducible apply Still.ite

theorem keeps_dflIdle {z : State} (s : State) (k : Nat) (h : Keeps z s) :
    Keeps z (dflIdle s k) := h.step (still_dflIdle s k (.refl _))

theorem still_dflJobEnd {z : State} (s : State) (k : Nat) (h : Still z s) :
    Still z (dflJobEnd s k) := by
  unfold dflJobEnd
  repeat' first
    | with_reducible assumption
    | dsimp only
    | fail_if_no_progress with_reducible apply Still.upd
    | with_reducible apply still_dflClose
    | with_reducible apply still_dflPut
    | with_reducible apply still_modDfl
    | with_reducible apply Still.ite

theorem keeps_dflJobEnd {z : State} (s : State) (k : Nat) (h : Keeps z s) :
    Keeps z (dflJobEnd s k) := h.step (still_dflJobEnd s k (.refl _))

theorem still_dflConsume {z : State} (s : State) (k : Nat) (h : Still z s) :
    Still z (dflConsume s k) := by
  unfold dflConsume
  repeat' first
    | with_reducible assumption
    | dsimp only
    | fail_if_no_progress with_reducible apply Still.upd
    | with_reducible apply still_dflEnd
    | with_reducible apply still_modDfl
    | with_reducible apply still_ringDoorbell
    | with_reducible apply Still.ite

theorem keeps_dflConsume {z : State} (s : State) (k : Nat) (h : Keeps z s) :
    Keeps z (dflConsume s k) := h.step (still_dflConsume s k (.refl _))

theorem still_dflSettle {z : State} (s0 : State) (k : Nat) (h : Still z s0) :
    Still z (dflSettle s0 k) := by
  unfold dflSettle
  repeat' first
    | with_reducible assumption
    | dsimp only
    | fail_if_no_progress with_reducible apply Still.upd
    | with_reducible apply still_dflConsume
    | with_reducible apply still_dflEnd
    | with_reducible apply still_modDfl
    | with_reducible apply still_dflEvent
    | with_reducible apply still_completeCmd
    | with_reducible apply Still.ite
    | split

theorem keeps_dflSettle {z : State} (s0 : State) (k : Nat) (h : Keeps z s0) :
    Keeps z (dflSettle s0 k) := h.step (still_dflSettle s0 k (.refl _))

theorem still_dflTick {z : State} (s : State) (h : Still z s) :
    Still z (dflTick s) := by
  unfold dflTick
  repeat' first
    | with_reducible assumption
    | with_reducible exact Still.refl _
    | dsimp only
    | with_reducible apply still_dflRead
    | with_reducible apply still_dflSettle
    | (with_reducible apply Still.each; rotate_left; intro _ _)

theorem keeps_dflTick {z : State} (s : State) (h : Keeps z s) :
    Keeps z (dflTick s) := h.step (still_dflTick s (.refl _))

theorem still_dflTake {z : State} (s : State) (k : Nat) (data : List Byte) (h : Still z s) :
    Still z (dflTake s k data).2.2 := by
  unfold dflTake
  repeat' first
    | with_reducible assumption
    | dsimp only
    | fail_if_no_progress with_reducible apply Still.upd
    | with_reducible apply still_setDfl
    | with_reducible apply still_wr64
    | with_reducible apply still_ctrAdd
    | with_reducible apply still_wr

theorem keeps_dflTake {z : State} (s : State) (k : Nat) (data : List Byte) (h : Keeps z s) :
    Keeps z (dflTake s k data).2.2 := h.step (still_dflTake s k data (.refl _))

theorem keeps_inflateCommit {z : State} (s : State) (k : Nat) (h : Keeps z s) :
    Keeps z (inflateCommit s k) := by
  unfold inflateCommit
  repeat' first
    | with_reducible assumption
    | dsimp only
    | fail_if_no_progress with_reducible apply Keeps.upd
    | with_reducible apply keeps_ringCommit
    | with_reducible apply keeps_modDfl
    | with_reducible apply keeps_wr64
    | with_reducible apply Keeps.ite
    | split

theorem still_inflateEnd {z : State} (s : State) (k : Nat) (h : Still z s) :
    Still z (inflateEnd s k) := by
  unfold inflateEnd
  repeat' first
    | with_reducible assumption
    | dsimp only
    | with_reducible apply still_dflEnd
    | with_reducible apply Still.ite
    | split

theorem keeps_inflateEnd {z : State} (s : State) (k : Nat) (h : Keeps z s) :
    Keeps z (inflateEnd s k) := h.step (still_inflateEnd s k (.refl _))

theorem still_dflBind {z : State} (s : State) (k : Nat) (h : Still z s) :
    Still z (dflBind s k) := by
  unfold dflBind
  repeat' first
    | with_reducible assumption
    | dsimp only
    | with_reducible apply still_dmaBind
    | split

theorem keeps_dflBind {z : State} (s : State) (k : Nat) (h : Keeps z s) :
    Keeps z (dflBind s k) := h.step (still_dflBind s k (.refl _))

theorem still_dflStart {z : State} (s : State) (k state src dest : Nat) (zlib dynamic host : Bool) (readPtr : Nat) (h : Still z s) :
    Still z (dflStart s k state src dest zlib dynamic host readPtr) := by
  unfold dflStart
  repeat' first
    | with_reducible assumption
    | with_reducible exact Still.refl _
    | dsimp only
    | fail_if_no_progress with_reducible apply Still.upd
    | with_reducible apply still_wr
    | with_reducible apply still_dflBind
    | with_reducible apply still_setDfl
    | (with_reducible apply Still.fold; rotate_left; intro _ _)

theorem keeps_dflStart {z : State} (s : State) (k state src dest : Nat) (zlib dynamic host : Bool) (readPtr : Nat) (h : Keeps z s) :
    Keeps z (dflStart s k state src dest zlib dynamic host readPtr) := h.step (still_dflStart s k state src dest zlib dynamic host readPtr (.refl _))

theorem still_deflateJobCmd {z : State} (s : State) (m : Nat) (h : Still z s) :
    Still z (deflateJobCmd s m) := by
  unfold deflateJobCmd
  repeat' first
    | with_reducible assumption
    | dsimp only
    | with_reducible apply still_checked
    | with_reducible apply still_completeCmd
    | with_reducible apply still_dflStart

theorem keeps_deflateJobCmd {z : State} (s : State) (m : Nat) (h : Keeps z s) :
    Keeps z (deflateJobCmd s m) := h.step (still_deflateJobCmd s m (.refl _))

theorem still_inflateJobCmd {z : State} (s : State) (m : Nat) (h : Still z s) :
    Still z (inflateJobCmd s m) := by
  unfold inflateJobCmd
  repeat' first
    | with_reducible assumption
    | dsimp only
    | with_reducible apply still_checked
    | with_reducible apply still_completeCmd
    | with_reducible apply still_dflStart

theorem keeps_inflateJobCmd {z : State} (s : State) (m : Nat) (h : Keeps z s) :
    Keeps z (inflateJobCmd s m) := h.step (still_inflateJobCmd s m (.refl _))

theorem still_deflateFlushCmd {z : State} (s : State) (m : Nat) (h : Still z s) :
    Still z (deflateFlushCmd s m) := by
  unfold deflateFlushCmd
  repeat' first
    | with_reducible assumption
    | dsimp only
    | fail_if_no_progress with_reducible apply Still.upd
    | with_reducible apply still_checked
    | with_reducible apply still_dflEvent
    | with_reducible apply still_completeCmd
    | with_reducible apply still_holdCmd
    | with_reducible apply still_modDfl
    | with_reducible apply Still.ite

theorem keeps_deflateFlushCmd {z : State} (s : State) (m : Nat) (h : Keeps z s) :
    Keeps z (deflateFlushCmd s m) := h.step (still_deflateFlushCmd s m (.refl _))

theorem still_deflateStatusCmd {z : State} (s : State) (m : Nat) (h : Still z s) :
    Still z (deflateStatusCmd s m) := by
  unfold deflateStatusCmd
  repeat' first
    | with_reducible assumption
    | dsimp only
    | with_reducible apply still_checked
    | with_reducible apply still_completeCmd

theorem keeps_deflateStatusCmd {z : State} (s : State) (m : Nat) (h : Keeps z s) :
    Keeps z (deflateStatusCmd s m) := h.step (still_deflateStatusCmd s m (.refl _))

end Sys2Proof.Machine
end

