-- ==== Sys2Proof/Laws/Frame/Timebase.lean ====
section
/-! SUPPORT. What the operations of Machine/Timebase.lean leave alone (Laws/Keeps.lean). -/

namespace Sys2Proof.Machine

theorem still_timeLoad {z : State} (s : State) (v : BitVec 56) (h : Still z s) :
    Still z (timeLoad s v) := by
  unfold timeLoad
  repeat' first
    | with_reducible assumption
    | dsimp only
    | fail_if_no_progress with_reducible apply Still.upd

theorem keeps_timeLoad {z : State} (s : State) (v : BitVec 56) (h : Keeps z s) :
    Keeps z (timeLoad s v) := h.step (still_timeLoad s v (.refl _))

theorem still_loopLeave {z : State} (s : State) (dissolve : Bool) (h : Still z s) :
    Still z (loopLeave s dissolve) := by
  unfold loopLeave
  repeat' first
    | with_reducible assumption
    | dsimp only
    | fail_if_no_progress with_reducible apply Still.upd
    | with_reducible apply still_loopQueue
    | with_reducible apply still_tbEvent
    | with_reducible apply still_wrBit
    | with_reducible apply Still.ite

theorem keeps_loopLeave {z : State} (s : State) (dissolve : Bool) (h : Keeps z s) :
    Keeps z (loopLeave s dissolve) := h.step (still_loopLeave s dissolve (.refl _))

theorem still_setPll {z : State} (s : State) (k : Nat) (p : Pll) (h : Still z s) :
    Still z (setPll s k p) := by
  unfold setPll
  repeat' first
    | with_reducible assumption
    | dsimp only
    | fail_if_no_progress with_reducible apply Still.upd

theorem keeps_setPll {z : State} (s : State) (k : Nat) (p : Pll) (h : Keeps z s) :
    Keeps z (setPll s k p) := h.step (still_setPll s k p (.refl _))

theorem still_modPll {z : State} (s : State) (k : Nat) (f : Pll → Pll) (h : Still z s) :
    Still z (modPll s k f) := by
  unfold modPll
  repeat' first
    | with_reducible assumption
    | with_reducible apply still_setPll

theorem keeps_modPll {z : State} (s : State) (k : Nat) (f : Pll → Pll) (h : Keeps z s) :
    Keeps z (modPll s k f) := h.step (still_modPll s k f (.refl _))

theorem still_pllRelease {z : State} (s : State) (k : Nat) (h : Still z s) :
    Still z (pllRelease s k) := by
  unfold pllRelease
  repeat' first
    | with_reducible assumption
    | dsimp only
    | fail_if_no_progress with_reducible apply Still.upd
    | with_reducible apply still_modPll

theorem keeps_pllRelease {z : State} (s : State) (k : Nat) (h : Keeps z s) :
    Keeps z (pllRelease s k) := h.step (still_pllRelease s k (.refl _))

theorem still_timebaseRelock {z : State} (s : State) (h : Still z s) :
    Still z (timebaseRelock s) := by
  unfold timebaseRelock
  repeat' first
    | with_reducible assumption
    | with_reducible exact Still.refl _
    | dsimp only
    | with_reducible apply still_pllRelease
    | with_reducible apply still_loopLeave
    | with_reducible apply still_tiuNoClock
    | with_reducible apply still_laneLose
    | (with_reducible apply Still.times; rotate_left; intro _ _)
    | (with_reducible apply Still.fold; rotate_left; intro _ _)
    | with_reducible apply Still.ite

theorem keeps_timebaseRelock {z : State} (s : State) (h : Keeps z s) :
    Keeps z (timebaseRelock s) := h.step (still_timebaseRelock s (.refl _))

theorem still_pllRelock {z : State} (s : State) (k : Nat) (h : Still z s) :
    Still z (pllRelock s k) := by
  unfold pllRelock
  repeat' first
    | with_reducible assumption
    | with_reducible exact Still.refl _
    | dsimp only
    | with_reducible apply still_timebaseRelock
    | with_reducible apply still_tiuNoClock
    | with_reducible apply still_pllRelease
    | with_reducible apply still_laneLose
    | (with_reducible apply Still.times; rotate_left; intro _ _)
    | with_reducible apply Still.ite

theorem keeps_pllRelock {z : State} (s : State) (k : Nat) (h : Keeps z s) :
    Keeps z (pllRelock s k) := h.step (still_pllRelock s k (.refl _))

theorem still_readyCheck {z : State} (s : State) (d : Nat) (h : Still z s) :
    Still z (readyCheck s d) := by
  unfold readyCheck
  repeat' first
    | with_reducible assumption
    | dsimp only
    | with_reducible apply still_wrBit
    | with_reducible apply Still.ite

theorem keeps_readyCheck {z : State} (s : State) (d : Nat) (h : Keeps z s) :
    Keeps z (readyCheck s d) := h.step (still_readyCheck s d (.refl _))

theorem still_fedRelease {z : State} (s : State) (h : Still z s) :
    Still z (fedRelease s) := by
  unfold fedRelease
  repeat' first
    | with_reducible assumption
    | with_reducible exact Still.refl _
    | dsimp only
    | fail_if_no_progress with_reducible apply Still.upd
    | with_reducible apply still_modPll
    | (with_reducible apply Still.each; rotate_left; intro _ _)

theorem keeps_fedRelease {z : State} (s : State) (h : Keeps z s) :
    Keeps z (fedRelease s) := h.step (still_fedRelease s (.refl _))

theorem still_pllLock {z : State} (s : State) (k : Nat) (cycles : Nat) (h : Still z s) :
    Still z (pllLock s k cycles) := by
  unfold pllLock
  repeat' first
    | with_reducible assumption
    | with_reducible exact Still.refl _
    | dsimp only
    | fail_if_no_progress with_reducible apply Still.upd
    | with_reducible apply still_setPll
    | with_reducible apply still_fedRelease
    | with_reducible apply still_readyCheck
    | with_reducible apply still_tiuLocked
    | with_reducible apply still_completeCmd
    | (with_reducible apply Still.each; rotate_left; intro _ _)
    | with_reducible apply Still.ite

theorem keeps_pllLock {z : State} (s : State) (k : Nat) (cycles : Nat) (h : Keeps z s) :
    Keeps z (pllLock s k cycles) := h.step (still_pllLock s k cycles (.refl _))

theorem still_pllLockTimeout {z : State} (s : State) (k : Nat) (h : Still z s) :
    Still z (pllLockTimeout s k) := by
  unfold pllLockTimeout
  repeat' first
    | with_reducible assumption
    | with_reducible exact Still.refl _
    | dsimp only
    | fail_if_no_progress with_reducible apply Still.upd
    | with_reducible apply still_setPll
    | with_reducible apply still_completeCmd
    | (with_reducible apply Still.each; rotate_left; intro _ _)
    | with_reducible apply Still.ite

theorem keeps_pllLockTimeout {z : State} (s : State) (k : Nat) (h : Keeps z s) :
    Keeps z (pllLockTimeout s k) := h.step (still_pllLockTimeout s k (.refl _))

theorem still_pllUnlock {z : State} (s : State) (k : Nat) (h : Still z s) :
    Still z (pllUnlock s k) := by
  unfold pllUnlock
  repeat' first
    | with_reducible assumption
    | dsimp only
    | with_reducible apply still_tbEvent
    | with_reducible apply still_captureHalt
    | with_reducible apply still_pllRelock
    | with_reducible apply Still.ite

theorem keeps_pllUnlock {z : State} (s : State) (k : Nat) (h : Keeps z s) :
    Keeps z (pllUnlock s k) := h.step (still_pllUnlock s k (.refl _))

theorem still_refDetectWindow {z : State} (s : State) (edges : Nat) (h : Still z s) :
    Still z (refDetectWindow s edges) := by
  unfold refDetectWindow
  repeat' first
    | with_reducible assumption
    | dsimp only
    | fail_if_no_progress with_reducible apply Still.upd
    | with_reducible apply still_tbEvent
    | with_reducible apply Still.ite

theorem keeps_refDetectWindow {z : State} (s : State) (edges : Nat) (h : Keeps z s) :
    Keeps z (refDetectWindow s edges) := h.step (still_refDetectWindow s edges (.refl _))

theorem still_refLost {z : State} (s : State) (h : Still z s) :
    Still z (refLost s) := by
  unfold refLost
  repeat' first
    | with_reducible assumption
    | dsimp only
    | fail_if_no_progress with_reducible apply Still.upd
    | with_reducible apply still_tbEvent
    | with_reducible apply still_loopLeave
    | with_reducible apply Still.ite

theorem keeps_refLost {z : State} (s : State) (h : Keeps z s) :
    Keeps z (refLost s) := h.step (still_refLost s (.refl _))

theorem still_refOutTick {z : State} (s : State) (h : Still z s) :
    Still z (refOutTick s) := by
  unfold refOutTick
  repeat' first
    | with_reducible assumption
    | dsimp only
    | fail_if_no_progress with_reducible apply Still.upd
    | with_reducible apply Still.ite

theorem keeps_refOutTick {z : State} (s : State) (h : Keeps z s) :
    Keeps z (refOutTick s) := h.step (still_refOutTick s (.refl _))

theorem still_tbRefSelectCmd {z : State} (s : State) (m : Nat) (h : Still z s) :
    Still z (tbRefSelectCmd s m) := by
  unfold tbRefSelectCmd
  repeat' first
    | with_reducible assumption
    | dsimp only
    | fail_if_no_progress with_reducible apply Still.upd
    | with_reducible apply still_checked
    | with_reducible apply still_modPll
    | with_reducible apply still_holdCmd
    | with_reducible apply still_timebaseRelock

theorem keeps_tbRefSelectCmd {z : State} (s : State) (m : Nat) (h : Keeps z s) :
    Keeps z (tbRefSelectCmd s m) := h.step (still_tbRefSelectCmd s m (.refl _))

theorem still_pllConfigCmd {z : State} (s : State) (m : Nat) (h : Still z s) :
    Still z (pllConfigCmd s m) := by
  unfold pllConfigCmd
  repeat' first
    | with_reducible assumption
    | dsimp only
    | fail_if_no_progress with_reducible apply Still.upd
    | with_reducible apply still_checked
    | with_reducible apply still_modPll
    | with_reducible apply still_holdCmd
    | with_reducible apply still_pllRelock

theorem keeps_pllConfigCmd {z : State} (s : State) (m : Nat) (h : Keeps z s) :
    Keeps z (pllConfigCmd s m) := h.step (still_pllConfigCmd s m (.refl _))

theorem still_refOutSetCmd {z : State} (s : State) (m : Nat) (h : Still z s) :
    Still z (refOutSetCmd s m) := by
  unfold refOutSetCmd
  repeat' first
    | with_reducible assumption
    | dsimp only
    | fail_if_no_progress with_reducible apply Still.upd
    | with_reducible apply still_checked
    | with_reducible apply still_completeCmd

theorem keeps_refOutSetCmd {z : State} (s : State) (m : Nat) (h : Keeps z s) :
    Keeps z (refOutSetCmd s m) := h.step (still_refOutSetCmd s m (.refl _))

theorem still_tbStatusCmd {z : State} (s : State) (m : Nat) (h : Still z s) :
    Still z (tbStatusCmd s m) := by
  unfold tbStatusCmd
  repeat' first
    | with_reducible assumption
    | with_reducible exact Still.refl _
    | dsimp only
    | with_reducible apply still_checked
    | with_reducible apply still_completeCmd

theorem keeps_tbStatusCmd {z : State} (s : State) (m : Nat) (h : Keeps z s) :
    Keeps z (tbStatusCmd s m) := h.step (still_tbStatusCmd s m (.refl _))

theorem still_timeSetCmd {z : State} (s : State) (m : Nat) (h : Still z s) :
    Still z (timeSetCmd s m) := by
  unfold timeSetCmd
  repeat' first
    | with_reducible assumption
    | dsimp only
    | with_reducible apply still_checked
    | with_reducible apply still_completeCmd
    | with_reducible apply still_timeLoad

theorem keeps_timeSetCmd {z : State} (s : State) (m : Nat) (h : Keeps z s) :
    Keeps z (timeSetCmd s m) := h.step (still_timeSetCmd s m (.refl _))

end Sys2Proof.Machine
end

