-- ==== Sys2Proof/Laws/Frame/TiuCmd.lean ====
section
/-! SUPPORT. What the operations of Machine/TiuCmd.lean leave alone (Laws/Keeps.lean). -/

namespace Sys2Proof.Machine

theorem still_tiuConfigCmd {z : State} (s : State) (m : Nat) (h : Still z s) :
    Still z (tiuConfigCmd s m) := by
  unfold tiuConfigCmd
  repeat' first
    | with_reducible assumption
    | dsimp only
    | with_reducible apply still_checked
    | with_reducible apply still_wrF
    | with_reducible apply still_holdCmd
    | with_reducible apply still_tiuCalStart

theorem keeps_tiuConfigCmd {z : State} (s : State) (m : Nat) (h : Keeps z s) :
    Keeps z (tiuConfigCmd s m) := h.step (still_tiuConfigCmd s m (.refl _))

theorem still_tiuMeasureCmd {z : State} (s : State) (m : Nat) (h : Still z s) :
    Still z (tiuMeasureCmd s m) := by
  unfold tiuMeasureCmd
  repeat' first
    | with_reducible assumption
    | with_reducible exact Still.refl _
    | dsimp only
    | fail_if_no_progress with_reducible apply Still.upd
    | with_reducible apply still_checked
    | with_reducible apply still_modTiu
    | with_reducible apply still_holdCmd
    | with_reducible apply still_tiuCalStart
    | (with_reducible apply Still.each; rotate_left; intro _ _)

theorem keeps_tiuMeasureCmd {z : State} (s : State) (m : Nat) (h : Keeps z s) :
    Keeps z (tiuMeasureCmd s m) := h.step (still_tiuMeasureCmd s m (.refl _))

theorem still_tiuStopCmd {z : State} (s : State) (m : Nat) (h : Still z s) :
    Still z (tiuStopCmd s m) := by
  unfold tiuStopCmd
  repeat' first
    | with_reducible assumption
    | dsimp only
    | with_reducible apply still_checked
    | with_reducible apply still_tiuJudgeAll
    | with_reducible apply still_completeCmd
    | with_reducible apply still_tiuEnd
    | with_reducible apply Still.ite

theorem keeps_tiuStopCmd {z : State} (s : State) (m : Nat) (h : Keeps z s) :
    Keeps z (tiuStopCmd s m) := h.step (still_tiuStopCmd s m (.refl _))

theorem still_tiuCalWaiter {z : State} (s : State) (c : RunCmd) (h : Still z s) :
    Still z (tiuCalWaiter s c) := by
  unfold tiuCalWaiter
  repeat' first
    | with_reducible assumption
    | dsimp only
    | with_reducible apply still_completeCmd
    | with_reducible apply still_tiuGateOpen
    | with_reducible apply Still.ite
    | split

theorem keeps_tiuCalWaiter {z : State} (s : State) (c : RunCmd) (h : Keeps z s) :
    Keeps z (tiuCalWaiter s c) := h.step (still_tiuCalWaiter s c (.refl _))

theorem still_tiuCalibration {z : State} (s : State) (i n1 n2 : Nat) (h : Still z s) :
    Still z (tiuCalibration s i n1 n2) := by
  unfold tiuCalibration
  repeat' first
    | with_reducible assumption
    | with_reducible exact Still.refl _
    | dsimp only
    | with_reducible apply still_tiuCalDone
    | with_reducible apply still_tiuCalWaiter
    | (with_reducible apply Still.each; rotate_left; intro _ _)
    | with_reducible apply Still.ite

theorem keeps_tiuCalibration {z : State} (s : State) (i n1 n2 : Nat) (h : Keeps z s) :
    Keeps z (tiuCalibration s i n1 n2) := h.step (still_tiuCalibration s i n1 n2 (.refl _))

theorem still_dfcIdle {z : State} (s : State) (j : Nat) (h : Still z s) :
    Still z (dfcIdle s j) := by
  unfold dfcIdle
  repeat' first
    | with_reducible assumption
    | dsimp only
    | fail_if_no_progress with_reducible apply Still.upd
    | with_reducible apply still_modDfc
    | with_reducible apply still_dfcReset
    | with_reducible apply still_thrInactive
    | with_reducible apply still_setDfcState

theorem keeps_dfcIdle {z : State} (s : State) (j : Nat) (h : Keeps z s) :
    Keeps z (dfcIdle s j) := h.step (still_dfcIdle s j (.refl _))

theorem still_dfcApply {z : State} (sIn : State) (j src rank path a4 a5 ring : Nat) (h : Still z sIn) :
    Still z (dfcApply sIn j src rank path a4 a5 ring) := by
  unfold dfcApply
  repeat' first
    | with_reducible assumption
    | dsimp only
    | fail_if_no_progress with_reducible apply Still.upd
    | with_reducible apply still_dfcDrain
    | with_reducible apply still_wrF
    | with_reducible apply still_modDfc
    | with_reducible apply still_wr
    | with_reducible apply still_dfcRestart
    | with_reducible apply Still.ite

theorem keeps_dfcApply {z : State} (sIn : State) (j src rank path a4 a5 ring : Nat) (h : Keeps z sIn) :
    Keeps z (dfcApply sIn j src rank path a4 a5 ring) := h.step (still_dfcApply sIn j src rank path a4 a5 ring (.refl _))

theorem still_dfcConfigCmd {z : State} (s : State) (m : Nat) (h : Still z s) :
    Still z (dfcConfigCmd s m) := by
  unfold dfcConfigCmd
  repeat' first
    | with_reducible assumption
    | dsimp only
    | with_reducible apply still_checked
    | with_reducible apply still_completeCmd
    | with_reducible apply still_dfcIdle
    | with_reducible apply still_dfcApply
    | with_reducible apply Still.ite

theorem keeps_dfcConfigCmd {z : State} (s : State) (m : Nat) (h : Keeps z s) :
    Keeps z (dfcConfigCmd s m) := h.step (still_dfcConfigCmd s m (.refl _))

theorem still_thrSet {z : State} (s : State) (j t lev a3 b : Nat) (h : Still z s) :
    Still z (thrSet s j t lev a3 b) := by
  unfold thrSet
  repeat' first
    | with_reducible assumption
    | with_reducible apply still_wr

theorem keeps_thrSet {z : State} (s : State) (j t lev a3 b : Nat) (h : Keeps z s) :
    Keeps z (thrSet s j t lev a3 b) := h.step (still_thrSet s j t lev a3 b (.refl _))

theorem still_dfcThresholdCmd {z : State} (s : State) (m : Nat) (h : Still z s) :
    Still z (dfcThresholdCmd s m) := by
  unfold dfcThresholdCmd
  repeat' first
    | with_reducible assumption
    | dsimp only
    | with_reducible apply still_checked
    | with_reducible apply still_completeCmd
    | with_reducible apply still_thrSet

theorem keeps_dfcThresholdCmd {z : State} (s : State) (m : Nat) (h : Keeps z s) :
    Keeps z (dfcThresholdCmd s m) := h.step (still_dfcThresholdCmd s m (.refl _))

theorem still_dfcSyncAct {z : State} (s : State) (v : Nat) (e : Int) (h : Still z s) :
    Still z (dfcSyncAct s v e) := by
  unfold dfcSyncAct
  repeat' first
    | with_reducible assumption
    | with_reducible exact Still.refl _
    | dsimp only
    | with_reducible apply still_dfcSyncAt
    | (with_reducible apply Still.each; rotate_left; intro _ _)

theorem keeps_dfcSyncAct {z : State} (s : State) (v : Nat) (e : Int) (h : Keeps z s) :
    Keeps z (dfcSyncAct s v e) := h.step (still_dfcSyncAct s v e (.refl _))

theorem still_dfcSyncCmd {z : State} (s : State) (m : Nat) (h : Still z s) :
    Still z (dfcSyncCmd s m) := by
  unfold dfcSyncCmd
  repeat' first
    | with_reducible assumption
    | dsimp only
    | with_reducible apply still_checked
    | with_reducible apply still_holdCmd
    | with_reducible apply still_wr64
    | with_reducible apply still_completeCmd
    | with_reducible apply still_dfcSyncAct
    | with_reducible apply Still.ite

theorem keeps_dfcSyncCmd {z : State} (s : State) (m : Nat) (h : Keeps z s) :
    Keeps z (dfcSyncCmd s m) := h.step (still_dfcSyncCmd s m (.refl _))

end Sys2Proof.Machine
end

