-- ==== Sys2Proof/Laws/Frame/Loop.lean ====
section
/-! SUPPORT. What the operations of Machine/Loop.lean leave alone (Laws/Keeps.lean). -/

namespace Sys2Proof.Machine

theorem still_actAt {z : State} (s : State) (op : Nat) (e : Tick) (v : Nat) (h : Still z s) :
    Still z (actAt s op e v).2.2 := by
  unfold actAt
  repeat' first
    | with_reducible assumption
    | dsimp only
    | with_reducible apply still_enterArmed
    | with_reducible apply still_captureHalt
    | with_reducible apply still_forceTrigger
    | with_reducible apply still_dfcSyncAct
    | with_reducible apply Still.ite
    | split

theorem keeps_actAt {z : State} (s : State) (op : Nat) (e : Tick) (v : Nat) (h : Keeps z s) :
    Keeps z (actAt s op e v).2.2 := h.step (still_actAt s op e v (.refl _))

theorem still_scheduledExecution {z : State} (s : State) (m : Nat) (h : Still z s) :
    Still z (scheduledExecution s m) := by
  unfold scheduledExecution
  repeat' first
    | with_reducible assumption
    | dsimp only
    | fail_if_no_progress with_reducible apply Still.upd
    | with_reducible apply still_actAt
    | with_reducible apply still_completeCmd
    | with_reducible apply still_tbEvent
    | with_reducible apply still_putRes
    | refine Still.thd ?_ (by assumption)
    | with_reducible apply Still.ite
    | split

theorem keeps_scheduledExecution {z : State} (s : State) (m : Nat) (h : Keeps z s) :
    Keeps z (scheduledExecution s m) := h.step (still_scheduledExecution s m (.refl _))

theorem still_loopCalibrateCmd {z : State} (s : State) (m : Nat) (h : Still z s) :
    Still z (loopCalibrateCmd s m) := by
  unfold loopCalibrateCmd
  repeat' first
    | with_reducible assumption
    | dsimp only
    | fail_if_no_progress with_reducible apply Still.upd
    | with_reducible apply still_checked
    | with_reducible apply still_holdCmd
    | with_reducible apply still_loopQueue

theorem keeps_loopCalibrateCmd {z : State} (s : State) (m : Nat) (h : Keeps z s) :
    Keeps z (loopCalibrateCmd s m) := h.step (still_loopCalibrateCmd s m (.refl _))

theorem still_loopStatusCmd {z : State} (s : State) (m : Nat) (h : Still z s) :
    Still z (loopStatusCmd s m) := by
  unfold loopStatusCmd
  repeat' first
    | with_reducible assumption
    | dsimp only
    | with_reducible apply still_checked
    | with_reducible apply still_completeCmd

theorem keeps_loopStatusCmd {z : State} (s : State) (m : Nat) (h : Keeps z s) :
    Keeps z (loopStatusCmd s m) := h.step (still_loopStatusCmd s m (.refl _))

theorem still_loopPostCmd {z : State} (s : State) (m : Nat) (h : Still z s) :
    Still z (loopPostCmd s m) := by
  unfold loopPostCmd
  repeat' first
    | with_reducible assumption
    | dsimp only
    | fail_if_no_progress with_reducible apply Still.upd
    | with_reducible apply still_checked
    | with_reducible apply still_holdCmd
    | with_reducible apply still_loopQueue

theorem keeps_loopPostCmd {z : State} (s : State) (m : Nat) (h : Keeps z s) :
    Keeps z (loopPostCmd s m) := h.step (still_loopPostCmd s m (.refl _))

theorem still_loopSend {z : State} (s : State) (x : LoopTx) (t : Tick) (h : Still z s) :
    Still z (loopSend s x t) := by
  unfold loopSend
  repeat' first
    | with_reducible assumption
    | dsimp only
    | fail_if_no_progress with_reducible apply Still.upd

theorem keeps_loopSend {z : State} (s : State) (x : LoopTx) (t : Tick) (h : Keeps z s) :
    Keeps z (loopSend s x t) := h.step (still_loopSend s x t (.refl _))

theorem still_loopFrameSend {z : State} (s : State) (h : Still z s) :
    Still z (loopFrameSend s) := by
  unfold loopFrameSend
  repeat' first
    | with_reducible assumption
    | dsimp only
    | fail_if_no_progress with_reducible apply Still.upd
    | with_reducible apply still_loopSend
    | with_reducible apply still_completeCmd
    | with_reducible apply still_wr64
    | with_reducible apply Still.ite
    | split

theorem keeps_loopFrameSend {z : State} (s : State) (h : Keeps z s) :
    Keeps z (loopFrameSend s) := h.step (still_loopFrameSend s (.refl _))

theorem still_loopForward {z : State} (s : State) (f : BitVec 192) (t : BitVec 128) (h : Still z s) :
    Still z (loopForward s f t) := by
  unfold loopForward
  repeat' first
    | with_reducible assumption
    | with_reducible apply still_loopSend

theorem keeps_loopForward {z : State} (s : State) (f : BitVec 192) (t : BitVec 128) (h : Keeps z s) :
    Keeps z (loopForward s f t) := h.step (still_loopForward s f t (.refl _))

theorem still_commandBack {z : State} (s : State) (t : BitVec 128) (h : Still z s) :
    Still z (commandBack s t) := by
  unfold commandBack
  repeat' first
    | with_reducible assumption
    | dsimp only
    | fail_if_no_progress with_reducible apply Still.upd

theorem keeps_commandBack {z : State} (s : State) (t : BitVec 128) (h : Keeps z s) :
    Keeps z (commandBack s t) := h.step (still_commandBack s t (.refl _))

theorem still_frameRow {z : State} (s : State) (kind : Nat) (f : BitVec 192) (t : BitVec 128) (own other : State → State) (h : Still z s) (ko : Still z (own s)) (kx : Still z (other s)) :
    Still z (frameRow s kind f t own other) := by
  unfold frameRow
  repeat' first
    | with_reducible assumption
    | with_reducible apply Still.ite
    | split
    | with_reducible apply still_tbEvent
    | with_reducible apply still_commandBack
    | with_reducible apply still_loopForward
    | dsimp only
    | fail_if_no_progress with_reducible apply Still.upd

theorem keeps_frameRow {z : State} (s : State) (kind : Nat) (f : BitVec 192) (t : BitVec 128) (own other : State → State) (h : Keeps z s) (ko : Keeps z (own s)) (kx : Keeps z (other s)) :
    Keeps z (frameRow s kind f t own other) := by
  unfold frameRow
  repeat' first
    | with_reducible assumption
    | with_reducible apply Keeps.ite
    | split
    | with_reducible apply keeps_tbEvent
    | with_reducible apply keeps_commandBack
    | with_reducible apply keeps_loopForward
    | dsimp only
    | fail_if_no_progress with_reducible apply Keeps.upd

theorem still_calStep {z : State} (s : State) (c : RunCmd) (w : Wait) (h : Still z s) :
    Still z (calStep s c w) := by
  unfold calStep
  repeat' first
    | with_reducible assumption
    | dsimp only
    | fail_if_no_progress with_reducible apply Still.upd

theorem keeps_calStep {z : State} (s : State) (c : RunCmd) (w : Wait) (h : Keeps z s) :
    Keeps z (calStep s c w) := h.step (still_calStep s c w (.refl _))

theorem still_calFail {z : State} (s : State) (c : RunCmd) (late : Bool) (h : Still z s) :
    Still z (calFail s c late) := by
  unfold calFail
  repeat' first
    | with_reducible assumption
    | dsimp only
    | fail_if_no_progress with_reducible apply Still.upd
    | with_reducible apply still_loopLeave
    | with_reducible apply still_completeCmd

theorem keeps_calFail {z : State} (s : State) (c : RunCmd) (late : Bool) (h : Keeps z s) :
    Keeps z (calFail s c late) := h.step (still_calFail s c late (.refl _))

theorem still_census {z : State} (s : State) (f : BitVec 192) (t : BitVec 128) (h : Still z s) :
    Still z (census s f t) := by
  unfold census
  repeat' first
    | with_reducible assumption
    | dsimp only
    | fail_if_no_progress with_reducible apply Still.upd
    | with_reducible apply still_calFail
    | with_reducible apply still_loopQueue
    | with_reducible apply still_calStep
    | with_reducible apply still_loopForward
    | with_reducible apply still_frameRow
    | with_reducible apply Still.ite
    | split
    | dsimp only
    | with_reducible exact h
    | simp only [id_eq]

theorem keeps_census {z : State} (s : State) (f : BitVec 192) (t : BitVec 128) (h : Keeps z s) :
    Keeps z (census s f t) := h.step (still_census s f t (.refl _))

theorem still_measure {z : State} (s : State) (f : BitVec 192) (t : BitVec 128) (phase elapsed : Nat) (h : Still z s) :
    Still z (measure s f t phase elapsed) := by
  unfold measure
  repeat' first
    | with_reducible assumption
    | with_reducible exact Still.refl _
    | dsimp only
    | fail_if_no_progress with_reducible apply Still.upd
    | with_reducible apply still_frameRow
    | with_reducible apply still_loopQueue
    | with_reducible apply still_calStep
    | with_reducible apply still_loopForward
    | split

theorem keeps_measure {z : State} (s : State) (f : BitVec 192) (t : BitVec 128) (phase elapsed : Nat) (h : Keeps z s) :
    Keeps z (measure s f t phase elapsed) := h.step (still_measure s f t phase elapsed (.refl _))

theorem still_alignWith {z : State} (s : State) (f : BitVec 192) (h : Still z s) :
    Still z (alignWith s f) := by
  unfold alignWith
  repeat' first
    | with_reducible assumption
    | dsimp only
    | fail_if_no_progress with_reducible apply Still.upd

theorem keeps_alignWith {z : State} (s : State) (f : BitVec 192) (h : Keeps z s) :
    Keeps z (alignWith s f) := h.step (still_alignWith s f (.refl _))

theorem still_align {z : State} (s : State) (f : BitVec 192) (h : Still z s) :
    Still z (align s f) := by
  unfold align
  repeat' first
    | with_reducible assumption
    | dsimp only
    | with_reducible apply still_frameRow
    | with_reducible apply still_loopQueue
    | with_reducible apply still_alignWith
    | with_reducible apply still_loopForward
    | split

theorem keeps_align {z : State} (s : State) (f : BitVec 192) (h : Keeps z s) :
    Keeps z (align s f) := h.step (still_align s f (.refl _))

theorem still_retardTick {z : State} (s : State) (h : Still z s) :
    Still z (retardTick s) := by
  unfold retardTick
  repeat' first
    | with_reducible assumption
    | dsimp only
    | fail_if_no_progress with_reducible apply Still.upd
    | with_reducible apply Still.ite

theorem keeps_retardTick {z : State} (s : State) (h : Keeps z s) :
    Keeps z (retardTick s) := h.step (still_retardTick s (.refl _))

theorem still_timeFrame {z : State} (s : State) (f : BitVec 192) (h : Still z s) :
    Still z (timeFrame s f) := by
  unfold timeFrame
  repeat' first
    | with_reducible assumption
    | dsimp only
    | with_reducible apply still_frameRow
    | with_reducible apply still_completeCmd
    | with_reducible apply still_wrBit
    | with_reducible apply still_timeLoad
    | with_reducible apply still_loopForward
    | split

theorem keeps_timeFrame {z : State} (s : State) (f : BitVec 192) (h : Keeps z s) :
    Keeps z (timeFrame s f) := h.step (still_timeFrame s f (.refl _))

theorem still_command {z : State} (s : State) (f : BitVec 192) (t : BitVec 128) (h : Still z s) :
    Still z (command s f t) := by
  unfold command
  repeat' first
    | with_reducible assumption
    | dsimp only
    | fail_if_no_progress with_reducible apply Still.upd
    | with_reducible apply still_frameRow
    | with_reducible apply still_commandBack
    | with_reducible apply still_loopForward
    | with_reducible apply still_armDraw
    | with_reducible apply Still.ite
    | split

theorem keeps_command {z : State} (s : State) (f : BitVec 192) (t : BitVec 128) (h : Keeps z s) :
    Keeps z (command s f t) := h.step (still_command s f t (.refl _))

theorem still_trigger {z : State} (s : State) (f : BitVec 192) (h : Still z s) :
    Still z (trigger s f) := by
  unfold trigger
  repeat' first
    | with_reducible assumption
    | dsimp only
    | with_reducible apply still_frameRow
    | with_reducible apply still_replaceTrig
    | with_reducible apply still_tbEvent
    | with_reducible apply still_honour
    | with_reducible apply still_loopForward
    | with_reducible apply Still.ite
    | split
    | dsimp only
    | with_reducible exact h
    | simp only [id_eq]

theorem keeps_trigger {z : State} (s : State) (f : BitVec 192) (h : Keeps z s) :
    Keeps z (trigger s f) := h.step (still_trigger s f (.refl _))

theorem still_haltFrame {z : State} (s : State) (f : BitVec 192) (h : Still z s) :
    Still z (haltFrame s f) := by
  unfold haltFrame
  repeat' first
    | with_reducible assumption
    | dsimp only
    | with_reducible apply still_frameRow
    | with_reducible apply still_loopForward
    | with_reducible apply still_captureHalt
    | with_reducible apply Still.ite
    | split
    | dsimp only
    | with_reducible exact h
    | simp only [id_eq]

theorem keeps_haltFrame {z : State} (s : State) (f : BitVec 192) (h : Keeps z s) :
    Keeps z (haltFrame s f) := h.step (still_haltFrame s f (.refl _))

theorem still_dissolve {z : State} (s : State) (f : BitVec 192) (h : Still z s) :
    Still z (dissolve s f) := by
  unfold dissolve
  repeat' first
    | with_reducible assumption
    | dsimp only
    | with_reducible apply still_frameRow
    | with_reducible apply still_loopForward
    | with_reducible apply still_loopLeave
    | dsimp only
    | with_reducible exact h
    | simp only [id_eq]

theorem keeps_dissolve {z : State} (s : State) (f : BitVec 192) (h : Keeps z s) :
    Keeps z (dissolve s f) := h.step (still_dissolve s f (.refl _))

theorem still_censusTimeout {z : State} (s : State) (h : Still z s) :
    Still z (censusTimeout s) := by
  unfold censusTimeout
  repeat' first
    | with_reducible assumption
    | dsimp only
    | with_reducible apply still_census
    | with_reducible apply still_calFail
    | split

theorem keeps_censusTimeout {z : State} (s : State) (h : Keeps z s) :
    Keeps z (censusTimeout s) := h.step (still_censusTimeout s (.refl _))

theorem still_syncInLoss {z : State} (s : State) (h : Still z s) :
    Still z (syncInLoss s) := by
  unfold syncInLoss
  repeat' first
    | with_reducible assumption
    | dsimp only
    | fail_if_no_progress with_reducible apply Still.upd
    | with_reducible apply still_loopLeave
    | with_reducible apply still_tbEvent
    | with_reducible apply still_census
    | with_reducible apply still_completeCmd
    | with_reducible apply Still.ite
    | split

theorem keeps_syncInLoss {z : State} (s : State) (h : Keeps z s) :
    Keeps z (syncInLoss s) := h.step (still_syncInLoss s (.refl _))

theorem still_loopReturned {z : State} (s : State) (c : RunCmd) (h : Still z s) :
    Still z (loopReturned s c) := by
  unfold loopReturned
  repeat' first
    | with_reducible assumption
    | dsimp only
    | with_reducible apply still_completeCmd
    | with_reducible apply still_armDraw
    | with_reducible apply Still.ite
    | split

theorem keeps_loopReturned {z : State} (s : State) (c : RunCmd) (h : Keeps z s) :
    Keeps z (loopReturned s c) := h.step (still_loopReturned s c (.refl _))

theorem still_loopCmdsDue {z : State} (s : State) (h : Still z s) :
    Still z (loopCmdsDue s) := by
  unfold loopCmdsDue
  repeat' first
    | with_reducible assumption
    | with_reducible exact Still.refl _
    | dsimp only
    | fail_if_no_progress with_reducible apply Still.upd
    | with_reducible apply still_actAt
    | with_reducible apply still_tbEvent
    | refine Still.thd ?_ (by assumption)
    | (with_reducible apply Still.each; rotate_left; intro _ _)
    | split

theorem keeps_loopCmdsDue {z : State} (s : State) (h : Keeps z s) :
    Keeps z (loopCmdsDue s) := h.step (still_loopCmdsDue s (.refl _))

theorem still_loopTick {z : State} (s : State) (h : Still z s) :
    Still z (loopTick s) := by
  unfold loopTick
  repeat' first
    | with_reducible assumption
    | with_reducible exact Still.refl _
    | dsimp only
    | with_reducible apply still_loopCmdsDue
    | with_reducible apply still_retardTick
    | with_reducible apply still_loopReturned
    | (with_reducible apply Still.each; rotate_left; intro _ _)

theorem keeps_loopTick {z : State} (s : State) (h : Keeps z s) :
    Keeps z (loopTick s) := h.step (still_loopTick s (.refl _))

end Sys2Proof.Machine
end

