-- ==== Sys2Proof/Laws/Frame/MemTest.lean ====
section
/-! SUPPORT. What the operations of Machine/MemTest.lean leave alone (Laws/Keeps.lean). -/

namespace Sys2Proof.Machine

theorem still_spareShow {z : State} (s : State) (m : Nat) (h : Still z s) :
    Still z (spareShow s m) := by
  unfold spareShow
  repeat' first
    | with_reducible assumption
    | dsimp only
    | with_reducible apply still_wrF

theorem keeps_spareShow {z : State} (s : State) (m : Nat) (h : Keeps z s) :
    Keeps z (spareShow s m) := h.step (still_spareShow s m (.refl _))

theorem still_spareMap {z : State} (s : State) (m r row : Nat) (h : Still z s) :
    Still z (spareMap s m r row) := by
  unfold spareMap
  repeat' first
    | with_reducible assumption
    | dsimp only
    | fail_if_no_progress with_reducible apply Still.upd
    | with_reducible apply still_spareShow

theorem keeps_spareMap {z : State} (s : State) (m r row : Nat) (h : Keeps z s) :
    Keeps z (spareMap s m r row) := h.step (still_spareMap s m r row (.refl _))

theorem still_spareFree {z : State} (s : State) (x : Spare) (h : Still z s) :
    Still z (spareFree s x) := by
  unfold spareFree
  repeat' first
    | with_reducible assumption
    | dsimp only
    | fail_if_no_progress with_reducible apply Still.upd
    | with_reducible apply still_spareShow

theorem keeps_spareFree {z : State} (s : State) (x : Spare) (h : Keeps z s) :
    Keeps z (spareFree s x) := h.step (still_spareFree s x (.refl _))

theorem still_bistRegion {z : State} (m : Nat) (p : State × Bool) (r : Nat) (h : Still z p.1) :
    Still z (bistRegion m p r).1 := by
  unfold bistRegion
  repeat' first
    | with_reducible assumption
    | dsimp only
    | fail_if_no_progress with_reducible apply Still.upd
    | with_reducible apply still_spareMap
    | split

theorem keeps_bistRegion {z : State} (m : Nat) (p : State × Bool) (r : Nat) (h : Keeps z p.1) :
    Keeps z (bistRegion m p r).1 := h.step (still_bistRegion m p r (.refl _))

theorem still_bistResult {z : State} (s : State) (m d columns : Nat) (faulty : List Nat) (h : Still z s) :
    Still z (bistResult s m d columns faulty) := by
  unfold bistResult
  repeat' first
    | with_reducible assumption
    | with_reducible exact Still.refl _
    | dsimp only
    | fail_if_no_progress with_reducible apply Still.upd
    | with_reducible apply still_bistRegion
    | with_reducible apply still_wrF
    | with_reducible apply still_wrBit
    | refine Still.fst ?_ (by assumption)
    | (with_reducible apply Still.foldFst; rotate_left; intro _ _)
    | with_reducible apply Still.ite

theorem keeps_bistResult {z : State} (s : State) (m d columns : Nat) (faulty : List Nat) (h : Keeps z s) :
    Keeps z (bistResult s m d columns faulty) := h.step (still_bistResult s m d columns faulty (.refl _))

theorem still_domBecameReady {z : State} (s : State) (d : Nat) (h : Still z s) :
    Still z (domBecameReady s d) := by
  unfold domBecameReady
  repeat' first
    | with_reducible assumption
    | with_reducible exact Still.refl _
    | dsimp only
    | with_reducible apply still_ctxSwitchOn
    | with_reducible apply still_tiuLocked
    | with_reducible apply still_dfcSwitch
    | with_reducible apply still_wrF
    | (with_reducible apply Still.times; rotate_left; intro _ _)
    | with_reducible apply Still.ite

theorem keeps_domBecameReady {z : State} (s : State) (d : Nat) (h : Keeps z s) :
    Keeps z (domBecameReady s d) := h.step (still_domBecameReady s d (.refl _))

theorem still_bistComplete {z : State} (s : State) (d columns : Nat) (faulty : List Nat) (h : Still z s) :
    Still z (bistComplete s d columns faulty) := by
  unfold bistComplete
  repeat' first
    | with_reducible assumption
    | dsimp only
    | fail_if_no_progress with_reducible apply Still.upd
    | with_reducible apply still_bistResult
    | with_reducible apply still_readyCheck
    | with_reducible apply still_domBecameReady
    | with_reducible apply Still.ite
    | split

theorem keeps_bistComplete {z : State} (s : State) (d columns : Nat) (faulty : List Nat) (h : Keeps z s) :
    Keeps z (bistComplete s d columns faulty) := h.step (still_bistComplete s d columns faulty (.refl _))

theorem still_mtSetState {z : State} (s : State) (v : Nat) (h : Still z s) :
    Still z (mtSetState s v) := by
  unfold mtSetState
  repeat' first
    | with_reducible assumption
    | with_reducible apply still_wrF

theorem keeps_mtSetState {z : State} (s : State) (v : Nat) (h : Keeps z s) :
    Keeps z (mtSetState s v) := h.step (still_mtSetState s v (.refl _))

theorem still_memtestRunCmd {z : State} (s : State) (m : Nat) (h : Still z s) :
    Still z (memtestRunCmd s m) := by
  unfold memtestRunCmd
  repeat' first
    | with_reducible assumption
    | with_reducible exact Still.refl _
    | dsimp only
    | fail_if_no_progress with_reducible apply Still.upd
    | with_reducible apply still_checked
    | with_reducible apply still_completeCmd
    | with_reducible apply still_wrF
    | with_reducible apply still_mtSetState

theorem keeps_memtestRunCmd {z : State} (s : State) (m : Nat) (h : Keeps z s) :
    Keeps z (memtestRunCmd s m) := h.step (still_memtestRunCmd s m (.refl _))

theorem still_memtestStatusCmd {z : State} (s : State) (m : Nat) (h : Still z s) :
    Still z (memtestStatusCmd s m) := by
  unfold memtestStatusCmd
  repeat' first
    | with_reducible assumption
    | dsimp only
    | with_reducible apply still_checked
    | with_reducible apply still_completeCmd

theorem keeps_memtestStatusCmd {z : State} (s : State) (m : Nat) (h : Keeps z s) :
    Keeps z (memtestStatusCmd s m) := h.step (still_memtestStatusCmd s m (.refl _))

theorem still_mtScrub {z : State} (s : State) (m r : Nat) (h : Still z s) :
    Still z (mtScrub s m r) := by
  unfold mtScrub
  repeat' first
    | with_reducible assumption
    | dsimp only
    | fail_if_no_progress with_reducible apply Still.upd
    | with_reducible apply still_modEng
    | with_reducible apply Still.ite

theorem keeps_mtScrub {z : State} (s : State) (m r : Nat) (h : Keeps z s) :
    Keeps z (mtScrub s m r) := h.step (still_mtScrub s m r (.refl _))

theorem still_mtFault {z : State} (s : State) (m r : Nat) (h : Still z s) :
    Still z (mtFault s m r) := by
  unfold mtFault
  repeat' first
    | with_reducible assumption
    | dsimp only
    | with_reducible apply still_wr
    | with_reducible apply still_spareFree
    | with_reducible apply still_mtEvent
    | with_reducible apply still_spareMap
    | split

theorem keeps_mtFault {z : State} (s : State) (m r : Nat) (h : Keeps z s) :
    Keeps z (mtFault s m r) := h.step (still_mtFault s m r (.refl _))

theorem still_memtestRegion {z : State} (s : State) (fails : Bool) (h : Still z s) :
    Still z (memtestRegion s fails) := by
  unfold memtestRegion
  repeat' first
    | with_reducible assumption
    | dsimp only
    | fail_if_no_progress with_reducible apply Still.upd
    | with_reducible apply still_mtScrub
    | with_reducible apply still_mtFault
    | with_reducible apply still_wrF
    | with_reducible apply still_mtEvent
    | with_reducible apply still_mtSetState
    | with_reducible apply Still.ite
    | split

theorem keeps_memtestRegion {z : State} (s : State) (fails : Bool) (h : Keeps z s) :
    Keeps z (memtestRegion s fails) := h.step (still_memtestRegion s fails (.refl _))

theorem still_mtAbort {z : State} (s : State) (d : Nat → Bool) (h : Still z s) :
    Still z (mtAbort s d) := by
  unfold mtAbort
  repeat' first
    | with_reducible assumption
    | dsimp only
    | fail_if_no_progress with_reducible apply Still.upd
    | with_reducible apply still_mtEvent
    | with_reducible apply still_mtSetState
    | with_reducible apply Still.ite
    | split

theorem keeps_mtAbort {z : State} (s : State) (d : Nat → Bool) (h : Keeps z s) :
    Keeps z (mtAbort s d) := h.step (still_mtAbort s d (.refl _))

end Sys2Proof.Machine
end

