-- ==== Sys2Proof/Laws/Frame/Pcie.lean ====
section
/-! SUPPORT. What the operations of Machine/Pcie.lean leave alone (Laws/Keeps.lean). -/

namespace Sys2Proof.Machine

theorem still_cfgSet {z : State} (s : State) (d : Nat) (v : Word) (h : Still z s) :
    Still z (cfgSet s d v) := by
  unfold cfgSet
  repeat' first
    | with_reducible assumption
    | dsimp only
    | fail_if_no_progress with_reducible apply Still.upd

theorem keeps_cfgSet {z : State} (s : State) (d : Nat) (v : Word) (h : Keeps z s) :
    Keeps z (cfgSet s d v) := h.step (still_cfgSet s d v (.refl _))

theorem still_tlpSeen {z : State} (s : State) (h : Still z s) :
    Still z (tlpSeen s) := by
  unfold tlpSeen
  repeat' first
    | with_reducible assumption
    | dsimp only
    | fail_if_no_progress with_reducible apply Still.upd

theorem keeps_tlpSeen {z : State} (s : State) (h : Keeps z s) :
    Keeps z (tlpSeen s) := h.step (still_tlpSeen s (.refl _))

theorem still_aerReport {z : State} (s : State) (i : Nat) (h : Still z s) :
    Still z (aerReport s i) := by
  unfold aerReport
  repeat' first
    | with_reducible assumption
    | with_reducible apply still_cfgSet

theorem keeps_aerReport {z : State} (s : State) (i : Nat) (h : Keeps z s) :
    Keeps z (aerReport s i) := h.step (still_aerReport s i (.refl _))

theorem still_setCpl {z : State} (s : State) (c : Cpl) (h : Still z s) :
    Still z (setCpl s c) := by
  unfold setCpl
  repeat' first
    | with_reducible assumption
    | dsimp only
    | fail_if_no_progress with_reducible apply Still.upd

theorem keeps_setCpl {z : State} (s : State) (c : Cpl) (h : Keeps z s) :
    Keeps z (setCpl s c) := h.step (still_setCpl s c (.refl _))

theorem still_unsupported {z : State} (s : State) (posted : Bool) (h : Still z s) :
    Still z (unsupported s posted) := by
  unfold unsupported
  repeat' first
    | with_reducible assumption
    | dsimp only
    | with_reducible apply still_aerReport
    | with_reducible apply still_tlpSeen
    | with_reducible apply still_setCpl
    | with_reducible apply Still.ite

theorem keeps_unsupported {z : State} (s : State) (posted : Bool) (h : Keeps z s) :
    Keeps z (unsupported s posted) := h.step (still_unsupported s posted (.refl _))

theorem still_poisonRx {z : State} (s : State) (h : Still z s) :
    Still z (poisonRx s) := by
  unfold poisonRx
  repeat' first
    | with_reducible assumption
    | with_reducible apply still_pcieEvent
    | with_reducible apply still_ctrAdd
    | with_reducible apply still_aerReport

theorem keeps_poisonRx {z : State} (s : State) (h : Keeps z s) :
    Keeps z (poisonRx s) := h.step (still_poisonRx s (.refl _))

theorem still_sendTlp {z : State} (s : State) (t : Tlp) (h : Still z s) :
    Still z (sendTlp s t) := by
  unfold sendTlp
  repeat' first
    | with_reducible assumption
    | dsimp only
    | fail_if_no_progress with_reducible apply Still.upd
    | with_reducible apply still_tlpSeen

theorem keeps_sendTlp {z : State} (s : State) (t : Tlp) (h : Keeps z s) :
    Keeps z (sendTlp s t) := h.step (still_sendTlp s t (.refl _))

theorem still_sendReads {z : State} (s : State) (fuel a n : Nat) (h : Still z s) :
    Still z (sendReads s fuel a n) := by
  induction fuel generalizing s a n with
  | zero => exact h
  | succ m ih =>
    unfold sendReads
    repeat' first
      | with_reducible assumption
      | dsimp only
      | with_reducible apply ih
      | with_reducible apply still_sendTlp
      | split

theorem keeps_sendReads {z : State} (s : State) (fuel a n : Nat) (h : Keeps z s) :
    Keeps z (sendReads s fuel a n) := h.step (still_sendReads s fuel a n (.refl _))

theorem still_poisonTx {z : State} (s : State) (h : Still z s) :
    Still z (poisonTx s) := by
  unfold poisonTx
  repeat' first
    | with_reducible assumption
    | with_reducible apply still_pcieEvent
    | with_reducible apply still_ctrAdd

theorem keeps_poisonTx {z : State} (s : State) (h : Keeps z s) :
    Keeps z (poisonTx s) := h.step (still_poisonTx s (.refl _))

theorem still_peerCommit {z : State} (s : State) (w : Nat) (v : Word) (h : Still z s) :
    Still z (peerCommit s w v) := by
  unfold peerCommit
  repeat' first
    | with_reducible assumption
    | dsimp only
    | with_reducible apply still_wr
    | with_reducible apply still_pcieEvent
    | with_reducible apply still_hwOr
    | with_reducible apply Still.ite

theorem keeps_peerCommit {z : State} (s : State) (w : Nat) (v : Word) (h : Keeps z s) :
    Keeps z (peerCommit s w v) := h.step (still_peerCommit s w v (.refl _))

theorem still_peerRead {z : State} (s : State) (a len : Nat) (h : Still z s) :
    Still z (peerRead s a len) := by
  unfold peerRead
  repeat' first
    | with_reducible assumption
    | with_reducible exact Still.refl _
    | dsimp only
    | with_reducible apply still_unsupported
    | with_reducible apply still_drawFree
    | with_reducible apply still_tlpSeen
    | with_reducible apply still_countChannel
    | with_reducible apply still_poisonTx
    | with_reducible apply still_setCpl
    | refine Still.snd ?_ (by assumption)
    | (with_reducible apply Still.times; rotate_left; intro _ _)
    | (with_reducible apply Still.fold; rotate_left; intro _ _)
    | with_reducible apply Still.ite
    | split

theorem keeps_peerRead {z : State} (s : State) (a len : Nat) (h : Keeps z s) :
    Keeps z (peerRead s a len) := h.step (still_peerRead s a len (.refl _))

theorem keeps_peerPut {z : State} (s : State) (w : Nat) (bytes : List (Option Byte)) (ep : Bool) (h : Keeps z s) :
    Keeps z (peerPut s w bytes ep) := by
  unfold peerPut
  repeat' first
    | with_reducible assumption
    | dsimp only
    | with_reducible apply keeps_stratusPut
    | with_reducible apply Keeps.ite

theorem keeps_peerWrite {z : State} (s : State) (a : Nat) (data : List (Option Byte)) (ep : Bool) (h : Keeps z s) :
    Keeps z (peerWrite s a data ep) := by
  unfold peerWrite
  repeat' first
    | with_reducible assumption
    | with_reducible exact Keeps.refl _
    | dsimp only
    | with_reducible apply keeps_poisonRx
    | with_reducible apply keeps_unsupported
    | with_reducible apply keeps_tlpSeen
    | with_reducible apply keeps_peerPut
    | (with_reducible apply Keeps.times; rotate_left; intro _ _)
    | with_reducible apply Keeps.ite
    | split

theorem still_atomicOp {z : State} (s : State) (bar : Nat) (h : Still z s) :
    Still z (atomicOp s bar) := by
  unfold atomicOp
  repeat' first
    | with_reducible assumption
    | with_reducible apply still_setCpl
    | with_reducible apply still_tlpSeen
    | with_reducible apply still_unsupported
    | with_reducible apply Still.ite

theorem keeps_atomicOp {z : State} (s : State) (bar : Nat) (h : Keeps z s) :
    Keeps z (atomicOp s bar) := h.step (still_atomicOp s bar (.refl _))

theorem still_setDmaState {z : State} (s : State) (c v : Nat) (h : Still z s) :
    Still z (setDmaState s c v) := by
  unfold setDmaState
  repeat' first
    | with_reducible assumption
    | with_reducible apply still_wrF

theorem keeps_setDmaState {z : State} (s : State) (c v : Nat) (h : Keeps z s) :
    Keeps z (setDmaState s c v) := h.step (still_setDmaState s c v (.refl _))

theorem still_dmaWriteBack {z : State} (s : State) (c bytes status : Nat) (ep sync last irq : Bool) (h : Still z s) :
    Still z (dmaWriteBack s c bytes status ep sync last irq) := by
  unfold dmaWriteBack
  repeat' first
    | with_reducible assumption
    | dsimp only
    | with_reducible apply still_sendTlp
    | with_reducible apply still_ctrAdd
    | with_reducible apply still_dmaDoneEvent
    | with_reducible apply Still.ite

theorem keeps_dmaWriteBack {z : State} (s : State) (c bytes status : Nat) (ep sync last irq : Bool) (h : Keeps z s) :
    Keeps z (dmaWriteBack s c bytes status ep sync last irq) := h.step (still_dmaWriteBack s c bytes status ep sync last irq (.refl _))

theorem still_dmaStopClear {z : State} (s : State) (c : Nat) (h : Still z s) :
    Still z (dmaStopClear s c) := by
  unfold dmaStopClear
  repeat' first
    | with_reducible assumption
    | with_reducible apply still_hwClr
    | with_reducible apply Still.ite

theorem keeps_dmaStopClear {z : State} (s : State) (c : Nat) (h : Keeps z s) :
    Keeps z (dmaStopClear s c) := h.step (still_dmaStopClear s c (.refl _))

theorem still_dmaHaltNow {z : State} (s : State) (c cause : Nat) (h : Still z s) :
    Still z (dmaHaltNow s c cause) := by
  unfold dmaHaltNow
  repeat' first
    | with_reducible assumption
    | dsimp only
    | with_reducible apply still_dmaWriteBack
    | with_reducible apply still_setDma
    | with_reducible apply still_wrF
    | with_reducible apply still_setDmaState
    | with_reducible apply still_dmaHaltEvent
    | with_reducible apply still_dmaStopClear
    | with_reducible apply still_dflEnd
    | with_reducible apply Still.ite
    | split

theorem keeps_dmaHaltNow {z : State} (s : State) (c cause : Nat) (h : Keeps z s) :
    Keeps z (dmaHaltNow s c cause) := h.step (still_dmaHaltNow s c cause (.refl _))

theorem still_dmaHalt {z : State} (s : State) (c cause : Nat) (h : Still z s) :
    Still z (dmaHalt s c cause) := by
  unfold dmaHalt
  repeat' first
    | with_reducible assumption
    | dsimp only
    | fail_if_no_progress with_reducible apply Still.upd
    | with_reducible apply still_setDma
    | with_reducible apply still_setDmaState
    | with_reducible apply still_dmaHaltNow
    | with_reducible apply Still.ite

theorem keeps_dmaHalt {z : State} (s : State) (c cause : Nat) (h : Keeps z s) :
    Keeps z (dmaHalt s c cause) := h.step (still_dmaHalt s c cause (.refl _))

theorem still_dmaStart {z : State} (s : State) (c : Nat) (h : Still z s) :
    Still z (dmaStart s c) := by
  unfold dmaStart
  repeat' first
    | with_reducible assumption
    | dsimp only
    | with_reducible apply still_wrF
    | with_reducible apply still_setDma
    | with_reducible apply still_setDmaState
    | with_reducible apply still_dmaHalt
    | with_reducible apply Still.ite

theorem keeps_dmaStart {z : State} (s : State) (c : Nat) (h : Keeps z s) :
    Keeps z (dmaStart s c) := h.step (still_dmaStart s c (.refl _))

theorem still_dmaStop {z : State} (s : State) (c : Nat) (h : Still z s) :
    Still z (dmaStop s c) := by
  unfold dmaStop
  repeat' first
    | with_reducible assumption
    | with_reducible apply still_dmaHalt
    | with_reducible apply still_hwOr
    | with_reducible apply Still.ite

theorem keeps_dmaStop {z : State} (s : State) (c : Nat) (h : Keeps z s) :
    Keeps z (dmaStop s c) := h.step (still_dmaStop s c (.refl _))

theorem still_dmaShowReads {z : State} (s : State) (c : Nat) (h : Still z s) :
    Still z (dmaShowReads s c) := by
  unfold dmaShowReads
  repeat' first
    | with_reducible assumption
    | dsimp only
    | with_reducible apply still_wrF

theorem keeps_dmaShowReads {z : State} (s : State) (c : Nat) (h : Keeps z s) :
    Keeps z (dmaShowReads s c) := h.step (still_dmaShowReads s c (.refl _))

theorem still_dmaHaltedTick {z : State} (s : State) (c : Nat) (h : Still z s) :
    Still z (dmaHaltedTick s c) := by
  unfold dmaHaltedTick
  repeat' first
    | with_reducible assumption
    | with_reducible apply still_dmaStopClear
    | with_reducible apply Still.ite

theorem keeps_dmaHaltedTick {z : State} (s : State) (c : Nat) (h : Keeps z s) :
    Keeps z (dmaHaltedTick s c) := h.step (still_dmaHaltedTick s c (.refl _))

theorem still_dmaFetch {z : State} (s : State) (c : Nat) (h : Still z s) :
    Still z (dmaFetch s c) := by
  unfold dmaFetch
  repeat' first
    | with_reducible assumption
    | dsimp only
    | fail_if_no_progress with_reducible apply Still.upd
    | with_reducible apply still_dmaShowReads
    | with_reducible apply still_sendReads
    | with_reducible apply Still.ite
    | split

theorem keeps_dmaFetch {z : State} (s : State) (c : Nat) (h : Keeps z s) :
    Keeps z (dmaFetch s c) := h.step (still_dmaFetch s c (.refl _))

theorem still_sendData {z : State} (s : State) (fuel a : Nat) (ws : List (Word64 × Bool)) (ep : Bool) (h : Still z s) :
    Still z (sendData s fuel a ws ep).2 := by
  induction fuel generalizing s a ws ep with
  | zero => exact h
  | succ n ih =>
    unfold sendData
    repeat' first
      | with_reducible assumption
      | dsimp only
      | with_reducible apply ih
      | with_reducible apply still_poisonTx
      | with_reducible apply still_sendTlp
      | split

theorem keeps_sendData {z : State} (s : State) (fuel a : Nat) (ws : List (Word64 × Bool)) (ep : Bool) (h : Keeps z s) :
    Keeps z (sendData s fuel a ws ep).2 := h.step (still_sendData s fuel a ws ep (.refl _))

theorem still_dmaAdvance {z : State} (s : State) (c : Nat) (h : Still z s) :
    Still z (dmaAdvance s c) := by
  unfold dmaAdvance
  repeat' first
    | with_reducible assumption
    | with_reducible apply still_setDma
    | with_reducible apply still_wrF

theorem keeps_dmaAdvance {z : State} (s : State) (c : Nat) (h : Keeps z s) :
    Keeps z (dmaAdvance s c) := h.step (still_dmaAdvance s c (.refl _))

theorem still_dmaRingRead {z : State} (s : State) (c : Nat) (d : Descriptor) (h : Still z s) :
    Still z (dmaRingRead s c d) := by
  unfold dmaRingRead
  repeat' first
    | with_reducible assumption
    | with_reducible exact Still.refl _
    | dsimp only
    | with_reducible apply still_countRingRead
    | with_reducible apply still_sendData
    | with_reducible apply still_ctrAdd64
    | with_reducible apply still_dmaAdvance
    | with_reducible apply still_dmaWriteBack
    | refine Still.snd ?_ (by assumption)
    | (with_reducible apply Still.times; rotate_left; intro _ _)
    | with_reducible apply Still.ite

theorem keeps_dmaRingRead {z : State} (s : State) (c : Nat) (d : Descriptor) (h : Keeps z s) :
    Keeps z (dmaRingRead s c d) := h.step (still_dmaRingRead s c d (.refl _))

theorem still_sendBytes {z : State} (s : State) (fuel a : Nat) (bs : List Byte) (h : Still z s) :
    Still z (sendBytes s fuel a bs) := by
  induction fuel generalizing s a bs with
  | zero => exact h
  | succ n ih =>
    unfold sendBytes
    repeat' first
      | with_reducible assumption
      | dsimp only
      | with_reducible apply ih
      | with_reducible apply still_sendTlp
      | split

theorem keeps_sendBytes {z : State} (s : State) (fuel a : Nat) (bs : List Byte) (h : Keeps z s) :
    Keeps z (sendBytes s fuel a bs) := h.step (still_sendBytes s fuel a bs (.refl _))

theorem still_dmaEngineOut {z : State} (s : State) (c k : Nat) (d : Descriptor) (h : Still z s) :
    Still z (dmaEngineOut s c k d) := by
  unfold dmaEngineOut
  repeat' first
    | with_reducible assumption
    | dsimp only
    | fail_if_no_progress with_reducible apply Still.upd
    | with_reducible apply still_sendBytes
    | with_reducible apply still_setDfl
    | with_reducible apply still_ctrAdd64
    | with_reducible apply still_dmaAdvance
    | with_reducible apply still_dmaWriteBack
    | with_reducible apply still_setDma
    | with_reducible apply Still.ite

theorem keeps_dmaEngineOut {z : State} (s : State) (c k : Nat) (d : Descriptor) (h : Keeps z s) :
    Keeps z (dmaEngineOut s c k d) := h.step (still_dmaEngineOut s c k d (.refl _))

theorem still_dmaEngineIn {z : State} (s : State) (c k : Nat) (d : Descriptor) (data : List Byte) (h : Still z s) :
    Still z (dmaEngineIn s c k d data) := by
  unfold dmaEngineIn
  repeat' first
    | with_reducible assumption
    | dsimp only
    | fail_if_no_progress with_reducible apply Still.upd
    | with_reducible apply still_setDma
    | with_reducible apply still_dflTake
    | with_reducible apply still_ctrAdd64
    | with_reducible apply still_sendReads
    | with_reducible apply still_dmaAdvance
    | with_reducible apply still_dmaWriteBack
    | refine Still.thd ?_ (by assumption)
    | with_reducible apply Still.ite

theorem keeps_dmaEngineIn {z : State} (s : State) (c k : Nat) (d : Descriptor) (data : List Byte) (h : Keeps z s) :
    Keeps z (dmaEngineIn s c k d data) := h.step (still_dmaEngineIn s c k d data (.refl _))

theorem still_dmaDescriptor {z : State} (s : State) (c : Nat) (d : Descriptor) (data : List Byte) (h : Still z s) :
    Still z (dmaDescriptor s c d data) := by
  unfold dmaDescriptor
  repeat' first
    | with_reducible assumption
    | dsimp only
    | fail_if_no_progress with_reducible apply Still.upd
    | with_reducible apply still_dmaWriteBack
    | with_reducible apply still_dmaHalt
    | with_reducible apply still_setDma
    | with_reducible apply still_dmaRingRead
    | with_reducible apply still_dmaEngineOut
    | with_reducible apply still_dmaEngineIn
    | with_reducible apply Still.ite
    | split

theorem keeps_dmaDescriptor {z : State} (s : State) (c : Nat) (d : Descriptor) (data : List Byte) (h : Keeps z s) :
    Keeps z (dmaDescriptor s c d data) := h.step (still_dmaDescriptor s c d data (.refl _))

theorem still_readOver {z : State} (s : State) (r : OutRead) (h : Still z s) :
    Still z (readOver s r) := by
  unfold readOver
  repeat' first
    | with_reducible assumption
    | dsimp only
    | fail_if_no_progress with_reducible apply Still.upd
    | with_reducible apply still_dmaShowReads
    | with_reducible apply still_dmaHaltNow
    | split

theorem keeps_readOver {z : State} (s : State) (r : OutRead) (h : Keeps z s) :
    Keeps z (readOver s r) := h.step (still_readOver s r (.refl _))

theorem still_completion {z : State} (s : State) (tag : Nat) (status : CplStatus) (ep : Bool) (h : Still z s) :
    Still z (completion s tag status ep) := by
  unfold completion
  repeat' first
    | with_reducible assumption
    | dsimp only
    | fail_if_no_progress with_reducible apply Still.upd
    | with_reducible apply still_poisonRx
    | with_reducible apply still_tlpSeen
    | with_reducible apply still_readOver
    | with_reducible apply still_dmaHalt
    | with_reducible apply still_setDma
    | with_reducible apply still_pcieEvent
    | with_reducible apply still_ctrAdd
    | with_reducible apply still_aerReport
    | with_reducible apply Still.ite
    | split

theorem keeps_completion {z : State} (s : State) (tag : Nat) (status : CplStatus) (ep : Bool) (h : Keeps z s) :
    Keeps z (completion s tag status ep) := h.step (still_completion s tag status ep (.refl _))

theorem still_showRetired {z : State} (s : State) (h : Still z s) :
    Still z (showRetired s) := by
  unfold showRetired
  repeat' first
    | with_reducible assumption
    | with_reducible apply still_wrF

theorem keeps_showRetired {z : State} (s : State) (h : Keeps z s) :
    Keeps z (showRetired s) := h.step (still_showRetired s (.refl _))

theorem still_completionTimeout {z : State} (s : State) (tag : Nat) (h : Still z s) :
    Still z (completionTimeout s tag) := by
  unfold completionTimeout
  repeat' first
    | with_reducible assumption
    | dsimp only
    | fail_if_no_progress with_reducible apply Still.upd
    | with_reducible apply still_pcieEvent
    | with_reducible apply still_aerReport
    | with_reducible apply still_showRetired
    | with_reducible apply still_readOver
    | with_reducible apply still_dmaHalt
    | with_reducible apply Still.ite
    | split

theorem keeps_completionTimeout {z : State} (s : State) (tag : Nat) (h : Keeps z s) :
    Keeps z (completionTimeout s tag) := h.step (still_completionTimeout s tag (.refl _))

theorem still_reclaim {z : State} (s : State) (h : Still z s) :
    Still z (reclaim s) := by
  unfold reclaim
  repeat' first
    | with_reducible assumption
    | dsimp only
    | fail_if_no_progress with_reducible apply Still.upd
    | with_reducible apply still_showRetired

theorem keeps_reclaim {z : State} (s : State) (h : Keeps z s) :
    Keeps z (reclaim s) := h.step (still_reclaim s (.refl _))

theorem still_dmaAllHalt {z : State} (s : State) (h : Still z s) :
    Still z (dmaAllHalt s) := by
  unfold dmaAllHalt
  repeat' first
    | with_reducible assumption
    | with_reducible exact Still.refl _
    | dsimp only
    | with_reducible apply still_dmaHalt
    | (with_reducible apply Still.times; rotate_left; intro _ _)
    | with_reducible apply Still.ite

theorem keeps_dmaAllHalt {z : State} (s : State) (h : Keeps z s) :
    Keeps z (dmaAllHalt s) := h.step (still_dmaAllHalt s (.refl _))

theorem still_enterD3 {z : State} (s : State) (h : Still z s) :
    Still z (enterD3 s) := by
  unfold enterD3
  repeat' first
    | with_reducible assumption
    | dsimp only
    | with_reducible apply still_cfgSet
    | with_reducible apply still_dmaAllHalt
    | with_reducible apply still_wrF
    | with_reducible apply Still.ite

theorem keeps_enterD3 {z : State} (s : State) (h : Keeps z s) :
    Keeps z (enterD3 s) := h.step (still_enterD3 s (.refl _))

theorem still_enterD0 {z : State} (s : State) (h : Still z s) :
    Still z (enterD0 s) := by
  unfold enterD0
  repeat' first
    | with_reducible assumption
    | with_reducible apply still_wrF
    | with_reducible apply still_cfgSet

theorem keeps_enterD0 {z : State} (s : State) (h : Keeps z s) :
    Keeps z (enterD0 s) := h.step (still_enterD0 s (.refl _))

theorem still_aspmL1 {z : State} (s : State) (h : Still z s) :
    Still z (aspmL1 s) := by
  unfold aspmL1
  repeat' first
    | with_reducible assumption
    | dsimp only
    | fail_if_no_progress with_reducible apply Still.upd
    | with_reducible apply Still.ite

theorem keeps_aspmL1 {z : State} (s : State) (h : Keeps z s) :
    Keeps z (aspmL1 s) := h.step (still_aspmL1 s (.refl _))

theorem still_linkTraining {z : State} (s : State) (rate width : Nat) (flit : Bool) (h : Still z s) :
    Still z (linkTraining s rate width flit) := by
  unfold linkTraining
  repeat' first
    | with_reducible assumption
    | dsimp only
    | with_reducible apply still_wrF
    | with_reducible apply still_wrBit
    | with_reducible apply still_cfgSet

theorem keeps_linkTraining {z : State} (s : State) (rate width : Nat) (flit : Bool) (h : Keeps z s) :
    Keeps z (linkTraining s rate width flit) := h.step (still_linkTraining s rate width flit (.refl _))

theorem still_msixWrite {z : State} (s : State) (i : Nat) (v be : Word) (h : Still z s) :
    Still z (msixWrite s i v be) := by
  unfold msixWrite
  repeat' first
    | with_reducible assumption
    | dsimp only
    | fail_if_no_progress with_reducible apply Still.upd

theorem keeps_msixWrite {z : State} (s : State) (i : Nat) (v be : Word) (h : Keeps z s) :
    Keeps z (msixWrite s i v be) := h.step (still_msixWrite s i v be (.refl _))

theorem still_msixMessage {z : State} (s : State) (v : Nat) (h : Still z s) :
    Still z (msixMessage s v) := by
  unfold msixMessage
  repeat' first
    | with_reducible assumption
    | with_reducible exact Still.refl _
    | dsimp only
    | fail_if_no_progress with_reducible apply Still.upd
    | with_reducible apply still_sendTlp
    | with_reducible apply Still.ite

theorem keeps_msixMessage {z : State} (s : State) (v : Nat) (h : Keeps z s) :
    Keeps z (msixMessage s v) := h.step (still_msixMessage s v (.refl _))

end Sys2Proof.Machine
end

