-- ==== Sys2Proof/Laws/Frame/Replay.lean ====
section
/-! SUPPORT. What the operations of Machine/Replay.lean leave alone (Laws/Keeps.lean). -/

namespace Sys2Proof.Machine

theorem still_engFreshInput {z : State} (s : State) (e : Nat) (h : Still z s) :
    Still z (engFreshInput s e) := by
  unfold engFreshInput
  repeat' first
    | with_reducible assumption
    | dsimp only
    | fail_if_no_progress with_reducible apply Still.upd
    | with_reducible apply still_modEng

theorem keeps_engFreshInput {z : State} (s : State) (e : Nat) (h : Keeps z s) :
    Keeps z (engFreshInput s e) := h.step (still_engFreshInput s e (.refl _))

theorem still_srcCount {z : State} (s : State) (b : SrcRing) (h : Still z s) :
    Still z (srcCount s b) := by
  unfold srcCount
  repeat' first
    | with_reducible assumption
    | with_reducible exact Still.refl _
    | dsimp only
    | with_reducible apply still_wr
    | with_reducible apply still_countRingRead
    | (with_reducible apply Still.times; rotate_left; intro _ _)

theorem keeps_srcCount {z : State} (s : State) (b : SrcRing) (h : Keeps z s) :
    Keeps z (srcCount s b) := h.step (still_srcCount s b (.refl _))

theorem still_jobStart {z : State} (s : State) (j : Nat) (es rings : List Nat) (rs re : Int) (result : Nat) (h : Still z s) :
    Still z (jobStart s j es rings rs re result) := by
  unfold jobStart
  repeat' first
    | with_reducible assumption
    | with_reducible exact Still.refl _
    | dsimp only
    | fail_if_no_progress with_reducible apply Still.upd
    | with_reducible apply still_wr
    | with_reducible apply still_wr64
    | with_reducible apply still_setJob
    | with_reducible apply still_modEng
    | with_reducible apply still_engFreshInput
    | with_reducible apply still_engStart
    | with_reducible apply still_setRun
    | with_reducible apply still_srcCount
    | with_reducible apply still_ctxExtIssue
    | (with_reducible apply Still.each; rotate_left; intro _ _)
    | with_reducible apply Still.ite

theorem keeps_jobStart {z : State} (s : State) (j : Nat) (es rings : List Nat) (rs re : Int) (result : Nat) (h : Keeps z s) :
    Keeps z (jobStart s j es rings rs re result) := h.step (still_jobStart s j es rings rs re result (.refl _))

theorem still_replayStartCmd {z : State} (s : State) (m : Nat) (h : Still z s) :
    Still z (replayStartCmd s m) := by
  unfold replayStartCmd
  repeat' first
    | with_reducible assumption
    | dsimp only
    | with_reducible apply still_checked
    | with_reducible apply still_completeCmd
    | with_reducible apply still_jobStart

theorem keeps_replayStartCmd {z : State} (s : State) (m : Nat) (h : Keeps z s) :
    Keeps z (replayStartCmd s m) := h.step (still_replayStartCmd s m (.refl _))

theorem still_replayStopCmd {z : State} (s : State) (m : Nat) (h : Still z s) :
    Still z (replayStopCmd s m) := by
  unfold replayStopCmd
  repeat' first
    | with_reducible assumption
    | dsimp only
    | fail_if_no_progress with_reducible apply Still.upd
    | with_reducible apply still_checked
    | with_reducible apply still_completeCmd
    | with_reducible apply still_modJob

theorem keeps_replayStopCmd {z : State} (s : State) (m : Nat) (h : Keeps z s) :
    Keeps z (replayStopCmd s m) := h.step (still_replayStopCmd s m (.refl _))

theorem still_replayStatusCmd {z : State} (s : State) (m : Nat) (h : Still z s) :
    Still z (replayStatusCmd s m) := by
  unfold replayStatusCmd
  repeat' first
    | with_reducible assumption
    | dsimp only
    | with_reducible apply still_checked
    | with_reducible apply still_completeCmd

theorem keeps_replayStatusCmd {z : State} (s : State) (m : Nat) (h : Keeps z s) :
    Keeps z (replayStatusCmd s m) := h.step (still_replayStatusCmd s m (.refl _))

theorem still_jobGaps {y : State} (s : State) (j : Nat) (a z : Int) (h : Still y s) :
    Still y (jobGaps s j a z) := by
  unfold jobGaps
  repeat' first
    | with_reducible assumption
    | with_reducible exact Still.refl _
    | dsimp only
    | with_reducible apply still_stageNew
    | with_reducible apply still_rplEvent
    | (with_reducible apply Still.each; rotate_left; intro _ _)
    | with_reducible apply Still.ite

theorem keeps_jobGaps {y : State} (s : State) (j : Nat) (a z : Int) (h : Keeps y s) :
    Keeps y (jobGaps s j a z) := h.step (still_jobGaps s j a z (.refl _))

theorem still_replayFeed {z : State} (s : State) (j : Nat) (h : Still z s) :
    Still z (replayFeed s j) := by
  unfold replayFeed
  repeat' first
    | with_reducible assumption
    | with_reducible exact Still.refl _
    | dsimp only
    | fail_if_no_progress with_reducible apply Still.upd
    | with_reducible apply still_jobGaps
    | with_reducible apply still_modJob
    | with_reducible apply still_ctrAdd64
    | with_reducible apply still_evalEngine
    | (with_reducible apply Still.each; rotate_left; intro _ _)
    | with_reducible apply Still.ite

theorem keeps_replayFeed {z : State} (s : State) (j : Nat) (h : Keeps z s) :
    Keeps z (replayFeed s j) := h.step (still_replayFeed s j (.refl _))

theorem still_skipEngine {z : State} (s : State) (e k : Nat) (h : Still z s) :
    Still z (skipEngine s e k) := by
  unfold skipEngine
  repeat' first
    | with_reducible assumption
    | with_reducible exact Still.refl _
    | dsimp only
    | fail_if_no_progress with_reducible apply Still.upd
    | with_reducible apply still_modEng
    | with_reducible apply still_wr48
    | (with_reducible apply Still.times; rotate_left; intro _ _)
    | with_reducible apply Still.ite

theorem keeps_skipEngine {z : State} (s : State) (e k : Nat) (h : Keeps z s) :
    Keeps z (skipEngine s e k) := h.step (still_skipEngine s e k (.refl _))

theorem still_replaySkip {z : State} (s : State) (j : Nat) (h : Still z s) :
    Still z (replaySkip s j) := by
  unfold replaySkip
  repeat' first
    | with_reducible assumption
    | with_reducible exact Still.refl _
    | dsimp only
    | fail_if_no_progress with_reducible apply Still.upd
    | with_reducible apply still_jobGaps
    | with_reducible apply still_modJob
    | with_reducible apply still_ctrAdd64
    | with_reducible apply still_skipEngine
    | (with_reducible apply Still.each; rotate_left; intro _ _)
    | with_reducible apply Still.ite

theorem keeps_replaySkip {z : State} (s : State) (j : Nat) (h : Keeps z s) :
    Keeps z (replaySkip s j) := h.step (still_replaySkip s j (.refl _))

theorem keeps_jobCommitOne {z : State} (s : State) (b : Job) (h : Keeps z s) :
    Keeps z (jobCommitOne s b) := by
  unfold jobCommitOne
  repeat' first
    | with_reducible assumption
    | dsimp only
    | fail_if_no_progress with_reducible apply Keeps.upd
    | with_reducible apply keeps_ringOffer
    | with_reducible apply keeps_modStr
    | with_reducible apply Keeps.ite
    | split

theorem keeps_jobSettle {z : State} (s : State) (j : Nat) (h : Keeps z s) :
    Keeps z (jobSettle s j) := by
  unfold jobSettle
  repeat' first
    | with_reducible assumption
    | dsimp only
    | fail_if_no_progress with_reducible apply Keeps.upd
    | with_reducible apply keeps_jobCommitOne
    | with_reducible apply keeps_rplEvent
    | with_reducible apply keeps_modJob
    | with_reducible apply Keeps.ite
    | split

theorem keeps_jobsTick {z : State} (s : State) (h : Keeps z s) :
    Keeps z (jobsTick s) := by
  unfold jobsTick
  repeat' first
    | with_reducible assumption
    | with_reducible exact Keeps.refl _
    | with_reducible apply keeps_jobSettle
    | (with_reducible apply Keeps.each; rotate_left; intro _ _)

theorem keeps_jobEnd {z : State} (s : State) (j st : Nat) (h : Keeps z s) :
    Keeps z (jobEnd s j st) := by
  unfold jobEnd
  repeat' first
    | with_reducible assumption
    | with_reducible exact Keeps.refl _
    | dsimp only
    | fail_if_no_progress with_reducible apply Keeps.upd
    | with_reducible apply keeps_engDiscard
    | with_reducible apply keeps_modEng
    | with_reducible apply keeps_engFreshInput
    | with_reducible apply keeps_engEnter
    | with_reducible apply keeps_jobSettle
    | with_reducible apply keeps_modJob
    | (with_reducible apply Keeps.each; rotate_left; intro _ _)
    | with_reducible apply Keeps.ite

theorem keeps_replayJobEnd {z : State} (s : State) (j : Nat) (h : Keeps z s) :
    Keeps z (replayJobEnd s j) := by
  unfold replayJobEnd
  repeat' first
    | with_reducible assumption
    | dsimp only
    | with_reducible apply keeps_jobEnd
    | with_reducible apply Keeps.ite

theorem keeps_jobsDomOff {z : State} (s : State) (d : Nat) (h : Keeps z s) :
    Keeps z (jobsDomOff s d) := by
  unfold jobsDomOff
  repeat' first
    | with_reducible assumption
    | with_reducible exact Keeps.refl _
    | dsimp only
    | with_reducible apply keeps_jobEnd
    | (with_reducible apply Keeps.times; rotate_left; intro _ _)
    | with_reducible apply Keeps.ite

end Sys2Proof.Machine
end

