-- ==== Sys2Proof/Laws/Frame/Power.lean ====
section
/-! SUPPORT. What the operations of Machine/Power.lean leave alone (Laws/Keeps.lean). -/

namespace Sys2Proof.Machine

theorem still_failCmds {z : State} (s : State) (cs : List RunCmd) (d : Nat) (h : Still z s) :
    Still z (failCmds s cs d) := by
  unfold failCmds
  repeat' first
    | with_reducible assumption
    | with_reducible exact Still.refl _
    | dsimp only
    | fail_if_no_progress with_reducible apply Still.upd
    | with_reducible apply still_completeCmd
    | (with_reducible apply Still.each; rotate_left; intro _ _)

theorem keeps_failCmds {z : State} (s : State) (cs : List RunCmd) (d : Nat) (h : Keeps z s) :
    Keeps z (failCmds s cs d) := h.step (still_failCmds s cs d (.refl _))

theorem still_ringsDelete {z : State} (s : State) (pick : Nat → Bool) (h : Still z s) :
    Still z (ringsDelete s pick) := by
  unfold ringsDelete
  repeat' first
    | with_reducible assumption
    | with_reducible exact Still.refl _
    | dsimp only
    | with_reducible apply still_ringDelete
    | with_reducible apply still_dflRingDeleted
    | (with_reducible apply Still.each; rotate_left; intro _ _)

theorem keeps_ringsDelete {z : State} (s : State) (pick : Nat → Bool) (h : Keeps z s) :
    Keeps z (ringsDelete s pick) := h.step (still_ringsDelete s pick (.refl _))

theorem still_regsLose {z : State} (s : State) (d : Nat) (h : Still z s) :
    Still z (regsLose s d) := by
  unfold regsLose
  repeat' first
    | with_reducible assumption
    | dsimp only
    | fail_if_no_progress with_reducible apply Still.upd

theorem keeps_regsLose {z : State} (s : State) (d : Nat) (h : Keeps z s) :
    Keeps z (regsLose s d) := h.step (still_regsLose s d (.refl _))

theorem still_linkOff {z : State} (s : State) (d : Nat) (h : Still z s) :
    Still z (linkOff s d) := by
  unfold linkOff
  repeat' first
    | with_reducible assumption
    | dsimp only
    | fail_if_no_progress with_reducible apply Still.upd

theorem keeps_linkOff {z : State} (s : State) (d : Nat) (h : Keeps z s) :
    Keeps z (linkOff s d) := h.step (still_linkOff s d (.refl _))

theorem still_seqOff {z : State} (s : State) (d : Nat) (h : Still z s) :
    Still z (seqOff s d) := by
  unfold seqOff
  repeat' first
    | with_reducible assumption
    | dsimp only
    | fail_if_no_progress with_reducible apply Still.upd
    | with_reducible apply still_gforceWrite
    | with_reducible apply Still.ite

theorem keeps_seqOff {z : State} (s : State) (d : Nat) (h : Keeps z s) :
    Keeps z (seqOff s d) := h.step (still_seqOff s d (.refl _))

theorem keeps_cirrusOff {z : State} (s : State) (h : Keeps z s) :
    Keeps z (cirrusOff s) := by
  unfold cirrusOff
  extract_lets s1 s2
  have h2 : Keeps z s2 := (keeps_ringsDelete s _ h).trans ⟨rfl, fun i => ⟨i.1, Memory.wf_nil⟩⟩
  exact h2.each fun _ _ => keeps_stageShow _ _ (keeps_modStr _ _ _ (.refl _))

theorem keeps_stratusOff {z : State} (s : State) (d : Nat) (h : Keeps z s) :
    Keeps z (stratusOff s d) := by
  unfold stratusOff
  extract_lets j s1
  exact (keeps_ringsDelete s _ h).trans ⟨rfl, fun i => ⟨Memory.wf_filter _ i.1, i.2⟩⟩

theorem still_timebaseOff {z : State} (s : State) (h : Still z s) :
    Still z (timebaseOff s) := by
  unfold timebaseOff
  repeat' first
    | with_reducible assumption
    | dsimp only
    | fail_if_no_progress with_reducible apply Still.upd
    | with_reducible apply still_wrBit

theorem keeps_timebaseOff {z : State} (s : State) (h : Keeps z s) :
    Keeps z (timebaseOff s) := h.step (still_timebaseOff s (.refl _))

theorem still_analogOff {z : State} (s : State) (h : Still z s) :
    Still z (analogOff s) := by
  unfold analogOff
  repeat' first
    | with_reducible assumption
    | with_reducible exact Still.refl _
    | dsimp only
    | with_reducible apply still_dfcSwitch
    | with_reducible apply still_closeOpen
    | (with_reducible apply Still.times; rotate_left; intro _ _)

theorem keeps_analogOff {z : State} (s : State) (h : Keeps z s) :
    Keeps z (analogOff s) := h.step (still_analogOff s (.refl _))

theorem still_deflateOff {z : State} (s : State) (h : Still z s) :
    Still z (deflateOff s) := by
  unfold deflateOff
  repeat' first
    | with_reducible assumption
    | with_reducible exact Still.refl _
    | dsimp only
    | with_reducible apply still_setDflState
    | with_reducible apply still_dflAbort
    | (with_reducible apply Still.times; rotate_left; intro _ _)

theorem keeps_deflateOff {z : State} (s : State) (h : Keeps z s) :
    Keeps z (deflateOff s) := h.step (still_deflateOff s (.refl _))

theorem still_ringManagerOff {z : State} (s : State) (h : Still z s) :
    Still z (ringManagerOff s) := by
  unfold ringManagerOff
  repeat' first
    | with_reducible assumption
    | with_reducible exact Still.refl _
    | dsimp only
    | fail_if_no_progress with_reducible apply Still.upd
    | with_reducible apply still_dflAbort
    | (with_reducible apply Still.times; rotate_left; intro _ _)

theorem keeps_ringManagerOff {z : State} (s : State) (h : Keeps z s) :
    Keeps z (ringManagerOff s) := h.step (still_ringManagerOff s (.refl _))

theorem keeps_domLoses {z : State} (s : State) (d : Nat) (h : Keeps z s) :
    Keeps z (domLoses s d) := by
  unfold domLoses
  repeat' first
    | with_reducible assumption
    | with_reducible apply keeps_timebaseOff
    | with_reducible apply keeps_linkOff
    | with_reducible apply keeps_seqOff
    | with_reducible apply keeps_ctxSwitchOff
    | with_reducible apply keeps_cirrusOff
    | with_reducible apply keeps_stratusOff
    | with_reducible apply keeps_tiuOff
    | with_reducible apply keeps_analogOff
    | with_reducible apply keeps_deflateOff
    | with_reducible apply keeps_ringManagerOff
    | with_reducible apply Keeps.ite

theorem still_domHaltsCapture {z : State} (s : State) (d : Nat) (h : Still z s) :
    Still z (domHaltsCapture s d) := by
  unfold domHaltsCapture
  repeat' first
    | with_reducible assumption
    | with_reducible exact Still.refl _
    | dsimp only
    | with_reducible apply still_closeOpen
    | with_reducible apply still_captureHalt
    | (with_reducible apply Still.each; rotate_left; intro _ _)
    | with_reducible apply Still.ite

theorem keeps_domHaltsCapture {z : State} (s : State) (d : Nat) (h : Keeps z s) :
    Keeps z (domHaltsCapture s d) := h.step (still_domHaltsCapture s d (.refl _))

theorem keeps_domSwitchOff {z : State} (s : State) (d : Nat) (h : Keeps z s) :
    Keeps z (domSwitchOff s d) := by
  unfold domSwitchOff
  repeat' first
    | with_reducible assumption
    | dsimp only
    | fail_if_no_progress with_reducible apply Keeps.upd
    | with_reducible apply keeps_jobsDomOff
    | with_reducible apply keeps_domHaltsCapture
    | with_reducible apply keeps_wrBit
    | with_reducible apply keeps_regsLose
    | with_reducible apply keeps_domLoses
    | with_reducible apply keeps_mtAbort
    | with_reducible apply keeps_failCmds
    | with_reducible apply keeps_setPll
    | split

theorem still_domSwitchOn {z : State} (s : State) (d : Nat) (h : Still z s) :
    Still z (domSwitchOn s d) := by
  unfold domSwitchOn
  repeat' first
    | with_reducible assumption
    | dsimp only
    | fail_if_no_progress with_reducible apply Still.upd
    | with_reducible apply still_ringsDelete
    | with_reducible apply still_wrBit
    | with_reducible apply still_setPll
    | with_reducible apply Still.ite
    | split

theorem keeps_domSwitchOn {z : State} (s : State) (d : Nat) (h : Keeps z s) :
    Keeps z (domSwitchOn s d) := h.step (still_domSwitchOn s d (.refl _))

theorem still_pwrRefuse {z : State} (s : State) (d cause : Nat) (h : Still z s) :
    Still z (pwrRefuse s d cause) := by
  unfold pwrRefuse
  repeat' first
    | with_reducible assumption
    | with_reducible apply still_hwOr
    | with_reducible apply still_wrF

theorem keeps_pwrRefuse {z : State} (s : State) (d cause : Nat) (h : Keeps z s) :
    Keeps z (pwrRefuse s d cause) := h.step (still_pwrRefuse s d cause (.refl _))

theorem keeps_pwrCommit {z : State} (s : State) (d : Nat) (v : Word) (h : Keeps z s) :
    Keeps z (pwrCommit s d v) := by
  unfold pwrCommit
  repeat' first
    | with_reducible assumption
    | dsimp only
    | fail_if_no_progress with_reducible apply Keeps.upd
    | with_reducible apply keeps_pwrRefuse
    | with_reducible apply keeps_domSwitchOn
    | with_reducible apply keeps_domSwitchOff
    | with_reducible apply Keeps.ite

theorem still_alertShow {z : State} (s : State) (h : Still z s) :
    Still z (alertShow s) := by
  unfold alertShow
  repeat' first
    | with_reducible assumption
    | dsimp only
    | with_reducible apply still_wrBit
    | with_reducible apply Still.ite

theorem keeps_alertShow {z : State} (s : State) (h : Keeps z s) :
    Keeps z (alertShow s) := h.step (still_alertShow s (.refl _))

theorem still_temperature {z : State} (s : State) (t : BitVec 16) (h : Still z s) :
    Still z (temperature s t) := by
  unfold temperature
  repeat' first
    | with_reducible assumption
    | dsimp only
    | with_reducible apply still_wrF
    | with_reducible apply still_alertShow
    | with_reducible apply Still.ite

theorem keeps_temperature {z : State} (s : State) (t : BitVec 16) (h : Keeps z s) :
    Keeps z (temperature s t) := h.step (still_temperature s t (.refl _))

theorem still_thermalTrip {z : State} (s : State) (h : Still z s) :
    Still z (thermalTrip s) := by
  unfold thermalTrip
  repeat' first
    | with_reducible assumption
    | dsimp only
    | with_reducible apply still_captureHalt
    | with_reducible apply still_wr
    | with_reducible apply still_wrBit
    | with_reducible apply still_wrF
    | with_reducible apply Still.ite

theorem keeps_thermalTrip {z : State} (s : State) (h : Keeps z s) :
    Keeps z (thermalTrip s) := h.step (still_thermalTrip s (.refl _))

theorem keeps_resetUnits {z : State} (s : State) (keep : Nat → Bool) (origin : Nat) (h : Keeps z s) :
    Keeps z (resetUnits s keep origin) := by
  unfold resetUnits
  extract_lets s1
  exact keeps_wrF _ _ _ _ _ (h.trans ⟨rfl, fun _ => ⟨Memory.wf_nil, Memory.wf_nil⟩⟩)

theorem still_linkShow {z : State} (s s0 : State) (up : Bool) (h : Still z s) :
    Still z (linkShow s s0 up) := by
  unfold linkShow
  repeat' first
    | with_reducible assumption
    | with_reducible apply still_wrF

theorem keeps_linkShow {z : State} (s s0 : State) (up : Bool) (h : Keeps z s) :
    Keeps z (linkShow s s0 up) := h.step (still_linkShow s s0 up (.refl _))

theorem keeps_warmReset {z : State} (s : State) (h : Keeps z s) :
    Keeps z (warmReset s) := by
  unfold warmReset
  repeat' first
    | with_reducible assumption
    | dsimp only
    | fail_if_no_progress with_reducible apply Keeps.upd
    | with_reducible apply keeps_resetUnits
    | with_reducible apply keeps_mtAbort
    | with_reducible apply keeps_wrF
    | with_reducible apply keeps_linkShow

theorem keeps_flrReset {z : State} (s : State) (c : FlrCause) (h : Keeps z s) :
    Keeps z (flrReset s c) := by
  unfold flrReset
  repeat' first
    | with_reducible assumption
    | dsimp only
    | fail_if_no_progress with_reducible apply Keeps.upd
    | with_reducible apply keeps_resetUnits
    | with_reducible apply keeps_mtAbort
    | with_reducible apply keeps_aspmL1
    | with_reducible apply keeps_cfgSet
    | with_reducible apply keeps_linkShow
    | with_reducible apply Keeps.ite

theorem keeps_coldReset {z : State} (s : State) (por : Bool) (smb : BitVec 2) (h : Keeps z s) :
    Keeps z (coldReset s por smb) := by
  unfold coldReset
  repeat' first
    | with_reducible assumption
    | dsimp only
    | fail_if_no_progress with_reducible apply Keeps.upd
    | with_reducible apply keeps_resetUnits
    | with_reducible apply keeps_wrBit
    | with_reducible apply keeps_wr

theorem still_sysResetCommit {z : State} (s : State) (v : Word) (h : Still z s) :
    Still z (sysResetCommit s v) := by
  unfold sysResetCommit
  repeat' first
    | with_reducible assumption
    | dsimp only
    | fail_if_no_progress with_reducible apply Still.upd
    | with_reducible apply Still.ite

theorem keeps_sysResetCommit {z : State} (s : State) (v : Word) (h : Keeps z s) :
    Keeps z (sysResetCommit s v) := h.step (still_sysResetCommit s v (.refl _))

theorem still_firmwareBoot {z : State} (s : State) (img : BootImage) (time : Nat) (h : Still z s) :
    Still z (firmwareBoot s img time) := by
  unfold firmwareBoot
  repeat' first
    | with_reducible assumption
    | dsimp only
    | with_reducible apply still_wrF
    | with_reducible apply still_gateBoot
    | with_reducible apply still_fwStatusEvent
    | with_reducible apply Still.ite

theorem keeps_firmwareBoot {z : State} (s : State) (img : BootImage) (time : Nat) (h : Keeps z s) :
    Keeps z (firmwareBoot s img time) := h.step (still_firmwareBoot s img time (.refl _))

theorem still_fwFault {z : State} (s : State) (h : Still z s) :
    Still z (fwFault s) := by
  unfold fwFault
  repeat' first
    | with_reducible assumption
    | with_reducible apply still_fwStatusEvent
    | with_reducible apply Still.ite

theorem keeps_fwFault {z : State} (s : State) (h : Keeps z s) :
    Keeps z (fwFault s) := h.step (still_fwFault s (.refl _))

theorem still_sysInfoCmd {z : State} (s : State) (m : Nat) (h : Still z s) :
    Still z (sysInfoCmd s m) := by
  unfold sysInfoCmd
  repeat' first
    | with_reducible assumption
    | dsimp only
    | with_reducible apply still_checked
    | with_reducible apply still_completeCmd

theorem keeps_sysInfoCmd {z : State} (s : State) (m : Nat) (h : Keeps z s) :
    Keeps z (sysInfoCmd s m) := h.step (still_sysInfoCmd s m (.refl _))

theorem still_sysEchoCmd {z : State} (s : State) (m : Nat) (h : Still z s) :
    Still z (sysEchoCmd s m) := by
  unfold sysEchoCmd
  repeat' first
    | with_reducible assumption
    | dsimp only
    | with_reducible apply still_checked
    | with_reducible apply still_completeCmd

theorem keeps_sysEchoCmd {z : State} (s : State) (m : Nat) (h : Keeps z s) :
    Keeps z (sysEchoCmd s m) := h.step (still_sysEchoCmd s m (.refl _))

theorem still_sysTempCmd {z : State} (s : State) (m : Nat) (h : Still z s) :
    Still z (sysTempCmd s m) := by
  unfold sysTempCmd
  repeat' first
    | with_reducible assumption
    | dsimp only
    | with_reducible apply still_checked
    | with_reducible apply still_completeCmd

theorem keeps_sysTempCmd {z : State} (s : State) (m : Nat) (h : Keeps z s) :
    Keeps z (sysTempCmd s m) := h.step (still_sysTempCmd s m (.refl _))

end Sys2Proof.Machine
end

