-- ==== Sys2Proof/Laws/Frame/Registers.lean ====
section
/-! SUPPORT. What the operations of Machine/Registers.lean leave alone (Laws/Keeps.lean). -/

namespace Sys2Proof.Machine

theorem still_domoffSet {z : State} (s : State) (h : Still z s) :
    Still z (domoffSet s) := by
  unfold domoffSet
  repeat' first
    | with_reducible assumption
    | with_reducible apply still_hwOr

theorem keeps_domoffSet {z : State} (s : State) (h : Keeps z s) :
    Keeps z (domoffSet s) := h.step (still_domoffSet s (.refl _))

theorem still_readEffects {z : State} (s : State) (off : Nat) (h : Still z s) :
    Still z (readEffects s off) := by
  unfold readEffects
  repeat' first
    | with_reducible assumption
    | dsimp only
    | with_reducible apply still_domoffSet
    | with_reducible apply still_ringHeadFetch
    | with_reducible apply Still.ite
    | split

theorem keeps_readEffects {z : State} (s : State) (off : Nat) (h : Keeps z s) :
    Keeps z (readEffects s off) := h.step (still_readEffects s off (.refl _))

theorem still_hostRead {z : State} (s : State) (off : Nat) (be : BitVec 4) (upper : Option (BitVec 4)) (h : Still z s) :
    Still z (hostRead s off be upper) := by
  unfold hostRead
  repeat' first
    | with_reducible assumption
    | dsimp only
    | fail_if_no_progress with_reducible apply Still.upd
    | with_reducible apply still_readEffects
    | with_reducible apply still_tlpSeen
    | with_reducible apply still_setCpl
    | with_reducible apply still_unsupported
    | with_reducible apply Still.ite
    | split

theorem keeps_hostRead {z : State} (s : State) (off : Nat) (be : BitVec 4) (upper : Option (BitVec 4)) (h : Keeps z s) :
    Keeps z (hostRead s off be upper) := h.step (still_hostRead s off be upper (.refl _))

theorem still_noteHost {z : State} (s : State) (off : Nat) (h : Still z s) :
    Still z (noteHost s off) := by
  unfold noteHost
  repeat' first
    | with_reducible assumption
    | dsimp only
    | fail_if_no_progress with_reducible apply Still.upd
    | with_reducible apply Still.ite

theorem keeps_noteHost {z : State} (s : State) (off : Nat) (h : Keeps z s) :
    Keeps z (noteHost s off) := h.step (still_noteHost s off (.refl _))

theorem still_counterPut {z : State} (s : State) (off : Nat) (v m : Word) (h : Still z s) :
    Still z (counterPut s off v m) := by
  unfold counterPut
  repeat' first
    | with_reducible assumption
    | dsimp only
    | with_reducible apply still_noteHost
    | with_reducible apply still_wr64
    | with_reducible apply still_wr
    | with_reducible apply Still.ite
    | split

theorem keeps_counterPut {z : State} (s : State) (off : Nat) (v m : Word) (h : Keeps z s) :
    Keeps z (counterPut s off v m) := h.step (still_counterPut s off v m (.refl _))

theorem still_counterPut16 {z : State} (s : State) (off : Nat) (v m : Word) (h : Still z s) :
    Still z (counterPut16 s off v m) := by
  unfold counterPut16
  repeat' first
    | with_reducible assumption
    | with_reducible exact Still.refl _
    | dsimp only
    | with_reducible apply still_wr
    | with_reducible apply still_noteHost

theorem keeps_counterPut16 {z : State} (s : State) (off : Nat) (v m : Word) (h : Keeps z s) :
    Keeps z (counterPut16 s off v m) := h.step (still_counterPut16 s off v m (.refl _))

theorem still_plainPut {z : State} (s : State) (off : Nat) (v mask : Word) (h : Still z s) :
    Still z (plainPut s off v mask) := by
  unfold plainPut
  repeat' first
    | with_reducible assumption
    | dsimp only
    | with_reducible apply still_counterPut16
    | with_reducible apply still_counterPut
    | with_reducible apply still_wr
    | with_reducible apply still_noteHost
    | with_reducible apply Still.ite

theorem keeps_plainPut {z : State} (s : State) (off : Nat) (v mask : Word) (h : Keeps z s) :
    Keeps z (plainPut s off v mask) := h.step (still_plainPut s off v mask (.refl _))

theorem still_mbxPut {z : State} (s : State) (m o : Nat) (v mask : Word) (h : Still z s) :
    Still z (mbxPut s m o v mask) := by
  unfold mbxPut
  repeat' first
    | with_reducible assumption
    | dsimp only
    | fail_if_no_progress with_reducible apply Still.upd
    | with_reducible apply still_hwOr
    | with_reducible apply still_wrF
    | with_reducible apply still_plainPut
    | with_reducible apply Still.ite

theorem keeps_mbxPut {z : State} (s : State) (m o : Nat) (v mask : Word) (h : Keeps z s) :
    Keeps z (mbxPut s m o v mask) := h.step (still_mbxPut s m o v mask (.refl _))

theorem still_cntRestore {z : State} (s : State) (e i : Nat) (h : Still z s) :
    Still z (cntRestore s e i) := by
  unfold cntRestore
  repeat' first
    | with_reducible assumption
    | dsimp only
    | with_reducible apply still_wr48
    | split

theorem keeps_cntRestore {z : State} (s : State) (e i : Nat) (h : Keeps z s) :
    Keeps z (cntRestore s e i) := h.step (still_cntRestore s e i (.refl _))

theorem still_engPut {z : State} (s : State) (n o : Nat) (v mask : Word) (h : Still z s) :
    Still z (engPut s n o v mask) := by
  unfold engPut
  repeat' first
    | with_reducible assumption
    | dsimp only
    | fail_if_no_progress with_reducible apply Still.upd
    | with_reducible apply still_modEng
    | with_reducible apply still_plainPut
    | with_reducible apply still_hwOr
    | with_reducible apply still_wr
    | with_reducible apply still_noticeWrite
    | with_reducible apply still_gforceWrite
    | with_reducible apply still_engReset
    | with_reducible apply still_tmrRestore
    | with_reducible apply still_cntRestore
    | with_reducible apply Still.ite

theorem keeps_engPut {z : State} (s : State) (n o : Nat) (v mask : Word) (h : Keeps z s) :
    Keeps z (engPut s n o v mask) := h.step (still_engPut s n o v mask (.refl _))

theorem still_ringPut {z : State} (s : State) (r o : Nat) (v mask : Word) (h : Still z s) :
    Still z (ringPut s r o v mask) := by
  unfold ringPut
  repeat' first
    | with_reducible assumption
    | dsimp only
    | fail_if_no_progress with_reducible apply Still.upd
    | with_reducible apply still_ringDoorbell
    | with_reducible apply still_modRing
    | with_reducible apply still_plainPut
    | with_reducible apply Still.ite

theorem keeps_ringPut {z : State} (s : State) (r o : Nat) (v mask : Word) (h : Keeps z s) :
    Keeps z (ringPut s r o v mask) := h.step (still_ringPut s r o v mask (.refl _))

theorem still_dmaCtrlPut {z : State} (s : State) (c : Nat) (m : Word) (h : Still z s) :
    Still z (dmaCtrlPut s c m) := by
  unfold dmaCtrlPut
  repeat' first
    | with_reducible assumption
    | dsimp only
    | with_reducible apply still_dmaStart
    | with_reducible apply still_dmaStop
    | with_reducible apply still_noteHost
    | with_reducible apply Still.ite

theorem keeps_dmaCtrlPut {z : State} (s : State) (c : Nat) (m : Word) (h : Keeps z s) :
    Keeps z (dmaCtrlPut s c m) := h.step (still_dmaCtrlPut s c m (.refl _))

theorem still_ctlPut {z : State} (s : State) (o : Nat) (v mask : Word) (at_ : Nat) (alias_ : Bool) (h : Still z s) :
    Still z (ctlPut s o v mask at_ alias_) := by
  unfold ctlPut
  repeat' first
    | with_reducible assumption
    | with_reducible exact Still.refl _
    | dsimp only
    | with_reducible apply still_plainPut
    | with_reducible apply still_accessViolation
    | with_reducible apply still_gateShow
    | with_reducible apply still_tiuWinChanged
    | with_reducible apply still_wrF
    | with_reducible apply still_dmaCtrlPut
    | with_reducible apply still_alertShow
    | with_reducible apply still_reclaim
    | (with_reducible apply Still.times; rotate_left; intro _ _)
    | with_reducible apply Still.ite

theorem keeps_ctlPut {z : State} (s : State) (o : Nat) (v mask : Word) (at_ : Nat) (alias_ : Bool) (h : Keeps z s) :
    Keeps z (ctlPut s o v mask at_ alias_) := h.step (still_ctlPut s o v mask at_ alias_ (.refl _))

theorem still_regPut {z : State} (s : State) (off : Nat) (v mask : Word) (at_ : Nat) (alias_ : Bool) (h : Still z s) :
    Still z (regPut s off v mask at_ alias_) := by
  unfold regPut
  repeat' first
    | with_reducible assumption
    | dsimp only
    | with_reducible apply still_domoffSet
    | with_reducible apply still_ctlPut
    | with_reducible apply still_mbxPut
    | with_reducible apply still_engPut
    | with_reducible apply still_ringPut
    | with_reducible apply still_plainPut
    | with_reducible apply Still.ite
    | split

theorem keeps_regPut {z : State} (s : State) (off : Nat) (v mask : Word) (at_ : Nat) (alias_ : Bool) (h : Keeps z s) :
    Keeps z (regPut s off v mask at_ alias_) := h.step (still_regPut s off v mask at_ alias_ (.refl _))

theorem keeps_guardApply {z : State} (s : State) (off : Nat) (v : Word) (h : Keeps z s) :
    Keeps z (guardApply s off v) := by
  unfold guardApply
  repeat' first
    | with_reducible assumption
    | with_reducible apply keeps_pwrCommit
    | with_reducible apply keeps_sysResetCommit
    | with_reducible apply keeps_peerCommit
    | with_reducible apply Keeps.ite

theorem keeps_guardPut {z : State} (s : State) (o : Nat) (v : Word) (be : BitVec 4) (h : Keeps z s) :
    Keeps z (guardPut s o v be) := by
  unfold guardPut
  repeat' first
    | with_reducible assumption
    | dsimp only
    | fail_if_no_progress with_reducible apply Keeps.upd
    | with_reducible apply keeps_accessViolation
    | with_reducible apply keeps_guardApply
    | split

theorem keeps_bar0Write {z : State} (s : State) (off : Nat) (v : Word) (be : BitVec 4) (h : Keeps z s) :
    Keeps z (bar0Write s off v be) := by
  unfold bar0Write
  repeat' first
    | with_reducible assumption
    | dsimp only
    | with_reducible apply keeps_guardPut
    | with_reducible apply keeps_regPut
    | with_reducible apply Keeps.ite
    | split

theorem still_bar4Write {z : State} (s : State) (off : Nat) (v : Word) (be : BitVec 4) (h : Still z s) :
    Still z (bar4Write s off v be) := by
  unfold bar4Write
  repeat' first
    | with_reducible assumption
    | with_reducible apply still_msixWrite
    | with_reducible apply Still.ite

theorem keeps_bar4Write {z : State} (s : State) (off : Nat) (v : Word) (be : BitVec 4) (h : Keeps z s) :
    Keeps z (bar4Write s off v be) := h.step (still_bar4Write s off v be (.refl _))

theorem still_hostWrite {z : State} (s : State) (f : State → State) (h : Still z s) (k : Still z (f (tlpSeen s))) :
    Still z (hostWrite s f) := by
  unfold hostWrite
  repeat' first
    | with_reducible assumption
    | with_reducible apply Still.ite
    | split
    | with_reducible apply still_unsupported

theorem keeps_hostWrite {z : State} (s : State) (f : State → State) (h : Keeps z s) (k : Keeps z (f (tlpSeen s))) :
    Keeps z (hostWrite s f) := by
  unfold hostWrite
  repeat' first
    | with_reducible assumption
    | with_reducible apply Keeps.ite
    | split
    | with_reducible apply keeps_unsupported

theorem still_hostWriteAs {z : State} (s : State) (mark : TlpMark) (f : State → State) (h : Still z s) (k : Still z (f (tlpSeen s))) :
    Still z (hostWriteAs s mark f) := by
  unfold hostWriteAs
  repeat' first
    | with_reducible assumption
    | with_reducible apply Still.ite
    | split
    | with_reducible apply still_hostWrite
    | with_reducible apply still_poisonRx
    | with_reducible apply still_tlpSeen
    | with_reducible apply still_aerReport
    | dsimp only [id]

theorem keeps_hostWriteAs {z : State} (s : State) (mark : TlpMark) (f : State → State) (h : Keeps z s) (k : Keeps z (f (tlpSeen s))) :
    Keeps z (hostWriteAs s mark f) := by
  unfold hostWriteAs
  repeat' first
    | with_reducible assumption
    | with_reducible apply Keeps.ite
    | split
    | with_reducible apply keeps_hostWrite
    | with_reducible apply keeps_poisonRx
    | with_reducible apply keeps_tlpSeen
    | with_reducible apply keeps_aerReport
    | dsimp only [id]

theorem keeps_hostPut {z : State} (s : State) (off : Nat) (v : Word) (h : Keeps z s) :
    Keeps z (hostPut s off v) := by
  unfold hostPut
  repeat' first
    | with_reducible assumption
    | dsimp only
    | with_reducible apply keeps_hostWrite
    | with_reducible apply keeps_bar0Write
    | with_reducible apply keeps_tlpSeen

theorem keeps_noticePut {z : State} (s : State) (e : Nat) (v : Word) (be : BitVec 4) (h : Keeps z s) :
    Keeps z (noticePut s e v be) := by
  unfold noticePut
  repeat' first
    | with_reducible assumption
    | dsimp only
    | with_reducible apply keeps_hostWrite
    | with_reducible apply keeps_bar0Write
    | with_reducible apply keeps_tlpSeen

theorem keeps_doorbellPut {z : State} (s : State) (r op count : Nat) (h : Keeps z s) :
    Keeps z (doorbellPut s r op count) := by
  unfold doorbellPut
  repeat' first
    | with_reducible assumption
    | with_reducible apply keeps_hostPut

theorem keeps_cfgWrite {z : State} (s : State) (d : Nat) (v : Word) (be : BitVec 4) (h : Keeps z s) :
    Keeps z (cfgWrite s d v be) := by
  unfold cfgWrite
  repeat' first
    | with_reducible assumption
    | dsimp only
    | with_reducible apply keeps_flrReset
    | with_reducible apply keeps_enterD3
    | with_reducible apply keeps_enterD0
    | with_reducible apply keeps_cfgSet
    | with_reducible apply keeps_dmaAllHalt
    | with_reducible apply Keeps.ite

theorem keeps_cfgRequest {z : State} (s : State) (d : Nat) (w : Option (Word × BitVec 4)) (h : Keeps z s) :
    Keeps z (cfgRequest s d w) := by
  unfold cfgRequest
  repeat' first
    | with_reducible assumption
    | dsimp only
    | with_reducible apply keeps_tlpSeen
    | with_reducible apply keeps_setCpl
    | with_reducible apply keeps_cfgWrite
    | with_reducible apply Keeps.ite
    | split

theorem still_smbusRead {z : State} (s : State) (addr cmd : Nat) (h : Still z s) :
    Still z (smbusRead s addr cmd) := by
  unfold smbusRead
  repeat' first
    | with_reducible assumption
    | dsimp only
    | fail_if_no_progress with_reducible apply Still.upd

theorem keeps_smbusRead {z : State} (s : State) (addr cmd : Nat) (h : Keeps z s) :
    Keeps z (smbusRead s addr cmd) := h.step (still_smbusRead s addr cmd (.refl _))

theorem still_tlpPut {z : State} (put : State → Nat → Word → BitVec 4 → State) (s : State) (off : Nat) (v : Word)
    (be : BitVec 4) (upper : Option (Word × BitVec 4)) (h : Still z s) (k : ∀ u a w b, Still u (put u a w b)) :
    Still z (tlpPut put s off v be upper) := by
  cases upper with
  | none => exact h.step (k _ _ _ _)
  | some p => exact (h.step (k _ _ _ _)).step (k _ _ _ _)

theorem keeps_tlpPut {z : State} (put : State → Nat → Word → BitVec 4 → State) (s : State) (off : Nat) (v : Word)
    (be : BitVec 4) (upper : Option (Word × BitVec 4)) (h : Keeps z s) (k : ∀ u a w b, Keeps u (put u a w b)) :
    Keeps z (tlpPut put s off v be upper) := by
  cases upper with
  | none => exact h.trans (k _ _ _ _)
  | some p => exact (h.trans (k _ _ _ _)).trans (k _ _ _ _)

end Sys2Proof.Machine
end

