-- ==== Sys2Proof/Laws/Frame/Jtag.lean ====
section
/-! SUPPORT. What the operations of Machine/Jtag.lean leave alone (Laws/Keeps.lean). -/

namespace Sys2Proof.Machine

theorem still_tapClock {z : State} (s : State) (tms tdi : Bool) (h : Still z s) :
    Still z (tapClock s tms tdi) := by
  unfold tapClock
  repeat' first
    | with_reducible assumption
    | dsimp only
    | fail_if_no_progress with_reducible apply Still.upd

theorem keeps_tapClock {z : State} (s : State) (tms tdi : Bool) (h : Keeps z s) :
    Keeps z (tapClock s tms tdi) := h.step (still_tapClock s tms tdi (.refl _))

theorem still_tapReset {z : State} (s : State) (h : Still z s) :
    Still z (tapReset s) := by
  unfold tapReset
  repeat' first
    | with_reducible assumption
    | dsimp only
    | fail_if_no_progress with_reducible apply Still.upd

theorem keeps_tapReset {z : State} (s : State) (h : Keeps z s) :
    Keeps z (tapReset s) := h.step (still_tapReset s (.refl _))

end Sys2Proof.Machine
end

