-- ==== Sys2Proof/Laws/Frame/Tick.lean ====
section
/-! SUPPORT. What the operations of Machine/Tick.lean leave alone (Laws/Keeps.lean). -/

namespace Sys2Proof.Machine

theorem keeps_sliceTickEnd {z : State} (s : State) (h : Keeps z s) :
    Keeps z (sliceTickEnd s) := by
  unfold sliceTickEnd
  repeat' first
    | with_reducible assumption
    | with_reducible exact Keeps.refl _
    | dsimp only
    | with_reducible apply keeps_dumpTick
    | with_reducible apply keeps_engHear
    | with_reducible apply keeps_engTickEnd
    | with_reducible apply keeps_trigInSample
    | with_reducible apply keeps_tiuTickEnd
    | with_reducible apply keeps_trigOutEnd
    | with_reducible apply keeps_stagingEnd
    | with_reducible apply keeps_flushClose
    | with_reducible apply keeps_ringApply
    | (with_reducible apply Keeps.each; rotate_left; intro _ _)
    | (with_reducible apply Keeps.times; rotate_left; intro _ _)

theorem keeps_sliceTick {z : State} (s : State) (d : Nat) (h : Keeps z s) :
    Keeps z (sliceTick s d) := by
  unfold sliceTick
  repeat' first
    | with_reducible assumption
    | with_reducible exact Keeps.refl _
    | dsimp only
    | fail_if_no_progress with_reducible apply Keeps.upd
    | with_reducible apply keeps_trigOutTick
    | with_reducible apply keeps_globalTick
    | with_reducible apply keeps_refOutTick
    | with_reducible apply keeps_noticesTick
    | with_reducible apply keeps_sfTick
    | with_reducible apply keeps_ringTick
    | with_reducible apply keeps_ctxFlightTick
    | with_reducible apply keeps_ctxClearTick
    | with_reducible apply keeps_ctxTick
    | with_reducible apply keeps_trigRecordsDue
    | with_reducible apply keeps_trigsJudge
    | with_reducible apply keeps_showTriggered
    | with_reducible apply keeps_dfcTick
    | with_reducible apply keeps_tiuTick
    | with_reducible apply keeps_offLaneTick
    | with_reducible apply keeps_lineTick
    | with_reducible apply keeps_retTick
    | with_reducible apply keeps_flushTick
    | with_reducible apply keeps_snapshotDue
    | with_reducible apply keeps_segBaseCheck
    | with_reducible apply keeps_jobsTick
    | with_reducible apply keeps_dflTick
    | with_reducible apply keeps_loopTick
    | (with_reducible apply Keeps.each; rotate_left; intro _ _)
    | with_reducible apply Keeps.ite

theorem still_eventsTickEnd {z : State} (s : State) (h : Still z s) :
    Still z (eventsTickEnd s) := by
  unfold eventsTickEnd
  repeat' first
    | with_reducible assumption
    | with_reducible exact Still.refl _
    | dsimp only
    | fail_if_no_progress with_reducible apply Still.upd

theorem keeps_eventsTickEnd {z : State} (s : State) (h : Keeps z s) :
    Keeps z (eventsTickEnd s) := h.step (still_eventsTickEnd s (.refl _))

theorem keeps_warmResetDue {z : State} (s : State) (h : Keeps z s) :
    Keeps z (warmResetDue s) := by
  unfold warmResetDue
  repeat' first
    | with_reducible assumption
    | dsimp only
    | with_reducible apply keeps_warmReset
    | with_reducible apply Keeps.ite
    | split

theorem keeps_tick {z : State} (s : State) (h : Keeps z s) :
    Keeps z (tick s) := by
  unfold tick
  repeat' first
    | with_reducible assumption
    | with_reducible exact Keeps.refl _
    | dsimp only
    | fail_if_no_progress with_reducible apply Keeps.upd
    | with_reducible apply keeps_eventsTickEnd
    | with_reducible apply keeps_sliceTickEnd
    | with_reducible apply keeps_sliceTick
    | with_reducible apply keeps_warmResetDue
    | with_reducible apply keeps_dmaHaltedTick
    | with_reducible apply keeps_dmaFetch
    | (with_reducible apply Keeps.times; rotate_left; intro _ _)
    | with_reducible apply Keeps.ite

end Sys2Proof.Machine
end

