-- ==== Sys2Proof/WellFormed.lean ====
section
/-! DEFINITION. Which commands are well formed: operands a table row or a rule of the spec bounds beyond their type. -/

namespace Sys2Proof

/-- The operand checks. A BAR0 access names a whole register (R30, R31); a superframe has 64 ticks (R72); a training block has
the words of R88; an echo, an arrival or a window access names something; a link trains at a rate and width of R316. -/
def Instr.wf : Instr → Bool
  | .guardStage off _ _ => off.toNat % 4 == 0
  | .guardedCommit _ off _ _ => off.toNat % 4 == 0
  | .registerWrite (.bar0 off) _ be _ => off.toNat % 4 == 0 && (be.2.isNone || off.toNat + 4 < 2 ^ 26)
  | .registerWrite (.bar4 off) _ be _ => off.toNat % 4 == 0 && (be.2.isNone || off.toNat + 4 < 2 ^ 16)
  | .domoff off (.reads _ up) => off.toNat % 4 == 0 && (up.isNone || off.toNat + 4 < 2 ^ 26)
  | .domoff off .writes => off.toNat % 4 == 0
  | .ringDoorbellReserved _ op => 6 ≤ op.toNat
  | .superframe _ line _ => line.length == 64
  | .markerLock _ block => block.length == 64
  | .deskew arrivals => !arrivals.isEmpty
  | .latency echoes => !echoes.isEmpty
  | .ucodeLoad _ (.words w) => w.length ≤ 2048
  | .peerWindowRead _ len => 1 ≤ len && len ≤ 4096
  | .peerWindowWrite _ data _ => !data.isEmpty && data.length ≤ 4096
  | .atomicopRequest bar _ => bar.val == 0 || bar.val == 2 || bar.val == 4
  | .linkTraining rate width _ => 1 ≤ rate.val && 1 ≤ width.val
  | _ => true

end Sys2Proof
end

