-- ==== Sys2Proof/Tests/Slice0.lean ====
section
/-! SUPPORT. Tests: ill-formed commands refused, values of the spec's worked examples, and, for each obligation with
hypotheses, states and operands that meet them. -/

open Sys2Proof Sys2Proof.Machine

namespace Sys2Proof.Tests

/-! ### States the tests start from -/

/-- `s` with registers set. -/
def put (l : List (Nat × Nat)) (s : State) : State := l.foldl (fun s p => wr s p.1 (BitVec.ofNat 32 p.2)) s

/-- Every domain ready, every PLL locked, the firmware ready, memory requests decoded, bus mastering on. -/
def up : State :=
  put [(SYS_FW_STATUS, 1), (PWR_ON, 0xFFFFFF), (PWR_READY, 0xFFFFFF)] { State.reset with
    ns := 1000000
    time := 100000
    tb := { State.reset.tb with refClass := 2, plls := State.reset.tb.plls.map (fun p => { p with locked := true }) }
    pcie := { State.reset.pcie with cfg := [(1, 6)] } }

/-- The command `op` with flags and argument words posted in mailbox 0. -/
def cmd (op flags : Nat) (args : List (Nat × Nat)) (s : State) : State :=
  put ([(mR 0 0, op * 65536 + 7), (mR 0 4, flags), (mR 0 0x14, 1)] ++ args.map (fun p => (argR 0 p.1, p.2)))
    { s with posted := s.posted ++ [0] }

/-- The next state `c` answers; the reset state where it answers none. -/
def after (c : Instr) (s : State) : State :=
  match exec c s with
  | .next t => t
  | _ => State.reset

/-- Whether an outcome is a next state. -/
def answers (o : Host.Outcome State Fault Refusal) : Bool :=
  match o with
  | .next _ => true
  | _ => false

/-! ### Ill-formed commands, one for each check, and one that is well formed -/

theorem wf_refuses_guardStage : (Instr.guardStage 2 0 0xF).wf = false := by decide
theorem wf_refuses_guardedCommit : (Instr.guardedCommit true 3 0 0xF).wf = false := by decide
theorem wf_refuses_registerWrite : (Instr.registerWrite (.bar0 9) 0 (0xF, none) .clean).wf = false := by decide
theorem wf_refuses_msixWrite : (Instr.registerWrite (.bar4 6) 0 (0xF, none) .clean).wf = false := by decide
theorem wf_refuses_domoff : (Instr.domoff 1 .writes).wf = false := by decide
theorem wf_refuses_ringDoorbellReserved : (Instr.ringDoorbellReserved 0 5).wf = false := by decide
theorem wf_refuses_superframe : (Instr.superframe 0 [] 0).wf = false := by decide
theorem wf_refuses_markerLock : (Instr.markerLock 0 [0, 1]).wf = false := by decide
theorem wf_refuses_deskew : (Instr.deskew []).wf = false := by decide
theorem wf_refuses_latency : (Instr.latency []).wf = false := by decide
theorem wf_refuses_ucodeLoad : (Instr.ucodeLoad 0 (.words (List.replicate 2049 0))).wf = false := by decide +kernel
theorem wf_refuses_peerWindowRead : (Instr.peerWindowRead 0 0).wf = false ∧ (Instr.peerWindowRead 0 4097).wf = false := by decide
theorem wf_refuses_peerWindowWrite : (Instr.peerWindowWrite 0 [] false).wf = false ∧
    (Instr.peerWindowWrite 0 (List.replicate 4097 none) false).wf = false := by decide +kernel
theorem wf_refuses_atomicopRequest : (Instr.atomicopRequest 1 0).wf = false ∧ (Instr.atomicopRequest 3 0).wf = false := by decide
theorem wf_refuses_linkTraining : (Instr.linkTraining 0 5 false).wf = false ∧ (Instr.linkTraining 6 0 false).wf = false := by decide
theorem wf_accepts : (Instr.guardStage 0x40 1 0xF).wf = true ∧ (Instr.ringDoorbellReserved 0 6).wf = true ∧
    (Instr.linkTraining 6 5 true).wf = true ∧ (Instr.sysEcho 3).wf = true := by decide

/-! ### Worked examples of the spec -/

/-- A guarded write that takes effect, and its stage write's SYS_ACCESS (spec/02_register_model.md, after R39). -/
theorem test_guardStage_pends :
    (regRead (after (.guardStage 0x40 1 0xF) up) SYS_ACCESS).toNat = 0x00400008 := by decide +kernel

theorem test_guardedCommit_takes_effect :
    let t := after (.guardedCommit true 0x40 0xFFFFFFFE 0xF) (after (.guardStage 0x40 1 0xF) up)
    (regRead t SYS_ACCESS).toNat = 0 ∧ rdBit t PWR_ON 16 = true := by decide +kernel

/-- The same pair with a wrong commit value. -/
theorem test_guardedCommit_fails :
    let t := after (.guardedCommit true 0x40 0xFFFFFFFF 0xF) (after (.guardStage 0x40 1 0xF) up)
    (regRead t SYS_ACCESS).toNat = 1 ∧ (rd t SYS_ACCESS_ADDR).toNat = 0x10110040 := by decide +kernel

/-- The alias of GUARD_FAIL clears it and leaves LOCKVIOL (spec/02_register_model.md, after R44). -/
theorem test_bitBandWrite_clears_one_bit :
    (regRead (after (.bitBandWrite 0x40 1) (put [(SYS_ACCESS, 3)] up)) SYS_ACCESS).toNat = 2 := by decide +kernel

/-- Ring 5's doorbell consumes 512 words (spec/10_rings.md): RD, MARK and REL follow WR and RING_HEAD shows the idle item. -/
theorem test_consume_moves_pointers :
    let s := modRing (put [(rR 5 0, 0x82140000), (rR 5 4, 0x10), (rR 5 0x10, 0x00100100), (rR 5 0x18, 0x000FFF00),
      (rR 5 0x20, 0x000FFF00), (rR 5 0x28, 0x000FFF00), (rR 5 0x44, 0xA12)] up) 5 id
    let t := ringApply (after (.consume 5 512) s) 5
    (rd t (rR 5 0x18)).toNat = 0x00100100 ∧ (rd t (rR 5 0x28)).toNat = 0x00100100 ∧ (rd t (rR 5 0x20)).toNat = 0x00100100 ∧
    ringHead t 5 = 0x000000FFF0000A12 := by decide +kernel

/-- Stratus 0 switched on while Cirrus is not ready (spec/18_power_reset_startup.md, after R369). -/
theorem test_powerDomainOn_refused :
    let s := put [(PWR_ON, 0x0041880F), (PWR_READY, 0x7)] up
    let t := after (.powerDomainOn 17 0) { s with guard := some { off := 0x44, val := 1 } }
    (rd t PWR_REFUSE).toNat = 0x80000311 ∧ (rd t PWR_ON).toNat = 0x0041880F := by decide +kernel

/-- A window of 8 GiB at 1 GiB with writes, and the Stratus byte behind it (spec/15_host_endpoint.md, after R324). -/
theorem test_peerWin_maps :
    let s := { up with guard := some { off := 0x804, val := 0xFF800010 } }
    let t := after (.peerWin 1 0x007FFFEF) s
    peerMap t 0x200001000 4 = some 0x40001000 := by decide +kernel

/-- The instrument maker sets a password, fails once and unlocks (spec/19_access_gates.md). -/
theorem test_gatePasswordSet :
    (rd (after (.gatePasswordSet 0) (cmd 0x0C03 0 [(0, 0x13572468), (1, 0xA7)] up)) GATE_STATUS).toNat = 0x100 := by
  decide +kernel

theorem test_gateUnlock_wrong :
    let s := { up with gates := { up.gates with pwd := some 0xA713572468 } }
    let t := after (.gateUnlock 0) (cmd 0x0C04 0 [(0, 0x13572468), (1, 0xA6)] s)
    rdF t (mR 0 0x18) 0 8 = 7 ∧ (rd t (resR 0 0)).toNat = 1 ∧ (rd t GATE_FAIL).toNat = 1 := by decide +kernel

/-- SHA-256 of "abc" (FIPS 180-4) and HMAC-SHA-256 of RFC 4231, test case 1. -/
theorem test_sha256_abc : natOfBytes (sha256 [0x61, 0x62, 0x63]).reverse =
    0xba7816bf8f01cfea414140de5dae2223b00361a396177a9cb410ff61f20015ad := by decide +kernel

theorem test_hmac_rfc4231 : natOfBytes (hmacSha256 (List.replicate 20 0x0b) [0x48, 0x69, 0x20, 0x54, 0x68, 0x65, 0x72, 0x65]).reverse =
    0xb0344c61d8db38535ca8afceaf0bf12b881dc200c9833da726e9376c2e32cff7 := by decide +kernel

/-- ADLER-32 of "Wikipedia", the check value in common use. -/
theorem test_adler : (adler 1 [0x57, 0x69, 0x6b, 0x69, 0x70, 0x65, 0x64, 0x69, 0x61]).toNat = 0x11E60398 := by decide +kernel

/-! ### The machine as a whole -/

/-- A queue with a command in front, and one that is empty. -/
theorem witness_StepRunsFrontCommand : ∃ (c : Instr) (rest : List Instr) (s : State), s.pending = c :: rest :=
  ⟨.sysInfo 0, [.inc 3], { up with pending := [.sysInfo 0, .inc 3] }, rfl⟩

theorem witness_CommandsLeaveQueue : ∃ (c : Instr) (s : State), answers (exec c s) = true :=
  ⟨.sysEcho 0, cmd 2 0 [(0, 1), (1, 2)] { up with pending := [.inc 3] }, by decide +kernel⟩

theorem witness_EmptyQueuePassesTick : (∃ s : State, s.pending = [] ∧ clocksRun s = true ∧ pllLocked s 0 = true) ∧
    ∃ s : State, s.pending = [] ∧ ¬(clocksRun s = true ∧ pllLocked s 0 = true) :=
  ⟨⟨up, by decide +kernel⟩, ⟨State.reset, by decide +kernel⟩⟩

theorem witness_EveryStepKeepsMemoryForm : ∃ s : State, Safety.Inv s ∧ answers (step s) = true :=
  ⟨{ up with pending := [.jump 3] , stratus := [(4, 7)] }, by unfold Safety.Inv; decide +kernel⟩

theorem witness_ResetsLeaveTheResetValues : (∃ o, keptAtWarm o = false ∧ o ∉ [SYS_BOOT, PCIE_STATUS]) ∧
    (∃ o, keptAtWarm o = true ∧ o ∉ [MT_STATUS, MT_EVENT]) ∧ ∃ o, o ∉ [SYS_BOOT, FUSE_STATUS, THERM_STATUS] :=
  ⟨⟨SYS_CAPTURE, by decide +kernel⟩, ⟨THERM_STATUS, by decide +kernel⟩, ⟨SYS_CAPTURE, by decide +kernel⟩⟩

theorem witness_CompletionWritesTheMailbox :
    ∃ (status : Nat) (res : List Nat), res.length ≤ 256 ∧ status < 256 ∧ 0 < res.length :=
  ⟨255, List.replicate 256 3, by decide +kernel⟩

end Sys2Proof.Tests

namespace Sys2Proof.Tests.G02

/-- States that meet the hypotheses of each clause of `Obligations.CommandsStartInOrder`. -/
theorem witness_CommandsStartInOrder :
    (∃ (i : Nat), i < 256) ∧
    (∃ (m : Fin 16) (im : ImageRead) (s : State), (∃ p ∈ Safety.firmwareRows m im, (fwReady s = false ∨ s.posted.head? ≠ some m.val ∨ 4 ≤ s.running.length))) :=
  ⟨⟨0, by decide +kernel⟩,
   ⟨0, .failed, State.reset, by decide +kernel⟩⟩

/-- States that meet the hypotheses of each clause of `Obligations.RefusedBeforeAnyCheck`. -/
theorem witness_RefusedBeforeAnyCheck :
    (∃ (m : Fin 16) (im : ImageRead) (s : State), (∃ p ∈ Safety.firmwareRows m im, fwStarts s m.val = true ∧ knownOp (cmdOpcode s m.val) = false)) ∧
    (∃ (m : Fin 16) (im : ImageRead) (s : State) (e : State), (∃ p ∈ Safety.firmwareRows m im, p.1 ∉ [0x0602, 0x0603, 0x0604, 0x0903, 0x0D03, 0x0C80] ∧ fwStarts s m.val = true ∧ cmdOpcode s m.val = p.1 ∧ e = startCmd s m.val ∧ cmdSched e m.val = true ∧ (p.1 = 0x0301 → e.gates.svcOpen = true ∧ custClosed e = false))) :=
  ⟨⟨0, .failed, cmd 0x9999 2 [] up, by decide +kernel⟩,
   ⟨0, .failed, cmd 1 1 [] up, startCmd (cmd 1 1 [] up) 0, by decide +kernel⟩⟩

/-- States that meet the hypotheses of each clause of `Obligations.DoorbellPostsOrOverruns`. -/
theorem witness_DoorbellPostsOrOverruns :
    (∃ (m : Fin 16) (s : State), memDecoded s = true ∧ (mbxState s m.val = 0 ∨ mbxState s m.val = 3)) ∧
    (∃ (m : Fin 16) (s : State), memDecoded s = true ∧ (mbxState s m.val = 1 ∨ mbxState s m.val = 2)) :=
  ⟨⟨0, up, by decide +kernel⟩,
   ⟨0, cmd 1 0 [] up, by decide +kernel⟩⟩

/-- States that meet the hypotheses of `Obligations.BusyMailboxRefusesWrites`. -/
theorem witness_BusyMailboxRefusesWrites :
    ∃ (m : Fin 16) (o : Nat) (s : State), memDecoded s = true ∧ (o ∈ [0x000, 0x004, 0x008, 0x00C, 0x010] ∨ (0x100 ≤ o ∧ o < 0x500 ∧ o % 4 = 0)) ∧ (mbxState s m.val = 1 ∨ mbxState s m.val = 2) :=
  ⟨0, 0, cmd 1 0 [] up, by decide +kernel⟩

end Sys2Proof.Tests.G02

namespace Sys2Proof.Tests.G12

def inp (l : List (Nat × Nat)) : State := put l up

/-- States that meet the hypotheses of each clause of `Obligations.StatusCommandsAnswer`. -/
theorem witness_StatusCommandsAnswer :
    (∃ (m : Fin 16) (s : State) (e : State), Safety.Executing s m.val 0x0001 e) ∧
    (∃ (m : Fin 16) (s : State) (e : State), Safety.Executing s m.val 0x0002 e) ∧
    (∃ (m : Fin 16) (s : State) (e : State), Safety.Executing s m.val 0x0003 e) ∧
    (∃ (m : Fin 16) (s : State) (e : State), Safety.Executing s m.val 0x0104 e) ∧
    (∃ (m : Fin 16) (s : State) (e : State), Safety.Executing s m.val 0x0504 e ∧ totalCharge e ≤ 480000 ∧ stratusRingBytes e ≤ capGib e * 2 ^ 30) ∧
    (∃ (m : Fin 16) (s : State) (e : State), Safety.Executing s m.val 0x0606 e ∧ Safety.NoneHolds e [.capture]) ∧
    (∃ (m : Fin 16) (s : State) (e : State), Safety.Executing s m.val 0x0703 e ∧ arg e m.val 0 < 16) ∧
    (∃ (m : Fin 16) (s : State) (e : State), Safety.Executing s m.val 0x0A04 e ∧ arg e m.val 0 ≤ 15) ∧
    (∃ (m : Fin 16) (s : State) (e : State), Safety.Executing s m.val 0x0B02 e) ∧
    (∃ (m : Fin 16) (s : State) (e : State), Safety.Executing s m.val 0x0D02 e ∧ Safety.NoneHolds e [.loop]) ∧
    (∃ (m : Fin 16) (s : State) (e : State), Safety.Executing s m.val 0x0504 e ∧ 480000 < totalCharge e) ∧
    (∃ (m : Fin 16) (s : State) (e : State), Safety.Executing s m.val 0x0504 e ∧ totalCharge e ≤ 480000 ∧ capGib e * 2 ^ 30 < stratusRingBytes e) :=
  ⟨⟨0, cmd 1 0 [] up, startCmd (cmd 1 0 [] up) 0, by unfold Safety.Executing; decide +kernel⟩,
   ⟨0, cmd 2 0 [(0,1),(1,2),(2,3),(3,0xFFFFFFFF)] up, startCmd (cmd 2 0 [(0,1),(1,2),(2,3),(3,0xFFFFFFFF)] up) 0, by unfold Safety.Executing; decide +kernel⟩,
   ⟨0, cmd 3 0 [] (inp [(THERM_STATUS, 0xFFF0), (THERM_MAX, 0x123)]), startCmd (cmd 3 0 [] (inp [(THERM_STATUS, 0xFFF0), (THERM_MAX, 0x123)])) 0, by unfold Safety.Executing; decide +kernel⟩,
   ⟨0, cmd 0x104 0 [] up, startCmd (cmd 0x104 0 [] up) 0, by unfold Safety.Executing; decide +kernel⟩,
   ⟨0, cmd 0x504 0 [] up, startCmd (cmd 0x504 0 [] up) 0, by unfold Safety.Executing; decide +kernel⟩,
   ⟨0, cmd 0x606 0 [] up, startCmd (cmd 0x606 0 [] up) 0, by unfold Safety.Executing Safety.NoneHolds; decide +kernel⟩,
   ⟨0, cmd 0x703 0 [(0, 3)] up, startCmd (cmd 0x703 0 [(0, 3)] up) 0, by unfold Safety.Executing; decide +kernel⟩,
   ⟨0, cmd 0xA04 0 [(0, 4)] up, startCmd (cmd 0xA04 0 [(0, 4)] up) 0, by unfold Safety.Executing; decide +kernel⟩,
   ⟨0, cmd 0xB02 0 [] up, startCmd (cmd 0xB02 0 [] up) 0, by unfold Safety.Executing; decide +kernel⟩,
   ⟨0, cmd 0xD02 0 [] up, startCmd (cmd 0xD02 0 [] up) 0, by unfold Safety.Executing Safety.NoneHolds; decide +kernel⟩,
   ⟨0, cmd 0x504 0 [] (modStr (inp [(strR 0x203 0, 0x80000000 + 2^26), (strR 0x203 4, 1)]) 0x203 (fun c => { c with rate := 500000 })), startCmd (cmd 0x504 0 [] (modStr (inp [(strR 0x203 0, 0x80000000 + 2^26), (strR 0x203 4, 1)]) 0x203 (fun c => { c with rate := 500000 }))) 0, by unfold Safety.Executing; decide +kernel⟩,
   ⟨0, cmd 0x504 0 [] { inp [(rR 1 0, 0x80000000 + 30*2^16)] with fuses := { up.fuses with capGibA := 0 } }, startCmd (cmd 0x504 0 [] { inp [(rR 1 0, 0x80000000 + 30*2^16)] with fuses := { up.fuses with capGibA := 0 } }) 0, by unfold Safety.Executing; decide +kernel⟩⟩

/-- States that meet the hypotheses of each clause of `Obligations.TimebaseCommands`. -/
theorem witness_TimebaseCommands :
    (∃ (m : Fin 16) (s : State) (e : State), Safety.Executing s m.val 0x0103 e ∧ arg e m.val 0 ≤ 2 ∧ (arg e m.val 0 = 0 ∨ domReady e 2 = true)) ∧
    (∃ (m : Fin 16) (s : State) (e : State), Safety.Executing s m.val 0x0105 e ∧ arg64 e m.val 0 % 256 = 0 ∧ domReady e 2 = true ∧ capState e = 0 ∧ loopMember e = false ∧ Safety.NoneHolds e [.timebase]) ∧
    (∃ (m : Fin 16) (s : State) (e : State), Safety.Executing s m.val 0x0101 e ∧ arg e m.val 0 ≤ 1 ∧ domReady e 2 = true ∧ capState e = 0 ∧ (arg e m.val 0 = 1 ∨ e.tb.refClass ≠ 0) ∧ Safety.NoneHolds e [.timebase]) ∧
    (∃ (m : Fin 16) (s : State) (e : State), Safety.Executing s m.val 0x0102 e ∧ arg e m.val 0 ≤ 11 ∧ pllArgOk (arg e m.val 1) = true ∧ (arg e m.val 2 = 0 ∨ (arg e m.val 2 ≤ 2 ∧ 10 ≤ arg e m.val 0)) ∧ pllLegal e (arg e m.val 0) (pllSettings e (arg e m.val 0) (arg e m.val 1)) = true ∧ pllPowered e (arg e m.val 0) = true ∧ (arg e m.val 0 = 0 → capState e = 0) ∧ (arg e m.val 0 = 1 → ∀ i < 64, tiuState e i ≠ tiuMEASURING) ∧ (2 ≤ arg e m.val 0 → arg e m.val 0 < 10 → ∀ i < 32, laneState e (32 * (arg e m.val 0 - 2) + i) = laneOFF) ∧ (10 ≤ arg e m.val 0 → capState e ≤ 1) ∧ Safety.NoneHolds e (Safety.pllHeld (arg e m.val 0))) :=
  ⟨⟨0, cmd 0x103 0 [(0,2)] up, startCmd (cmd 0x103 0 [(0,2)] up) 0, by unfold Safety.Executing; decide +kernel⟩,
   ⟨0, cmd 0x105 0 [(0,0x300),(1,5)] up, startCmd (cmd 0x105 0 [(0,0x300),(1,5)] up) 0, by unfold Safety.Executing Safety.NoneHolds; decide +kernel⟩,
   ⟨0, cmd 0x101 0 [(0,1)] up, startCmd (cmd 0x101 0 [(0,1)] up) 0, by unfold Safety.Executing Safety.NoneHolds; decide +kernel⟩,
   ⟨0, cmd 0x102 0 [(0,5),(1,0)] up, startCmd (cmd 0x102 0 [(0,5),(1,0)] up) 0, by unfold Safety.Executing Safety.NoneHolds; decide +kernel⟩⟩

end Sys2Proof.Tests.G12

namespace Sys2Proof.Tests.G14

def inp (l : List (Nat × Nat)) : State := put l up
def lanes3 : State := inp [(lR 0 0, 0x11), (lR 1 0, 0x17), (lR 2 0, 0x18), (lR 33 0, 0x29), (lR 9 0, 0x10), (lR 10 0, 0x1012)]
def svc (s : State) : State := { s with gates := { s.gates with svcOpen := true, custOpen := true } }

/-- States that meet the hypotheses of `Obligations.LaneFormatSetsTheMaskedLanes`. -/
theorem witness_LaneFormatSetsTheMaskedLanes :
    ∃ (m : Fin 16) (s : State) (e : State), Safety.Executing s m.val 0x0201 e ∧ arg e m.val 8 ≤ 3 ∧ Safety.Ready e (linkDoms (argMask e m.val 0)) ∧ capState e ≤ 1 ∧ Safety.NoneHolds e ((argMask e m.val 0).map Res.lane) ∧ budgetFail (forEach (argMask e m.val 0) e (fun s n => laneSetFormat s n (arg e m.val 8))) = none :=
  ⟨0, cmd 0x201 0 [(0,0x7),(8,1)] up, startCmd (cmd 0x201 0 [(0,0x7),(8,1)] up) 0, by unfold Safety.Executing Safety.NoneHolds Safety.Ready; decide +kernel⟩

/-- States that meet the hypotheses of each clause of `Obligations.LaneCommands`. -/
theorem witness_LaneCommands :
    (∃ (m : Fin 16) (s : State) (e : State), (∃ c ∈ [(Instr.laneTrain m, 0x0202), (Instr.laneRetrain m, 0x0203)], Safety.Executing s m.val c.2 e ∧ Safety.Ready e (linkDoms (argMask e m.val 0)) ∧ (c.2 = 0x0202 → capState e ≤ 1) ∧ capState e ≤ 4 ∧ argMask e m.val 0 ≠ [] ∧ (∀ n ∈ argMask e m.val 0, laneState e n ≠ laneOFF) ∧ Safety.NoneHolds e ((argMask e m.val 0).map Res.lane))) ∧
    (∃ (m : Fin 16) (s : State) (e : State), Safety.Executing s m.val 0x0204 e ∧ Safety.Ready e (linkDoms (argMask e m.val 0)) ∧ (capState e ≤ 1 ∨ capState e = 4) ∧ Safety.NoneHolds e ((argMask e m.val 0).map Res.lane)) ∧
    (∃ (m : Fin 16) (s : State) (e : State), Safety.Executing s m.val 0x0205 e ∧ (let k := arg e m.val 0
    let h := rd e (argR m.val 2)
    let dest := fld h 28 4
    let ls := if dest = 0xF then (groupLanes k).filter (fun n => laneFmt e n != 0) else [8 * k + dest]
    arg e m.val 1 = fld h 16 6 + 1 ∧ (dest ≤ 7 ∨ dest = 0xF) ∧ (fld h 24 4 = 1 ∨ fld h 24 4 = 2 ∨ 0xC ≤ fld h 24 4) ∧ fld h 22 2 = 0 ∧ k < 32 ∧ domReady e (domLink (8 * k)) = true ∧ retActive e k = true ∧ Safety.NoneHolds e (ls.map Res.lane))) :=
  ⟨⟨0, cmd 0x202 0 [(0,0x1)] lanes3, startCmd (cmd 0x202 0 [(0,0x1)] lanes3) 0, by unfold Safety.Executing Safety.NoneHolds Safety.Ready; decide +kernel⟩,
   ⟨0, cmd 0x204 0 [(0,0x7),(1,2)] lanes3, startCmd (cmd 0x204 0 [(0,0x7),(1,2)] lanes3) 0, by unfold Safety.Executing Safety.NoneHolds Safety.Ready; decide +kernel⟩,
   ⟨0, cmd 0x205 0 [(0,0),(1,3),(2,0x11020000),(3,5),(4,6)] lanes3, startCmd (cmd 0x205 0 [(0,0),(1,3),(2,0x11020000),(3,5),(4,6)] lanes3) 0, by unfold Safety.Executing Safety.NoneHolds; decide +kernel⟩⟩

/-- States that meet the hypotheses of each clause of `Obligations.MicrocodeLoads`. -/
theorem witness_MicrocodeLoads :
    (∃ (m : Fin 16) (ws : List (BitVec 256)) (s : State) (e : State), Safety.Executing s m.val 0x0301 e ∧ (let es := argMask e m.val 0
    let len := arg e m.val 10
    let a := arg e m.val 11
    (0x600 < a + len → e.gates.svcOpen = true) ∧ (a < 0x600 → custClosed e = false) ∧ es ≠ [] ∧ 1 ≤ len ∧ ws.length = len ∧ a + len ≤ 2048 ∧ Safety.Ready e (seqDoms es) ∧ capState e ∈ [0, 1, 4] ∧ (∀ x ∈ es, (getEng e x).job = none) ∧ Safety.NoneHolds e (es.map Res.engine) ∧ rdBit e (memBistR 2) 31 = false ∧ (∀ x ∈ es, loadCheck (getEng e x) a ws = none))) ∧
    (∃ (m : Fin 16) (ws : List (BitVec 256)) (s : State) (e : State) (x : Nat) (r : Nat) (k : Nat), Safety.Executing s m.val 0x0301 e ∧ (let es := argMask e m.val 0
    let len := arg e m.val 10
    let a := arg e m.val 11
    (0x600 < a + len → e.gates.svcOpen = true) ∧ (a < 0x600 → custClosed e = false) ∧ es ≠ [] ∧ 1 ≤ len ∧ ws.length = len ∧ a + len ≤ 2048 ∧ Safety.Ready e (seqDoms es) ∧ capState e ∈ [0, 1, 4] ∧ (∀ x ∈ es, (getEng e x).job = none) ∧ Safety.NoneHolds e (es.map Res.engine) ∧ rdBit e (memBistR 2) 31 = false ∧ x ∈ es ∧ (∀ y ∈ es, y < x → loadCheck (getEng e y) a ws = none) ∧ loadCheck (getEng e x) a ws = some (r, k))) :=
  ⟨⟨0, [0x200000], cmd 0x301 0 [(0,1),(10,1),(11,0x600)] (svc up), startCmd (cmd 0x301 0 [(0,1),(10,1),(11,0x600)] (svc up)) 0, by unfold Safety.NoneHolds Safety.Executing Safety.Ready; decide +kernel⟩,
   ⟨0, [0xFFFFFFFFFFFFFFFFFFFFFFFFFFFFFFFFFFFFFFFFFFFFFFFFF], cmd 0x301 0 [(0,3),(10,1),(11,0)] (svc up), startCmd (cmd 0x301 0 [(0,3),(10,1),(11,0)] (svc up)) 0, 0, 0, 3, by unfold Safety.Executing Safety.NoneHolds Safety.Ready; decide +kernel⟩⟩

end Sys2Proof.Tests.G14

namespace Sys2Proof.Tests.G17

def inp (l : List (Nat × Nat)) : State := put l up
def cst (v : Nat) (s : State) : State := wrF s SYS_CAPTURE 0 3 v
def ring (r log : Nat) (s : State) : State := put [(rR r 0, 0x80000000 + log*2^16)] s
def consist (s : State) : State := setEng (setEng (setEng (setEng s 0 {EngCore.init 0 with csize := 2}) 1 {EngCore.init 1 with lead:=0, csize:=2}) 2 {EngCore.init 2 with lead:=0, csize := 2}) 3 {EngCore.init 3 with lead:=0,csize:=2}
def ctx1 (s : State) : State := { s with ctx := { s.ctx with sets := [(0,[{CtxEntry.empty with valid := true, key := 3}, CtxEntry.empty, CtxEntry.empty, CtxEntry.empty]),(70,[{CtxEntry.empty with valid := true, key := 3}, CtxEntry.empty, CtxEntry.empty, CtxEntry.empty])] } }

/-- States that meet the hypotheses of each clause of `Obligations.EngineModesAndConsists`. -/
theorem witness_EngineModesAndConsists :
    (∃ (m : Fin 16) (s : State) (e : State), Safety.Executing s m.val 0x0302 e ∧ arg e m.val 8 ≤ 1 ∧ Safety.Ready e (seqDoms (argMask e m.val 0)) ∧ capState e ∈ [0, 1, 4] ∧ (∀ x ∈ argMask e m.val 0, (getEng e x).job = none) ∧ Safety.NoneHolds e ((argMask e m.val 0).map Res.engine)) ∧
    (∃ (m : Fin 16) (s : State) (e : State), Safety.Executing s m.val 0x0303 e ∧ arg e m.val 1 ∈ [1, 2, 4, 8, 16] ∧ arg e m.val 0 % arg e m.val 1 = 0 ∧ arg e m.val 0 < 256 ∧ (let es := (List.range (arg e m.val 1)).map (fun i => arg e m.val 0 + i)
    let all := consistTouched e es
    Safety.Ready e (seqDoms es) ∧ capState e ≤ 1 ∧ (∀ x ∈ all, (getEng e x).job = none) ∧ Safety.NoneHolds e (all.map Res.engine) ∧ arg e m.val 1 = 1 ∧ (getEng e (getEng e (arg e m.val 0)).lead).csize = 0)) ∧
    (∃ (m : Fin 16) (s : State) (e : State), Safety.Executing s m.val 0x0303 e ∧ arg e m.val 1 ∈ [1, 2, 4, 8, 16] ∧ arg e m.val 0 % arg e m.val 1 = 0 ∧ arg e m.val 0 < 256 ∧ (let es := (List.range (arg e m.val 1)).map (fun i => arg e m.val 0 + i)
    let all := consistTouched e es
    Safety.Ready e (seqDoms es) ∧ capState e ≤ 1 ∧ (∀ x ∈ all, (getEng e x).job = none) ∧ Safety.NoneHolds e (all.map Res.engine) ∧ arg e m.val 1 = 1 ∧ (getEng e (getEng e (arg e m.val 0)).lead).csize ≠ 0)) ∧
    (∃ (m : Fin 16) (s : State) (e : State), Safety.Executing s m.val 0x0303 e ∧ arg e m.val 1 ∈ [1, 2, 4, 8, 16] ∧ arg e m.val 0 % arg e m.val 1 = 0 ∧ arg e m.val 0 < 256 ∧ (let es := (List.range (arg e m.val 1)).map (fun i => arg e m.val 0 + i)
    let all := consistTouched e es
    Safety.Ready e (seqDoms es) ∧ capState e ≤ 1 ∧ (∀ x ∈ all, (getEng e x).job = none) ∧ Safety.NoneHolds e (all.map Res.engine) ∧ 2 ≤ arg e m.val 1)) ∧
    (∃ (m : Fin 16) (s : State) (e : State), Safety.Executing s m.val 0x0304 e ∧ arg e m.val 8 < 32768 ∧ Safety.Ready e (seqDoms (argMask e m.val 0) ++ [22]) ∧ ringExists e (arg e m.val 8) = true ∧ Safety.NoneHolds e ((argMask e m.val 0).map Res.engine ++ [.ring (arg e m.val 8)])) :=
  ⟨⟨0, cmd 0x302 0 [(0,0x3),(8,1)] (inp [(eR 0 0, 6*2^13), (eR 1 0, 1*2^13)]), startCmd (cmd 0x302 0 [(0,0x3),(8,1)] (inp [(eR 0 0, 6*2^13), (eR 1 0, 1*2^13)])) 0, by unfold Safety.Executing Safety.NoneHolds Safety.Ready; decide +kernel⟩,
   ⟨0, cmd 0x303 0 [(0,5),(1,1)] up, startCmd (cmd 0x303 0 [(0,5),(1,1)] up) 0, by unfold Safety.Executing Safety.NoneHolds Safety.Ready; decide +kernel⟩,
   ⟨0, cmd 0x303 0 [(0,0),(1,1)] (consist up), startCmd (cmd 0x303 0 [(0,0),(1,1)] (consist up)) 0, by unfold Safety.Executing Safety.NoneHolds Safety.Ready; decide +kernel⟩,
   ⟨0, cmd 0x303 0 [(0,8),(1,4)] up, startCmd (cmd 0x303 0 [(0,8),(1,4)] up) 0, by unfold Safety.Executing Safety.NoneHolds Safety.Ready; decide +kernel⟩,
   ⟨0, cmd 0x304 0 [(0,3),(8,1)] (ring 1 10 up), startCmd (cmd 0x304 0 [(0,3),(8,1)] (ring 1 10 up)) 0, by unfold Safety.Executing Safety.NoneHolds Safety.Ready; decide +kernel⟩⟩

/-- States that meet the hypotheses of each clause of `Obligations.ContextCommands`. -/
theorem witness_ContextCommands :
    (∃ (m : Fin 16) (s : State) (e : State), domReady e 15 = true ∧ (∀ c, e.ctx.clear = some c → c.switchOn = false) ∧ rdBit e (memBistR 1) 31 = false ∧ Safety.Executing s m.val 0x0401 e ∧ arg e m.val 2 ≤ 1 ∧ capState e ≤ 1 ∧ Safety.NoneHolds e [.ctx] ∧ (if arg64 e m.val 0 = 0 then e.ctx.drawn = true else (ctxSeed e).toNat = arg64 e m.val 0)) ∧
    (∃ (m : Fin 16) (s : State) (e : State), domReady e 15 = true ∧ (∀ c, e.ctx.clear = some c → c.switchOn = false) ∧ rdBit e (memBistR 1) 31 = false ∧ Safety.Executing s m.val 0x0401 e ∧ arg e m.val 2 ≤ 1 ∧ capState e ≤ 1 ∧ Safety.NoneHolds e [.ctx] ∧ (if arg64 e m.val 0 = 0 then e.ctx.drawn = false else (ctxSeed e).toNat ≠ arg64 e m.val 0)) ∧
    (∃ (m : Fin 16) (s : State) (e : State), domReady e 15 = true ∧ (∀ c, e.ctx.clear = some c → c.switchOn = false) ∧ rdBit e (memBistR 1) 31 = false ∧ Safety.Executing s m.val 0x0402 e ∧ capState e ∈ [0, 1, 4] ∧ Safety.NoneHolds e [.ctx]) ∧
    (∃ (m : Fin 16) (s : State) (e : State), domReady e 15 = true ∧ (∀ c, e.ctx.clear = some c → c.switchOn = false) ∧ rdBit e (memBistR 1) 31 = false ∧ Safety.Executing s m.val 0x0403 e ∧ Safety.NoneHolds e [.ctx]) ∧
    (∃ (m : Fin 16) (s : State) (e : State), domReady e 15 = true ∧ (∀ c, e.ctx.clear = some c → c.switchOn = false) ∧ rdBit e (memBistR 1) 31 = false ∧ Safety.Executing s m.val 0x0404 e ∧ (let r := arg e m.val 0
    r < 32768 ∧ ringExists e r = true ∧ 5242880 ≤ ringSize e r - ringHeld e r ∧ domReady e 22 = true ∧ (compactMem e = true ∨ fullMem e = true) ∧ (capState e = 1 ∨ capState e = 4) ∧ streamsOfRing e r = [] ∧ Safety.NoneHolds e [.ctx, .ring r])) :=
  ⟨⟨0, cmd 0x401 0 [(2,1)] up, startCmd (cmd 0x401 0 [(2,1)] up) 0, by unfold Safety.Executing Safety.NoneHolds; decide +kernel⟩,
   ⟨0, cmd 0x401 0 [(0,5),(1,7)] up, startCmd (cmd 0x401 0 [(0,5),(1,7)] up) 0, by unfold Safety.Executing Safety.NoneHolds; decide +kernel⟩,
   ⟨0, cmd 0x402 0 [] (ctx1 (cst 4 up)), startCmd (cmd 0x402 0 [] (ctx1 (cst 4 up))) 0, by unfold Safety.Executing Safety.NoneHolds; decide +kernel⟩,
   ⟨0, cmd 0x403 0 [(0,5000),(1,6)] up, startCmd (cmd 0x403 0 [(0,5000),(1,6)] up) 0, by unfold Safety.Executing Safety.NoneHolds; decide +kernel⟩,
   ⟨0, cmd 0x404 0 [(0,1)] (cst 1 (ring 1 30 up)), startCmd (cmd 0x404 0 [(0,1)] (cst 1 (ring 1 30 up))) 0, by unfold Safety.Executing Safety.NoneHolds; decide +kernel⟩⟩

end Sys2Proof.Tests.G17

namespace Sys2Proof.Tests.G19

def cst (v : Nat) (s : State) : State := wrF s SYS_CAPTURE 0 3 v
def ring (r log : Nat) (s : State) : State := put [(rR r 0, 0x80000000 + log*2^16)] s
def bind (n mode r : Nat) (s : State) : State := put [(strR n 0, 0x80000000 + mode * 2^26), (strR n 4, r)] s
def opn (n : Nat) (s : State) : State := modStr s n (fun c => { c with openRec := some { typ := 0, first := 5, last := 6, ts := 0, flags := 0, head := 0, items := [3,4], ring := 1, at_ := 5, lost := false } })

/-- States that meet the hypotheses of each clause of `Obligations.RingsAreCreatedAndDeleted`. -/
theorem witness_RingsAreCreatedAndDeleted :
    (∃ (m : Fin 16) (s : State) (e : State),
    let r := arg e m.val 0
    let size := 2 ^ arg e m.val 3
    Safety.Executing s m.val 0x0501 e ∧ r < 32768 ∧ arg e m.val 4 ≤ 1 ∧ arg e m.val 5 < 65536 ∧ arg e m.val 6 < 65536 ∧ 6 ≤ arg e m.val 3 ∧ arg e m.val 3 ≤ (if compactMem e then 22 else 36) ∧ arg64 e m.val 1 % 32 = 0 ∧ arg64 e m.val 1 + size ≤ ringSpace e ∧ ringOverlaps e (arg64 e m.val 1) size = false ∧ Safety.Ready e (ringDoms e) ∧ capState e ∈ [0, 1, 4] ∧ ringExists e r = false ∧ streamsOfRing e r = [] ∧ Safety.NoneHolds e [.ring r] ∧ rdBit e (memBistR 3) 31 = false) ∧
    (∃ (m : Fin 16) (s : State) (e : State),
    let r := arg e m.val 0
    Safety.Executing s m.val 0x0502 e ∧ r < 32768 ∧ domReady e 22 = true ∧ capState e ∈ [0, 1, 4] ∧ ringExists e r = true ∧ streamsOfRing e r = [] ∧ (∀ k < 16, dflState e k ≠ dflDEFLATE ∧ dflState e k ≠ dflINFLATE) ∧ Safety.NoneHolds e [.ring r] ∧ rdBit e (memBistR 3) 31 = false) :=
  ⟨⟨0, cmd 0x501 0 [(0,5),(1,64),(3,10),(4,1),(5,3),(6,9)] (ring 1 6 up), startCmd (cmd 0x501 0 [(0,5),(1,64),(3,10),(4,1),(5,3),(6,9)] (ring 1 6 up)) 0, by unfold Safety.Executing Safety.NoneHolds Safety.Ready; decide +kernel⟩,
   ⟨0, cmd 0x502 0 [(0,1)] (put [(pendR 1, 0xFFFFFFFF), (rR 1 0x10, 5),(rR 1 0x50, 8)] (ring 1 10 up)), startCmd (cmd 0x502 0 [(0,1)] (put [(pendR 1, 0xFFFFFFFF), (rR 1 0x10, 5),(rR 1 0x50, 8)] (ring 1 10 up))) 0, by unfold Safety.Executing Safety.NoneHolds; decide +kernel⟩⟩

/-- States that meet the hypotheses of each clause of `Obligations.StreamModesAndFlushes`. -/
theorem witness_StreamModesAndFlushes :
    (∃ (m : Fin 16) (s : State) (e : State),
    let n := arg e m.val 0
    let mode := arg e m.val 1
    let r := arg e m.val 2
    Safety.Executing s m.val 0x0503 e ∧ streamBindable n = true ∧ mode ≤ 3 ∧ (256 ≤ n → mode ≤ 1) ∧ (mode ≠ 0 → r < 32768 ∧ domReady e 22 = true ∧ ringExists e r = true) ∧ (n < 256 → arg e m.val 3 ≤ 1000000 ∧ arg e m.val 4 ≤ 1000000) ∧ capState e ≤ 1 ∧ Safety.NoneHolds e (streamRes n :: ((if mode = 0 then [] else [Res.ring r]) ++ (if strBound e n && (mode == 0 || strRingOf e n != r) then [Res.ring (strRingOf e n)] else []))) ∧ budgetFail (streamSet e n mode r (arg e m.val 3) (arg e m.val 4) (arg e m.val 5)) = none ∧ mode ≠ 0) ∧
    (∃ (m : Fin 16) (s : State) (e : State),
    let n := arg e m.val 0
    let mode := arg e m.val 1
    let r := arg e m.val 2
    Safety.Executing s m.val 0x0503 e ∧ streamBindable n = true ∧ mode ≤ 3 ∧ (256 ≤ n → mode ≤ 1) ∧ (mode ≠ 0 → r < 32768 ∧ domReady e 22 = true ∧ ringExists e r = true) ∧ (n < 256 → arg e m.val 3 ≤ 1000000 ∧ arg e m.val 4 ≤ 1000000) ∧ capState e ≤ 1 ∧ Safety.NoneHolds e (streamRes n :: ((if mode = 0 then [] else [Res.ring r]) ++ (if strBound e n && (mode == 0 || strRingOf e n != r) then [Res.ring (strRingOf e n)] else []))) ∧ budgetFail (streamSet e n mode r (arg e m.val 3) (arg e m.val 4) (arg e m.val 5)) = none ∧ n < 256) ∧
    (∃ (m : Fin 16) (s : State) (e : State),
    let n := arg e m.val 0
    let mode := arg e m.val 1
    let r := arg e m.val 2
    Safety.Executing s m.val 0x0503 e ∧ streamBindable n = true ∧ mode ≤ 3 ∧ (256 ≤ n → mode ≤ 1) ∧ (mode ≠ 0 → r < 32768 ∧ domReady e 22 = true ∧ ringExists e r = true) ∧ (n < 256 → arg e m.val 3 ≤ 1000000 ∧ arg e m.val 4 ≤ 1000000) ∧ capState e ≤ 1 ∧ Safety.NoneHolds e (streamRes n :: ((if mode = 0 then [] else [Res.ring r]) ++ (if strBound e n && (mode == 0 || strRingOf e n != r) then [Res.ring (strRingOf e n)] else []))) ∧ budgetFail (streamSet e n mode r (arg e m.val 3) (arg e m.val 4) (arg e m.val 5)) = none ∧ 256 ≤ n) ∧
    (∃ (m : Fin 16) (s : State) (e : State),
    let n := arg e m.val 0
    Safety.Executing s m.val 0x0505 e ∧ n < 32768 ∧ domReady e 22 = true ∧ capState e ∈ [2, 3, 4] ∧ ringExists e n = true ∧ Safety.NoneHolds e [.ring n] ∧ rdBit e (memBistR 3) 31 = false) ∧
    (∃ (r : Fin 32768) (s : State) (c : RunCmd) (b : Bool) (f : Tick) (u : Option Nat), s.running = [c] ∧ c.wait = .flush r.val f b u ∧ (f + 64 ≠ now s ∨ capActive s = false)) ∧
    (∃ (r : Fin 32768) (s : State) (c : RunCmd) (b : Bool) (f : Tick) (u : Option Nat), s.running = [c] ∧ c.wait = .flush r.val f b u ∧ f + 64 = now s ∧ capActive s = true) :=
  ⟨⟨0, cmd 0x503 0 [(0,3),(1,2),(2,1),(3,1000),(4,2000)] (ring 1 10 up), startCmd (cmd 0x503 0 [(0,3),(1,2),(2,1),(3,1000),(4,2000)] (ring 1 10 up)) 0, by unfold Safety.Executing Safety.NoneHolds; decide +kernel⟩,
   ⟨0, cmd 0x503 0 [(0,3),(1,2),(2,1),(3,1000),(4,2000)] (ring 1 10 up), startCmd (cmd 0x503 0 [(0,3),(1,2),(2,1),(3,1000),(4,2000)] (ring 1 10 up)) 0, by unfold Safety.Executing Safety.NoneHolds; decide +kernel⟩,
   ⟨0, cmd 0x503 0 [(0,0x201),(1,1),(2,1),(5,77)] (ring 1 10 up), startCmd (cmd 0x503 0 [(0,0x201),(1,1),(2,1),(5,77)] (ring 1 10 up)) 0, by unfold Safety.Executing Safety.NoneHolds; decide +kernel⟩,
   ⟨0, cmd 0x505 0 [(0,1)] (cst 2 (ring 1 10 up)), startCmd (cmd 0x505 0 [(0,1)] (cst 2 (ring 1 10 up))) 0, by unfold Safety.Executing Safety.NoneHolds; decide +kernel⟩,
   ⟨1, { (bind 3 1 1 (cst 2 (ring 1 10 up))) with running := [{m:=0,op:=0x505,wait := .flush 1 5 false none,held := [.ring 1]}]}, {m:=0,op:=0x505,wait := .flush 1 5 false none,held := [.ring 1]}, false, 5, none, by decide +kernel⟩,
   ⟨1, { opn 3 (bind 3 1 1 (cst 2 (ring 1 10 up))) with running := [{m:=0,op:=0x505,wait := .flush 1 (100000-64) false none,held := [.ring 1]}]}, {m:=0,op:=0x505,wait := .flush 1 (100000-64) false none,held := [.ring 1]}, false, 99936, none, by decide +kernel⟩⟩

end Sys2Proof.Tests.G19

namespace Sys2Proof.Tests.G21

def cst (v : Nat) (s : State) : State := wrF s SYS_CAPTURE 0 3 v
def ring (r log : Nat) (s : State) : State := put [(rR r 0, 0x80000000 + log*2^16)] s
def bind (n mode r : Nat) (s : State) : State := put [(strR n 0, 0x80000000 + mode * 2^26), (strR n 4, r)] s
def opn (n : Nat) (s : State) : State := modStr s n (fun c => { c with openRec := some { typ := 0, first := 5, last := 6, ts := 0, flags := 0, head := 0, items := [3,4], ring := 1, at_ := 5, lost := false } })
def load (n : Nat) (s : State) : State := modEng s n (fun c => { c with loaded := true })
def base (s : State) : State := put [(lR 3 0, 0x17)] (load 3 (bind 3 1 1 (ring 1 10 s)))
def undrawn (s : State) : State := { s with ctx := { s.ctx with drawn := false } }
def rep0 : State := put [(eR 3 0, 2^12), (lR 3 0, 0x10), (rR 1 0x10, 5)] (ring 1 10 (ring 2 10 up))

/-- States that meet the hypotheses of each clause of `Obligations.CaptureCommandsMoveTheState`. -/
theorem witness_CaptureCommandsMoveTheState :
    (∃ (m : Fin 16) (s : State) (e : State), Safety.Executing s m.val 0x0601 e ∧ Safety.Ready e (captureDomains e) ∧ capState e = 0 ∧ captureStreams e ≠ [] ∧ (∀ n ∈ captureStreams e, ringExists e (strRingOf e n) = true) ∧ (∀ n ∈ captureStreams e, n < 256 → engReplay e (getEng e n).lead = false → (getEng e (getEng e n).lead).loaded = true) ∧ (∀ x ∈ engsKnown e, (getEng e x).lead = x → engReplay e x = false → ∀ n ∈ engMembers e x, laneFmt e n = laneFmt e x) ∧ Safety.StartsFree e ∧ Safety.NoneHolds e [.capture] ∧ Safety.BudgetKept e ∧ rdBit e (memBistR 0) 31 = false) ∧
    (∃ (m : Fin 16) (s : State) (e : State), Safety.Executing s m.val 0x0602 e ∧ arg64 e m.val 1 < 2 ^ 48 ∧ armClears e = false ∧ (capState e = 1 ∨ capState e = 4) ∧ Safety.Ready e (captureDomains e) ∧ Safety.StartsFree e ∧ Safety.NoneHolds e [.capture] ∧ Safety.BudgetKept e ∧ rdBit e (memBistR 0) 31 = false) ∧
    (∃ (m : Fin 16) (s : State) (e : State), Safety.Executing s m.val 0x0603 e ∧ (capState e = 2 ∨ capState e = 3) ∧ Safety.NoneHolds e [.capture] ∧ e.capture.haltAt = none ∧ e.capture.trigs = []) ∧
    (∃ (m : Fin 16) (s : State) (e : State), Safety.Executing s m.val 0x0604 e ∧ capState e = 2 ∧ Safety.NoneHolds e [.capture]) ∧
    (∃ (m : Fin 16) (s : State) (e : State), Safety.Executing s m.val 0x0605 e ∧ (capState e = 1 ∨ capState e = 4) ∧ Safety.NoneHolds e [.capture]) :=
  ⟨⟨0, cmd 0x601 0 [] (base up), startCmd (cmd 0x601 0 [] (base up)) 0, by unfold Safety.Executing Safety.NoneHolds Safety.Ready Safety.BudgetKept Safety.StartsFree; decide +kernel⟩,
   ⟨0, cmd 0x602 0 [(0,1),(1,500),(2,1)] (undrawn (cst 1 (base up))), startCmd (cmd 0x602 0 [(0,1),(1,500),(2,1)] (undrawn (cst 1 (base up)))) 0, by unfold Safety.Executing Safety.NoneHolds Safety.Ready Safety.BudgetKept Safety.StartsFree; decide +kernel⟩,
   ⟨0, cmd 0x603 0 [] (cst 2 (base up)), startCmd (cmd 0x603 0 [] (cst 2 (base up))) 0, by unfold Safety.Executing Safety.NoneHolds; decide +kernel⟩,
   ⟨0, cmd 0x604 0 [] (cst 2 (base up)), startCmd (cmd 0x604 0 [] (cst 2 (base up))) 0, by unfold Safety.Executing Safety.NoneHolds; decide +kernel⟩,
   ⟨0, cmd 0x605 0 [] (opn 3 (cst 4 (base up))), startCmd (cmd 0x605 0 [] (opn 3 (cst 4 (base up)))) 0, by unfold Safety.Executing Safety.NoneHolds; decide +kernel⟩⟩

/-- States that meet the hypotheses of each clause of `Obligations.ScheduledCommandsWaitAndAct`. -/
theorem witness_ScheduledCommandsWaitAndAct :
    (∃ (m : Fin 16) (s : State) (e : State), (∃ c ∈ [(Instr.captureStop m, 0x0603), (Instr.captureForceTrigger m, 0x0604)], fwStarts s m.val = true ∧ cmdOpcode s m.val = c.2 ∧ e = startCmd s m.val ∧ cmdSched e m.val = true ∧ cmdExecTick e m.val < 2 ^ 56 ∧ cmdExecTick e m.val ≤ now e + 2 ^ 32 ∧ (capState e = 2 ∨ (capState e = 3 ∧ c.2 = 0x0603)) ∧ Safety.NoneHolds e [.capture, .timebase] ∧ now e + 3 ≤ cmdExecTick e m.val)) ∧
    (∃ (m : Fin 16) (s : State) (e : State), (∃ c ∈ [(Instr.captureStop m, 0x0603), (Instr.captureForceTrigger m, 0x0604)], fwStarts s m.val = true ∧ cmdOpcode s m.val = c.2 ∧ e = startCmd s m.val ∧ cmdSched e m.val = true ∧ cmdExecTick e m.val < 2 ^ 56 ∧ cmdExecTick e m.val ≤ now e + 2 ^ 32 ∧ (capState e = 2 ∨ (capState e = 3 ∧ c.2 = 0x0603)) ∧ Safety.NoneHolds e [.capture, .timebase] ∧ cmdExecTick e m.val < now e + 3)) ∧
    (∃ (m : Fin 16) (s : State) (c : RunCmd) (x : Tick), s.running = [c] ∧ c.m = m.val ∧ c.wait = .scheduled x ∧ now s < x) ∧
    (∃ (m : Fin 16) (s : State) (c : RunCmd) (x : Tick), s.running = [c] ∧ c.m = m.val ∧ c.wait = .scheduled x ∧ x ≤ now s ∧ c.op = 0x0604 ∧ capState s = 2) ∧
    (∃ (m : Fin 16) (s : State) (c : RunCmd) (x : Tick), s.running = [c] ∧ c.m = m.val ∧ c.wait = .scheduled x ∧ x ≤ now s ∧ c.op = 0x0604 ∧ capState s ≠ 2) ∧
    (∃ (m : Fin 16) (s : State) (c : RunCmd) (x : Tick), s.running = [c] ∧ c.m = m.val ∧ c.wait = .scheduled x ∧ x ≤ now s ∧ c.op = 0x0603 ∧ (capState s = 2 ∨ capState s = 3)) ∧
    (∃ (m : Fin 16) (s : State) (c : RunCmd) (x : Tick), s.running = [c] ∧ c.m = m.val ∧ c.wait = .scheduled x ∧ x ≤ now s ∧ c.op = 0x0903 ∧ domReady s 20 = true) :=
  ⟨⟨0, put [(mR 0 8, 100003)] (cmd 0x603 1 [] (cst 2 (base up))), startCmd (put [(mR 0 8, 100003)] (cmd 0x603 1 [] (cst 2 (base up)))) 0, by unfold Safety.NoneHolds; decide +kernel⟩,
   ⟨0, put [(mR 0 8, 100002)] (cmd 0x603 1 [] (cst 3 (base up))), startCmd (put [(mR 0 8, 100002)] (cmd 0x603 1 [] (cst 3 (base up)))) 0, by unfold Safety.NoneHolds; decide +kernel⟩,
   ⟨0, { cmd 0x604 1 [] (cst 2 (base up)) with posted := [], running := [{m:=0,op:=0x604,wait := .scheduled 100001,held := [.capture]}]}, { m := 0, op := 1540, wait := Sys2Proof.Machine.Wait.scheduled 100001, held := [Sys2Proof.Machine.Res.capture] }, 100001, by decide +kernel⟩,
   ⟨0, { cmd 0x604 1 [] (cst 2 (base up)) with posted := [], running := [{m:=0,op:=0x604,wait := .scheduled 100000,held := [.capture]}]}, { m := 0, op := 1540, wait := Sys2Proof.Machine.Wait.scheduled 100000, held := [Sys2Proof.Machine.Res.capture] }, 100000, by decide +kernel⟩,
   ⟨0, { cmd 0x604 1 [] (cst 3 (base up)) with posted := [], running := [{m:=0,op:=0x604,wait := .scheduled 100000,held := [.capture]}]}, { m := 0, op := 1540, wait := Sys2Proof.Machine.Wait.scheduled 100000, held := [Sys2Proof.Machine.Res.capture] }, 100000, by decide +kernel⟩,
   ⟨0, { cmd 0x603 1 [] (cst 3 (base up)) with posted := [], running := [{m:=0,op:=0x603,wait := .scheduled 100000,held := [.capture]}]}, { m := 0, op := 1539, wait := Sys2Proof.Machine.Wait.scheduled 100000, held := [Sys2Proof.Machine.Res.capture] }, 100000, by decide +kernel⟩,
   ⟨0, { cmd 0x903 1 [(0,5)] (put [(dfcR 2 0, 2)] (cst 3 (base up))) with posted := [], running := [{m:=0,op:=0x903,wait := .scheduled 100000,held := [.chain 0]}]}, { m := 0, op := 2307, wait := Sys2Proof.Machine.Wait.scheduled 100000, held := [Sys2Proof.Machine.Res.chain 0] }, 100000, by decide +kernel⟩⟩

/-- States that meet the hypotheses of each clause of `Obligations.ReplayCommands`. -/
theorem witness_ReplayCommands :
    (∃ (m : Fin 16) (s : State) (e : State), Safety.Executing s m.val 0x0701 e ∧ (let es := argMask e m.val 0
    let r0 := arg e m.val 8
    let n := arg e m.val 9
    let res := arg e m.val 14
    es ≠ [] ∧ partConsist e es = false ∧ r0 < 32768 ∧ r0 + n ≤ 32768 ∧ 1 ≤ n ∧ n ≤ 256 ∧ arg64 e m.val 10 ≤ arg64 e m.val 12 ∧ res < 32768 ∧ (res < r0 ∨ r0 + n ≤ res) ∧ Safety.Ready e (domRing :: es.map domSeq ++ es.map domLink) ∧ (∀ x ∈ es, engReplay e x = true ∧ (getEng e x).job = none ∧ laneFmt e x ≠ 0) ∧ ringExists e res = true ∧ streamsOfRing e res = [] ∧ (∀ r, r0 ≤ r → r < r0 + n → ringExists e r = true → ringAuto e r = true → streamsOfRing e r = [] ∨ capActive e = false) ∧ Safety.NoneHolds e (es.map Res.engine ++ es.map Res.lane ++ (res :: (List.range n).map (fun i => r0 + i)).map Res.ring) ∧ (∃ j ∈ (List.range 16).find? (fun j => (getJob e j).state != 1), True))) ∧
    (∃ (m : Fin 16) (s : State) (e : State), Safety.Executing s m.val 0x0702 e ∧ arg e m.val 0 < 16 ∧ (getJob e (arg e m.val 0)).state = 1) :=
  ⟨⟨0, cmd 0x701 0 [(0,8),(8,1),(9,1),(10,256),(12,2560),(14,2)] rep0, startCmd (cmd 0x701 0 [(0,8),(8,1),(9,1),(10,256),(12,2560),(14,2)] rep0) 0, by unfold Safety.Executing Safety.NoneHolds Safety.Ready; decide +kernel⟩,
   ⟨0, cmd 0x702 0 [(0,2)] (setJob rep0 2 {Job.free with state := 1}), startCmd (cmd 0x702 0 [(0,2)] (setJob rep0 2 {Job.free with state := 1})) 0, by unfold Safety.Executing; decide +kernel⟩⟩

end Sys2Proof.Tests.G21

namespace Sys2Proof.Tests.G24

def inp (l : List (Nat × Nat)) : State := put l up
def ring (r log : Nat) (s : State) : State := put [(rR r 0, 0x80000000 + log*2^16)] s
def t1 : State := ring 1 10 (inp [(tiuR 5 0, 1), (tiuR 6 0, 1+0x200), (tiuR 7 0, 0x10803), (tiuR 8 0, 0x801)])
def d1 : State := ring 1 10 (inp [(lR 3 0, 0x37), (dfcR 2 0, 0x33), (dfcR 4 0, 1), (dfcR 7 0, 1), (dfcR 2 0x38, 6)])
def f1 : State := ring 1 10 (ring 2 10 (inp [(dflR 3 0, 1), (dflR 4 0, 0x2), (dflR 4 0x10, 7)]))

/-- States that meet the hypotheses of each clause of `Obligations.TiuCommands`. -/
theorem witness_TiuCommands :
    (∃ (m : Fin 16) (s : State) (e : State),
    let i := arg e m.val 0
    Safety.Executing s m.val 0x0801 e ∧ arg e m.val 1 ≤ 3 ∧ (arg e m.val 2 ≤ 1 ∨ (arg e m.val 2 = 2 ∧ arg e m.val 1 = 0)) ∧ i ≤ 63 ∧ domReady e 19 = true ∧ tiuState e i = tiuIDLE ∧ Safety.NoneHolds e [.tiu i] ∧ rdBit e (memBistR 5) 31 = false) ∧
    (∃ (m : Fin 16) (s : State) (e : State),
    let i := arg e m.val 0
    Safety.Executing s m.val 0x0802 e ∧ (let ty := arg e m.val 2 % 8
    let ins := if ty = 1 then [i, arg e m.val 1] else [i]
    arg e m.val 2 ∈ [0, 1, 2, 3, 4, 0x101, 0x102, 0x103] ∧ (ty = 1 → arg e m.val 1 ≠ i ∧ arg e m.val 1 ≤ 63) ∧ (2 ≤ ty → tiuEdgeSel e i ≠ 2) ∧ (ty = 3 → tiuPrescale e i = 0) ∧ i ≤ 63 ∧ 1 ≤ arg e m.val 3 ∧ arg e m.val 3 ≤ 16777216 ∧ 1000 ≤ arg64 e m.val 4 ∧ arg64 e m.val 4 ≤ 10000000000 ∧ arg e m.val 6 ≤ 32767 ∧ domReady e 19 = true ∧ (∀ k ∈ ins, tiuState e k = tiuIDLE) ∧ (strBound e (tiuStream i) = true ∨ ringExists e (arg e m.val 6) = true) ∧ (let held := ins.map Res.tiu ++ (if strBound e (tiuStream i) then [] else [Res.ring (arg e m.val 6)])
    Safety.NoneHolds e held ∧ rdBit e (memBistR 5) 31 = false ∧ ty = 1))) ∧
    (∃ (m : Fin 16) (s : State) (e : State),
    let i := arg e m.val 0
    Safety.Executing s m.val 0x0803 e ∧ i ≤ 63 ∧ domReady e 19 = true ∧ tiuState e i = tiuMEASURING ∧ Safety.NoneHolds e [.tiu i] ∧ tiuState (tiuJudgeAll e) i = tiuMEASURING) ∧
    (∃ (m : Fin 16) (s : State) (e : State),
    let i := arg e m.val 0
    Safety.Executing s m.val 0x0803 e ∧ i ≤ 63 ∧ domReady e 19 = true ∧ tiuState e i = tiuMEASURING ∧ Safety.NoneHolds e [.tiu i] ∧ tiuState (tiuJudgeAll e) i ≠ tiuMEASURING) ∧
    (∃ (m : Fin 16) (s : State) (e : State),
    let i := arg e m.val 0
    Safety.Executing s m.val 0x0803 e ∧ i ≤ 63 ∧ domReady e 19 = true ∧ tiuState e i = tiuMEASURING ∧ Safety.NoneHolds e [.tiu i] ∧ (∀ p ∈ e.tiu, p.2.queue = [])) :=
  ⟨⟨0, cmd 0x801 0 [(0,5),(1,0),(2,2)] t1, startCmd (cmd 0x801 0 [(0,5),(1,0),(2,2)] t1) 0, by unfold Safety.Executing Safety.NoneHolds; decide +kernel⟩,
   ⟨0, cmd 0x802 0 [(0,5),(1,6),(2,0x101),(3,1),(4,1000),(6,1)] t1, startCmd (cmd 0x802 0 [(0,5),(1,6),(2,0x101),(3,1),(4,1000),(6,1)] t1) 0, by unfold Safety.Executing Safety.NoneHolds; decide +kernel⟩,
   ⟨0, cmd 0x803 0 [(0,7)] t1, startCmd (cmd 0x803 0 [(0,7)] t1) 0, by unfold Safety.Executing Safety.NoneHolds; decide +kernel⟩,
   ⟨0, cmd 0x803 0 [(0,7)] (modTiu (put [(tiuR 7 0x18, 0x80004000)] t1) 7 (fun t => { t with n := 1, queue := [{ c2 := 400000, code := 0x4000, rising := true, tick := 99999 }] })), startCmd (cmd 0x803 0 [(0,7)] (modTiu (put [(tiuR 7 0x18, 0x80004000)] t1) 7 (fun t => { t with n := 1, queue := [{ c2 := 400000, code := 0x4000, rising := true, tick := 99999 }] }))) 0, by unfold Safety.Executing Safety.NoneHolds; decide +kernel⟩,
   ⟨0, cmd 0x803 0 [(0,7)] t1, startCmd (cmd 0x803 0 [(0,7)] t1) 0, by unfold Safety.Executing Safety.NoneHolds; decide +kernel⟩⟩

/-- States that meet the hypotheses of each clause of `Obligations.ChainCommands`. -/
theorem witness_ChainCommands :
    (∃ (m : Fin 16) (s : State) (e : State) (lane : Nat) (ch : Nat) (l : Nat) (k : Nat), domReady e 20 = true ∧ (let j := arg e m.val 0
    let a4 := arg e m.val 4
    let a5 := arg e m.val 5
    let path := arg e m.val 3
    let r := arg e m.val 6
    Safety.Executing s m.val 0x0901 e ∧ j ≤ 63 ∧ lane < 256 ∧ ch ≤ 1 ∧ arg e m.val 1 = lane * 256 + ch ∧ laneFmt e lane = 3 ∧ arg e m.val 2 = l + 256 * k ∧ l ∈ [0, 3, 5, 7, 9] ∧ k ≤ l ∧ ((path ≤ 3 ∧ a4 = 0 ∧ a5 = 0) ∨ (path = 5 ∧ 1 ≤ a4 ∧ a4 ≤ 65536 ∧ a5 = 0) ∨ (path = 4 ∧ a4 < 2 ^ 24 ∧ a5 < 2 ^ 27 ∧ 1 ≤ a5 / 2 ^ 16 ∧ a5 / 2 ^ 16 ≤ 1024 ∧ a5 / 2 ^ 16 * 2 ^ 24 ≤ a5 % 2 ^ 16 * 2 ^ 24 + a4 ∧ a5 % 2 ^ 16 * 2 ^ 24 + a4 < 2 * (a5 / 2 ^ 16) * 2 ^ 24)) ∧ (r = 0xFFFFFFFF ∨ (r ≤ 32767 ∧ (strBound e (0x240 + j) = true ∨ ringExists e r = true))) ∧ capState e ∈ [0, 1, 4] ∧ (Safety.NoneHolds e (.chain j :: (if r = 0xFFFFFFFF ∨ strBound e (0x240 + j) = true then [] else [.ring r]))) ∧ rdBit e (memBistR 5) 31 = false ∧ dfcState e j ≤ 1)) ∧
    (∃ (m : Fin 16) (s : State) (e : State), domReady e 20 = true ∧ (let j := arg e m.val 0
    Safety.Executing s m.val 0x0901 e ∧ j ≤ 63 ∧ arg e m.val 1 = 0xFFFFFFFF ∧ capState e ∈ [0, 1, 4] ∧ Safety.NoneHolds e [.chain j] ∧ rdBit e (memBistR 5) 31 = false ∧ dfcState e j ≤ 1)) ∧
    (∃ (m : Fin 16) (s : State) (e : State), domReady e 20 = true ∧ (let j := arg e m.val 0
    let a4 := arg e m.val 4
    let path := arg e m.val 3
    Safety.Executing s m.val 0x0902 e ∧ j ≤ 63 ∧ arg e m.val 1 ≤ 1 ∧ path < 2 ^ 26 ∧ (arg e m.val 2 ≤ 0x7FFFFF ∨ 0xFF800000 ≤ arg e m.val 2) ∧ (path / 2 ^ 25 = 1 ∨ (24 ≤ a4 ∧ a4 ≤ 55)) ∧ Safety.NoneHolds e [.chain j])) ∧
    (∃ (m : Fin 16) (s : State) (e : State), domReady e 20 = true ∧ Safety.Executing s m.val 0x0903 e ∧ arg64 e m.val 0 ≠ 0 ∧ Safety.NoneHolds e ((chainMask (arg64 e m.val 0)).map Res.chain)) :=
  ⟨⟨0, cmd 0x901 0 [(0,4),(1,0x301),(2,9+256*9),(3,3),(6,1)] d1, startCmd (cmd 0x901 0 [(0,4),(1,0x301),(2,9+256*9),(3,3),(6,1)] d1) 0, 3, 1, 9, 9, by unfold Safety.Executing Safety.NoneHolds; decide +kernel⟩,
   ⟨0, cmd 0x901 0 [(0,4),(1,0xFFFFFFFF)] d1, startCmd (cmd 0x901 0 [(0,4),(1,0xFFFFFFFF)] d1) 0, by unfold Safety.Executing Safety.NoneHolds; decide +kernel⟩,
   ⟨0, cmd 0x902 0 [(0,2),(1,1),(2,0xFF800000),(3,0x1000005),(4,55)] d1, startCmd (cmd 0x902 0 [(0,2),(1,1),(2,0xFF800000),(3,0x1000005),(4,55)] d1) 0, by unfold Safety.Executing Safety.NoneHolds; decide +kernel⟩,
   ⟨0, cmd 0x903 0 [(0,0x14),(1,1)] d1, startCmd (cmd 0x903 0 [(0,0x14),(1,1)] d1) 0, by unfold Safety.Executing Safety.NoneHolds; decide +kernel⟩⟩

/-- States that meet the hypotheses of each clause of `Obligations.DeflateCommands`. -/
theorem witness_DeflateCommands :
    (∃ (m : Fin 16) (s : State) (e : State), domReady e 21 = true ∧ (let k := arg e m.val 0
    let a1 := arg e m.val 1
    let d := arg e m.val 5
    k ≤ 15 ∧ rdBit e (memBistR 4) 31 = false ∧ Safety.Executing s m.val 0x0A01 e ∧ domReady e 22 = true ∧ arg e m.val 2 ≤ 1 ∧ arg e m.val 3 ≤ 1 ∧ arg e m.val 4 ≤ 1 ∧ a1 ≤ 32767 ∧ dflState e k = 1 ∧ ringExists e a1 = true ∧ (∀ x < 16, dflState e x = 2 → dflSrc e x ≠ a1) ∧ (ringAuto e a1 = true → streamsOfRing e a1 = [] ∨ capActive e = false) ∧ (if arg e m.val 4 = 1 then d ≤ 31 ∧ chanHolder e d = none else d ≤ 32767 ∧ d ≠ a1 ∧ ringExists e d = true ∧ streamsOfRing e d = []) ∧ Safety.NoneHolds e (if arg e m.val 4 = 1 then [.deflate k, .ring a1] else [.deflate k, .ring a1, .ring d]) ∧ arg e m.val 4 = 1)) ∧
    (∃ (m : Fin 16) (s : State) (e : State), domReady e 21 = true ∧ (let k := arg e m.val 0
    let a1 := arg e m.val 1
    let ir := arg e m.val 3
    k ≤ 15 ∧ rdBit e (memBistR 4) 31 = false ∧ Safety.Executing s m.val 0x0A02 e ∧ domReady e 22 = true ∧ arg e m.val 2 ≤ 1 ∧ a1 ≤ 31 ∧ ir ≤ 32767 ∧ dflState e k = 1 ∧ chanHolder e a1 = none ∧ ringExists e ir = true ∧ streamsOfRing e ir = [] ∧ Safety.NoneHolds e [.deflate k, .ring ir])) ∧
    (∃ (m : Fin 16) (s : State) (e : State), domReady e 21 = true ∧ (let k := arg e m.val 0
    k ≤ 15 ∧ rdBit e (memBistR 4) 31 = false ∧ Safety.Executing s m.val 0x0A03 e ∧ dflState e k = 2 ∧ Safety.NoneHolds e [.deflate k] ∧ (getDfl e k).buf = [])) ∧
    (∃ (m : Fin 16) (s : State) (e : State), domReady e 21 = true ∧ (let k := arg e m.val 0
    k ≤ 15 ∧ rdBit e (memBistR 4) 31 = false ∧ Safety.Executing s m.val 0x0A03 e ∧ dflState e k = 2 ∧ Safety.NoneHolds e [.deflate k] ∧ (getDfl e k).buf ≠ [])) :=
  ⟨⟨0, cmd 0xA01 0 [(0,3),(1,1),(2,1),(3,1),(4,1),(5,31)] f1, startCmd (cmd 0xA01 0 [(0,3),(1,1),(2,1),(3,1),(4,1),(5,31)] f1) 0, by unfold Safety.Executing Safety.NoneHolds; decide +kernel⟩,
   ⟨0, cmd 0xA02 0 [(0,3),(1,5),(2,1),(3,1)] f1, startCmd (cmd 0xA02 0 [(0,3),(1,5),(2,1),(3,1)] f1) 0, by unfold Safety.Executing Safety.NoneHolds; decide +kernel⟩,
   ⟨0, cmd 0xA03 0 [(0,4)] f1, startCmd (cmd 0xA03 0 [(0,4)] f1) 0, by unfold Safety.Executing Safety.NoneHolds; decide +kernel⟩,
   ⟨0, cmd 0xA03 0 [(0,4)] (setDfl f1 4 {DflCore.init with buf := [1,2,3], bufWords := 1}), startCmd (cmd 0xA03 0 [(0,4)] (setDfl f1 4 {DflCore.init with buf := [1,2,3], bufWords := 1})) 0, by unfold Safety.Executing Safety.NoneHolds; decide +kernel⟩⟩

/-- States that meet the hypotheses of each clause of `Obligations.MemoryTestRuns`. -/
theorem witness_MemoryTestRuns :
    (∃ (m : Fin 16) (s : State) (e : State), Safety.Executing s m.val 0x0B01 e ∧ (let mem := arg e m.val 0
    let r := arg e m.val 1
    let n := arg e m.val 2
    mem ≤ 5 ∧ r < mtRegions mem ∧ n ≠ 0 ∧ r + n ≤ mtRegions mem ∧ (∀ i < n, ∀ d ∈ mtDoms mem (r + i), domReady e d = true) ∧ e.mt = none ∧ Safety.NoneHolds e [.memtest])) ∧
    (∃ (s : State) (j : MtJob), s.mt = some j ∧ j.memory ≤ 5 ∧ j.first + j.count ≤ mtRegions j.memory ∧ j.done < j.count ∧ (∀ x ∈ s.spares, ∀ y ∈ s.spares, x.memory = y.memory → x.region = y.region → x = y) ∧ j.done + 1 < j.count) ∧
    (∃ (s : State) (j : MtJob), s.mt = some j ∧ j.memory ≤ 5 ∧ j.first + j.count ≤ mtRegions j.memory ∧ j.done < j.count ∧ (∀ x ∈ s.spares, ∀ y ∈ s.spares, x.memory = y.memory → x.region = y.region → x = y) ∧ j.count ≤ j.done + 1) ∧
    (∃ (s : State) (j : MtJob) (fails : Bool), s.mt = some j ∧ j.memory ≤ 5 ∧ j.first + j.count ≤ mtRegions j.memory ∧ j.done < j.count ∧ (∀ x ∈ s.spares, ∀ y ∈ s.spares, x.memory = y.memory → x.region = y.region → x = y) ∧ fails = true ∧ freeSpare { s with spares := s.spares.filter (fun y => some y != spareOf s j.memory (j.first + j.done)) } j.memory (j.first + j.done) ((spareOf s j.memory (j.first + j.done)).map Spare.row) = none) ∧
    (∃ (s : State) (j : MtJob) (fails : Bool), s.mt = some j ∧ j.memory ≤ 5 ∧ j.first + j.count ≤ mtRegions j.memory ∧ j.done < j.count ∧ (∀ x ∈ s.spares, ∀ y ∈ s.spares, x.memory = y.memory → x.region = y.region → x = y) ∧ fails = false) :=
  ⟨⟨0, cmd 0xB01 0 [(0,2),(1,2047),(2,1)] up, startCmd (cmd 0xB01 0 [(0,2),(1,2047),(2,1)] up) 0, by unfold Safety.Executing Safety.NoneHolds; decide +kernel⟩,
   ⟨{ up with mt := some {memory:=2,first:=5,count:=2,done:=0,faulty:=0}}, { memory := 2, first := 5, count := 2, done := 0, faulty := 0 }, by decide +kernel⟩,
   ⟨{ up with mt := some {memory:=2,first:=5,count:=2,done:=1,faulty:=0}}, { memory := 2, first := 5, count := 2, done := 1, faulty := 0 }, by decide +kernel⟩,
   ⟨{ up with mt := some {memory:=3,first:=5,count:=2,done:=0,faulty:=0}, spares := [⟨3,0,5⟩,⟨3,1,8⟩,⟨3,2,9⟩,⟨3,3,10⟩]}, { memory := 3, first := 5, count := 2, done := 0, faulty := 0 }, true, by decide +kernel⟩,
   ⟨{ up with mt := some {memory:=2,first:=5,count:=2,done:=0,faulty:=0}}, { memory := 2, first := 5, count := 2, done := 0, faulty := 0 }, false, by decide +kernel⟩⟩

end Sys2Proof.Tests.G24

namespace Sys2Proof.Tests.G28

/-- The gates changed. -/
def gs (f : Gates → Gates) (s : State) : State := { s with gates := f s.gates }

/-- The word whose bytes stand at place `i` of `l`. -/
def wordAt (l : List Byte) (i : Nat) : Word := BitVec.ofNat 32 (natOfBytes ((l.drop (4 * i)).take 4))

/-- GATE_RESPONSE with the 32 bytes `l` in ARG0 to ARG7, the nonce of the challenge at hand being 77. -/
def answer (l : List Byte) : State :=
  { up with
    posted := [0]
    gates := { up.gates with nonce := some 77 }
    regs := up.regs ++ [(mR 0 0, 0x0C020007), (mR 0 0x14, 1)] ++ (List.range 8).map (fun i => (argR 0 i, wordAt l i)) }

/-- A digest has 32 bytes. -/
theorem hmacSha256_length (k m : List Byte) : (hmacSha256 k m).length = 32 := by
  simp [hmacSha256, sha256, Hash.words, bigEndianBytes]

theorem wordOf_bytes (a b c d : Byte) :
    (List.range 4).map (fun j => (BitVec.ofNat 32 (natOfBytes [a, b, c, d])).extractLsb' (8 * j) 8) = [a, b, c, d] := by
  have ha := a.isLt; have hb := b.isLt; have hc := c.isLt; have hd := d.isLt
  simp only [List.range_succ_eq_map, List.range_zero, List.map_cons, List.map_nil, natOfBytes, List.cons.injEq, and_true]
  refine ⟨?_, ?_, ?_, ?_⟩ <;> apply BitVec.eq_of_toNat_eq <;>
    simp [BitVec.extractLsb'_toNat, Nat.shiftRight_eq_div_pow] <;> omega

/-- The argument words of a byte list spell the list. -/
theorem bytesOfWords_wordAt (n : Nat) (l : List Byte) (h : l.length = 4 * n) :
    bytesOfWords ((List.range n).map (wordAt l)) = l := by
  induction n generalizing l with
  | zero => simp_all [bytesOfWords]
  | succ n ih =>
    obtain ⟨a, b, c, d, r, rfl⟩ : ∃ a b c d r, l = a :: b :: c :: d :: r := by
      rcases l with - | ⟨a, - | ⟨b, - | ⟨c, - | ⟨d, r⟩⟩⟩⟩ <;> simp_all <;> omega
    have tail : ∀ i, wordAt (a :: b :: c :: d :: r) (i + 1) = wordAt r i := fun i => rfl
    have hr := ih r (by simp at h; omega)
    simp only [bytesOfWords] at hr ⊢
    rw [List.range_succ_eq_map (n := n), List.map_cons, List.map_map, List.flatMap_cons]
    exact (congrArg₂ (· ++ ·) (wordOf_bytes a b c d) hr : _)

theorem answer_args (l : List Byte) (h : l.length = 32) : argBytes (startCmd (answer l) 0) 0 8 = l := by
  refine Eq.trans (congrArg bytesOfWords (List.map_congr_left fun i hi => ?_)) (bytesOfWords_wordAt 8 l h)
  have hi := List.mem_range.mp hi
  rw [rd_startCmd_out _ _ (by simp only [argR, mR]; omega) (by simp only [argR, mR]; omega)
    (by simp only [argR, mR]; omega) (by simp only [argR, mR, resR]; omega)]
  interval_cases i <;> with_unfolding_all rfl

/-- The answer to the challenge. -/
def digest : List Byte := hmacSha256 (bytes256 Config.fuseKey) (bytes256 77)

/-- An answer that is wrong in every byte. -/
def wrong : List Byte := digest.map (fun b => b + 1)

theorem digest_length : digest.length = 32 := hmacSha256_length _ _

theorem wrong_ne : wrong ≠ digest := by
  have h := digest_length
  unfold wrong
  generalize digest = l at h ⊢
  cases l with
  | nil => cases h
  | cons b r =>
    intro h
    simp at h

/-- The device's answer opens the Service gate (R383); any other counts. -/
theorem witness_gateResponse :
    (∃ (m : Fin 16) (s e : State) (n : BitVec 256), Safety.NoneHolds e [.gates] ∧ Safety.Executing s m.val 0x0C02 e ∧
      e.gates.nonce = some n ∧ argBytes e m.val 8 = hmacSha256 (bytes256 Config.fuseKey) (bytes256 n)) ∧
    (∃ (m : Fin 16) (s e : State) (n : BitVec 256), Safety.NoneHolds e [.gates] ∧ Safety.Executing s m.val 0x0C02 e ∧
      e.gates.nonce = some n ∧ argBytes e m.val 8 ≠ hmacSha256 (bytes256 Config.fuseKey) (bytes256 n)) :=
  ⟨⟨0, answer digest, startCmd (answer digest) 0, 77, by unfold Safety.NoneHolds; decide +kernel,
      ⟨by decide +kernel, by decide +kernel, rfl, by decide +kernel⟩, rfl, answer_args _ digest_length⟩,
   ⟨0, answer wrong, startCmd (answer wrong) 0, 77, by unfold Safety.NoneHolds; decide +kernel,
      ⟨by decide +kernel, by decide +kernel, rfl, by decide +kernel⟩, rfl,
      (answer_args wrong ((List.length_map ..).trans digest_length)).trans_ne wrong_ne⟩⟩

end Sys2Proof.Tests.G28

namespace Sys2Proof.Tests.G28

def cst (v : Nat) (s : State) : State := wrF s SYS_CAPTURE 0 3 v
def member (s : State) : State := wrBit { s with loop := { s.loop with n := 3, pos := some 0 } } SYS_CAPTURE 3 true

/-- States that meet the hypotheses of each clause of `Obligations.GatesOpenAndClose`. -/
theorem witness_GatesOpenAndClose :
    (∃ (m : Fin 16) (s : State) (e : State), Safety.NoneHolds e [.gates] ∧ Safety.Executing s m.val 0x0C01 e ∧ fuseRestricted e = false ∧ e.gates.svcOpen = false) ∧
    (∃ (m : Fin 16) (s : State) (e : State) (n : (BitVec 256)), Safety.NoneHolds e [.gates] ∧ Safety.Executing s m.val 0x0C02 e ∧ e.gates.nonce = some n ∧ argBytes e m.val 8 = hmacSha256 (bytes256 Config.fuseKey) (bytes256 n)) ∧
    (∃ (m : Fin 16) (s : State) (e : State) (n : (BitVec 256)), Safety.NoneHolds e [.gates] ∧ Safety.Executing s m.val 0x0C02 e ∧ e.gates.nonce = some n ∧ argBytes e m.val 8 ≠ hmacSha256 (bytes256 Config.fuseKey) (bytes256 n)) ∧
    (∃ (m : Fin 16) (s : State) (e : State), Safety.NoneHolds e [.gates] ∧ (let p := BitVec.ofNat 128 (arg64 e m.val 0 + 2 ^ 64 * arg64 e m.val 2)
    Safety.Executing s m.val 0x0C03 e ∧ e.gates.svcOpen = false ∧ p ≠ 0 ∧ e.gates.pwd = none ∧ e.gates.custRestricted = false)) ∧
    (∃ (m : Fin 16) (s : State) (e : State), Safety.NoneHolds e [.gates] ∧ Safety.Executing s m.val 0x0C03 e ∧ e.gates.svcOpen = true) ∧
    (∃ (m : Fin 16) (s : State) (e : State) (w : (BitVec 128)), Safety.NoneHolds e [.gates] ∧ (let p := BitVec.ofNat 128 (arg64 e m.val 0 + 2 ^ 64 * arg64 e m.val 2)
    Safety.Executing s m.val 0x0C04 e ∧ e.gates.custRestricted = false ∧ e.gates.pwd = some w ∧ w = p)) ∧
    (∃ (m : Fin 16) (s : State) (e : State) (w : (BitVec 128)), Safety.NoneHolds e [.gates] ∧ (let p := BitVec.ofNat 128 (arg64 e m.val 0 + 2 ^ 64 * arg64 e m.val 2)
    Safety.Executing s m.val 0x0C04 e ∧ e.gates.custRestricted = false ∧ e.gates.pwd = some w ∧ w ≠ p)) ∧
    (∃ (m : Fin 16) (s : State) (e : State), Safety.NoneHolds e [.gates] ∧ Safety.Executing s m.val 0x0C05 e ∧ arg e m.val 0 = 0) ∧
    (∃ (m : Fin 16) (s : State) (e : State), Safety.NoneHolds e [.gates] ∧ Safety.Executing s m.val 0x0C05 e ∧ arg e m.val 0 = 1 ∧ makerCfg e ≠ savedCfg e) :=
  ⟨⟨0, cmd 0xC01 0 [] up, startCmd (cmd 0xC01 0 [] up) 0, by unfold Safety.Executing Safety.NoneHolds; decide +kernel⟩,
   witness_gateResponse.1,
   witness_gateResponse.2,
   ⟨0, cmd 0xC03 0 [(0,5),(3,6)] up, startCmd (cmd 0xC03 0 [(0,5),(3,6)] up) 0, by unfold Safety.Executing Safety.NoneHolds; decide +kernel⟩,
   ⟨0, cmd 0xC03 0 [(0,5),(3,6)] (gs (fun g => {g with svcOpen := true}) up), startCmd (cmd 0xC03 0 [(0,5),(3,6)] (gs (fun g => {g with svcOpen := true}) up)) 0, by unfold Safety.Executing Safety.NoneHolds; decide +kernel⟩,
   ⟨0, cmd 0xC04 0 [(0,5)] (gs (fun g => {g with pwd := some 5}) up), startCmd (cmd 0xC04 0 [(0,5)] (gs (fun g => {g with pwd := some 5}) up)) 0, 5, by unfold Safety.Executing Safety.NoneHolds; decide +kernel⟩,
   ⟨0, cmd 0xC04 0 [(0,6)] (gs (fun g => {g with pwd := some 5}) up), startCmd (cmd 0xC04 0 [(0,6)] (gs (fun g => {g with pwd := some 5}) up)) 0, 5, by unfold Safety.Executing Safety.NoneHolds; decide +kernel⟩,
   ⟨0, cmd 0xC05 0 [(0,0)] (gs (fun g => {g with svcOpen := true, nonce := some 3}) up), startCmd (cmd 0xC05 0 [(0,0)] (gs (fun g => {g with svcOpen := true, nonce := some 3}) up)) 0, by unfold Safety.Executing Safety.NoneHolds; decide +kernel⟩,
   ⟨0, cmd 0xC05 0 [(0,1)] (gs (fun g => {g with custOpen := true, pwd := some 5, savedPwd := 5}) (put [(gateCfgR 3, 9)] up)), startCmd (cmd 0xC05 0 [(0,1)] (gs (fun g => {g with custOpen := true, pwd := some 5, savedPwd := 5}) (put [(gateCfgR 3, 9)] up))) 0, by unfold Safety.Executing Safety.NoneHolds; decide +kernel⟩⟩

/-- States that meet the hypotheses of each clause of `Obligations.ServiceRangeNonceAndSave`. -/
theorem witness_ServiceRangeNonceAndSave :
    (∃ (m : Fin 16) (s : State), fwStarts s m.val = true ∧ 0x0C80 ≤ cmdOpcode s m.val ∧ cmdOpcode s m.val ≤ 0x0CFF ∧ s.gates.svcOpen = false) ∧
    (∃ (m : Fin 16) (s : State), fwStarts s m.val = true ∧ 0x0C80 ≤ cmdOpcode s m.val ∧ cmdOpcode s m.val ≤ 0x0CFF ∧ s.gates.svcOpen = true) ∧
    (∃ (s : State), (∃ n ∈ s.gates.nonce, s.gates.nonceAt + 10000000000 ≤ s.ns)) ∧
    (∃ (s : State), (∃ n ∈ s.gates.nonce, s.ns < s.gates.nonceAt + 10000000000)) ∧
    (∃ (s : State) (ga : Nat) (gb : Nat) (pa : BitVec 128) (pb : BitVec 128) (ca : List Word) (cb : List Word), s.gates.saving = true ∧ fwReady s = true ∧ s.flash.a = .valid ga pa ca ∧ s.flash.b = .valid gb pb cb ∧ ga < gb) ∧
    (∃ (s : State) (ga : Nat) (gb : Nat) (pa : BitVec 128) (pb : BitVec 128) (ca : List Word) (cb : List Word), s.gates.saving = true ∧ fwReady s = true ∧ s.flash.a = .valid ga pa ca ∧ s.flash.b = .valid gb pb cb ∧ gb ≤ ga) ∧
    (∃ (s : State) (v : Bool) (ga : Nat) (gb : Nat) (pa : BitVec 128) (pb : BitVec 128) (ca : List Word) (cb : List Word), s.gates.saving = true ∧ fwReady s = true ∧ s.flash.a = .valid ga pa ca ∧ s.flash.b = .valid gb pb cb ∧ v = true) :=
  ⟨⟨0, cmd 0xC80 0 [] up, by decide +kernel⟩,
   ⟨0, cmd 0xCFF 0 [] (gs (fun g => {g with svcOpen := true}) up), by decide +kernel⟩,
   ⟨gs (fun g => {g with nonce := some 3}) {up with ns := 10000000000}, 3, rfl, by decide +kernel⟩,
   ⟨gs (fun g => {g with nonce := some 77}) up, 77, rfl, by decide +kernel⟩,
   ⟨{ gs (fun g => {g with saving := true, savedPwd := 9}) up with flash := { a := .valid 3 1 [5], b := .valid 4 2 [6], subsys := 0 } }, 3, 4, 1, 2, [5], [6], by decide +kernel⟩,
   ⟨{ gs (fun g => {g with saving := true, savedPwd := 9}) up with flash := { a := .valid 5 1 [5], b := .valid 4 2 [6], subsys := 0 } }, 5, 4, 1, 2, [5], [6], by decide +kernel⟩,
   ⟨{ gs (fun g => {g with saving := true, savedPwd := 9}) up with flash := { a := .valid 3 1 [5], b := .valid 4 2 [6], subsys := 0 } }, true, 3, 4, 1, 2, [5], [6], by decide +kernel⟩⟩

/-- States that meet the hypotheses of `Obligations.LoopCommands`. -/
theorem witness_LoopCommands_LoopCalibrate :
    ∃ (m : Fin 16) (s : State) (e : State), Safety.Executing s m.val 0x0D01 e ∧ domReady e 2 = true ∧ capState e = 0 ∧ Safety.NoneHolds e [.loop, .timebase] :=
  ⟨0, cmd 0xD01 0 [] up, startCmd (cmd 0xD01 0 [] up) 0, by unfold Safety.Executing Safety.NoneHolds; decide +kernel⟩

/-- States that meet the hypotheses of `Obligations.LoopCommands`. -/
theorem witness_LoopCommands_LoopPostStop :
    ∃ (m : Fin 16) (s : State) (e : State), fwStarts s m.val = true ∧ cmdOpcode s m.val = 0x0D03 ∧ e = startCmd s m.val ∧ cmdSched e m.val = true ∧ (let op := arg e m.val 0
    let v := if op = 0x0602 then arg e m.val 1 % 65536 * 2 ^ 48 + arg64 e m.val 2 % 2 ^ 48
      else if op = 0x0903 then arg64 e m.val 1 else 0
    let x := cmdExecTick e m.val
    let p := (loopIdleFrom e + 15) / 16 * 16 + 191
    let lead := max (3 + 12 * (e.loop.n - 1)) (if op = 0x0602 ∧ armClears e = true then 4096 else 3)
    let held := [.capture, .loop, .timebase] ++ (if op = 0x0903 then (chainMask v).map Res.chain else []) ++
      (if op = 0x0602 ∧ armClears e = true then [.ctx] else [])
    op ∈ [0x0602, 0x0603, 0x0604, 0x0903] ∧ (op = 0x0903 → v ≠ 0 ∧ domReady e 20 = true) ∧ x < 2 ^ 56 ∧ p + lead ≤ x ∧ x ≤ p + 2 ^ 32 ∧ domReady e 2 = true ∧ loopMember e = true ∧ (op = 0x0602 → arg64 e m.val 2 < 2 ^ 48 ∧ Safety.Ready e (captureDomains e) ∧ (capState e = 1 ∨ capState e = 4) ∧ Safety.StartsFree e ∧ Safety.BudgetKept e ∧ rdBit e (memBistR 0) 31 = false) ∧ (op = 0x0603 → capState e = 2 ∨ capState e = 3) ∧ (op = 0x0604 → capState e = 2) ∧ Safety.NoneHolds e held) :=
  ⟨0, put [(mR 0 8, 101000)] (cmd 0xD03 1 [(0,0x603)] (member (cst 3 up))), startCmd (put [(mR 0 8, 101000)] (cmd 0xD03 1 [(0,0x603)] (member (cst 3 up)))) 0, by unfold Safety.NoneHolds Safety.Ready Safety.BudgetKept Safety.StartsFree; decide +kernel⟩

/-- States that meet the hypotheses of `Obligations.LoopCommands`. -/
theorem witness_LoopCommands_LoopPostForceTrigger :
    ∃ (m : Fin 16) (s : State) (e : State), fwStarts s m.val = true ∧ cmdOpcode s m.val = 0x0D03 ∧ e = startCmd s m.val ∧ cmdSched e m.val = true ∧ (let op := arg e m.val 0
    let v := if op = 0x0602 then arg e m.val 1 % 65536 * 2 ^ 48 + arg64 e m.val 2 % 2 ^ 48
      else if op = 0x0903 then arg64 e m.val 1 else 0
    let x := cmdExecTick e m.val
    let p := (loopIdleFrom e + 15) / 16 * 16 + 191
    let lead := max (3 + 12 * (e.loop.n - 1)) (if op = 0x0602 ∧ armClears e = true then 4096 else 3)
    let held := [.capture, .loop, .timebase] ++ (if op = 0x0903 then (chainMask v).map Res.chain else []) ++
      (if op = 0x0602 ∧ armClears e = true then [.ctx] else [])
    op ∈ [0x0602, 0x0603, 0x0604, 0x0903] ∧ (op = 0x0903 → v ≠ 0 ∧ domReady e 20 = true) ∧ x < 2 ^ 56 ∧ p + lead ≤ x ∧ x ≤ p + 2 ^ 32 ∧ domReady e 2 = true ∧ loopMember e = true ∧ (op = 0x0602 → arg64 e m.val 2 < 2 ^ 48 ∧ Safety.Ready e (captureDomains e) ∧ (capState e = 1 ∨ capState e = 4) ∧ Safety.StartsFree e ∧ Safety.BudgetKept e ∧ rdBit e (memBistR 0) 31 = false) ∧ (op = 0x0603 → capState e = 2 ∨ capState e = 3) ∧ (op = 0x0604 → capState e = 2) ∧ Safety.NoneHolds e held) :=
  ⟨0, put [(mR 0 8, 101000)] (cmd 0xD03 1 [(0,0x604)] (member (cst 2 up))), startCmd (put [(mR 0 8, 101000)] (cmd 0xD03 1 [(0,0x604)] (member (cst 2 up)))) 0, by unfold Safety.NoneHolds Safety.Ready Safety.BudgetKept Safety.StartsFree; decide +kernel⟩

/-- States that meet the hypotheses of `Obligations.LoopCommands`. -/
theorem witness_LoopCommands_LoopPostSync :
    ∃ (m : Fin 16) (s : State) (e : State), fwStarts s m.val = true ∧ cmdOpcode s m.val = 0x0D03 ∧ e = startCmd s m.val ∧ cmdSched e m.val = true ∧ (let op := arg e m.val 0
    let v := if op = 0x0602 then arg e m.val 1 % 65536 * 2 ^ 48 + arg64 e m.val 2 % 2 ^ 48
      else if op = 0x0903 then arg64 e m.val 1 else 0
    let x := cmdExecTick e m.val
    let p := (loopIdleFrom e + 15) / 16 * 16 + 191
    let lead := max (3 + 12 * (e.loop.n - 1)) (if op = 0x0602 ∧ armClears e = true then 4096 else 3)
    let held := [.capture, .loop, .timebase] ++ (if op = 0x0903 then (chainMask v).map Res.chain else []) ++
      (if op = 0x0602 ∧ armClears e = true then [.ctx] else [])
    op ∈ [0x0602, 0x0603, 0x0604, 0x0903] ∧ (op = 0x0903 → v ≠ 0 ∧ domReady e 20 = true) ∧ x < 2 ^ 56 ∧ p + lead ≤ x ∧ x ≤ p + 2 ^ 32 ∧ domReady e 2 = true ∧ loopMember e = true ∧ (op = 0x0602 → arg64 e m.val 2 < 2 ^ 48 ∧ Safety.Ready e (captureDomains e) ∧ (capState e = 1 ∨ capState e = 4) ∧ Safety.StartsFree e ∧ Safety.BudgetKept e ∧ rdBit e (memBistR 0) 31 = false) ∧ (op = 0x0603 → capState e = 2 ∨ capState e = 3) ∧ (op = 0x0604 → capState e = 2) ∧ Safety.NoneHolds e held) :=
  ⟨0, put [(mR 0 8, 101000)] (cmd 0xD03 1 [(0,0x903),(1,5)] (member (cst 3 up))), startCmd (put [(mR 0 8, 101000)] (cmd 0xD03 1 [(0,0x903),(1,5)] (member (cst 3 up)))) 0, by unfold Safety.NoneHolds Safety.Ready Safety.BudgetKept Safety.StartsFree; decide +kernel⟩

/-- States that meet the hypotheses of `Obligations.LoopCommands`. -/
theorem witness_LoopCommands_LoopPostArm :
    ∃ (m : Fin 16) (s : State) (e : State), fwStarts s m.val = true ∧ cmdOpcode s m.val = 0x0D03 ∧ e = startCmd s m.val ∧ cmdSched e m.val = true ∧ (let op := arg e m.val 0
    let v := if op = 0x0602 then arg e m.val 1 % 65536 * 2 ^ 48 + arg64 e m.val 2 % 2 ^ 48
      else if op = 0x0903 then arg64 e m.val 1 else 0
    let x := cmdExecTick e m.val
    let p := (loopIdleFrom e + 15) / 16 * 16 + 191
    let lead := max (3 + 12 * (e.loop.n - 1)) (if op = 0x0602 ∧ armClears e = true then 4096 else 3)
    let held := [.capture, .loop, .timebase] ++ (if op = 0x0903 then (chainMask v).map Res.chain else []) ++
      (if op = 0x0602 ∧ armClears e = true then [.ctx] else [])
    op ∈ [0x0602, 0x0603, 0x0604, 0x0903] ∧ (op = 0x0903 → v ≠ 0 ∧ domReady e 20 = true) ∧ x < 2 ^ 56 ∧ p + lead ≤ x ∧ x ≤ p + 2 ^ 32 ∧ domReady e 2 = true ∧ loopMember e = true ∧ (op = 0x0602 → arg64 e m.val 2 < 2 ^ 48 ∧ Safety.Ready e (captureDomains e) ∧ (capState e = 1 ∨ capState e = 4) ∧ Safety.StartsFree e ∧ Safety.BudgetKept e ∧ rdBit e (memBistR 0) 31 = false) ∧ (op = 0x0603 → capState e = 2 ∨ capState e = 3) ∧ (op = 0x0604 → capState e = 2) ∧ Safety.NoneHolds e held) :=
  ⟨0, put [(mR 0 8, 110000)] (cmd 0xD03 1 [(0,0x602),(1,5)] (member (cst 1 up))), startCmd (put [(mR 0 8, 110000)] (cmd 0xD03 1 [(0,0x602),(1,5)] (member (cst 1 up)))) 0, by unfold Safety.NoneHolds Safety.Ready Safety.BudgetKept Safety.StartsFree; decide +kernel⟩

end Sys2Proof.Tests.G28

namespace Sys2Proof.Tests.G31

def cst (v : Nat) (s : State) : State := wrF s SYS_CAPTURE 0 3 v
def latch (off v : Nat) (s : State) : State := { s with guard := some { off := BitVec.ofNat 16 off, val := BitVec.ofNat 32 v } }
def part (on rdy : Nat) : State := put [(PWR_ON, on), (PWR_READY, rdy)] up
def bind (n mode r : Nat) (s : State) : State := put [(strR n 0, 0x80000000 + mode * 2^26), (strR n 4, r)] s

/-- States that meet the hypotheses of each clause of `Obligations.GuardedWritesTakeAPair`. -/
theorem witness_GuardedWritesTakeAPair :
    (∃ (s : State) (off : BitVec 16) (v : Word) (be : BitVec 4) (i : Instr), memDecoded s = true ∧ (i = .guardStage off v be ∨ i = .guardedCommit false off v be) ∧ be ≠ 0xF) ∧
    (∃ (s : State) (off : BitVec 16) (v : Word) (be : BitVec 4) (i : Instr), memDecoded s = true ∧ (i = .guardStage off v be ∨ i = .guardedCommit false off v be) ∧ be = 0xF ∧ s.guard = none) ∧
    (∃ (s : State) (off : BitVec 16) (v : Word) (be : BitVec 4) (i : Instr), memDecoded s = true ∧ (i = .guardStage off v be ∨ i = .guardedCommit false off v be) ∧ be = 0xF ∧ s.guard ≠ none) ∧
    (∃ (s : State) (be : BitVec 4), memDecoded s = true ∧ be ≠ 0xF) ∧
    (∃ (s : State) (be : BitVec 4), memDecoded s = true ∧ be = 0xF ∧ s.guard = none) ∧
    (∃ (s : State) (off : BitVec 16) (be : BitVec 4) (l : GuardLatch), memDecoded s = true ∧ (let o := off.toNat / 4 * 4
    be = 0xF ∧ s.guard = some l ∧ o ≠ l.off.toNat)) ∧
    (∃ (s : State) (off : BitVec 16) (v : Word) (be : BitVec 4) (l : GuardLatch), memDecoded s = true ∧ (let o := off.toNat / 4 * 4
    be = 0xF ∧ s.guard = some l ∧ o = l.off.toNat ∧ v ≠ ~~~l.val)) ∧
    (∃ (s : State) (off : BitVec 16) (v : Word) (be : BitVec 4) (l : GuardLatch), memDecoded s = true ∧ (let o := off.toNat / 4 * 4
    be = 0xF ∧ s.guard = some l ∧ o = l.off.toNat ∧ v = ~~~l.val ∧ 0x60 ≤ o ∧ o ≠ 0x100 ∧ (o < 0x800 ∨ 0x820 ≤ o))) :=
  ⟨⟨up, 0x200, 5, 3, Sys2Proof.Instr.guardStage 0x0200#16 0x00000005#32 0x3#4, by decide +kernel⟩,
   ⟨up, 0x200, 5, 0xF, Sys2Proof.Instr.guardStage 0x0200#16 0x00000005#32 0xf#4, by decide +kernel⟩,
   ⟨latch 0x200 5 up, 0x200, 5, 0xF, Sys2Proof.Instr.guardStage 0x0200#16 0x00000005#32 0xf#4, by decide +kernel⟩,
   ⟨up, 3, by decide +kernel⟩,
   ⟨up, 0xF, by decide +kernel⟩,
   ⟨latch 0x200 5 up, 0x204, 0xF, { off := 0x0200#16, val := 0x00000005#32 }, by decide +kernel⟩,
   ⟨latch 0x200 5 up, 0x200, 5, 0xF, { off := 0x0200#16, val := 0x00000005#32 }, by decide +kernel⟩,
   ⟨latch 0x200 5 up, 0x200, 0xFFFFFFFA, 0xF, { off := 0x0200#16, val := 0x00000005#32 }, by decide +kernel⟩⟩

/-- States that meet the hypotheses of each clause of `Obligations.PeerWindowAndResetCommits`. -/
theorem witness_PeerWindowAndResetCommits :
    (∃ (s : State) (w : Fin 8) (v : Word), memDecoded s = true ∧ s.guard = some { off := BitVec.ofNat 16 (0x800 + 4 * w.val), val := v } ∧ fld v 13 10 = 0 ∧ (bitAt v 31 = true → (fld v 0 13 + fld v 23 7 + 1) * 64 ≤ capGib s * 1024)) ∧
    (∃ (s : State) (w : Fin 8) (v : Word), memDecoded s = true ∧ s.guard = some { off := BitVec.ofNat 16 (0x800 + 4 * w.val), val := v } ∧ (fld v 13 10 ≠ 0 ∨ (bitAt v 31 = true ∧ capGib s * 1024 < (fld v 0 13 + fld v 23 7 + 1) * 64))) ∧
    (∃ (s : State) (u : BitVec 31), memDecoded s = true ∧ s.guard = some { off := 0x100, val := BitVec.ofNat 32 (2 * u.toNat + 1) }) :=
  ⟨⟨latch 0x808 0x80000000 up, 2, 0x80000000, by decide +kernel⟩,
   ⟨latch 0x808 0xFFFFFFFF up, 2, 0xFFFFFFFF, by decide +kernel⟩,
   ⟨latch 0x100 1 up, 0, by decide +kernel⟩⟩

/-- States that meet the hypotheses of each clause of `Obligations.PowerCommits`. -/
theorem witness_PowerCommits :
    (∃ (s : State) (d : Fin 24) (u : BitVec 31), memDecoded s = true ∧ (let on := BitVec.ofNat 32 (2 * u.toNat + 1)
    s.guard = some { off := BitVec.ofNat 16 (4 * d.val), val := on } ∧ u ≠ 0)) ∧
    (∃ (s : State) (d : Fin 24) (u : BitVec 31), memDecoded s = true ∧ (let on := BitVec.ofNat 32 (2 * u.toNat + 1)
    s.guard = some { off := BitVec.ofNat 16 (4 * d.val), val := on } ∧ u = 0 ∧ (d.val < 2 ∨ domOn s d.val = true))) ∧
    (∃ (s : State) (d : Fin 24) (u : BitVec 31), memDecoded s = true ∧ (let on := BitVec.ofNat 32 (2 * u.toNat + 1)
    s.guard = some { off := BitVec.ofNat 16 (4 * d.val), val := on } ∧ u = 0 ∧ 2 ≤ d.val ∧ domOn s d.val = false ∧ (∃ p, domPrereq d.val = some p ∧ domReady s p = false))) ∧
    (∃ (s : State) (d : Fin 24) (u : BitVec 31), memDecoded s = true ∧ (let on := BitVec.ofNat 32 (2 * u.toNat + 1)
    s.guard = some { off := BitVec.ofNat 16 (4 * d.val), val := on } ∧ u = 0 ∧ 2 ≤ d.val ∧ domOn s d.val = false ∧ (∀ p, domPrereq d.val = some p → domReady s p = true) ∧ rdBit s THERM_STATUS 31 = true)) ∧
    (∃ (s : State) (d : Fin 24) (u : BitVec 31), memDecoded s = true ∧ (let on := BitVec.ofNat 32 (2 * u.toNat + 1)
    s.guard = some { off := BitVec.ofNat 16 (4 * d.val), val := on } ∧ u = 0 ∧ 2 ≤ d.val ∧ domOn s d.val = false ∧ (∀ p, domPrereq d.val = some p → domReady s p = true) ∧ rdBit s THERM_STATUS 31 = false ∧ d.val ∉ [16, 17, 18])) ∧
    (∃ (s : State) (d : Fin 24) (u : BitVec 31), memDecoded s = true ∧ (let off := BitVec.ofNat 32 (2 * u.toNat)
    s.guard = some { off := BitVec.ofNat 16 (4 * d.val), val := off } ∧ u ≠ 0)) ∧
    (∃ (s : State) (d : Fin 24) (u : BitVec 31), memDecoded s = true ∧ (let off := BitVec.ofNat 32 (2 * u.toNat)
    s.guard = some { off := BitVec.ofNat 16 (4 * d.val), val := off } ∧ u = 0 ∧ d.val < 2)) ∧
    (∃ (s : State) (d : Fin 24) (u : BitVec 31), memDecoded s = true ∧ (let off := BitVec.ofNat 32 (2 * u.toNat)
    s.guard = some { off := BitVec.ofNat 16 (4 * d.val), val := off } ∧ u = 0 ∧ 2 ≤ d.val ∧ domOn s d.val = false)) ∧
    (∃ (s : State) (d : Fin 24) (u : BitVec 31), memDecoded s = true ∧ (let off := BitVec.ofNat 32 (2 * u.toNat)
    s.guard = some { off := BitVec.ofNat 16 (4 * d.val), val := off } ∧ u = 0 ∧ 2 ≤ d.val ∧ domOn s d.val = true ∧ domDependants s d.val ≠ [])) ∧
    (∃ (s : State) (d : Fin 24) (u : BitVec 31), memDecoded s = true ∧ (let off := BitVec.ofNat 32 (2 * u.toNat)
    s.guard = some { off := BitVec.ofNat 16 (4 * d.val), val := off } ∧ u = 0 ∧ 2 ≤ d.val ∧ domOn s d.val = true ∧ domDependants s d.val = [] ∧ capActive s = true ∧ captureUses s d.val = true ∧ s.capture.haltAt = none ∧ s.capture.trigs = [])) :=
  ⟨⟨latch 4 3 up, 1, 1, by decide +kernel⟩,
   ⟨latch 4 1 up, 1, 0, by decide +kernel⟩,
   ⟨latch (4*15) 1 (part 0x3 0x3), 15, 0, by decide +kernel⟩,
   ⟨latch (4*15) 1 (wrBit (part 0x7FFF 0x7FFF) THERM_STATUS 31 true), 15, 0, by decide +kernel⟩,
   ⟨latch (4*15) 1 (part 0x7FFF 0x7FFF), 15, 0, by decide +kernel⟩,
   ⟨latch (4*15) 2 up, 15, 1, by decide +kernel⟩,
   ⟨latch 4 0 up, 1, 0, by decide +kernel⟩,
   ⟨latch (4*15) 0 (part 0x7FFF 0x7FFF), 15, 0, by decide +kernel⟩,
   ⟨latch (4*2) 0 up, 2, 0, by decide +kernel⟩,
   ⟨latch (4*15) 0 (bind 0x280 1 1 (cst 2 up)), 15, 0, by decide +kernel⟩⟩

/-- States that meet the hypotheses of each clause of `Obligations.BistMakesADomainReady`. -/
theorem witness_BistMakesADomainReady :
    (∃ (s : State) (d : Fin 24), (s.ns < tabGet 0 s.ramp d.val ∨ d.val < 2 ∨ domOn s d.val = false ∨ d.val ∈ s.inits)) ∧
    (∃ (s : State) (d : Fin 24), 2 ≤ d.val ∧ domOn s d.val = true ∧ tabGet 0 s.ramp d.val ≤ s.ns ∧ d.val ∉ s.inits ∧ (∀ k, domPll d.val = some k → pllLocked s k = true) ∧ thermTripped s = false) :=
  ⟨⟨State.reset, 1, by decide +kernel⟩,
   ⟨up, 2, by decide +kernel⟩⟩

end Sys2Proof.Tests.G31

namespace Sys2Proof.Tests.G36

def part (on rdy : Nat) : State := put [(PWR_ON, on), (PWR_READY, rdy)] up

/-- `Safety.PlainRegister`, by evaluation. -/
def plainB (s : State) (a : Nat) : Bool :=
  decide (a % 4 = 0) && !blockOff s a &&
  match blockOf a with
  | .ctl o => decide (¬(0xAA00 ≤ o ∧ o < 0xAA50) ∧ ¬(0xD010 ≤ o ∧ o < 0xD020) ∧ ¬(0xD100 ≤ o ∧ o < 0xD200) ∧
      ¬(0x4000 ≤ o ∧ o < 0x6000 ∧ (o % 0x80 = 0xC ∨ o % 0x80 = 0x10)) ∧
      ¬(0x8000 ≤ o ∧ o < 0x8800 ∧ (o % 0x40 < 0xC ∨ o % 0x40 = 0x14)) ∧ o ≠ PCIE_CTRL ∧ o ≠ THERM_ALERT)
  | .mbx m o => decide (o ≠ 0x10 ∧ mbxState s m ≠ 1 ∧ mbxState s m ≠ 2)
  | .eng n o => decide (o ≠ 4 ∧ o ≠ 8 ∧ o ≠ 0x1C ∧ o ≠ 0x2C ∧ ¬(0x500 ≤ o ∧ o < 0x680 ∧ o % 0x20 < 8) ∧
      (0xC00 ≤ o → o ≤ 0xC10 → (getEng s n).lead = n))
  | .ring r o => decide (ringExists s r = true ∧ o ≠ 0x40 ∧ o ≠ 0x38)
  | .lane _ _ => true
  | _ => false

theorem plain_of {s : State} {a : Nat} (h : plainB s a = true) : Safety.PlainRegister s a := by
  simp only [plainB, Bool.and_eq_true, decide_eq_true_eq, Bool.not_eq_true'] at h
  refine ⟨h.1.1, h.1.2, ?_⟩
  have h := h.2
  split at h <;> simp_all <;> omega

/-- A plain register of each block. -/
theorem plain_in_each_block :
    Safety.PlainRegister up 0 ∧ Safety.PlainRegister up (mR 3 0x100) ∧ Safety.PlainRegister up (eR 3 0) ∧
    Safety.PlainRegister (put [(rR 5 0, 0x800A0000)] up) (rR 5 4) ∧ Safety.PlainRegister up (lR 3 0) :=
  ⟨plain_of (by decide +kernel), plain_of (by decide +kernel), plain_of (by decide +kernel), plain_of (by decide +kernel),
    plain_of (by decide +kernel)⟩

/-- States that meet the hypotheses of each clause of `Obligations.HostWritesFollowTheAccessCodes`. -/
theorem witness_HostWritesFollowTheAccessCodes :
    (∃ (s : State), memDecoded s = false) ∧
    (∃ (s : State), memDecoded s = true) ∧
    (∃ (s : State), ecrcChecked s = true) ∧
    (∃ (s : State), ecrcChecked s = false) ∧
    (∃ (s : State) (off : BitVec 26), memDecoded s = true ∧ (let a := off.toNat / 4 * 4
    let acc := accessOf a
    Safety.PlainRegister s a ∧ acc.ctr = false)) ∧
    (∃ (s : State) (off : BitVec 26), memDecoded s = true ∧ (let a := off.toNat / 4 * 4
    let acc := accessOf a
    off.toNat + 4 < 2 ^ 26 ∧ Safety.PlainRegister s a ∧ acc.ctr = false ∧ Safety.PlainRegister s (a + 4) ∧ (accessOf (a + 4)).ctr = false)) ∧
    (∃ (s : State) (off : BitVec 26), memDecoded s = true ∧ (let a := off.toNat / 4 * 4
    let acc := accessOf a
    Safety.PlainRegister s a ∧ acc.ctr = true ∧ ctrPair a = none ∧ tabGet 0 s.cycInc a = 0 ∧ (ctrHalves a = true → tabGet 0 s.cycInc (a + 2) = 0))) ∧
    (∃ (s : State) (off : BitVec 26), memDecoded s = true ∧ (let a := off.toNat / 4 * 4
    (0xD010 ≤ a ∧ a < 0xD020 ∨ (0xD100 ≤ a ∧ a < 0xD200 ∧ custClosed s = true)))) ∧
    (∃ (s : State) (off : BitVec 26), memDecoded s = true ∧ (let a := off.toNat / 4 * 4
    0xD100 ≤ a ∧ a < 0xD200 ∧ custClosed s = false)) ∧
    (∃ (s : State) (off : BitVec 16), memDecoded s = true ∧ off.toNat < 0x4000) ∧
    (∃ (s : State) (off : BitVec 16), memDecoded s = true ∧ 0x4000 ≤ off.toNat) :=
  ⟨⟨State.reset, by decide +kernel⟩,
   ⟨up, by decide +kernel⟩,
   ⟨{ up with pcie := { up.pcie with cfg := [(1,6),(0x46,0x1A0)] } }, by decide +kernel⟩,
   ⟨State.reset, by decide +kernel⟩,
   ⟨up, 0x0000000#26, ⟨by decide +kernel, plain_of (by decide +kernel), by decide +kernel⟩⟩,
   ⟨up, 0x0000000#26, by decide +kernel, by decide +kernel, plain_of (by decide +kernel), by decide +kernel,
    plain_of (by decide +kernel), by decide +kernel⟩,
   ⟨up, 0x0000420#26, ⟨by decide +kernel, plain_of (by decide +kernel), by decide +kernel⟩⟩,
   ⟨up, 0x000d010#26, by decide +kernel⟩,
   ⟨up, 0x000d100#26, by decide +kernel⟩,
   ⟨up, 0, by decide +kernel⟩,
   ⟨up, 0x4000, by decide +kernel⟩⟩

/-- States that meet the hypotheses of each clause of `Obligations.BlocksSwitchedOffReadZero`. -/
theorem witness_BlocksSwitchedOffReadZero :
    (∃ (s : State) (off : BitVec 26), memDecoded s = true ∧ offDomain off.toNat ≠ 0 ∧ domOn s (offDomain off.toNat) = false) ∧
    (∃ (s : State) (off : BitVec 26), memDecoded s = true ∧ (off.toNat < 0x00120000 ∨ (0x00200000 ≤ off.toNat ∧ off.toNat < 0x00210000)) ∧ 0x00200000 ≤ off.toNat ∧ off.toNat / 4 * 4 % 0x1000 ≠ 0x10) :=
  ⟨⟨part 3 3, 0x040c000#26, by decide +kernel⟩,
   ⟨up, 0x0203000#26, by decide +kernel⟩⟩

/-- States that meet the hypotheses of each clause of `Obligations.BitBandWritesOneBit`. -/
theorem witness_BitBandWritesOneBit :
    (∃ (s : State) (n : BitVec 23), memDecoded s = true ∧ (let a := n.toNat / 32 * 4
    let i := n.toNat % 32
    Safety.PlainRegister s a ∧ (accessOf a).ctr = false ∧ bitAt (accessOf a).rw i = true ∧ bitAt (accessOf a).w1c i = false)) ∧
    (∃ (s : State) (n : BitVec 23) (v : Word), memDecoded s = true ∧ (let a := n.toNat / 32 * 4
    let i := n.toNat % 32
    Safety.PlainRegister s a ∧ (accessOf a).ctr = false ∧ bitAt (accessOf a).rw i = false ∧ bitAt (accessOf a).w1c i = true ∧ bitAt v 0 = true ∧ bitAt (cycBits s a) i = false)) ∧
    (∃ (s : State) (n : BitVec 23) (v : Word), memDecoded s = true ∧ (let a := n.toNat / 32 * 4
    let i := n.toNat % 32
    Safety.PlainRegister s a ∧ (accessOf a).ctr = false ∧ bitAt (accessOf a).rw i = false ∧ (bitAt (accessOf a).w1c i = false ∨ bitAt v 0 = false ∨ bitAt (cycBits s a) i = true))) ∧
    (∃ (s : State) (n : BitVec 23), memDecoded s = true ∧ (let a := n.toNat / 32 * 4
    0xD010 ≤ a ∧ a < 0xD020)) :=
  ⟨⟨up, 0x000860#23, ⟨by decide +kernel, plain_of (by decide +kernel), by decide +kernel⟩⟩,
   ⟨up, 0x000040#23, 5, ⟨by decide +kernel, plain_of (by decide +kernel), by decide +kernel⟩⟩,
   ⟨up, 0x000000#23, 5, ⟨by decide +kernel, plain_of (by decide +kernel), by decide +kernel⟩⟩,
   ⟨up, 0x068080#23, by decide +kernel⟩⟩

end Sys2Proof.Tests.G36

namespace Sys2Proof.Tests.G39

def ring (r log : Nat) (s : State) : State := put [(rR r 0, 0x80000000 + log*2^16)] s
def rg (rd wr mk rl sb : Nat) : State := put [(rR 1 0x10, wr),(rR 1 0x18, rd),(rR 1 0x20,mk),(rR 1 0x28,rl),(rR 1 0x30,sb)] (ring 1 6 up)
def en (r : Nat) : State := put [(eR 3 0, r * 2^13), (eR 3 0xC, 0x105),(eR 3 0x508,77),(eR 3 0x50C,3),(eR 3 0x600,5),(eR 3 0x610,1)] (modEng up 3 (fun c => {c with loaded := true, stack := [1], reqQ := [⟨0, 0, 0, 0, 0, 0, 0, 0, 0⟩]}))
def opq (v : Nat) (s : State) : State := modRing s 1 (fun c => {c with ops := [BitVec.ofNat 32 v, 7]})

/-- States that meet the hypotheses of each clause of `Obligations.ConsumersMovePointersAndReadTheHead`. -/
theorem witness_ConsumersMovePointersAndReadTheHead :
    (∃ (s : State) (r : Fin 32768) (n : BitVec 24) (op : BitVec 4), memDecoded s = true ∧ blockOff s (rR r.val 0) = false ∧ (let ops : List (Instr × Nat) := [(.ringDoorbellNone r, 0), (.advance r n, 2 ^ 28 + n.toNat), (.mark r, 2 * 2 ^ 28),
      (.rewind r, 3 * 2 ^ 28), (.release r, 4 * 2 ^ 28), (.consume r n, 5 * 2 ^ 28 + n.toNat),
      (.ringDoorbellReserved r op, max 6 op.toNat * 2 ^ 28)]
    (∃ p ∈ ops, ringExists s r.val = false))) ∧
    (∃ (s : State) (r : Fin 32768) (n : BitVec 24) (op : BitVec 4), memDecoded s = true ∧ blockOff s (rR r.val 0) = false ∧ (let ops : List (Instr × Nat) := [(.ringDoorbellNone r, 0), (.advance r n, 2 ^ 28 + n.toNat), (.mark r, 2 * 2 ^ 28),
      (.rewind r, 3 * 2 ^ 28), (.release r, 4 * 2 ^ 28), (.consume r n, 5 * 2 ^ 28 + n.toNat),
      (.ringDoorbellReserved r op, max 6 op.toNat * 2 ^ 28)]
    (∃ p ∈ ops, ringExists s r.val = true))) ∧
    (∃ (s : State) (r : Fin 32768), (getRing s r.val).ops ≠ [] ∧ (let v := List.headD ((getRing s r.val).ops) 0
      let op := fld v 28 4
      op = 0)) ∧
    (∃ (s : State) (r : Fin 32768), (getRing s r.val).ops ≠ [] ∧ (let v := List.headD ((getRing s r.val).ops) 0
      let n := fld v 0 24
      let op := fld v 28 4
      (op = 1 ∨ op = 5) ∧ ringUnread s r.val < n)) ∧
    (∃ (s : State) (r : Fin 32768), (getRing s r.val).ops ≠ [] ∧ (let v := List.headD ((getRing s r.val).ops) 0
      let n := fld v 0 24
      let op := fld v 28 4
      op = 1 ∧ n ≤ ringUnread s r.val)) ∧
    (∃ (s : State) (r : Fin 32768), (getRing s r.val).ops ≠ [] ∧ (let v := List.headD ((getRing s r.val).ops) 0
      let op := fld v 28 4
      op = 2 ∧ (getRing s r.val).markRaise ≠ some (now s))) ∧
    (∃ (s : State) (r : Fin 32768), (getRing s r.val).ops ≠ [] ∧ (let v := List.headD ((getRing s r.val).ops) 0
      let op := fld v 28 4
      op = 3)) ∧
    (∃ (s : State) (r : Fin 32768), (getRing s r.val).ops ≠ [] ∧ (let v := List.headD ((getRing s r.val).ops) 0
      let op := fld v 28 4
      op = 4)) ∧
    (∃ (s : State) (r : Fin 32768), (getRing s r.val).ops ≠ [] ∧ (let v := List.headD ((getRing s r.val).ops) 0
      let n := fld v 0 24
      let op := fld v 28 4
      op = 5 ∧ n ≤ ringUnread s r.val)) ∧
    (∃ (s : State) (r : Fin 32768), (getRing s r.val).ops ≠ [] ∧ (let v := List.headD ((getRing s r.val).ops) 0
      let op := fld v 28 4
      6 ≤ op)) ∧
    (∃ (s : State) (r : Fin 32768), memDecoded s = true ∧ blockOff s (rR r.val 0) = false ∧ (let a := ringBase s r.val + ringRD s r.val % 2 ^ ringLog s r.val
    (ringRD s r.val = ringWR s r.val ∨ ringExists s r.val = false ∨ (ringBadAt s r.val a = false ∧ ringCorrAt s r.val a = false)))) :=
  ⟨⟨up, 1, 0, 0, by decide +kernel⟩,
   ⟨rg 5 20 3 1 0, 1, 0, 0, by decide +kernel⟩,
   ⟨setRing (rg 5 20 3 1 0) 1 {RingCore.init with ops := [5]}, 1, by decide +kernel⟩,
   ⟨opq 0x10000010 (rg 5 20 3 1 0), 1, by decide +kernel⟩,
   ⟨opq 0x10000003 (rg 5 20 3 1 0), 1, by decide +kernel⟩,
   ⟨opq 0x20000000 (rg 5 20 3 1 0), 1, by decide +kernel⟩,
   ⟨opq 0x30000000 (rg 5 20 3 1 0), 1, by decide +kernel⟩,
   ⟨opq 0x40000000 (rg 5 20 3 1 2), 1, by decide +kernel⟩,
   ⟨opq 0x50000004 (rg 120 20 3 1 0), 1, by decide +kernel⟩,
   ⟨opq 0x60000000 (rg 5 20 3 1 0), 1, by decide +kernel⟩,
   ⟨up, 1, by decide +kernel⟩⟩

/-- States that meet the hypotheses of each clause of `Obligations.NoticesAndEngineReset`. -/
theorem witness_NoticesAndEngineReset :
    (∃ (s : State) (e : Fin 256), memDecoded s = true ∧ blockOff s (eR e.val 0) = false ∧ engRun s e.val = runPAUSED) ∧
    (∃ (s : State) (e : Fin 256), memDecoded s = true ∧ blockOff s (eR e.val 0) = false ∧ (let n := (getEng s e.val).notices
    engRun s e.val ≠ runPAUSED ∧ n.pause.isSome = true)) ∧
    (∃ (s : State) (e : Fin 256), memDecoded s = true ∧ blockOff s (eR e.val 0) = false ∧ (let n := (getEng s e.val).notices
    engRun s e.val ≠ runPAUSED ∧ n.pause = none)) ∧
    (∃ (s : State) (e : Fin 256), memDecoded s = true ∧ blockOff s (eR e.val 0) = false ∧ (getEng s e.val).lead = e.val ∧ engRun s e.val ≠ runREPLAY ∧ (getEng s e.val).job = none ∧ (getEng s e.val).lvlHost ≠ some (now s)) ∧
    (∃ (s : State) (e : Fin 256), memDecoded s = true ∧ blockOff s (eR e.val 0) = false ∧ ((getEng s e.val).lead ≠ e.val ∨ engRun s e.val = runREPLAY ∨ (getEng s e.val).job.isSome = true)) :=
  ⟨⟨en 2, 3, by decide +kernel⟩,
   ⟨modEng (en 1) 3 (fun c => {c with notices := {c.notices with pause := some 4, stop := some 5, snap := some 6}}), 3, by decide +kernel⟩,
   ⟨up, 3, by decide +kernel⟩,
   ⟨up, 3, by decide +kernel⟩,
   ⟨modEng (en 5) 3 (fun c => {c with job := some 1}), 3, by decide +kernel⟩⟩

end Sys2Proof.Tests.G39

namespace Sys2Proof.Tests.G41

/-- A word with NA, COND and TARGET, and further fields in place. -/
def word (na cond target rest : Nat) : MicroWord := BitVec.ofNat 192 (na + 2 ^ 4 * cond + 2 ^ 10 * target + rest)

/-- Engine 3 RUNNING with the word `w` at its PC 5; `err` says whether the control store holds it in error (1 corrected, 2 not). -/
def at5 (w : MicroWord) (err : Nat) (stack : List (BitVec 11)) : State :=
  modEng (put [(eR 3 0, 2 ^ 13), (eR 3 0xC, 7), (SYS_CAPTURE, 2), (cntR 3 0, 9), (cntR 3 1, 9), (cntR 3 2, 9), (cntR 3 3, 9),
    (cntR 3 4, 9), (cntR 3 4 + 8, 4)] up) 3 (fun c =>
      { c with
        loaded := true
        pc := 5
        cs := [(5, w)]
        csErr := if err = 0 then [] else [(5, err)]
        stack := stack })

/-- Each next-address row of R129, taken and not taken, on a good, a corrected and an uncorrectable word. -/
theorem witness_WordsChooseTheNextAddress :
    (∀ na < 8, ∀ cond ∈ [0, 1], ∀ err ≤ 1, let s := at5 (word na cond 0x40 0) err [9]
      engExecutes s 3 = true ∧ uNA (csWord (getEng s 3) 5) = na ∧ (getEng s 3).pc = 5 ∧ tabGet 0 (getEng s 3).csErr 5 = err ∧
      Safety.wordCond (Safety.wordState s 3) 3 (csWord (getEng s 3) 5) = decide (cond = 0) ∧ (getEng s 3).job = none ∧
      uSAFE (csWord (getEng s 3) 5) = false) ∧
    (∀ na < 8, let s := at5 (word na 0 0x40 0) 2 []
      engExecutes s 3 = true ∧ uNA (csWord (getEng s 3) 5) = na ∧ tabGet 0 (getEng s 3).csErr 5 = 2) ∧
    (∀ na < 8, let s := at5 (word ((na + 1) % 8) 0 0x40 0) 0 []
      engExecutes s 3 = true ∧ uNA (csWord (getEng s 3) 5) ≠ na) := by
  decide +kernel

/-- A full stack under a CALL, an empty one under a RET. -/
theorem witness_StackHoldsFourAddresses :
    (∃ (e : Fin 256) (s : State), engExecutes s e.val = true ∧
      tabGet 0 (getEng s e.val).csErr (getEng s e.val).pc.toNat = 0 ∧ (getEng s e.val).stack.length ≤ 4) ∧
    (∃ (e : Fin 256) (s : State), engExecutes s e.val = true ∧ (let c := getEng s e.val
      let u := csWord c c.pc.toNat
      tabGet 0 c.csErr c.pc.toNat = 0 ∧ uNA u = 4 ∧ Safety.wordCond s e.val u = true ∧ c.stack.length = 4 ∧
      uSAFE u = false)) ∧
    (∃ (e : Fin 256) (s : State), engExecutes s e.val = true ∧ (let c := getEng s e.val
      let u := csWord c c.pc.toNat
      tabGet 0 c.csErr c.pc.toNat = 0 ∧ uNA u = 5 ∧ Safety.wordCond s e.val u = true ∧ c.stack = [] ∧ c.job = none ∧
      uSAFE u = false)) :=
  ⟨⟨3, at5 (word 0 0 0 0) 0 [1, 2, 3, 4], by decide +kernel⟩,
   ⟨3, at5 (word 4 0 0x40 0) 0 [1, 2, 3, 4], by decide +kernel⟩,
   ⟨3, at5 (word 5 0 0x40 0) 0 [], by decide +kernel⟩⟩

/-- A word that sets the level to 3, publishes 1 in variable 0, counts up, down, to zero and to the reload value, and raises its
event; and a word that leaves all alone. -/
theorem witness_WordsActOnCountersLevelAndMainline :
    (let s := at5 (word 0 0 0 (2 ^ 24 * (1 + 2 ^ 3 * 2 + 2 ^ 6 * 3 + 2 ^ 9 * 4) + 2 ^ 56 * 1 + 2 ^ 60 * 1 + 2 ^ 104 * 1 +
        2 ^ 106 * 3 + 2 ^ 111)) 0 []
      let c := getEng s 3
      let u := csWord c c.pc.toNat
      engExecutes s 3 = true ∧ tabGet 0 c.csErr c.pc.toNat = 0 ∧ c.job = none ∧ engReplay s 3 = false ∧ uSAFE u = false ∧
      uACTQ u = 0 ∧ uNA u = 0 ∧ uLVLOP u = 1 ∧ c.lvlHost ≠ some (now s) ∧ (uPUBE u).testBit 0 = true ∧ uCNT u 0 = 1 ∧
      uCNT u 1 = 2 ∧ uCNT u 2 = 3 ∧ uCNT u 3 = 4 ∧ uCNT u 4 = 0 ∧ uEVT u = true ∧
      ∀ k < 8, rdBit s (cntR 3 k + 0x18) 7 = false ∧ hostWrote s (cntR 3 k) = false ∧ hostWrote s (cntR 3 k + 4) = false) ∧
    (∀ na < 8, let s := at5 (word na 1 0x40 0) 0 []
      let c := getEng s 3
      let u := csWord c c.pc.toNat
      engExecutes s 3 = true ∧ tabGet 0 c.csErr c.pc.toNat = 0 ∧ c.job = none ∧ engReplay s 3 = false ∧ uSAFE u = false ∧
      uACTQ u = 0 ∧ uNA u = na ∧ uLVLOP u = 0 ∧ (uPUBE u).testBit 0 = false) := by
  decide +kernel

end Sys2Proof.Tests.G41

namespace Sys2Proof.Tests.G44

def rq (op key : Nat) : CtxReq := { op := op, key := BitVec.ofNat 64 key, mask := 5, user := 9, imm := 0x1234, stamp := 77, recTick := 50000, issued := 99990, job := 0 }
def wy (v : Bool) (key rank : Nat) : CtxEntry := { key := BitVec.ofNat 64 key, st := 4, stamp := 1000, user := 8, valid := v, rank := BitVec.ofNat 2 rank }
def q1 (pol : Bool) (op key : Nat) (ways : List CtxEntry) : State :=
  let s := modEng up 3 (fun c => { c with reqQ := [rq op key, rq 1 5] })
  let set := ctxHash (BitVec.ofNat 64 key) (ctxSeed s)
  { s with ctx := { s.ctx with policy := pol, sets := [(set, ways)] } }
def qh (pol : Bool) (op key : Nat) (ways : List CtxEntry) : State :=
  let s := { up with ctx := { up.ctx with extQ := [(256, [rq op key])] } }
  let set := ctxHash (BitVec.ofNat 64 key) (ctxSeed s)
  { s with ctx := { s.ctx with policy := pol, sets := [(set, ways)] } }
def W (k : Nat) : List (List CtxEntry) := [[wy true k 1, wy true 7 0, wy false 0 2, wy true 8 3], [wy true 9 1, wy true 7 0, wy false 0 2, wy true 8 3], [wy true 9 1, wy true 7 0, wy true 4 2, wy true 8 3], [wy true 9 1, wy true 7 0, wy true k 3, wy true 8 2], [wy false k 0, wy false k 0, wy false 0 0, wy false 0 0]]
def swp (lim : Nat) (n : Nat) : State := put [(CTX_SWEEP_STEP, 4096), (CTX_AGE_LIMIT, lim)] { up with ctx := { up.ctx with sweepAt := [(2, 100000 - 4096 + n)], sweepRow := [(2, 5)], sets := [(5*64+2, [wy true 9 1, { wy true 7 0 with stamp := 99000}, wy true 4 2, {wy true 8 3 with stamp := 0}])] } }
def clr : State := { put [(mR 0 4,0),(mR 3 4,0),(mR 0 0x14,2),(mR 3 0x14,2)] up with ctx := { up.ctx with clear := some { from_ := 100000 - 4096, switchOn := false } } }
def asr (src : Nat) (t : Int) (f : Capture → Capture) : State := { put [(SYS_CAPTURE,2)] up with capture := f { up.capture with segs := 2, depth := 100, recFrom := 50000, first := 50100, asserts := [{t := t, src := src, origin := 0}] } }
def trg (segs : Nat) (t : Int) : State := { put [(SYS_CAPTURE,3)] up with capture := { up.capture with segs := segs, depth := 100, segIdx := 1, recFrom := 50000, first := 50100, trigs := [{t := t, src := 0x100, origin := 0, decided := 5, seg := 0, shown := true, rings := [], gapped := none}] } }
def fl (m op at_ : Nat) : CtxFlight := { master := m, req := rq op 6, set := ctxHash 6 (ctxSeed up), limit := 0, at_ := at_ }
def fs (pol : Bool) (m op : Nat) (ways : List CtxEntry) : State :=
  let s := modEng up 3 (fun c => { c with resQ := [{ hit := false, full := false, st := 0, issued := 5, visible := 100002 }] })
  { s with ctx := { s.ctx with policy := pol, sets := [(ctxHash 6 (ctxSeed s), ways)], flight := [fl m op 99997] } }
def tm (v r : Nat) : State := put [(eR 3 0, 0x2000), (tmrR 3 1, v), (tmrR 3 1 + 8, 50), (tmrR 3 1 + 0x10, r)] up
def S : List State := ([false,true].flatMap (fun p => [1,2,3,4,5].flatMap (fun op => (W 6).flatMap (fun w => [q1 p op 6 w, qh p op 6 w])))) ++ ([false,true].flatMap (fun p => [1,2,3,4,5].flatMap (fun op => (W 6).map (fun w => fs p 3 op w)))) ++ [{ fs false 3 1 (W 6)[0] with ctx := { (fs false 3 1 (W 6)[0]).ctx with flight := [fl 256 2 99998]}}, up, swp 0 0, swp 0 1, swp 600 0, swp 100000 0,
  { clr with running := [{m:=3,op:=0x401,wait:=.clear,held:=[.ctx]}]}, { clr with running := [{m:=0,op:=0x402,wait:=.clear,held:=[.ctx]}]}, clr,
  put [(eR 3 0, 0x2000), (tmrR 3 1, 50), (tmrR 3 1 + 8, 50), (tmrR 3 1 + 0x10, 2)] up, put [(eR 3 0, 0x2000), (tmrR 3 1, 50), (tmrR 3 1 + 8, 50), (tmrR 3 1 + 0x10, 3)] up,
  tm 49 2, tm 49 3, { tm 50 3 with cycHost := [(tmrR 3 1, 0)] },
  asr 3 60000 id, asr 0x100 99998 id, asr 0x101 60000 id, asr 3 50000 id, asr 0x100 50000 id, asr 3 60000 (fun c => { c with segIdx := 2}), asr 3 60000 (fun c => {c with haltAt := some 70000, depth := 5}),
  trg 1 60000, trg 2 60000, trg 2 99900]

/-- States that meet the hypotheses of each clause of `Obligations.ContextOperationsOnASet`. -/
theorem witness_ContextOperationsOnASet :
    (∃ (m : Fin 258) (s : State) (op : Nat) (i : Instr), (op, i) ∈ [(1, Instr.lookup m), (2, .insert m), (3, .update m), (4, .delete m), (5, .lookupInsert m)] ∧ (∀ q, ctxCompetes s m.val = some q → q.op = op → ctxMayGrant s (ctxBank (reqSet s q)) m.val = false)) ∧
    (∃ (m : Fin 258) (s : State) (op : Nat) (i : Instr), (op, i) ∈ [(1, Instr.lookup m), (2, .insert m), (3, .update m), (4, .delete m), (5, .lookupInsert m)] ∧ (∃ q ∈ ctxCompetes s m.val, q.op = op ∧ ctxMayGrant s (ctxBank (reqSet s q)) m.val = true ∧ m.val < 256)) ∧
    (∃ (s : State) (f : CtxFlight), s.ctx.flight = [f]) ∧
    (∃ (s : State) (f : CtxFlight) (j : Nat), f.req.op ∈ [1, 2, 3, 4, 5] ∧ (let ways := ctxSet s f.set
    tabGet 0 s.ctx.rowErr f.set = 0 ∧ f.limit = 0 ∧ ways.length = 4 ∧ j ≠ f.set)) ∧
    (∃ (s : State) (f : CtxFlight), f.req.op ∈ [1, 2, 3, 4, 5] ∧ (let ways := ctxSet s f.set
    tabGet 0 s.ctx.rowErr f.set = 0 ∧ f.limit = 0 ∧ ways.length = 4 ∧ f.master < 256 ∧ (∃ r ∈ (getEng s f.master).resQ, r.visible = f.at_ + 5))) ∧
    (∃ (s : State) (f : CtxFlight) (j : Nat), f.req.op ∈ [1, 2, 3, 4, 5] ∧ (let q := f.req
    let ways := ctxSet s f.set
    tabGet 0 s.ctx.rowErr f.set = 0 ∧ f.limit = 0 ∧ ways.length = 4 ∧ (∃ w ∈ findWay ways q.key, j < 4 ∧ j ≠ w))) ∧
    (∃ (s : State) (f : CtxFlight), f.req.op ∈ [1, 2, 3, 4, 5] ∧ (let q := f.req
    let ways := ctxSet s f.set
    tabGet 0 s.ctx.rowErr f.set = 0 ∧ f.limit = 0 ∧ ways.length = 4 ∧ (∃ w ∈ findWay ways q.key, q.op ≠ 4))) ∧
    (∃ (s : State) (f : CtxFlight), f.req.op ∈ [1, 2, 3, 4, 5] ∧ (let q := f.req
    let ways := ctxSet s f.set
    tabGet 0 s.ctx.rowErr f.set = 0 ∧ f.limit = 0 ∧ ways.length = 4 ∧ (∃ w ∈ findWay ways q.key, (q.op = 1 ∨ q.op = 5)))) ∧
    (∃ (s : State) (f : CtxFlight), f.req.op ∈ [1, 2, 3, 4, 5] ∧ (let q := f.req
    let ways := ctxSet s f.set
    tabGet 0 s.ctx.rowErr f.set = 0 ∧ f.limit = 0 ∧ ways.length = 4 ∧ (∃ w ∈ findWay ways q.key, q.op = 2))) ∧
    (∃ (s : State) (f : CtxFlight), f.req.op ∈ [1, 2, 3, 4, 5] ∧ (let q := f.req
    let ways := ctxSet s f.set
    tabGet 0 s.ctx.rowErr f.set = 0 ∧ f.limit = 0 ∧ ways.length = 4 ∧ (∃ w ∈ findWay ways q.key, q.op = 3))) ∧
    (∃ (s : State) (f : CtxFlight), f.req.op ∈ [1, 2, 3, 4, 5] ∧ (let q := f.req
    let ways := ctxSet s f.set
    tabGet 0 s.ctx.rowErr f.set = 0 ∧ f.limit = 0 ∧ ways.length = 4 ∧ (∃ w ∈ findWay ways q.key, q.op = 4))) ∧
    (∃ (s : State) (f : CtxFlight), f.req.op ∈ [1, 2, 3, 4, 5] ∧ (let q := f.req
    let ways := ctxSet s f.set
    tabGet 0 s.ctx.rowErr f.set = 0 ∧ f.limit = 0 ∧ ways.length = 4 ∧ findWay ways q.key = none ∧ (q.op = 1 ∨ q.op = 3 ∨ q.op = 4))) ∧
    (∃ (s : State) (f : CtxFlight) (j : Nat), f.req.op ∈ [1, 2, 3, 4, 5] ∧ (let q := f.req
    let ways := ctxSet s f.set
    tabGet 0 s.ctx.rowErr f.set = 0 ∧ f.limit = 0 ∧ ways.length = 4 ∧ findWay ways q.key = none ∧ (q.op = 2 ∨ q.op = 5) ∧ (∃ w ∈ freeWay ways, j < 4 ∧ j ≠ w))) ∧
    (∃ (s : State) (f : CtxFlight), f.req.op ∈ [1, 2, 3, 4, 5] ∧ (let q := f.req
    let ways := ctxSet s f.set
    tabGet 0 s.ctx.rowErr f.set = 0 ∧ f.limit = 0 ∧ ways.length = 4 ∧ findWay ways q.key = none ∧ (q.op = 2 ∨ q.op = 5) ∧ freeWay ways = none ∧ s.ctx.policy = false)) ∧
    (∃ (s : State) (f : CtxFlight) (j : Nat), f.req.op ∈ [1, 2, 3, 4, 5] ∧ (let q := f.req
    let ways := ctxSet s f.set
    tabGet 0 s.ctx.rowErr f.set = 0 ∧ f.limit = 0 ∧ ways.length = 4 ∧ findWay ways q.key = none ∧ (q.op = 2 ∨ q.op = 5) ∧ freeWay ways = none ∧ s.ctx.policy = true ∧ j < 4 ∧ j ≠ rankOldest ways)) :=
  ⟨⟨3, S.getD 0 up, 2, .insert 3, by decide +kernel⟩,
   ⟨3, S.getD 0 up, 1, .lookup 3, by decide +kernel⟩,
   ⟨S.getD 100 up, fl 3 1 99997, by decide +kernel⟩,
   ⟨S.getD 0 up, fl 3 1 99997, 0, by decide +kernel⟩,
   ⟨S.getD 100 up, fl 3 1 99997, by decide +kernel⟩,
   ⟨S.getD 0 up, fl 3 1 99997, 1, by decide +kernel⟩,
   ⟨S.getD 0 up, fl 3 1 99997, by decide +kernel⟩,
   ⟨S.getD 0 up, fl 3 1 99997, by decide +kernel⟩,
   ⟨S.getD 0 up, fl 3 2 99997, by decide +kernel⟩,
   ⟨S.getD 0 up, fl 3 3 99997, by decide +kernel⟩,
   ⟨S.getD 0 up, fl 3 4 99997, by decide +kernel⟩,
   ⟨S.getD 2 up, fl 3 1 99997, by decide +kernel⟩,
   ⟨S.getD 2 up, fl 3 2 99997, 0, by decide +kernel⟩,
   ⟨S.getD 4 up, fl 3 2 99997, by decide +kernel⟩,
   ⟨S.getD 54 up, fl 3 2 99997, 0, by decide +kernel⟩⟩

/-- States that meet the hypotheses of each clause of `Obligations.SweepAndClear`. -/
theorem witness_SweepAndClear :
    (∃ (s : State) (b : Fin 64),
    let due := domReady s 15 = true ∧ ctxStep s ≠ 0 ∧ tabGet 0 s.ctx.sweepAt b.val + ctxStep s ≤ now s ∧
      ctxContenders s b.val = [] ∧ tabGet 0 s.ctx.granted b.val ≠ now s + 1
    ¬due) ∧
    (∃ (s : State) (b : Fin 64),
    let done := tabGet 0 s.ctx.sweepRow b.val
    let set := done % 4096 * 64 + b.val
    let due := domReady s 15 = true ∧ ctxStep s ≠ 0 ∧ tabGet 0 s.ctx.sweepAt b.val + ctxStep s ≤ now s ∧
      ctxContenders s b.val = [] ∧ tabGet 0 s.ctx.granted b.val ≠ now s + 1
    due ∧ tabGet 0 s.ctx.rowErr set = 0 ∧ ctxAgeLimit s = 0) ∧
    (∃ (s : State) (b : Fin 64),
    let done := tabGet 0 s.ctx.sweepRow b.val
    let set := done % 4096 * 64 + b.val
    let due := domReady s 15 = true ∧ ctxStep s ≠ 0 ∧ tabGet 0 s.ctx.sweepAt b.val + ctxStep s ≤ now s ∧
      ctxContenders s b.val = [] ∧ tabGet 0 s.ctx.granted b.val ≠ now s + 1
    due ∧ tabGet 0 s.ctx.rowErr set = 0 ∧ ctxAgeLimit s ≠ 0 ∧ (ctxSet s set).length = 4) ∧
    (∃ (s : State) (c : CtxClear), domReady s 15 = true ∧ s.ctx.clear = some c ∧ c.from_ + 4096 ≤ now s ∧ s.running = []) ∧
    (∃ (s : State) (c : CtxClear) (x : RunCmd), domReady s 15 = true ∧ s.ctx.clear = some c ∧ c.from_ + 4096 ≤ now s ∧ s.running = [x] ∧ x.wait = .clear) :=
  ⟨⟨S.getD 0 up, 2, by decide +kernel⟩,
   ⟨S.getD 152 up, 2, by decide +kernel⟩,
   ⟨S.getD 154 up, 2, by decide +kernel⟩,
   ⟨S.getD 158 up, { from_ := 100000 - 4096, switchOn := false }, by decide +kernel⟩,
   ⟨S.getD 156 up, { from_ := 100000 - 4096, switchOn := false }, { m := 3, op := 1025, wait := Sys2Proof.Machine.Wait.clear, held := [Sys2Proof.Machine.Res.ctx] }, by decide +kernel⟩⟩

/-- States that meet the hypotheses of each clause of `Obligations.TimersTriggersAndSegments`. -/
theorem witness_TimersTriggersAndSegments :
    (∃ (e : Fin 256) (k : Fin 4) (s : State),
    let v := tmrVal s e.val k.val
    let l := tmrLimit s e.val k.val
    let auto := tmrAuto s e.val k.val
    let due := tmrRunning s e.val k.val = true ∧ (∀ p ∈ (getEng s e.val).tmrOld, p.1 ≠ k.val) ∧ engCounts s e.val = true ∧
      (v + 1 = l ∨ (auto = true ∧ v = l))
    ¬due) ∧
    (∃ (e : Fin 256) (k : Fin 4) (s : State),
    let v := tmrVal s e.val k.val
    let l := tmrLimit s e.val k.val
    let auto := tmrAuto s e.val k.val
    let host := hostWrote48 s (tmrR e.val k.val)
    let due := tmrRunning s e.val k.val = true ∧ (∀ p ∈ (getEng s e.val).tmrOld, p.1 ≠ k.val) ∧ engCounts s e.val = true ∧
      (v + 1 = l ∨ (auto = true ∧ v = l))
    due ∧ v = l ∧ host = false) ∧
    (∃ (e : Fin 256) (k : Fin 4) (s : State),
    let v := tmrVal s e.val k.val
    let l := tmrLimit s e.val k.val
    let auto := tmrAuto s e.val k.val
    let host := hostWrote48 s (tmrR e.val k.val)
    let due := tmrRunning s e.val k.val = true ∧ (∀ p ∈ (getEng s e.val).tmrOld, p.1 ≠ k.val) ∧ engCounts s e.val = true ∧
      (v + 1 = l ∨ (auto = true ∧ v = l))
    due ∧ v = l ∧ host = true) ∧
    (∃ (e : Fin 256) (k : Fin 4) (s : State),
    let v := tmrVal s e.val k.val
    let l := tmrLimit s e.val k.val
    let auto := tmrAuto s e.val k.val
    let due := tmrRunning s e.val k.val = true ∧ (∀ p ∈ (getEng s e.val).tmrOld, p.1 ≠ k.val) ∧ engCounts s e.val = true ∧
      (v + 1 = l ∨ (auto = true ∧ v = l))
    due ∧ v ≠ l) ∧
    (∃ (s : State) (a : Assertion), s.capture.asserts = [a] ∧ assertReplaces s a.t = false ∧ (now s : Int) < a.t + s.lrel + 3) ∧
    (∃ (s : State) (a : Assertion), s.capture.asserts = [a] ∧ assertReplaces s a.t = false ∧ a.t + s.lrel + 3 ≤ (now s : Int) ∧ arbiterOpen s a.t = true) ∧
    (∃ (s : State) (a : Assertion), s.capture.asserts = [a] ∧ assertReplaces s a.t = false ∧ a.t + s.lrel + 3 ≤ (now s : Int) ∧ arbiterOpen s a.t = false ∧ 256 ≤ a.src) ∧
    (∃ (s : State) (a : Assertion), s.capture.asserts = [a] ∧ assertReplaces s a.t = false ∧ a.t + s.lrel + 3 ≤ (now s : Int) ∧ arbiterOpen s a.t = false ∧ a.src < 256) ∧
    (∃ (s : State) (tr : Trig), s.capture.trigs = [tr] ∧ capActive s = true ∧ s.capture.haltAt = none ∧ segDone s < 2 ^ 17 - 1 ∧ (now s : Int) < trigEnd s tr + 81 + s.lrel) ∧
    (∃ (s : State) (tr : Trig), s.capture.trigs = [tr] ∧ capActive s = true ∧ s.capture.haltAt = none ∧ segDone s < 2 ^ 17 - 1 ∧ trigEnd s tr + 81 + s.lrel ≤ (now s : Int) ∧ s.capture.segs ≤ segDone s + 1) ∧
    (∃ (s : State) (tr : Trig), s.capture.trigs = [tr] ∧ capActive s = true ∧ s.capture.haltAt = none ∧ segDone s < 2 ^ 17 - 1 ∧ trigEnd s tr + 81 + s.lrel ≤ (now s : Int) ∧ segDone s + 1 < s.capture.segs) :=
  ⟨⟨3, 0, S.getD 0 up, by decide +kernel⟩,
   ⟨3, 1, S.getD 160 up, by decide +kernel⟩,
   ⟨3, 1, S.getD 163 up, by decide +kernel⟩,
   ⟨3, 1, S.getD 161 up, by decide +kernel⟩,
   ⟨S.getD 165 up, { t := 99998, src := 256, origin := 0 }, by decide +kernel⟩,
   ⟨S.getD 164 up, { t := 60000, src := 3, origin := 0 }, by decide +kernel⟩,
   ⟨S.getD 168 up, { t := 50000, src := 256, origin := 0 }, by decide +kernel⟩,
   ⟨S.getD 167 up, { t := 50000, src := 3, origin := 0 }, by decide +kernel⟩,
   ⟨S.getD 173 up, { t := 99900, src := 256, origin := 0, decided := 5, seg := 0, shown := true, rings := [], gapped := none }, by decide +kernel⟩,
   ⟨S.getD 171 up, { t := 60000, src := 256, origin := 0, decided := 5, seg := 0, shown := true, rings := [], gapped := none }, by decide +kernel⟩,
   ⟨S.getD 172 up, { t := 60000, src := 256, origin := 0, decided := 5, seg := 0, shown := true, rings := [], gapped := none }, by decide +kernel⟩⟩

end Sys2Proof.Tests.G44

namespace Sys2Proof.Tests.G47

def cst (v : Nat) (s : State) : State := wrF s SYS_CAPTURE 0 3 v
def ring (r log : Nat) (s : State) : State := put [(rR r 0, 0x80000000 + log*2^16)] s
def bind (n mode r : Nat) (s : State) : State := put [(strR n 0, 0x80000000 + mode * 2^26), (strR n 4, r)] s
def sl (t : Nat) : Slice := { tick := t, payload := 0x12345678, valid := true, live := true, bad := none, qual := some true, marks := [] }
def cap (s : State) : State := { cst 2 s with capture := { s.capture with segs := 2, depth := 100, recFrom := 50000, first := 50100 } }
def ln (x : Slice) (f : StreamCore → StreamCore) : State := modStr (modLane (cap (put [(lR 3 0, 0x17)] (bind 3 1 1 (ring 1 10 up)))) 3 (fun l => { l with hist := [sl 99950, x, sl 99900] })) 3 f
def rc (len : Nat) (ord : Nat) : Rec := { typ := 1, flags := 3, source := 5, words := (List.range len).map (fun i => BitVec.ofNat 64 (i * 0x0101010101010101 + 7)), bad := [], ring := 1, ord := ord, firstTs := 5, lastTs := 9 }
def rg (n len : Nat) : State := modStr (put [(rR 1 0x10, 60),(rR 1 0x28,5),(rR 1 0x20,5),(rR 1 0x18,5),(rR 1 0x48,77),(rR 1 8, 3)] (ring 1 6 (cap up))) n (fun c => {c with staged := [rc len 5, rc 3 6]})

/-- States that meet the hypotheses of each clause of `Obligations.SlicesBecomeRecords`. -/
theorem witness_SlicesBecomeRecords :
    (∃ (n : Fin 256) (s : State),
    let c := getStr s n.val
    let k : Int := (now s : Int) - 80 - s.lrel
    ((∃ d, c.doneK = some d ∧ k ≤ d) ∨ strBound s n.val = false ∨ strModeOf s n.val = 0 ∨ laneFmt s n.val = 0)) ∧
    (∃ (n : Fin 256) (s : State) (x : Slice) (items : (List Word64)),
    let c := getStr s n.val
    let k : Int := (now s : Int) - 80 - s.lrel
    (∀ d, c.doneK = some d → d < k) ∧ strBound s n.val = true ∧ strModeOf s n.val = 1 ∧ (laneFmt s n.val = 1 ∨ laneFmt s n.val = 2) ∧ domReady s 16 = true ∧ domReady s 2 = true ∧ covers s k = true ∧ s.capture.trigs = [] ∧ s.capture.owed = [] ∧ (getLane s n.val).hist.find? (fun x => decide ((x.tick : Int) = k + s.lrel)) = some x ∧ x.marks = [] ∧ c.loss = none ∧ x.live = true ∧ x.valid = true ∧ x.bad = none ∧ x.qual = some true ∧ c.dead = none ∧ stageNet c ≤ 129000 ∧ lineFull c 3 = false ∧ (c.openRec = none ∧ items = [] ∨ ∃ o, c.openRec = some o ∧ o.typ = tySAMPLE ∧ o.items = items) ∧ items.length < 1023) ∧
    (∃ (n : Fin 256) (s : State) (x : Slice) (f : Int) (cnt : Nat),
    let c := getStr s n.val
    let k : Int := (now s : Int) - 80 - s.lrel
    (∀ d, c.doneK = some d → d < k) ∧ strBound s n.val = true ∧ strModeOf s n.val = 1 ∧ (laneFmt s n.val = 1 ∨ laneFmt s n.val = 2) ∧ domReady s 16 = true ∧ domReady s 2 = true ∧ covers s k = true ∧ s.capture.trigs = [] ∧ s.capture.owed = [] ∧ (getLane s n.val).hist.find? (fun x => decide ((x.tick : Int) = k + s.lrel)) = some x ∧ x.marks = [] ∧ c.loss = none ∧ x.live = false ∧ c.dead = some (f, cnt) ∧ cnt < 65535) :=
  ⟨⟨3, up, by decide +kernel⟩,
   ⟨3, ln (sl 99920) id, { tick := 99920, payload := 0x12345678#32, valid := true, live := true, bad := none, qual := some true, marks := [] }, [], by decide +kernel⟩,
   ⟨3, ln {sl 99920 with live := false, valid := false, qual := none} (fun c => {c with dead := some (99000,4)}), { tick := 99920, payload := 0x12345678#32, valid := false, live := false, bad := none, qual := none, marks := [] }, 99000, 4, by decide +kernel⟩⟩

/-- States that meet the hypotheses of each clause of `Obligations.RecordsReachTheirRings`. -/
theorem witness_RecordsReachTheirRings :
    (∃ (s : State) (r : Nat) (n : Fin 4096), r < 32768 ∧ domReady s 22 = true ∧ ringExists s r = true ∧ (getRing s r).commitAt ≠ some (now s) ∧ (∃ rec ∈ List.head? ((getStr s n.val).staged), rec.ring = r ∧ rec.bad = [] ∧ (getStr s n.val).corr = 0 ∧ (getStr s n.val).loss = none ∧ s.capture.segMarks = [] ∧ stageIsNext s rec = true ∧ ringRefusing s r = false ∧ jobWaits s n.val rec = false ∧ rec.words.length < 4096 ∧ rec.words.length + 1 ≤ ringFreeForCommit s r)) ∧
    (∃ (s : State) (r : Nat) (n : Fin 4096), r < 32768 ∧ domReady s 22 = true ∧ ringExists s r = true ∧ (getRing s r).commitAt ≠ some (now s) ∧ (∃ rec ∈ List.head? ((getStr s n.val).staged), rec.ring = r ∧ rec.bad = [] ∧ (getStr s n.val).corr = 0 ∧ (getStr s n.val).loss = none ∧ s.capture.segMarks = [] ∧ stageIsNext s rec = true ∧ ringRefusing s r = false ∧ jobWaits s n.val rec = false ∧ rec.words.length < 4096 ∧ ringFreeForCommit s r < rec.words.length + 1 ∧ (n.val < 0x290 ∨ 0x2A0 ≤ n.val) ∧ (ringAuto s r = false ∨ capState s ≠ 2))) ∧
    (∃ (s : State) (r : Nat) (r' : Fin 32768) (l : Loss), r < 32768 ∧ domReady s 22 = true ∧ ringExists s r = true ∧ (getRing s r).commitAt ≠ some (now s) ∧ r'.val = r ∧ (getRing s r).batch = [] ∧ (getRing s r).losses = [l] ∧ 4 ≤ ringFreeForCommit s r) ∧
    (∃ (s : State) (r : Nat) (r' : Fin 32768), r < 32768 ∧ domReady s 22 = true ∧ ringExists s r = true ∧ (getRing s r).commitAt ≠ some (now s) ∧ r'.val = r ∧ ringTimerPassed s r = true) ∧
    (∃ (s : State) (r : Nat) (r' : Fin 32768), r < 32768 ∧ domReady s 22 = true ∧ ringExists s r = true ∧ (getRing s r).commitAt ≠ some (now s) ∧ r'.val = r ∧ ringTimerPassed s r = false) :=
  ⟨⟨rg 3 4, 1, 3, by decide +kernel⟩,
   ⟨rg 3 9, 1, 3, by decide +kernel⟩,
   ⟨modRing (rg 3 4) 1 (fun c => { c with losses := [{stream := 3, first := 5, last := 8, count := 4}]}), 1, 1, {stream := 3, first := 5, last := 8, count := 4}, by decide +kernel⟩,
   ⟨put [(rR 1 0x38, 0x50000)] (modRing (rg 3 4) 1 (fun c => { c with oldest := some 5})), 1, 1, by decide +kernel⟩,
   ⟨ln (sl 99920) id, 1, 1, by decide +kernel⟩⟩

end Sys2Proof.Tests.G47

namespace Sys2Proof.Tests.G49

def lineOK : List (BitVec 40) := [0x4D00000000,0x1F00000000,0xB200000000,0xC600000000] ++ List.replicate 60 0
def base (st : Nat) : State := put [(lR 3 0, 0x10 + st), (lR 3 0x1C, 5)] up
def sl (t : Nat) : Slice := { tick := t, payload := 0x12345678, valid := true, live := true, bad := none, qual := none, marks := [] }
def rt (f : RetCore → RetCore) : State := setRet { put [(lR 24 0, 0x17)] up with time := 64000 } 3 (f RetCore.init)
def tr (st : Nat) (at_ : Nat) (rel : Bool) (f : LaneCore → LaneCore) : State :=
  let s := modLane (put [(mR 0 0x14,2),(mR 0 4,0),(lR 3 0x44, 1), (lR 3 0x38, 0x10000), (lR 3 0, 0x110 + st)] up) 3 (fun l => f { l with phaseAt := at_ })
  { s with running := [{ m := 0, op := 0x202, wait := .train [3] rel, held := [.lane 3] }], lrel := 20 }
def ech (rtt turn : Nat) : Echo := { lane := 3, rtt := BitVec.ofNat 24 rtt, tag := 0x80000055, turn := BitVec.ofNat 32 turn }
def blk (b : Bool) : List Word := [0x7A110E5C, 0x123, 0x456, 0x00070000, 0, 0] ++ List.replicate 58 (if b then 0 else 1)
def sf (g : Bool) : RetFrame := {words := [7,8], waiter := none, sync := [3,1], go := g}

/-- States that meet the hypotheses of each clause of `Obligations.LinesSlicesAndLostLanes`. -/
theorem witness_LinesSlicesAndLostLanes :
    (∃ (n : Fin 256) (line : List (BitVec 40)) (s : State),
    let sf := (getLane s n.val).sf
    let takes := laneClocked s n.val = true ∧
      (3 ≤ lanePhase s n.val ∨ laneState s n.val = 7) ∧ (∀ c, sf.cur = some c → c.first + 64 ≤ now s) ∧ line.length = 64
    ¬takes) ∧
    (∃ (n : Fin 256) (line : List (BitVec 40)) (s : State),
    let sf := (getLane s n.val).sf
    let takes := laneClocked s n.val = true ∧
      (3 ≤ lanePhase s n.val ∨ laneState s n.val = 7) ∧ (∀ c, sf.cur = some c → c.first + 64 ≤ now s) ∧ line.length = 64
    takes) ∧
    (∃ (n : Fin 256) (s : State), laneState s n.val ≠ 7 ∧ lanePhase s n.val = 0) ∧
    (∃ (n : Fin 256) (s : State), (laneState s n.val = 7 ∨ lanePhase s n.val ≠ 0)) ∧
    (∃ (n : Fin 256) (s : State), (∃ x ∈ (getLane s n.val).lossAt, x < now s ∧ laneState s n.val = 7 ∧ (getLane s n.val).sf.pend = none)) ∧
    (∃ (n : Fin 256) (s : State), (∃ x ∈ (getLane s n.val).lossAt, now s ≤ x)) ∧
    (∃ (n : Fin 256) (s : State), domReady s (domLink n.val) = true ∧ domReady s 2 = true ∧ (∃ x ∈ (getLane s n.val).hist, x.tick = now s)) ∧
    (∃ (n : Fin 256) (s : State), domReady s (domLink n.val) = true ∧ domReady s 2 = true ∧ (∀ x ∈ (getLane s n.val).hist, x.tick ≠ now s)) ∧
    (∃ (k : Fin 32) (s : State),
    let sends := retActive s k.val = true ∧ laneClocked s (8 * k.val) = true ∧ now s % 64 = 0 ∧
      ∀ x, (getRet s k.val).lastAt = some x → x + 64 ≤ now s
    ¬sends) ∧
    (∃ (k : Fin 32) (s : State),
    let sends := retActive s k.val = true ∧ laneClocked s (8 * k.val) = true ∧ now s % 64 = 0 ∧
      ∀ x, (getRet s k.val).lastAt = some x → x + 64 ≤ now s
    let r := getRet s k.val
    sends ∧ r.busy = false ∧ r.queue = [] ∧ r.part = []) :=
  ⟨⟨3, lineOK, up, by decide +kernel⟩,
   ⟨3, lineOK, base 7, by decide +kernel⟩,
   ⟨3, up, by decide +kernel⟩,
   ⟨3, base 7, by decide +kernel⟩,
   ⟨3, modLane (base 7) 3 (fun l => {l with lossAt := some 99999}), by decide +kernel⟩,
   ⟨3, modLane (base 7) 3 (fun l => {l with lossAt := some 100000}), by decide +kernel⟩,
   ⟨3, modLane (base 7) 3 (fun l => {l with hist := [sl 100000]}), by decide +kernel⟩,
   ⟨3, up, by decide +kernel⟩,
   ⟨3, up, by decide +kernel⟩,
   ⟨3, rt id, by decide +kernel⟩⟩

/-- States that meet the hypotheses of each clause of `Obligations.LanesTrainPhaseByPhase`. -/
theorem witness_LanesTrainPhaseByPhase :
    (∃ (n : Fin 256) (s : State) (c : RunCmd) (setRel : Bool), s.running = [c] ∧ c.m < 16 ∧ c.wait = .train [n.val] setRel ∧ (let L := n.val
    inPhase s L 1 = true)) ∧
    (∃ (n : Fin 256) (s : State) (c : RunCmd) (setRel : Bool), s.running = [c] ∧ c.m < 16 ∧ c.wait = .train [n.val] setRel ∧ (let L := n.val
    inPhase s L 2 = true)) ∧
    (∃ (n : Fin 256) (s : State) (c : RunCmd) (setRel : Bool) (b : (List Word)), s.running = [c] ∧ c.m < 16 ∧ c.wait = .train [n.val] setRel ∧ (let l := getLane s n.val
    let L := n.val
    inPhase s L 3 = true ∧ l.ready3 = false ∧ rdBit s (lR L 0) 8 = true ∧ 4 ≤ l.sf.crcRun ∧ blockValid b = true)) ∧
    (∃ (n : Fin 256) (s : State) (c : RunCmd) (setRel : Bool) (b : (List Word)), s.running = [c] ∧ c.m < 16 ∧ c.wait = .train [n.val] setRel ∧ (let l := getLane s n.val
    let L := n.val
    inPhase s L 3 = true ∧ l.ready3 = false ∧ rdBit s (lR L 0) 8 = true ∧ 4 ≤ l.sf.crcRun ∧ blockValid b = false)) ∧
    (∃ (n : Fin 256) (s : State) (c : RunCmd) (setRel : Bool), s.running = [c] ∧ c.m < 16 ∧ c.wait = .train [n.val] setRel ∧ (let L := n.val
    inPhase s L 4 = true)) ∧
    (∃ (n : Fin 256) (s : State) (c : RunCmd) (setRel : Bool) (e : Echo), s.running = [c] ∧ c.m < 16 ∧ c.wait = .train [n.val] setRel ∧ (let l := getLane s n.val
    let L := n.val
    e.lane = n ∧ inPhase s L 5 = true ∧ l.echo = none ∧ e.tag = (0x80000000 ||| l.tag.setWidth 32) ∧ fld e.turn 24 8 = 0 ∧ 0 ≤ laneLatency s L e ∧ rdBit s (lR L 0x38) (15 + laneFmt s L) = true ∧ (setRel = true ∨ laneLatency s L e / 256 ≤ s.lrel ∧ (s.lrel : Int) ≤ laneLatency s L e / 256 + 64))) ∧
    (∃ (n : Fin 256) (s : State) (c : RunCmd) (setRel : Bool), s.running = [c] ∧ c.m < 16 ∧ c.wait = .train [n.val] setRel ∧ (let l := getLane s n.val
    let L := n.val
    inPhase s L 6 = true ∧ 16 ≤ l.sf.liveRun ∧ domReady s 2 = true)) ∧
    (∃ (n : Fin 256) (s : State) (c : RunCmd) (setRel : Bool) (second : _), s.running = [c] ∧ c.m < 16 ∧ c.wait = .train [n.val] setRel ∧ (let l := getLane s n.val
    let L := n.val
    lanePhase s L ≠ 0 ∧ domReady s (domLink L) = true ∧ l.ready3 = false ∧ l.echo = none ∧ l.phaseAt + (if lanePhase s L = 2 ∧ second = false then 15000000 else phaseLimit (lanePhase s L)) ≤ s.ns ∧ (lanePhase s L = 2 → second = false))) :=
  ⟨⟨3, tr 2 10 true id, { m := 0, op := 514, wait := Sys2Proof.Machine.Wait.train [3] true, held := [Sys2Proof.Machine.Res.lane 3] }, true, by decide +kernel⟩,
   ⟨3, tr 3 10 true id, { m := 0, op := 514, wait := Sys2Proof.Machine.Wait.train [3] true, held := [Sys2Proof.Machine.Res.lane 3] }, true, by decide +kernel⟩,
   ⟨3, tr 4 999990 true (fun l => {l with sf := {l.sf with crcRun := 4}}), { m := 0, op := 514, wait := Sys2Proof.Machine.Wait.train [3] true, held := [Sys2Proof.Machine.Res.lane 3] }, true, blk true, by decide +kernel⟩,
   ⟨3, tr 4 999990 true (fun l => {l with sf := {l.sf with crcRun := 4}}), { m := 0, op := 514, wait := Sys2Proof.Machine.Wait.train [3] true, held := [Sys2Proof.Machine.Res.lane 3] }, true, blk false, by decide +kernel⟩,
   ⟨3, tr 5 10 true id, { m := 0, op := 514, wait := Sys2Proof.Machine.Wait.train [3] true, held := [Sys2Proof.Machine.Res.lane 3] }, true, by decide +kernel⟩,
   ⟨3, tr 6 10 true (fun l => {l with tag := 0x55}), { m := 0, op := 514, wait := Sys2Proof.Machine.Wait.train [3] true, held := [Sys2Proof.Machine.Res.lane 3] }, true, ech 1000 100, by decide +kernel⟩,
   ⟨3, tr 10 10 true (fun l => {l with sf := {l.sf with liveRun := 16}}), { m := 0, op := 514, wait := Sys2Proof.Machine.Wait.train [3] true, held := [Sys2Proof.Machine.Res.lane 3] }, true, by decide +kernel⟩,
   ⟨3, { tr 2 0 true id with ns := 2000000}, { m := 0, op := 514, wait := Sys2Proof.Machine.Wait.train [3] true, held := [Sys2Proof.Machine.Res.lane 3] }, true, false, by decide +kernel⟩⟩

end Sys2Proof.Tests.G49

namespace Sys2Proof.Tests.G51

def cst (v : Nat) (s : State) : State := wrF s SYS_CAPTURE 0 3 v
def lpp (m : Bool) (p : Option Nat) (s : State) : State := wrBit { s with loop := { s.loop with n := 4, pos := p, phase := 9, syncErr := 5, txq := [⟨mkFrame 6 0 0 0 0 0 0, trailerNew, 0⟩] } } SYS_CAPTURE 3 m
def cap (s : State) : State := { s with capture := { s.capture with segs := 2, depth := 100, recFrom := 50000, first := 50100 } }
def run (w : Wait) (s : State) : State := { put [(mR 0 0x14, 2),(mR 0 4, 0)] s with running := [{ m := 0, op := 0xD01, wait := w, held := [.loop] }] }
def tg (t src o : Nat) (s : State) : State := { s with capture := { s.capture with trigs := [{t := t, src := src, origin := o, decided := 5, seg := 0, shown := true, rings := [1], gapped := none}], segIdx := 1 } }
def late (s : State) : State := { s with loop := { s.loop with late := true } }
def tx (k op : Nat) (s : State) : State := { s with loop := { s.loop with txq := [⟨mkFrame k 2 0 0 101000 0 op, trailerNew, 0⟩] } }

/-- States that meet the hypotheses of each clause of `Obligations.FramesOfOtherDevicesPass`. -/
theorem witness_FramesOfOtherDevicesPass :
    (∃ (f : BitVec 192) (s : State), domReady s 2 = true ∧ frameOwn s f = false ∧ (let l := s.loop
    frOk f = true ∧ frKind f = 1 ∧ (∀ c ∈ s.running, ∀ a, c.wait ≠ .census a) ∧ l.late = false)) ∧
    (∃ (f : BitVec 192) (s : State), domReady s 2 = true ∧ frameOwn s f = false ∧ (let l := s.loop
    frOk f = true ∧ frKind f = 1 ∧ (∀ c ∈ s.running, ∀ a, c.wait ≠ .census a) ∧ l.late = true)) ∧
    (∃ (f : BitVec 192) (s : State) (p : Nat), domReady s 2 = true ∧ frameOwn s f = false ∧ (let l := s.loop
    frOk f = true ∧ frKind f = 2 ∧ l.pos = some p)) ∧
    (∃ (f : BitVec 192) (s : State) (p : Nat), domReady s 2 = true ∧ frameOwn s f = false ∧ (let l := s.loop
    frOk f = true ∧ frKind f = 3 ∧ l.pos = some p)) ∧
    (∃ (f : BitVec 192) (s : State) (p : Nat), domReady s 2 = true ∧ frameOwn s f = false ∧ (let l := s.loop
    frOk f = true ∧ frKind f = 4 ∧ l.pos = some p)) ∧
    (∃ (f : BitVec 192) (s : State) (p : Nat), domReady s 2 = true ∧ frameOwn s f = false ∧ (let l := s.loop
    frOk f = true ∧ frKind f = 5 ∧ l.pos = some p ∧ (∃ z ∈ firstFail (remoteChecks s f), True))) ∧
    (∃ (f : BitVec 192) (s : State) (p : Nat), domReady s 2 = true ∧ frameOwn s f = false ∧ (let l := s.loop
    frOk f = true ∧ frKind f = 5 ∧ l.pos = some p ∧ firstFail (remoteChecks s f) = none ∧ (frOp f ≠ 0x0602 ∨ armClears s = false))) ∧
    (∃ (f : BitVec 192) (s : State), domReady s 2 = true ∧ frameOwn s f = false ∧ frOk f = false) :=
  ⟨⟨mkFrame 1 2 1 5 101000 (2^32*3 + 700) 0x604, up, by decide +kernel, by decide +kernel, by decide +kernel, by decide +kernel,
      fun _ hc => absurd hc List.not_mem_nil, by decide +kernel⟩,
   ⟨mkFrame 1 2 1 5 101000 (2^32*3 + 700) 0x604, late (lpp false none up), by decide +kernel, by decide +kernel, by decide +kernel,
      by decide +kernel, fun _ hc => absurd hc List.not_mem_nil, by decide +kernel⟩,
   ⟨mkFrame 2 2 1 5 101000 (2^32*3 + 700) 0x604, tg 60001 3 0 (lpp true (some 1) (cap (cst 3 up))), 1, by decide +kernel⟩,
   ⟨mkFrame 3 2 1 5 101000 (2^32*3 + 700) 0x604, tg 60001 3 0 (lpp true (some 1) (cap (cst 3 up))), 1, by decide +kernel⟩,
   ⟨mkFrame 4 2 1 5 101000 (2^32*3 + 700) 0x604, tg 60001 3 0 (lpp true (some 1) (cap (cst 3 up))), 1, by decide +kernel⟩,
   ⟨mkFrame 5 2 1 5 101000 (2^32*3 + 700) 0x604, tg 60001 3 0 (lpp true (some 1) (cap (cst 3 up))), 1, by decide +kernel⟩,
   ⟨mkFrame 5 0 3 5 101000 (2^32*4 + 700) 0x603, tg 60000 3 0 (lpp true (some 2) (cap (cst 3 up))), 2, by decide +kernel⟩,
   ⟨5, up, by decide +kernel⟩⟩

/-- States that meet the hypotheses of each clause of `Obligations.TriggerHaltAndDissolveFrames`. -/
theorem witness_TriggerHaltAndDissolveFrames :
    (∃ (f : BitVec 192) (s : State), domReady s 2 = true ∧ frameOwn s f = false ∧ frOk f = true ∧ frKind f = 6 ∧ loopMember s = true ∧ (∀ u ∈ s.capture.trigs, u.seg ≠ frParam f / 2 ^ 48) ∧ s.capture.segIdx = frParam f / 2 ^ 48 ∧ arbiterOpen s (frTick f : Int) = true) ∧
    (∃ (f : BitVec 192) (s : State), domReady s 2 = true ∧ frameOwn s f = false ∧ frOk f = true ∧ frKind f = 6 ∧ loopMember s = true ∧ (∀ u ∈ s.capture.trigs, u.seg ≠ frParam f / 2 ^ 48) ∧ s.capture.segIdx = frParam f / 2 ^ 48 ∧ arbiterOpen s (frTick f : Int) = false) ∧
    (∃ (f : BitVec 192) (s : State), domReady s 2 = true ∧ frameOwn s f = false ∧ frOk f = true ∧ frKind f = 6 ∧ loopMember s = true ∧ (∀ u ∈ s.capture.trigs, u.seg ≠ frParam f / 2 ^ 48) ∧ s.capture.segIdx ≠ frParam f / 2 ^ 48) ∧
    (∃ (f : BitVec 192) (s : State), domReady s 2 = true ∧ frameOwn s f = false ∧ frOk f = true ∧ frKind f = 6 ∧ loopMember s = false) ∧
    (∃ (f : BitVec 192) (s : State) (u : Trig), domReady s 2 = true ∧ frameOwn s f = false ∧ (let l := s.loop
    frOk f = true ∧ frKind f = 6 ∧ loopMember s = true ∧ s.capture.segIdx = frParam f / 2 ^ 48 + 1 ∧ s.capture.trigs = [u] ∧ u.seg = frParam f / 2 ^ 48 ∧ (let earlier := (frTick f : Int) < u.t ∨ ((frTick f : Int) = u.t ∧
      frOrigin f < (if u.src = 0x101 then u.origin else l.pos.getD 0))
    ¬earlier))) ∧
    (∃ (f : BitVec 192) (s : State) (u : Trig), domReady s 2 = true ∧ frameOwn s f = false ∧ (let l := s.loop
    frOk f = true ∧ frKind f = 6 ∧ loopMember s = true ∧ s.capture.segIdx = frParam f / 2 ^ 48 + 1 ∧ s.capture.trigs = [u] ∧ u.seg = frParam f / 2 ^ 48 ∧ (let earlier := (frTick f : Int) < u.t ∨ ((frTick f : Int) = u.t ∧
      frOrigin f < (if u.src = 0x101 then u.origin else l.pos.getD 0))
    earlier))) ∧
    (∃ (f : BitVec 192) (s : State), domReady s 2 = true ∧ frameOwn s f = false ∧ frOk f = true ∧ frKind f = 7 ∧ loopMember s = true ∧ capActive s = true ∧ s.capture.haltAt = none ∧ s.capture.trigs = []) ∧
    (∃ (f : BitVec 192) (s : State), domReady s 2 = true ∧ frameOwn s f = false ∧ frOk f = true ∧ frKind f = 7 ∧ loopMember s = false) ∧
    (∃ (f : BitVec 192) (s : State), domReady s 2 = true ∧ frameOwn s f = false ∧ frOk f = true ∧ frKind f = 8 ∧ loopMember s = true) ∧
    (∃ (f : BitVec 192) (s : State), domReady s 2 = true ∧ frameOwn s f = false ∧ frOk f = true ∧ frKind f = 8 ∧ loopMember s = false) :=
  ⟨⟨mkFrame 6 2 1 5 101000 (2^32*3 + 700) 0x604, lpp true (some 1) (cap (cst 3 up)), by decide +kernel⟩,
   ⟨mkFrame 6 2 1 5 101000 (2^32*3 + 700) 0x604, lpp true (some 1) up, by decide +kernel⟩,
   ⟨mkFrame 6 0 20 5 60000 (2^48) 0x602, lpp true (some 1) up, by decide +kernel⟩,
   ⟨mkFrame 6 2 1 5 101000 (2^32*3 + 700) 0x604, up, by decide +kernel⟩,
   ⟨mkFrame 6 2 1 5 101000 (2^32*3 + 700) 0x604, tg 60000 3 0 (lpp true (some 3) (cap (cst 3 up))), { t := 60000, src := 3, origin := 0, decided := 5, seg := 0, shown := true, rings := [1], gapped := none }, by decide +kernel⟩,
   ⟨mkFrame 6 2 1 5 60000 5 0, tg 60000 3 0 (lpp true (some 3) (cap (cst 3 up))), { t := 60000, src := 3, origin := 0, decided := 5, seg := 0, shown := true, rings := [1], gapped := none }, by decide +kernel⟩,
   ⟨mkFrame 7 2 1 5 101000 (2^32*3 + 700) 0x604, lpp true (some 1) (cap (cst 3 up)), by decide +kernel⟩,
   ⟨mkFrame 7 2 1 5 101000 (2^32*3 + 700) 0x604, up, by decide +kernel⟩,
   ⟨mkFrame 8 2 1 5 101000 (2^32*3 + 700) 0x604, tg 60000 3 0 (lpp true (some 3) (cap (cst 3 up))), by decide +kernel⟩,
   ⟨mkFrame 8 2 1 5 101000 (2^32*3 + 700) 0x604, up, by decide +kernel⟩⟩

/-- States that meet the hypotheses of each clause of `Obligations.CalibrationStepsAndFrameSending`. -/
theorem witness_CalibrationStepsAndFrameSending :
    (∃ (f : BitVec 192) (s : State) (c : RunCmd) (a : Nat), domReady s 2 = true ∧ s.loop.pos = some 0 ∧ frOk f = true ∧ frOrigin f = 0 ∧ s.running = [c] ∧ c.m < 16 ∧ c.wait = .census a ∧ frKind f = 1 ∧ frHops f < 16 ∧ s.ns ≤ a + 1000000) ∧
    (∃ (f : BitVec 192) (s : State) (c : RunCmd) (a : Nat), domReady s 2 = true ∧ s.loop.pos = some 0 ∧ frOk f = true ∧ frOrigin f = 0 ∧ s.running = [c] ∧ c.m < 16 ∧ c.wait = .census a ∧ frKind f = 1 ∧ (16 ≤ frHops f ∨ a + 1000000 < s.ns) ∧ loopMember s = false) ∧
    (∃ (f : BitVec 192) (s : State) (c : RunCmd), domReady s 2 = true ∧ s.loop.pos = some 0 ∧ frOk f = true ∧ frOrigin f = 0 ∧ s.running = [c] ∧ c.m < 16 ∧ c.wait = .measuring ∧ frKind f = 2) ∧
    (∃ (f : BitVec 192) (s : State) (c : RunCmd), domReady s 2 = true ∧ s.loop.pos = some 0 ∧ frOk f = true ∧ frOrigin f = 0 ∧ s.running = [c] ∧ c.m < 16 ∧ c.wait = .aligning ∧ frKind f = 3) ∧
    (∃ (f : BitVec 192) (s : State) (c : RunCmd), domReady s 2 = true ∧ s.loop.pos = some 0 ∧ frOk f = true ∧ frOrigin f = 0 ∧ s.running = [c] ∧ c.m < 16 ∧ c.wait = .aligning ∧ frKind f = 4) ∧
    (∃ (f : BitVec 192) (s : State), domReady s 2 = true ∧ s.loop.pos = some 0 ∧ frOk f = true ∧ frOrigin f = 0 ∧ frKind f = 5) ∧
    (∃ (f : BitVec 192) (s : State), domReady s 2 = true ∧ s.loop.pos = some 0 ∧ frOk f = true ∧ frOrigin f = 0 ∧ frKind f = 6) ∧
    (∃ (f : BitVec 192) (s : State), domReady s 2 = true ∧ s.loop.pos = some 0 ∧ frOk f = true ∧ frOrigin f = 0 ∧ frKind f = 7) ∧
    (∃ (f : BitVec 192) (s : State), domReady s 2 = true ∧ s.loop.pos = some 0 ∧ frOk f = true ∧ frOrigin f = 0 ∧ frKind f = 8) ∧
    (∃ (s : State), (∃ x ∈ s.loop.txq.find? (fun y => decide (y.from_ ≤ now s)), domReady s 2 = true ∧ (let l := s.loop
      let free := now s % 16 = 0 ∧ ∀ p, l.line = some p →
        p.1 + (if frKind p.2.frame ∈ [1, 2, 5] then 320 else 192) ≤ now s
      ¬free))) ∧
    (∃ (s : State), (∃ x ∈ s.loop.txq.find? (fun y => decide (y.from_ ≤ now s)), domReady s 2 = true ∧ (let l := s.loop
      let free := now s % 16 = 0 ∧ ∀ p, l.line = some p →
        p.1 + (if frKind p.2.frame ∈ [1, 2, 5] then 320 else 192) ≤ now s
      free ∧ frKind x.frame ≠ 4 ∧ frKind x.frame ≠ 5))) ∧
    (∃ (s : State), (∃ x ∈ s.loop.txq.find? (fun y => decide (y.from_ ≤ now s)), domReady s 2 = true ∧ (let l := s.loop
      let free := now s % 16 = 0 ∧ ∀ p, l.line = some p →
        p.1 + (if frKind p.2.frame ∈ [1, 2, 5] then 320 else 192) ≤ now s
      free ∧ frKind x.frame = 4))) ∧
    (∃ (s : State) (c : RunCmd) (e : Nat) (n : Nat), (∃ x ∈ s.loop.txq.find? (fun y => decide (y.from_ ≤ now s)), domReady s 2 = true ∧ (let l := s.loop
      let free := now s % 16 = 0 ∧ ∀ p, l.line = some p →
        p.1 + (if frKind p.2.frame ∈ [1, 2, 5] then 320 else 192) ≤ now s
      free ∧ frKind x.frame = 5 ∧ s.running = [c] ∧ c.wait = .loopPost e n ∧ (let lead := now s + 191 + max (3 + 12 * (l.n - 1)) (innerLead s (arg s c.m 0))
      lead ≤ cmdExecTick s c.m)))) ∧
    (∃ (s : State) (c : RunCmd) (e : Nat) (n : Nat), (∃ x ∈ s.loop.txq.find? (fun y => decide (y.from_ ≤ now s)), domReady s 2 = true ∧ (let l := s.loop
      let free := now s % 16 = 0 ∧ ∀ p, l.line = some p →
        p.1 + (if frKind p.2.frame ∈ [1, 2, 5] then 320 else 192) ≤ now s
      free ∧ frKind x.frame = 5 ∧ s.running = [c] ∧ c.wait = .loopPost e n ∧ (let lead := now s + 191 + max (3 + 12 * (l.n - 1)) (innerLead s (arg s c.m 0))
      cmdExecTick s c.m < lead)))) ∧
    (∃ (s : State) (c : RunCmd) (a : Nat), s.running = [c] ∧ c.wait = .census a ∧ s.ns < a + 1000000) ∧
    (∃ (s : State) (c : RunCmd) (a : Nat), s.running = [c] ∧ c.wait = .census a ∧ a + 1000000 ≤ s.ns ∧ loopMember s = false) ∧
    (∃ (s : State), domReady s 2 = true ∧ s.running = [] ∧ loopMember s = true) ∧
    (∃ (s : State), domReady s 2 = true ∧ s.running = [] ∧ loopMember s = false) :=
  ⟨⟨mkFrame 1 0 3 5 101000 (2^32*4 + 700) 0x603, run (.census 1000) (lpp false (some 0) up), { m := 0, op := 3329, wait := Sys2Proof.Machine.Wait.census 1000, held := [Sys2Proof.Machine.Res.loop] }, 1000, by decide +kernel⟩,
   ⟨mkFrame 1 0 3 5 101000 (2^32*4 + 700) 0x603, run (.census 0) (lpp false (some 0) { up with ns := 1000001 }), { m := 0, op := 3329, wait := Sys2Proof.Machine.Wait.census 0, held := [Sys2Proof.Machine.Res.loop] }, 0, by decide +kernel⟩,
   ⟨mkFrame 2 0 3 5 101000 (2^32*4 + 700) 0x603, run .measuring (lpp false (some 0) up), { m := 0, op := 3329, wait := Sys2Proof.Machine.Wait.measuring, held := [Sys2Proof.Machine.Res.loop] }, by decide +kernel⟩,
   ⟨mkFrame 3 0 3 5 101000 (2^32*4 + 700) 0x603, run .aligning (lpp false (some 0) up), { m := 0, op := 3329, wait := Sys2Proof.Machine.Wait.aligning, held := [Sys2Proof.Machine.Res.loop] }, by decide +kernel⟩,
   ⟨mkFrame 4 0 3 5 101000 (2^32*4 + 700) 0x603, run .aligning (lpp false (some 0) up), { m := 0, op := 3329, wait := Sys2Proof.Machine.Wait.aligning, held := [Sys2Proof.Machine.Res.loop] }, by decide +kernel⟩,
   ⟨mkFrame 5 0 3 5 101000 (2^32*4 + 700) 0x603, lpp true (some 0) up, by decide +kernel⟩,
   ⟨mkFrame 6 0 3 5 101000 (2^32*4 + 700) 0x603, lpp true (some 0) up, by decide +kernel⟩,
   ⟨mkFrame 7 0 3 5 101000 (2^32*4 + 700) 0x603, lpp true (some 0) up, by decide +kernel⟩,
   ⟨mkFrame 8 0 3 5 101000 (2^32*4 + 700) 0x603, lpp true (some 0) up, by decide +kernel⟩,
   ⟨{ tx 6 0 up with loop := { (tx 6 0 up).loop with line := some (99900, ⟨mkFrame 6 0 0 0 0 0 0, 5, 0⟩) } }, by decide +kernel⟩,
   ⟨lpp true (some 0) up, by decide +kernel⟩,
   ⟨tx 4 0 up, by decide +kernel⟩,
   ⟨put [(mR 0 8, 101000),(argR 0 0, 0x603)] (tx 5 0x603 (run (.loopPost 101000 4) (lpp true (some 0) (cst 2 up)))), { m := 0, op := 3329, wait := Sys2Proof.Machine.Wait.loopPost 101000 4, held := [Sys2Proof.Machine.Res.loop] }, 101000, 4, by decide +kernel⟩,
   ⟨put [(mR 0 8, 100200),(argR 0 0, 0x603)] (tx 5 0x603 (run (.loopPost 100200 4) (lpp true (some 0) (cst 2 up)))), { m := 0, op := 3329, wait := Sys2Proof.Machine.Wait.loopPost 100200 4, held := [Sys2Proof.Machine.Res.loop] }, 100200, 4, by decide +kernel⟩,
   ⟨run (.census 1000) (lpp false (some 0) up), { m := 0, op := 3329, wait := Sys2Proof.Machine.Wait.census 1000, held := [Sys2Proof.Machine.Res.loop] }, 1000, by decide +kernel⟩,
   ⟨run (.census 0) (lpp false (some 0) { up with ns := 1000001 }), { m := 0, op := 3329, wait := Sys2Proof.Machine.Wait.census 0, held := [Sys2Proof.Machine.Res.loop] }, 0, by decide +kernel⟩,
   ⟨lpp true (some 0) up, by decide +kernel⟩,
   ⟨{ tx 6 0 up with loop := { (tx 6 0 up).loop with line := some (99900, ⟨mkFrame 6 0 0 0 0 0 0, 5, 0⟩) } }, by decide +kernel⟩⟩

end Sys2Proof.Tests.G51

namespace Sys2Proof.Tests.G53

def cst (v : Nat) (s : State) : State := wrF s SYS_CAPTURE 0 3 v
def pin (en inv d : Nat) (s : State) : State := put [(trigInR 3, en + 2*inv + 256*d)] s
def pll (k : Nat) (f : Pll → Pll) (s : State) : State := modPll s k f
def run (op : Nat) (w : Wait) (s : State) : State := { put [(mR 0 0x14, 2),(mR 0 4, 0)] s with running := [{ m := 0, op := op, wait := w, held := [.timebase] }] }
def unl (k : Nat) : State := pll k (fun p => {p with locked := false, relock := true, since := 1000}) up
def S : List State := [up, pin 1 0 5 up, pin 1 1 0 { up with glb := { up.glb with pins := 0xFF, sampled := [(100000,0x8)] }}, { up with trigOut := { up.trigOut with pin := 0xFF, pulse := [(3,100000)]}}, { up with trigOut := { up.trigOut with pin := 0xFF, pulse := [(3,100001)]}},
  { up with tb := { up.tb with prevWin := 2, refClass := 0, refLost := true } }, { up with tb := { up.tb with prevWin := 1, refClass := 2, refLost := false } }, { up with tb := { up.tb with prevWin := 0 } }, { up with tb := { up.tb with crystal := false } }, wrBit { up with tb := { up.tb with crystal := false } } SYS_CAPTURE 3 true] ++
  ([0,1,2,9,10,11].flatMap (fun k => [unl k, { unl k with ns := 5001000 }, { unl k with ramp := [(pllDom k, 5000000)] }, run 0x102 (.pll k) (unl k), run 0x101 (.pll k) { unl k with ns := 5001000 }, cst 2 (unl k)])) ++ [cst 2 up, cst 3 { up with tb := {up.tb with holdover := true}}, put [(PWR_READY, 3)] up, put [(PWR_READY, 7)] (unl 0), put [(PWR_READY, 3)] (unl 0), { unl 1 with tb := { (unl 1).tb with plls := (unl 0).tb.plls.map (fun p => {p with locked := false}) }}]

/-- States that meet the hypotheses of each clause of `Obligations.TriggerPinsReferenceAndPlls`. -/
theorem witness_TriggerPinsReferenceAndPlls :
    (∃ (s : State), (∀ q ∈ s.glb.sampled, q.1 ≤ now s)) ∧
    (∃ (p : Fin 8) (s : State), (∀ q ∈ s.trigOut.pulse, q.1 = p.val → now s < q.2)) ∧
    (∃ (p : Fin 8) (s : State) (d : Nat), d ≤ now s ∧ (p.val, d) ∈ s.trigOut.pulse) ∧
    (∃ (edges : Nat) (s : State),
    let c := refClassOf edges
    c ≠ s.tb.prevWin) ∧
    (∃ (edges : Nat) (s : State),
    let c := refClassOf edges
    c = s.tb.prevWin ∧ s.tb.refClass = 0 ∧ c ≠ 0 ∧ s.tb.refLost = true) ∧
    (∃ (edges : Nat) (s : State),
    let c := refClassOf edges
    c = s.tb.prevWin ∧ s.tb.refLost = false) ∧
    (∃ (s : State),
    let lost := domReady s 2 = true ∧ s.tb.crystal = false ∧ pllLocked s 0 = true ∧ s.tb.holdover = false
    ¬lost) ∧
    (∃ (s : State),
    let lost := domReady s 2 = true ∧ s.tb.crystal = false ∧ pllLocked s 0 = true ∧ s.tb.holdover = false
    lost) ∧
    (∃ (k : Fin 12) (s : State), s.tb.plls.length = 12 ∧ (let p := getPll s k.val
    let clocked := p.relock = true ∧ domOn s (pllDom k.val) = true ∧ ramped s (pllDom k.val) = true ∧
      (1 ≤ k.val → k.val < 10 → pllLocked s 0 = true)
    ¬clocked)) ∧
    (∃ (k : Fin 12) (cycles : Word) (s : State), s.tb.plls.length = 12 ∧ (let p := getPll s k.val
    let inTime := s.ns ≤ p.since + 5000000
    (cycles.toNat < 1024 ∨ ¬inTime))) ∧
    (∃ (k : Fin 12) (cycles : Word) (s : State), s.tb.plls.length = 12 ∧ (let p := getPll s k.val
    let clocked := p.relock = true ∧ domOn s (pllDom k.val) = true ∧ ramped s (pllDom k.val) = true ∧
      (1 ≤ k.val → k.val < 10 → pllLocked s 0 = true)
    let inTime := s.ns ≤ p.since + 5000000
    clocked ∧ 1024 ≤ cycles.toNat ∧ inTime ∧ (k.val = 0 ∨ 2 ≤ k.val ∧ k.val < 10) ∧ thermTripped s = false)) ∧
    (∃ (k : Fin 12) (s : State), s.tb.plls.length = 12 ∧ (let p := getPll s k.val
    let clocked := p.relock = true ∧ domOn s (pllDom k.val) = true ∧ ramped s (pllDom k.val) = true ∧
      (1 ≤ k.val → k.val < 10 → pllLocked s 0 = true)
    clocked ∧ s.ns < p.since + 5000000)) ∧
    (∃ (k : Fin 12) (s : State) (c : RunCmd), s.tb.plls.length = 12 ∧ (let p := getPll s k.val
    let clocked := p.relock = true ∧ domOn s (pllDom k.val) = true ∧ ramped s (pllDom k.val) = true ∧
      (1 ≤ k.val → k.val < 10 → pllLocked s 0 = true)
    clocked ∧ p.since + 5000000 ≤ s.ns ∧ s.running = [c] ∧ c.wait = .pll k.val)) ∧
    (∃ (k : Fin 12) (s : State), s.tb.plls.length = 12 ∧ (let inUse := pllLocked s k.val = true ∧ domReady s (pllDom k.val) = true ∧ ¬(k.val = 0 ∧ s.tb.holdover = true)
    ¬inUse)) ∧
    (∃ (k : Fin 12) (s : State), s.tb.plls.length = 12 ∧ (let inUse := pllLocked s k.val = true ∧ domReady s (pllDom k.val) = true ∧ ¬(k.val = 0 ∧ s.tb.holdover = true)
    inUse ∧ (k.val = 0 ∨ 10 ≤ k.val) ∧ capActive s = true ∧ s.capture.haltAt = none ∧ s.capture.trigs = [])) :=
  ⟨⟨up, by decide +kernel⟩,
   ⟨0, up, by decide +kernel⟩,
   ⟨3, { up with trigOut := { up.trigOut with pin := 0xFF, pulse := [(3,100000)]}}, 100000, by decide +kernel⟩,
   ⟨0, { up with tb := { up.tb with prevWin := 2, refClass := 0, refLost := true } }, by decide +kernel⟩,
   ⟨100000, { up with tb := { up.tb with prevWin := 2, refClass := 0, refLost := true } }, by decide +kernel⟩,
   ⟨0, up, by decide +kernel⟩,
   ⟨up, by decide +kernel⟩,
   ⟨{ up with tb := { up.tb with crystal := false } }, by decide +kernel⟩,
   ⟨0, up, by decide +kernel⟩,
   ⟨0, 1023, up, by decide +kernel⟩,
   ⟨0, 1024, S.getD 10 up, by decide +kernel⟩,
   ⟨0, S.getD 10 up, by decide +kernel⟩,
   ⟨0, S.getD 14 up, { m := 0, op := 257, wait := Sys2Proof.Machine.Wait.pll 0, held := [Sys2Proof.Machine.Res.timebase] }, by decide +kernel⟩,
   ⟨0, S.getD 10 up, by decide +kernel⟩,
   ⟨0, S.getD 21 up, by decide +kernel⟩⟩

end Sys2Proof.Tests.G53

namespace Sys2Proof.Tests.G54

def run (w : Wait) (s : State) : State := { put [(mR 0 0x14, 2),(mR 0 4, 0)] s with running := [{ m := 0, op := 0x801, wait := w, held := [.tiu 5] }] }
def ti (st typ : Nat) (f : TiuCore → TiuCore) (s : State) : State :=
  setTiu (put [(tiuR 5 0, st + 0x400*(if typ = 5 then 2 else 0)), (tiuR 5 0x18, 0x80004000), (tiuR 5 0xC, 1), (tiuR 5 0x10, 1000)] s) 5 (f { TiuCore.init with typ := typ, gateTick := 99000, gate := 2000, n := 3 })
def st5 (f : TiuCore → TiuCore) (g : TiuCore → TiuCore) : State :=
  setTiu (put [(tiuR 5 0, 3), (tiuR 5 0xC, 1), (tiuR 5 0x10, 1000)] (setTiu (put [(tiuR 6 0, 4), (tiuR 6 0x18, 0x80004000)] up) 6 (g {TiuCore.init with stopOf := some 5}))) 5 (f { TiuCore.init with typ := 1, gateTick := 99000, gate := 2000, n := 3, stopIn := 6 })
-- stamp of tick 100000 phase 0 code 0x4000 : p
def P (s : State) (i : Nat) : Int := (tiuRaw s i 400000 0x4000).1
def P6 : Int := P (st5 id id) 6
def ed (t : Nat) (code : Nat) : TiuEdge := { c2 := 400000, code := code, rising := true, tick := t }

/-- States that meet the hypotheses of each clause of `Obligations.EdgesBecomeStampsAndResults`. -/
theorem witness_EdgesBecomeStampsAndResults :
    (∃ (i : Fin 64) (s : State),
    let k := i.val
    let off := tiuState s k = 0 ∨ tiuState s k = 2
    (domReady s 19 = false ∨ (off ∧ tiuPrescale s k ≠ 0))) ∧
    (∃ (i : Fin 64) (rising : Bool) (s : State),
    let k := i.val
    let off := tiuState s k = 0 ∨ tiuState s k = 2
    let x := getTiu s k
    let counts : Bool := tiuPolarity s k rising
    let passed : Bool := counts && decide (2 ^ tiuPrescale s k ≤ x.edges + 1)
    domReady s 19 = true ∧ (tiuPrescale s k = 0 ∨ (¬off ∧ passed = true))) ∧
    (∃ (i : Fin 64) (s : State),
    let k := i.val
    let off := tiuState s k = 0 ∨ tiuState s k = 2
    domReady s 19 = true ∧ ¬off) ∧
    (∃ (i : Fin 64) (e : TiuEdge) (s : State),
    let k := i.val
    (getTiu s k).queue = [e] ∧ e.tick < now s) ∧
    (∃ (i : Fin 64) (e : TiuEdge) (s : State),
    let k := i.val
    (getTiu s k).queue = [e] ∧ now s ≤ e.tick) ∧
    (∃ (i : Fin 64) (s : State),
    let k := i.val
    let taken := tiuState s k = 3 ∨ tiuState s k = 4 ∨ tiuState s k = 5
    ¬taken) ∧
    (∃ (i : Fin 64) (e : TiuEdge) (s : State),
    let k := i.val
    let raw := (tiuRaw s k e.c2 e.code).1
    let near := ∃ l, (getTiu s k).lastEdge = some l ∧ raw - l < 131072 ∧ l - raw < 131072
    let taken := tiuState s k = 3 ∨ tiuState s k = 4 ∨ tiuState s k = 5
    taken ∧ near) ∧
    (∃ (i : Fin 64) (e : TiuEdge) (s : State),
    let k := i.val
    let raw := (tiuRaw s k e.c2 e.code).1
    let near := ∃ l, (getTiu s k).lastEdge = some l ∧ raw - l < 131072 ∧ l - raw < 131072
    let taken := tiuState s k = 3 ∨ tiuState s k = 4 ∨ tiuState s k = 5
    taken ∧ ¬near ∧ tiuState s k = 5) ∧
    (∃ (i : Fin 64) (e : TiuEdge) (s : State),
    let k := i.val
    let raw := (tiuRaw s k e.c2 e.code).1
    let near := ∃ l, (getTiu s k).lastEdge = some l ∧ raw - l < 131072 ∧ l - raw < 131072
    let taken := tiuState s k = 3 ∨ tiuState s k = 4 ∨ tiuState s k = 5
    taken ∧ ¬near ∧ tiuState s k = 3 ∧ (getTiu s k).typ = 1 ∧ (getTiu s k).openAt = none) ∧
    (∃ (i : Fin 64) (e : TiuEdge) (s : State),
    let k := i.val
    let raw := (tiuRaw s k e.c2 e.code).1
    let near := ∃ l, (getTiu s k).lastEdge = some l ∧ raw - l < 131072 ∧ l - raw < 131072
    let taken := tiuState s k = 3 ∨ tiuState s k = 4 ∨ tiuState s k = 5
    taken ∧ ¬near ∧ tiuState s k = 3 ∧ (getTiu s k).typ = 1 ∧ (getTiu s k).openAt ≠ none) ∧
    (∃ (i : Fin 64) (e : TiuEdge) (s : State) (m : Nat),
    let k := i.val
    let raw := (tiuRaw s k e.c2 e.code).1
    let near := ∃ l, (getTiu s k).lastEdge = some l ∧ raw - l < 131072 ∧ l - raw < 131072
    let taken := tiuState s k = 3 ∨ tiuState s k = 4 ∨ tiuState s k = 5
    taken ∧ ¬near ∧ tiuState s k = 4 ∧ m < 64 ∧ (getTiu s k).stopOf = some m ∧ (getTiu s m).openAt = none) ∧
    (∃ (i : Fin 64) (e : TiuEdge) (s : State) (m : Nat),
    let k := i.val
    let raw := (tiuRaw s k e.c2 e.code).1
    let p := raw - tiuSkew s k
    let near := ∃ l, (getTiu s k).lastEdge = some l ∧ raw - l < 131072 ∧ l - raw < 131072
    let taken := tiuState s k = 3 ∨ tiuState s k = 4 ∨ tiuState s k = 5
    taken ∧ ¬near ∧ tiuState s k = 4 ∧ m < 64 ∧ (getTiu s k).stopOf = some m ∧ (∃ a ∈ (getTiu s m).openAt, p - a ≤ -256)) ∧
    (∃ (i : Fin 64) (e : TiuEdge) (s : State) (m : Nat),
    let k := i.val
    let raw := (tiuRaw s k e.c2 e.code).1
    let p := raw - tiuSkew s k
    let near := ∃ l, (getTiu s k).lastEdge = some l ∧ raw - l < 131072 ∧ l - raw < 131072
    let taken := tiuState s k = 3 ∨ tiuState s k = 4 ∨ tiuState s k = 5
    taken ∧ ¬near ∧ tiuState s k = 4 ∧ m < 64 ∧ (getTiu s k).stopOf = some m ∧ (∃ a ∈ (getTiu s m).openAt,
      let d : Int := if -256 < p - a ∧ p - a < 256 then 0 else p - a
      let outside := d < (rdBefore s (tiuR m 0xC)).toNat * 65536 ∨ (rdBefore s (tiuR m 0x10)).toNat * 65536 < d
      (-256 < p - a) ∧ outside)) ∧
    (∃ (i : Fin 64) (e : TiuEdge) (s : State) (m : Nat),
    let k := i.val
    let raw := (tiuRaw s k e.c2 e.code).1
    let p := raw - tiuSkew s k
    let near := ∃ l, (getTiu s k).lastEdge = some l ∧ raw - l < 131072 ∧ l - raw < 131072
    let taken := tiuState s k = 3 ∨ tiuState s k = 4 ∨ tiuState s k = 5
    taken ∧ ¬near ∧ tiuState s k = 4 ∧ m < 64 ∧ (getTiu s k).stopOf = some m ∧ (∃ a ∈ (getTiu s m).openAt,
      let d : Int := if -256 < p - a ∧ p - a < 256 then 0 else p - a
      let outside := d < (rdBefore s (tiuR m 0xC)).toNat * 65536 ∨ (rdBefore s (tiuR m 0x10)).toNat * 65536 < d
      (-256 < p - a) ∧ ¬outside)) ∧
    (∃ (i : Fin 64) (s : State),
    let k := i.val
    tiuCalDue s k = false) ∧
    (∃ (i : Fin 64) (n1 : BitVec 16) (n2 : BitVec 16) (s : State),
    let k := i.val
    let d : Int := (n2.toNat : Int) - n1.toNat
    let n0 : Int := 2 * (n1.toNat : Int) - n2.toNat
    let ok := 12288 ≤ d ∧ d ≤ 20480 ∧ -4096 ≤ n0 ∧ n0 ≤ 4096
    tiuCalDue s k = true ∧ s.running = [] ∧ ok) ∧
    (∃ (i : Fin 64) (n1 : BitVec 16) (n2 : BitVec 16) (s : State),
    let k := i.val
    let d : Int := (n2.toNat : Int) - n1.toNat
    let n0 : Int := 2 * (n1.toNat : Int) - n2.toNat
    let ok := 12288 ≤ d ∧ d ≤ 20480 ∧ -4096 ≤ n0 ∧ n0 ≤ 4096
    tiuCalDue s k = true ∧ s.running = [] ∧ ¬ok) ∧
    (∃ (i : Fin 64) (n1 : BitVec 16) (n2 : BitVec 16) (s : State) (c : RunCmd) (measure : _),
    let k := i.val
    let d : Int := (n2.toNat : Int) - n1.toNat
    let n0 : Int := 2 * (n1.toNat : Int) - n2.toNat
    let ok := 12288 ≤ d ∧ d ≤ 20480 ∧ -4096 ≤ n0 ∧ n0 ≤ 4096
    tiuCalDue s k = true ∧ s.running = [c] ∧ c.m < 16 ∧ c.wait = .tiuCal [k] measure ∧ ¬ok) ∧
    (∃ (i : Fin 64) (n1 : BitVec 16) (n2 : BitVec 16) (s : State) (c : RunCmd) (measure : _),
    let k := i.val
    let d : Int := (n2.toNat : Int) - n1.toNat
    let n0 : Int := 2 * (n1.toNat : Int) - n2.toNat
    let ok := 12288 ≤ d ∧ d ≤ 20480 ∧ -4096 ≤ n0 ∧ n0 ≤ 4096
    tiuCalDue s k = true ∧ s.running = [c] ∧ c.m < 16 ∧ c.wait = .tiuCal [k] measure ∧ ok ∧ measure = false) ∧
    (∃ (i : Fin 64) (n1 : BitVec 16) (n2 : BitVec 16) (s : State) (c : RunCmd) (measure : _),
    let k := i.val
    let d : Int := (n2.toNat : Int) - n1.toNat
    let n0 : Int := 2 * (n1.toNat : Int) - n2.toNat
    let ok := 12288 ≤ d ∧ d ≤ 20480 ∧ -4096 ≤ n0 ∧ n0 ≤ 4096
    tiuCalDue s k = true ∧ s.running = [c] ∧ c.m < 16 ∧ c.wait = .tiuCal [k] measure ∧ ok ∧ measure = true ∧ (getTiu s k).typ ≠ 1) ∧
    (∃ (i : Fin 64) (s0 : State),
    let s := tiuJudgeAll s0
    let k := i.val
    let x := getTiu s k
    let closes := domReady s 19 = true ∧ tiuState s k = 3 ∧ x.gateTick + x.gate ≤ now s
    ¬closes) ∧
    (∃ (i : Fin 64) (s0 : State),
    let s := tiuJudgeAll s0
    let k := i.val
    let x := getTiu s k
    let closes := domReady s 19 = true ∧ tiuState s k = 3 ∧ x.gateTick + x.gate ≤ now s
    closes) ∧
    (∃ (i : Fin 64) (s0 : State),
    let s := tiuJudgeAll s0
    let k := i.val
    let x := getTiu s k
    let late := tiuState s k = 3 ∧ x.typ = 1 ∧ ∃ a, x.openAt = some a ∧
      ((rd s (tiuR k 0x10)).toNat : Int) * 65536 < (now s : Int) * 65536 - a
    ¬late) ∧
    (∃ (i : Fin 64) (s0 : State),
    let s := tiuJudgeAll s0
    let k := i.val
    let x := getTiu s k
    let late := tiuState s k = 3 ∧ x.typ = 1 ∧ ∃ a, x.openAt = some a ∧
      ((rd s (tiuR k 0x10)).toNat : Int) * 65536 < (now s : Int) * 65536 - a
    late) ∧
    (∃ (i : Fin 64) (s0 : State),
    let s := tiuJudgeAll s0
    let k := i.val
    let x := getTiu s k
    let expired := tiuState s k = 5 ∧ ∃ r, x.req = some r ∧ r.2 + 65536 ≤ now s
    ¬expired) ∧
    (∃ (i : Fin 64) (s0 : State),
    let s := tiuJudgeAll s0
    let k := i.val
    let x := getTiu s k
    let expired := tiuState s k = 5 ∧ ∃ r, x.req = some r ∧ r.2 + 65536 ≤ now s
    expired) ∧
    (∃ (i : Fin 64) (s : State), memDecoded s = true ∧ tiuState s i.val = 3 ∧ ((getTiu s i.val).openAt.isSome ∨ (getTiu s i.val).pairAt.isSome)) :=
  ⟨⟨5, put [(tiuR 5 0,0x102)] (ti 2 0 (fun t => {t with edges := 1}) up), by decide +kernel⟩,
   ⟨5, false, up, by decide +kernel⟩,
   ⟨5, ti 1 0 id up, by decide +kernel⟩,
   ⟨5, { c2 := 400000, code := 16384, rising := true, tick := 99999 }, ti 3 0 (fun t => {t with queue := [ed 99999 0x4000]}) up, by decide +kernel⟩,
   ⟨5, { c2 := 400000, code := 16384, rising := true, tick := 100000 }, ti 3 0 (fun t => {t with queue := [ed 100000 0x4000]}) up, by decide +kernel⟩,
   ⟨5, up, by decide +kernel⟩,
   ⟨5, { c2 := 400000, code := 16384, rising := true, tick := 99999 }, ti 3 0 (fun t => {t with lastEdge := some P6}) up, by decide +kernel⟩,
   ⟨5, { c2 := 400000, code := 16384, rising := true, tick := 99999 }, ti 5 0 (fun t => {t with req := some (3, 99999)}) up, by decide +kernel⟩,
   ⟨5, { c2 := 400000, code := 16384, rising := true, tick := 99999 }, ti 3 1 id up, by decide +kernel⟩,
   ⟨5, { c2 := 400000, code := 16384, rising := true, tick := 99999 }, ti 3 1 (fun t => {t with openAt := some (P6 - 65536000)}) up, by decide +kernel⟩,
   ⟨6, { c2 := 400000, code := 16384, rising := true, tick := 99999 }, st5 id id, 5, by decide +kernel⟩,
   ⟨6, { c2 := 400000, code := 16384, rising := true, tick := 99999 }, st5 (fun t => {t with openAt := some (P6 + 300)}) id, 5, by decide +kernel⟩,
   ⟨6, { c2 := 400000, code := 16384, rising := true, tick := 99999 }, st5 (fun t => {t with openAt := some (P6 - 65536*1001)}) id, 5, by decide +kernel⟩,
   ⟨6, { c2 := 400000, code := 16384, rising := true, tick := 99999 }, st5 (fun t => {t with openAt := some (P6 - 65536*10)}) id, 5, by decide +kernel⟩,
   ⟨5, up, by decide +kernel⟩,
   ⟨5, 0x4000, 0x8000, ti 2 0 id up, by decide +kernel⟩,
   ⟨5, 0x4000, 0x4000, ti 2 0 id up, by decide +kernel⟩,
   ⟨5, 0x4000, 0x4000, run (.tiuCal [5] false) (ti 2 0 (fun t => {t with calFrom := 100000-16384}) up), { m := 0, op := 2049, wait := Sys2Proof.Machine.Wait.tiuCal [5] false, held := [Sys2Proof.Machine.Res.tiu 5] }, false, by decide +kernel⟩,
   ⟨5, 0x4000, 0x8000, run (.tiuCal [5] false) (ti 2 0 (fun t => {t with calFrom := 100000-16384}) up), { m := 0, op := 2049, wait := Sys2Proof.Machine.Wait.tiuCal [5] false, held := [Sys2Proof.Machine.Res.tiu 5] }, false, by decide +kernel⟩,
   ⟨5, 0x4000, 0x8000, run (.tiuCal [5] true) (ti 2 0 (fun t => {t with calFrom := 100000-16384}) up), { m := 0, op := 2049, wait := Sys2Proof.Machine.Wait.tiuCal [5] true, held := [Sys2Proof.Machine.Res.tiu 5] }, true, by decide +kernel⟩,
   ⟨5, up, by decide +kernel⟩,
   ⟨5, ti 3 0 (fun t => {t with gate := 1000}) up, by decide +kernel⟩,
   ⟨5, up, by decide +kernel⟩,
   ⟨5, ti 3 1 (fun t => {t with openAt := some (P6 - 65536000)}) up, by decide +kernel⟩,
   ⟨5, up, by decide +kernel⟩,
   ⟨5, ti 5 0 (fun t => {t with req := some (3, 100000 - 65536)}) up, by decide +kernel⟩,
   ⟨5, ti 3 1 (fun t => {t with openAt := some (P6 - 65536000)}) up, by decide +kernel⟩⟩

end Sys2Proof.Tests.G54

namespace Sys2Proof.Tests.G55

def ring (r log : Nat) (s : State) : State := put [(rR r 0, 0x80000000 + log*2^16)] s
def ch (path a4 a5 last : Nat) (grid : Int) (f : DfcCore → DfcCore) : State :=
  let s := setDfc (put [(dfcR 2 0, 2 + path * 256 + 3 * 2^16)] up) 2 { DfcCore.init with grid := grid, param0 := BitVec.ofNat 32 a4, param1 := BitVec.ofNat 32 a5 }
  modDfc s 2 (fun c => f { c with lastIn := last, inputs := (List.range 400).map (fun i => { recTick := (last : Int) - i, sample := (i * 37 % 1000 : Int) - 500, missing := false, ovr := false, bad := false }) })
def dfl (st : Nat) (b : Nat) (f : DflCore → DflCore) : State := setDfl (ring 1 8 (ring 2 8 (put [(dflR 4 0, st + b * 2^24), (dflR 4 4, 1 + 2 * 2^16), (dmaR 1 0x18, 0x140001)] up))) 4 (f DflCore.init)
def rec1 : List Byte := bytesOfWord (headerWord 1 0 1 5 0) ++ bytesOfWord 0x55
def stored (l : List Byte) : List Byte := [1, BitVec.ofNat 8 l.length, BitVec.ofNat 8 (l.length/256), BitVec.ofNat 8 (255 - l.length % 256), 0xFF] ++ l

/-- States that meet the hypotheses of each clause of `Obligations.ChainOutputsAndDeflateBlocks`. -/
theorem witness_ChainOutputsAndDeflateBlocks :
    (∃ (j : Fin 64) (s : State),
    let k := j.val
    let c := getDfc s k
    let p := dfcPos s k c.outIdx
    let z := dfcUpto s k p
    let due := domReady s 20 = true ∧ 2 ≤ dfcState s k ∧ z ≤ c.lastIn ∧ z + s.lrel + 2 ≤ now s
    ¬due) ∧
    (∃ (j : Fin 64) (s : State),
    let k := j.val
    let c := getDfc s k
    let p := dfcPos s k c.outIdx
    let z := dfcUpto s k p
    let due := domReady s 20 = true ∧ 2 ≤ dfcState s k ∧ z ≤ c.lastIn ∧ z + s.lrel + 2 ≤ now s
    due ∧ dfcState s k = 2) ∧
    (∃ (k : Fin 16) (s : State),
    let n := k.val
    let c := getDfl s n
    let full := dflState s n = 2 ∧ c.buf ≠ [] ∧ (65536 ≤ c.buf.length ∨ c.flushReq = true)
    ¬full) ∧
    (∃ (k : Fin 16) (s : State),
    let n := k.val
    let c := getDfl s n
    let full := dflState s n = 2 ∧ c.buf ≠ [] ∧ (65536 ≤ c.buf.length ∨ c.flushReq = true)
    full) ∧
    (∃ (k : Fin 16) (s : State),
    let n := k.val
    let c := getDfl s n
    let idle := dflState s n = 2 ∧ c.buf ≠ [] ∧ c.lastRead + 4096 ≤ now s
    ¬idle) ∧
    (∃ (k : Fin 16) (s : State),
    let n := k.val
    let c := getDfl s n
    let idle := dflState s n = 2 ∧ c.buf ≠ [] ∧ c.lastRead + 4096 ≤ now s
    idle) ∧
    (∃ (k : Fin 16) (s : State),
    let n := k.val
    let c := getDfl s n
    let done := dflState s n = 2 ∧ c.endMark = none ∧ dflPending s n = false ∧ dflDrained s n = true ∧ domReady s 22 = true ∧
      (c.endReq ≠ 0 ∨ c.readPtr = ringWR s (dflSrc s n) ∧ ringFinished s (dflSrc s n) = true)
    ¬done) ∧
    (∃ (k : Fin 16) (s : State),
    let n := k.val
    let c := getDfl s n
    let done := dflState s n = 2 ∧ c.endMark = none ∧ dflPending s n = false ∧ dflDrained s n = true ∧ domReady s 22 = true ∧
      (c.endReq ≠ 0 ∨ c.readPtr = ringWR s (dflSrc s n) ∧ ringFinished s (dflSrc s n) = true)
    done ∧ dflHost s n = true ∧ c.buf = []) ∧
    (∃ (k : Fin 16) (s : State),
    let n := k.val
    dflNextRec s n = none) ∧
    (∃ (k : Fin 16) (s : State),
    let n := k.val
    let r := dflDest s n
    (∃ rec ∈ dflNextRec s n, dflState s n = 3 ∧ domReady s 21 = true ∧ domReady s 22 = true ∧ ringExists s r = true ∧ ringCommitFree s r = true ∧ ringRefusing s r = false ∧ rec.words.length + 1 ≤ ringFreeForCommit s r)) ∧
    (∃ (k : Fin 16) (s : State),
    let n := k.val
    (dflState s n ≠ 3 ∨ inflateCause s n = none)) ∧
    (∃ (k : Fin 16) (s : State) (cause : Nat),
    let n := k.val
    dflState s n = 3 ∧ inflateCause s n = some cause ∧ dflSrc s n < 32) :=
  ⟨⟨2, up, by decide +kernel⟩,
   ⟨2, ch 5 16 0 99990 99800 id, by decide +kernel⟩,
   ⟨4, up, by decide +kernel⟩,
   ⟨4, dfl 2 0 (fun c => {c with buf := [1,2,3,4], flushReq := true, bufWords := 3}), by decide +kernel⟩,
   ⟨4, up, by decide +kernel⟩,
   ⟨4, dfl 2 0 (fun c => {c with buf := [1,2,3,4], flushReq := true, bufWords := 3}), by decide +kernel⟩,
   ⟨4, up, by decide +kernel⟩,
   ⟨4, dfl 2 5 (fun c => {c with endReq := 5}), by decide +kernel⟩,
   ⟨4, up, by decide +kernel⟩,
   ⟨4, dfl 3 0 (fun c => {c with inBytes := stored rec1, outBytes := rec1}), by decide +kernel⟩,
   ⟨4, up, by decide +kernel⟩,
   ⟨4, dfl 3 0 (fun c => {c with inBytes := stored rec1, outBytes := rec1, committed := 16}), 1, by decide +kernel⟩⟩

end Sys2Proof.Tests.G55

namespace Sys2Proof.Tests.G56

def ring (r log : Nat) (s : State) : State := put [(rR r 0, 0x80000000 + log*2^16)] s
def jb (run : Nat) (f : Job → Job) (g : EngCore → EngCore) : State :=
  setJob (modEng (put [(eR 3 0, run*2^13 + 2^12), (tmrR 3 1, 50), (tmrR 3 1 + 8, 1050), (tmrR 3 1 + 0x10, 2)] (ring 1 8 (ring 2 8 up))) 3 (fun c => g {c with job := some 2, loaded := true})) 2
    (f { Job.free with state := 1, engines := [3], rings := [⟨1,0,0,0⟩], rs := 100, re := 5000, next := 200, fedRec := [some 199, some 198, some 197, some 196], result := 2, fmts := [(3,1)], fedTick := 100, lastFed := some 99999, lastAct := some 99999 })
def ev (t : Nat) (r : Int) : Eval := { tick := t, recTick := r, payload := 0, valid := false, cvalid := false, wr := 0, ed := 0, rc := 0, qclk := false, bus := 0, last := false }
def rc (o : Nat) : Rec := { typ := 1, flags := 3, source := 5, words := [1,2], bad := [], ring := 2, ord := o, firstTs := 5, lastTs := 9 }
def stg (n : Nat) (s : State) : State := modStr s 0x103 (fun c => {c with staged := (List.range n).map rc})

/-- States that meet the hypotheses of each clause of `Obligations.ReplayJobsFeedSkipAndEnd`. -/
theorem witness_ReplayJobsFeedSkipAndEnd :
    (∃ (j : Fin 16) (s : State),
    let n := j.val
    let b := getJob s n
    let free := b.state = 1 ∧ b.ending = none ∧ b.lastAct ≠ some (now s) ∧
      (∀ e ∈ b.engines, engRun s e ≠ runPAUSED ∧ (getEng s e).resumedAt ≠ some (now s)) ∧
      ((∀ q ∈ ctxExtQ s mTURNTABLE, q.job ≠ n ∨ b.next ≤ q.recTick) ∨ domReady s 15 = false) ∧ domReady s 22 = true
    let acts := free ∧ b.endReq = 0
    let k := jobSkip s b
    ¬(acts ∧ k = 0 ∧ b.drain < jobLat s b)) ∧
    (∃ (j : Fin 16) (s : State),
    let n := j.val
    let b := getJob s n
    let free := b.state = 1 ∧ b.ending = none ∧ b.lastAct ≠ some (now s) ∧
      (∀ e ∈ b.engines, engRun s e ≠ runPAUSED ∧ (getEng s e).resumedAt ≠ some (now s)) ∧
      ((∀ q ∈ ctxExtQ s mTURNTABLE, q.job ≠ n ∨ b.next ≤ q.recTick) ∨ domReady s 15 = false) ∧ domReady s 22 = true
    let acts := free ∧ b.endReq = 0
    let k := jobSkip s b
    acts ∧ k = 0 ∧ b.drain < jobLat s b ∧ b.next ≤ b.re) ∧
    (∃ (j : Fin 16) (s : State),
    let n := j.val
    let b := getJob s n
    let free := b.state = 1 ∧ b.ending = none ∧ b.lastAct ≠ some (now s) ∧
      (∀ e ∈ b.engines, engRun s e ≠ runPAUSED ∧ (getEng s e).resumedAt ≠ some (now s)) ∧
      ((∀ q ∈ ctxExtQ s mTURNTABLE, q.job ≠ n ∨ b.next ≤ q.recTick) ∨ domReady s 15 = false) ∧ domReady s 22 = true
    let acts := free ∧ b.endReq = 0
    let k := jobSkip s b
    acts ∧ k = 0 ∧ b.drain < jobLat s b ∧ b.re < b.next) ∧
    (∃ (j : Fin 16) (s : State),
    let n := j.val
    let b := getJob s n
    let free := b.state = 1 ∧ b.ending = none ∧ b.lastAct ≠ some (now s) ∧
      (∀ e ∈ b.engines, engRun s e ≠ runPAUSED ∧ (getEng s e).resumedAt ≠ some (now s)) ∧
      ((∀ q ∈ ctxExtQ s mTURNTABLE, q.job ≠ n ∨ b.next ≤ q.recTick) ∨ domReady s 15 = false) ∧ domReady s 22 = true
    let acts := free ∧ b.endReq = 0
    let k := jobSkip s b
    ¬(acts ∧ k ≠ 0)) ∧
    (∃ (j : Fin 16) (s : State),
    let n := j.val
    let b := getJob s n
    let free := b.state = 1 ∧ b.ending = none ∧ b.lastAct ≠ some (now s) ∧
      (∀ e ∈ b.engines, engRun s e ≠ runPAUSED ∧ (getEng s e).resumedAt ≠ some (now s)) ∧
      ((∀ q ∈ ctxExtQ s mTURNTABLE, q.job ≠ n ∨ b.next ≤ q.recTick) ∨ domReady s 15 = false) ∧ domReady s 22 = true
    let acts := free ∧ b.endReq = 0
    let k := jobSkip s b
    acts ∧ k ≠ 0) ∧
    (∃ (j : Fin 16) (s : State),
    let n := j.val
    let b := getJob s n
    (b.state ≠ 1 ∨ b.ending ≠ none)) ∧
    (∃ (j : Fin 16) (s : State) (v : Nat),
    let n := j.val
    let b := getJob s n
    b.state = 1 ∧ b.ending = some v) ∧
    (∃ (j : Fin 16) (s : State),
    let n := j.val
    let b := getJob s n
    (∀ e ∈ b.engines, e < 256) ∧ b.state = 1 ∧ b.ending = none ∧ b.endReq = 4) ∧
    (∃ (j : Fin 16) (s : State),
    let n := j.val
    let b := getJob s n
    let free := b.state = 1 ∧ b.ending = none ∧ b.lastAct ≠ some (now s) ∧
      (∀ e ∈ b.engines, engRun s e ≠ runPAUSED ∧ (getEng s e).resumedAt ≠ some (now s)) ∧
      ((∀ q ∈ ctxExtQ s mTURNTABLE, q.job ≠ n ∨ b.next ≤ q.recTick) ∨ domReady s 15 = false) ∧ domReady s 22 = true
    (∀ e ∈ b.engines, e < 256) ∧ b.state = 1 ∧ b.ending = none ∧ b.endReq = 3 ∧ free) ∧
    (∃ (j : Fin 16) (s : State),
    let n := j.val
    let b := getJob s n
    let free := b.state = 1 ∧ b.ending = none ∧ b.lastAct ≠ some (now s) ∧
      (∀ e ∈ b.engines, engRun s e ≠ runPAUSED ∧ (getEng s e).resumedAt ≠ some (now s)) ∧
      ((∀ q ∈ ctxExtQ s mTURNTABLE, q.job ≠ n ∨ b.next ≤ q.recTick) ∨ domReady s 15 = false) ∧ domReady s 22 = true
    (∀ e ∈ b.engines, e < 256) ∧ b.state = 1 ∧ b.ending = none ∧ b.endReq = 3 ∧ ¬free) ∧
    (∃ (j : Fin 16) (s : State),
    let n := j.val
    let b := getJob s n
    (∀ e ∈ b.engines, e < 256) ∧ b.state = 1 ∧ b.ending = none ∧ b.endReq = 0 ∧ jobDone s b = true) ∧
    (∃ (j : Fin 16) (s : State),
    let n := j.val
    let b := getJob s n
    (∀ e ∈ b.engines, e < 256) ∧ b.state = 1 ∧ b.ending = none ∧ b.endReq = 0 ∧ jobDone s b = false) :=
  ⟨⟨2, up, by decide +kernel⟩,
   ⟨2, jb 5 id id, by decide +kernel⟩,
   ⟨2, jb 5 (fun b => {b with next := 5001}) id, by decide +kernel⟩,
   ⟨2, up, by decide +kernel⟩,
   ⟨2, jb 5 id (fun c => {c with settled := true, lastExec := some 99999, evals := [ev 98 197]}), by decide +kernel⟩,
   ⟨2, up, by decide +kernel⟩,
   ⟨2, stg 2 (jb 5 (fun b => {b with ending := some 3}) id), 3, by decide +kernel⟩,
   ⟨2, jb 5 (fun b => {b with endReq := 4}) id, by decide +kernel⟩,
   ⟨2, jb 5 (fun b => {b with endReq := 3}) id, by decide +kernel⟩,
   ⟨2, jb 2 (fun b => {b with endReq := 3}) id, by decide +kernel⟩,
   ⟨2, jb 5 (fun b => {b with next := 5001, drain := 2}) id, by decide +kernel⟩,
   ⟨2, jb 5 id id, by decide +kernel⟩⟩

end Sys2Proof.Tests.G56

namespace Sys2Proof.Tests.G57

def ring (r log : Nat) (s : State) : State := put [(rR r 0, 0x80000000 + log*2^16)] s
def dm (st : Nat) (f : DmaCore → DmaCore) (rds : List OutRead) : State :=
  let s := setDma (put [(dmaR 5 0, 0x1000), (dmaR 5 8, 4), (dmaR 5 0xC, 10), (dmaR 5 0x10, 2), (dmaR 5 0x18, st)] (ring 1 8 (ring 2 8 up))) 5 (f DmaCore.init)
  { s with pcie := { s.pcie with reads := rds } }
def fe (c : DmaCore) : DmaCore := { c with fetched := true }
def d (op len : Nat) (irq : Nat) (ptr ring : Nat) : Descriptor := ⟨0x2000, BitVec.ofNat 64 (len + op * 2^32 + irq * 2^36), BitVec.ofNat 64 (ptr * 2^16 + ring), 0⟩

/-- States that meet the hypotheses of each clause of `Obligations.DmaChannelsRunAndHalt`. -/
theorem witness_DmaChannelsRunAndHalt :
    (∃ (c : Fin 32) (s : State), memDecoded s = true ∧ (let n := c.val
    let good := 1 ≤ dmaLog s n ∧ dmaLog s n ≤ 16 ∧ rdF s (dmaR n 0) 0 5 = 0
    let rests := dmaState s n = 0 ∨ dmaState s n = 3
    rests ∧ good)) ∧
    (∃ (c : Fin 32) (s : State), memDecoded s = true ∧ (let n := c.val
    let good := 1 ≤ dmaLog s n ∧ dmaLog s n ≤ 16 ∧ rdF s (dmaR n 0) 0 5 = 0
    let rests := dmaState s n = 0 ∨ dmaState s n = 3
    rests ∧ ¬good ∧ dmaIn s n = false)) ∧
    (∃ (c : Fin 32) (s : State), memDecoded s = true ∧ (let n := c.val
    let rests := dmaState s n = 0 ∨ dmaState s n = 3
    ¬rests)) ∧
    (∃ (c : Fin 32) (s : State), memDecoded s = true ∧ (let n := c.val
    dmaState s n = 1 ∧ dmaIn s n = false ∧ (getDma s n).fetched = true ∧ mayIssue s = true)) ∧
    (∃ (c : Fin 32) (s : State), memDecoded s = true ∧ (let n := c.val
    dmaState s n = 1 ∧ dmaIn s n = false ∧ (getDma s n).fetched = false)) ∧
    (∃ (c : Fin 32) (s : State), memDecoded s = true ∧ (let n := c.val
    dmaState s n = 1 ∧ dmaIn s n = true ∧ (getDma s n).waiting = none)) ∧
    (∃ (c : Fin 32) (s : State), memDecoded s = true ∧ (let n := c.val
    dmaState s n ≠ 1)) ∧
    (∃ (tag : BitVec 10) (status : CplStatus) (ep : Bool) (s : State), (∃ r ∈ s.pcie.reads.find? (fun r => r.tag == tag.toNat), r.chan < 32 ∧ (∀ x ∈ s.pcie.reads, x.chan = r.chan → x = r) ∧ (getDma s r.chan).waiting = none ∧ dmaState s r.chan = 1 ∧ status = .ok ∧ ep = false)) ∧
    (∃ (tag : BitVec 10) (status : CplStatus) (s : State), (∃ r ∈ s.pcie.reads.find? (fun r => r.tag == tag.toNat), r.chan < 32 ∧ (∀ x ∈ s.pcie.reads, x.chan = r.chan → x = r) ∧ (getDma s r.chan).waiting = none ∧ dmaState s r.chan = 1 ∧ status ≠ .ok)) ∧
    (∃ (tag : BitVec 10) (status : CplStatus) (ep : Bool) (s : State), (∃ r ∈ s.pcie.reads.find? (fun r => r.tag == tag.toNat), r.chan < 32 ∧ (∀ x ∈ s.pcie.reads, x.chan = r.chan → x = r) ∧ (getDma s r.chan).waiting = none ∧ dmaState s r.chan = 1 ∧ status = .ok ∧ ep = true)) ∧
    (∃ (tag : BitVec 10) (ep : Bool) (s : State), (∃ r ∈ s.pcie.reads.find? (fun r => r.tag == tag.toNat), r.chan < 32 ∧ (∀ x ∈ s.pcie.reads, x.chan = r.chan → x = r) ∧ (getDma s r.chan).waiting = none ∧ dmaState s r.chan = 1 ∧ ep = true)) ∧
    (∃ (tag : BitVec 10) (s : State), (∀ r ∈ s.pcie.reads, r.tag ≠ tag.toNat) ∧ (∀ r ∈ s.pcie.preFlr, r.tag ≠ tag.toNat)) ∧
    (∃ (tag : BitVec 10) (s : State), (∃ r ∈ s.pcie.reads, r.tag = tag.toNat ∧ (∀ x ∈ s.pcie.reads, x.tag = r.tag ∨ x.chan = r.chan → x = r) ∧ r.chan < 32 ∧ r.sent + cplTimeout s < s.ns ∧ dmaState s r.chan = 1 ∧ (getDma s r.chan).waiting = none)) ∧
    (∃ (tag : BitVec 10) (s : State), (∀ r ∈ s.pcie.reads ++ s.pcie.preFlr, r.tag = tag.toNat → s.ns ≤ r.sent + cplTimeout s)) ∧
    (∃ (c : Fin 32) (s : State),
    let n := c.val
    let runs := dmaState s n = 1 ∧ (getDma s n).fetched = true ∧ mayIssue s = true
    ¬runs) ∧
    (∃ (c : Fin 32) (d : Descriptor) (s : State) (cause : Nat),
    let n := c.val
    let runs := dmaState s n = 1 ∧ (getDma s n).fetched = true ∧ mayIssue s = true
    runs ∧ dmaIn s n = false ∧ descCheck s n d = some cause) ∧
    (∃ (c : Fin 32) (d : Descriptor) (s : State),
    let n := c.val
    let runs := dmaState s n = 1 ∧ (getDma s n).fetched = true ∧ mayIssue s = true
    runs ∧ descCheck s n d = none ∧ descOp d = 1 ∧ dmaLog s n ≤ 16 ∧ descIrq d = true) ∧
    (∃ (c : Fin 32) (d : Descriptor) (s : State) (k : Nat),
    let n := c.val
    let runs := dmaState s n = 1 ∧ (getDma s n).fetched = true ∧ mayIssue s = true
    runs ∧ descCheck s n d = none ∧ descOp d = 2 ∧ chanHolder s n = some k ∧ (let x := getDfl s k
    let room := descLen d - (getDma s n).filled
    x.outQ.length < room ∧ x.syncMark = false ∧ x.endMark = none)) ∧
    (∃ (c : Fin 32) (d : Descriptor) (s : State) (k : Nat),
    let n := c.val
    let runs := dmaState s n = 1 ∧ (getDma s n).fetched = true ∧ mayIssue s = true
    runs ∧ descCheck s n d = none ∧ descOp d = 3 ∧ chanHolder s n = some k ∧ dmaLog s n ≤ 16 ∧ (dflExpand s k).verdict = 0 ∧ inflateWaits s k = false) ∧
    (∃ (c : Fin 32) (d : Descriptor) (s : State) (k : Nat),
    let n := c.val
    let runs := dmaState s n = 1 ∧ (getDma s n).fetched = true ∧ mayIssue s = true
    runs ∧ descCheck s n d = none ∧ descOp d = 3 ∧ chanHolder s n = some k ∧ dmaLog s n ≤ 16 ∧ ((dflExpand s k).verdict ≠ 0 ∨ inflateWaits s k = true)) :=
  ⟨⟨5, dm 0 id [], by decide +kernel⟩,
   ⟨5, up, by decide +kernel⟩,
   ⟨5, dm 1 id [], by decide +kernel⟩,
   ⟨5, dm 1 fe [], by decide +kernel⟩,
   ⟨5, dm 1 id [], by decide +kernel⟩,
   ⟨5, dm 1 id [⟨7,5,999000⟩], by decide +kernel⟩,
   ⟨5, up, by decide +kernel⟩,
   ⟨7, .ok, false, dm 1 id [⟨7,5,999000⟩], by decide +kernel⟩,
   ⟨7, .unsupported, dm 1 id [⟨7,5,999000⟩], by decide +kernel⟩,
   ⟨7, .ok, true, dm 1 id [⟨7,5,999000⟩], by decide +kernel⟩,
   ⟨7, true, dm 1 id [⟨7,5,999000⟩], by decide +kernel⟩,
   ⟨7, up, by decide +kernel⟩,
   ⟨7, { dm 1 id [⟨7,5,0⟩] with ns := 60000000000 }, by decide +kernel⟩,
   ⟨7, up, by decide +kernel⟩,
   ⟨5, up, by decide +kernel⟩,
   ⟨5, d 1 64 1 5 1, setDfl (put [(dflR 4 0, 2 + 0x1000000), (dflR 4 4, 1 + 5 * 2^16), (dmaR 5 0x18, 0x140001)] (dm 1 fe [])) 4 {DflCore.init with outQ := [1,2,3]}, 2, by decide +kernel⟩,
   ⟨5, d 1 64 1 5 1, dm 1 fe [], by decide +kernel⟩,
   ⟨5, d 2 64 0 0 0, setDfl (put [(dflR 4 0, 2 + 0x1000000), (dflR 4 4, 1 + 5 * 2^16), (dmaR 5 0x18, 0x140001)] (dm 1 fe [])) 4 {DflCore.init with outQ := [1,2,3]}, 4, by decide +kernel⟩,
   ⟨5, d 3 64 0 0 0, setDfl (put [(dflR 4 0, 3), (dflR 4 4, 5 + 1 * 2^16), (dmaR 5 0x18, 0x140001)] (dm 1 fe [])) 4 {DflCore.init with inBytes := []}, 4, by decide +kernel⟩,
   ⟨5, d 3 64 0 0 0, setDfl (put [(dflR 4 0, 3), (dflR 4 4, 5 + 1 * 2^16), (dmaR 5 0x18, 0x140001)] (dm 1 fe [])) 4 {DflCore.init with inBytes := [7,7,7,7,7,7]}, 4, by decide +kernel⟩⟩

end Sys2Proof.Tests.G57

namespace Sys2Proof.Tests.G58

/-- Peer window 2 open, two bytes and one bad word behind it. -/
def window : State :=
  put [(peerWinR 2, 0x80000003)] { up with stratus := [(0xC000010, 5), (0xC000011, 7)], stratusBad := [0x1800003] }

theorem window_on (i : Nat) : stratusOn window i = true := by
  have h : ∀ c < 16, domReady window (domStratus (c / 8)) = true := by decide +kernel
  show domReady window (domStratus (stratusChannel i / 8)) = true
  exact h (stratusChannel i) (Nat.mod_lt _ (by decide))

theorem window_words : ∀ x ∈ peerWords window window.freeCtr 0xC000010 1, x.2 = false := by
  have h : (peerWords window window.freeCtr 0xC000010 1).all (fun x => !x.2) = true := by decide +kernel
  intro x hx
  simpa using List.all_eq_true.mp h x hx

/-- States that meet the hypotheses of each clause of `Obligations.RequestsPowerStatesAndMessages`. -/
theorem witness_RequestsPowerStatesAndMessages :
    (∃ (a : BitVec 36) (len : Nat) (s : State),
    let maps := memDecoded s = true ∧ 0 < len
    (¬maps ∨ peerMap s a.toNat len = none)) ∧
    (∃ (a : BitVec 36) (len : Nat) (s : State) (b : Nat),
    let maps := memDecoded s = true ∧ 0 < len
    maps ∧ peerMap s a.toNat len = some b ∧ (∀ x ∈ (peerWords s s.freeCtr b len), x.2 = false) ∧ (∀ i, stratusOn s i = true) ∧ s.stratusCorr = []) ∧
    (∃ (a : BitVec 36) (data : List (Option Byte)) (s : State),
    let maps := memDecoded s = true ∧ bitAt (peerWin s (a.toNat / 2 ^ 33)) 30 = true ∧ data ≠ []
    (¬maps ∨ peerMap s a.toNat data.length = none)) ∧
    (∃ (a : BitVec 36) (data : List (Option Byte)) (ep : Bool) (s : State) (b : Nat),
    let maps := memDecoded s = true ∧ bitAt (peerWin s (a.toNat / 2 ^ 33)) 30 = true ∧ data ≠ []
    maps ∧ peerMap s a.toNat data.length = some b ∧ ep = false) ∧
    (∃ (a : BitVec 36) (data : List (Option Byte)) (ep : Bool) (s : State) (b : Nat),
    let maps := memDecoded s = true ∧ bitAt (peerWin s (a.toNat / 2 ^ 33)) 30 = true ∧ data ≠ []
    maps ∧ peerMap s a.toNat data.length = some b ∧ ep = true) ∧
    (∃ (s : State), cfgRetries s = true) ∧
    (∃ (reg : BitVec 10) (v : Word) (be : BitVec 4) (s : State),
    let d := reg.toNat
    let m := beMask be
    let r := cfgReg d
    let new := mergeBits (cfgRead s d) v (r.rw &&& m) &&& ~~~(v &&& m &&& r.w1c)
    cfgRetries s = false ∧ d ≠ 0x11 ∧ (d = 0x16 → bitAt (v &&& m) 15 = false) ∧ (d = 1 → busMaster s = true → bitAt new 2 = true)) ∧
    (∃ (s : State), dState s = 3) ∧
    (∃ (s : State), dState s ≠ 3) ∧
    (∃ (s : State),
    let idles := bitAt (cfgRead s 0x18) 1 = true ∧ rdF s PCIE_STATUS 0 4 ≠ 0 ∧ s.pcie.lastTlp + 16000 ≤ s.ns
    ¬idles) ∧
    (∃ (s : State),
    let idles := bitAt (cfgRead s 0x18) 1 = true ∧ rdF s PCIE_STATUS 0 4 ≠ 0 ∧ s.pcie.lastTlp + 16000 ≤ s.ns
    idles) ∧
    (∃ (v : Fin 1024) (s : State),
    let sends := pbaBit s v.val = true ∧ vectorBlocked s v.val = false
    ¬sends) ∧
    (∃ (v : Fin 1024) (s : State),
    let sends := pbaBit s v.val = true ∧ vectorBlocked s v.val = false
    sends) :=
  ⟨⟨2 * 2^33 + 16, 0, State.reset, by decide +kernel⟩,
   ⟨2 * 2^33 + 16, 1, window, 0xC000010, by decide +kernel, by decide +kernel, window_words, fun i => window_on i, by decide +kernel⟩,
   ⟨2 * 2^33 + 16, [], State.reset, by decide +kernel⟩,
   ⟨2 * 2^33 + 16, [some 3, none, some 4], false, put [(peerWinR 2, 0xC0000003)] up, 0xC000010, by decide +kernel⟩,
   ⟨2 * 2^33 + 16, [some 3, none, some 4], true, put [(peerWinR 2, 0xC0000003)] up, 0xC000010, by decide +kernel⟩,
   ⟨State.reset, by decide +kernel⟩,
   ⟨0x000#10, 0, 0xF, up, by decide +kernel⟩,
   ⟨{ up with pcie := { up.pcie with cfg := [(1,2),(0x11,3)] } }, by decide +kernel⟩,
   ⟨State.reset, by decide +kernel⟩,
   ⟨State.reset, by decide +kernel⟩,
   ⟨put [(PCIE_STATUS, 0x155)] { up with pcie := { up.pcie with cfg := [(1,6),(0x18,2)], lastTlp := 984000 }}, by decide +kernel⟩,
   ⟨3, State.reset, by decide +kernel⟩,
   ⟨3, { up with pcie := { up.pcie with msix := [(12,0xFEE00000),(14,0x55),(15,0)], pba := [3,9], cfg := [(1,6),(0x2C, 0x80000000)] } }, by decide +kernel⟩⟩

end Sys2Proof.Tests.G58

namespace Sys2Proof.Tests.G59

def cst (v : Nat) (s : State) : State := wrF s SYS_CAPTURE 0 3 v

/-- States that meet the hypotheses of each clause of `Obligations.BootFaultTemperatureAndSmbus`. -/
theorem witness_BootFaultTemperatureAndSmbus :
    (∃ (s : State), booting s = false) ∧
    (∃ (image : BootImage) (s : State),
    let res := match image with | .image0 => 1 | .image1 => 2 | .bothFailed => 3 | .noAnswer => 4
    booting s = true ∧ res ≤ 2) ∧
    (∃ (s : State), fwReady s = false) ∧
    (∃ (s : State), fwReady s = true) ∧
    (∃ (temp : BitVec 16) (s : State),
    let level := signed16 (rdF s THERM_ALERT 0 16)
    level ≤ temp.toInt) ∧
    (∃ (temp : BitVec 16) (s : State),
    let level := signed16 (rdF s THERM_ALERT 0 16)
    temp.toInt ≤ level - 32) ∧
    (∃ (temp : BitVec 16) (s : State),
    let level := signed16 (rdF s THERM_ALERT 0 16)
    level - 32 < temp.toInt ∧ temp.toInt < level) ∧
    (∃ (s : State), thermTripped s = true) ∧
    (∃ (s : State), thermTripped s = false ∧ capActive s = true ∧ s.capture.haltAt = none ∧ s.capture.trigs = []) ∧
    (∃ (addr : BitVec 7) (cmd : BitVec 8) (s : State), addr.toNat = 0x58 + s.smbAddr.toNat ∧ (∃ p ∈ [(0, SYS_ID), (1, SYS_BOOT), (2, SYS_FW_STATUS), (3, THERM_STATUS), (4, THERM_MAX), (5, PWR_READY)], cmd.toNat = p.1)) ∧
    (∃ (addr : BitVec 7) (cmd : BitVec 8) (s : State), (addr.toNat ≠ 0x58 + s.smbAddr.toNat ∨ 5 < cmd.toNat)) ∧
    (∃ (tdi : List Bool), tdi.length = 5) ∧
    (∃ (s : State) (tdi : List Bool), s.jtag.tap = .captureDr ∧ s.jtag.instr = .idcode ∧ tdi.length = 32) :=
  ⟨⟨{ up with jtag := { up.jtag with tap := .captureDr } }, by decide +kernel⟩,
   ⟨.image0, State.reset, by decide +kernel⟩,
   ⟨State.reset, by decide +kernel⟩,
   ⟨{ up with jtag := { up.jtag with tap := .captureDr } }, by decide +kernel⟩,
   ⟨0x640, { up with jtag := { up.jtag with tap := .captureDr } }, by decide +kernel⟩,
   ⟨0, { up with jtag := { up.jtag with tap := .captureDr } }, by decide +kernel⟩,
   ⟨0x63F, { up with jtag := { up.jtag with tap := .captureDr } }, by decide +kernel⟩,
   ⟨wrBit up THERM_STATUS 31 true, by decide +kernel⟩,
   ⟨cst 2 up, by decide +kernel⟩,
   ⟨0x58, 0, { up with jtag := { up.jtag with tap := .captureDr } }, by decide +kernel⟩,
   ⟨0x58, 0, { up with smbAddr := 2 }, by decide +kernel⟩,
   ⟨List.replicate 5 false, by decide +kernel⟩,
   ⟨{ up with jtag := { up.jtag with tap := .captureDr } }, List.replicate 32 true, by decide +kernel⟩⟩

/-- States that meet the hypotheses of `Obligations.EmptyQueuePassesTick`. -/
theorem witness_EmptyQueuePassesTick :
    ∃ (s : State), s.pending = [] :=
  ⟨{ up with jtag := { up.jtag with tap := .captureDr } }, by decide +kernel⟩

end Sys2Proof.Tests.G59
end

section
/-! The host's writes: what an access violation and a guarded write do (spec/02_register_model.md, R36 to R39). -/

namespace Sys2Proof.Machine

-- One proof at a time: a proof under way beside others holds a thread's stack against the check's memory limit.
set_option Elab.async false

/-! ### Causes and access violations -/

theorem Still.sameMemory {s t : State} (h : Still s t) : Safety.SameMemory s t :=
  ⟨fun a => by rw [h.2.1], fun a => by rw [h.2.2]⟩

theorem rd_setCause_self (s : State) {off k : Nat} (en m : Word) (h : off ≠ evtR k) :
    rd (setCause s off en k m) off = rd s off ||| m := by
  simp only [setCause]
  split
  · exact rd_hwOr_self _ _ _
  · rw [raiseSrc, rd_hwOr_ne _ _ h, rd_hwOr_self]

theorem rd_setCause_ne (s : State) {off k o : Nat} (en m : Word) (h : o ≠ off) (hk : o ≠ evtR k) :
    rd (setCause s off en k m) o = rd s o := by
  simp only [setCause]
  split
  · exact rd_hwOr_ne _ _ h
  · rw [raiseSrc, rd_hwOr_ne _ _ hk, rd_hwOr_ne _ _ h]

@[simp] theorem setCause_guard (s : State) (off k : Nat) (en m : Word) : (setCause s off en k m).guard = s.guard := by
  simp only [setCause]; split <;> rfl
@[simp] theorem setCause_gates (s : State) (off k : Nat) (en m : Word) : (setCause s off en k m).gates = s.gates := by
  simp only [setCause]; split <;> rfl
@[simp] theorem setCause_pcie (s : State) (off k : Nat) (en m : Word) : (setCause s off en k m).pcie = s.pcie := by
  simp only [setCause]; split <;> rfl

@[simp] theorem accessViolation_guard (s : State) (m : Word) (c off : Nat) :
    (accessViolation s m c off).guard = s.guard := by rw [accessViolation, setCause_guard, wr_guard]
@[simp] theorem accessViolation_gates (s : State) (m : Word) (c off : Nat) :
    (accessViolation s m c off).gates = s.gates := by rw [accessViolation, setCause_gates, wr_gates]

/-- An access violation shows the bits it was given in SYS_ACCESS (R36). -/
theorem rdBit_accessViolation (s : State) {m : Word} (c off : Nat) {i : Nat} (h : bitAt m i = true) :
    rdBit (accessViolation s m c off) SYS_ACCESS i = true := by
  rw [rdBit, accessViolation, rd_setCause_self _ _ _ (by decide)]
  simp only [bitAt] at h ⊢
  simp [h]

/-- An access violation records its cause and the offset. -/
theorem rd_accessViolation_addr (s : State) (m : Word) (c : Nat) {off : Nat} (h : off < 2 ^ 26) :
    rd (accessViolation s m c off) SYS_ACCESS_ADDR = BitVec.ofNat 32 (c * 2 ^ 28 + off) := by
  rw [accessViolation, rd_setCause_ne _ _ _ (by decide) (by decide), rd_wr_self, Nat.mod_eq_of_lt h]

theorem regsOnlyAt_accessViolation {z s : State} (h : s.regs = z.regs) (m : Word) (c off : Nat) :
    Safety.RegsOnlyAt z (accessViolation s m c off) [SYS_ACCESS, SYS_ACCESS_ADDR, evtR 639] := by
  intro o ho
  simp only [List.mem_cons, List.not_mem_nil, or_false, not_or] at ho
  obtain ⟨hacc, haddr, hsrc⟩ := ho
  rw [accessViolation, rd_setCause_ne _ _ _ hacc hsrc, rd_wr_ne _ _ haddr, rd_congr h]

/-! ### Writes of the guarded block -/

theorem blockOf_stage {o : Nat} (h : o < 0x10000) : blockOf (0x00100000 + o) = .stage o := by
  rw [blockOf, if_neg (by omega), if_pos (by omega), Nat.add_sub_cancel_left]

theorem blockOf_commit {o : Nat} (h : o < 0x10000) : blockOf (0x00110000 + o) = .commit o := by
  rw [blockOf, if_neg (by omega), if_neg (by omega), if_pos (by omega), Nat.add_sub_cancel_left]

theorem exec_guardStage {s : State} (off : BitVec 16) (v : Word) (be : BitVec 4) (h : memDecoded s = true) :
    exec (.guardStage off v be) s = .next (guardPut (tlpSeen s) (off.toNat / 4 * 4) v be) := by
  have ha : (0x00100000 + off.toNat) / 4 * 4 = 0x00100000 + off.toNat / 4 * 4 := by omega
  change execGuardStage off v be s = _
  simp only [execGuardStage, hostWrite, h, if_true, bar0Write, ha, blockOf_stage (o := off.toNat / 4 * 4) (by omega)]

/-- The row GUARDED_COMMIT at the stage side is a stage write. -/
theorem exec_guardedCommit_false (s : State) (off : BitVec 16) (v : Word) (be : BitVec 4) :
    exec (.guardedCommit false off v be) s = exec (.guardStage off v be) s := by
  change execGuardedCommit false off v be s = execGuardStage off v be s
  simp only [execGuardedCommit, execGuardStage, Bool.false_eq_true, if_false]

theorem exec_guardedCommit_true {s : State} (off : BitVec 16) (v : Word) (be : BitVec 4) (h : memDecoded s = true) :
    exec (.guardedCommit true off v be) s = .next (guardPut (tlpSeen s) (0x10000 + off.toNat / 4 * 4) v be) := by
  have ha : (0x00110000 + off.toNat) / 4 * 4 = 0x00110000 + off.toNat / 4 * 4 := by omega
  change execGuardedCommit true off v be s = _
  simp only [execGuardedCommit, hostWrite, h, if_true, bar0Write, ha, blockOf_commit (o := off.toNat / 4 * 4) (by omega)]

/-- Command `i` fails as a guarded write: the latch is clear, GUARD_FAIL set, cause and offset recorded, nothing else changed. -/
def GuardFails (s : State) (i : Instr) (cause at_ : Nat) : Prop :=
  ∃ t, exec i s = .next t ∧ t.guard = none ∧ rdBit t SYS_ACCESS 0 = true ∧
    rd t SYS_ACCESS_ADDR = BitVec.ofNat 32 (cause * 2 ^ 28 + at_) ∧
    Safety.RegsOnlyAt s t [SYS_ACCESS, SYS_ACCESS_ADDR, evtR 639] ∧ Safety.SameMemory s t

/-- A write of the guarded block with a cause to fail does fail. -/
theorem guardFails_of_cause {s : State} {i : Instr} {o cause : Nat} {v : Word} {be : BitVec 4}
    (hi : exec i s = .next (guardPut (tlpSeen s) o v be)) (hc : guardCause s.guard o v be = some cause)
    (ho : o < 0x20000) : GuardFails s i cause (0x00100000 + o) := by
  have ht : guardPut (tlpSeen s) o v be =
      accessViolation { tlpSeen s with guard := none } 1 cause (0x00100000 + o) := by
    rw [guardPut, show (tlpSeen s).guard = s.guard from rfl, hc]
  have hstill : Still s (accessViolation { tlpSeen s with guard := none } 1 cause (0x00100000 + o)) :=
    still_accessViolation _ _ _ _ ⟨rfl, rfl, rfl⟩
  rw [ht] at hi
  refine ⟨_, hi, accessViolation_guard _ _ _ _, rdBit_accessViolation _ _ _ (by decide),
    rd_accessViolation_addr _ _ _ (by omega), ?_, hstill.sameMemory⟩
  have hregs : { tlpSeen s with guard := none }.regs = s.regs := rfl
  exact regsOnlyAt_accessViolation hregs _ _ _

theorem guardFails_commit {s : State} {off : BitVec 16} {v : Word} {be : BitVec 4} {cause : Nat} (hd : memDecoded s = true)
    (hc : guardCause s.guard (0x10000 + off.toNat / 4 * 4) v be = some cause) :
    GuardFails s (.guardedCommit true off v be) cause (0x00110000 + off.toNat / 4 * 4) := by
  have h := guardFails_of_cause (exec_guardedCommit_true off v be hd) hc (by omega)
  rwa [← Nat.add_assoc] at h

/-! ### The causes -/

theorem guardCause_partial (g : Option GuardLatch) (o : Nat) (v : Word) {be : BitVec 4} (h : be ≠ 0xF) :
    guardCause g o v be = some 5 := if_pos h

theorem guardCause_stage_idle {o : Nat} (v : Word) (h : o < 0x10000) : guardCause none o v 0xF = none := by
  simp [guardCause, Nat.not_le.2 h]

theorem guardCause_stage_pending (l : GuardLatch) {o : Nat} (v : Word) (h : o < 0x10000) :
    guardCause (some l) o v 0xF = some 4 := by
  simp [guardCause, h]

theorem guardCause_commit_idle (o : Nat) (v : Word) : guardCause none (0x10000 + o) v 0xF = some 3 := by
  simp [guardCause]

theorem guardCause_commit_pending (l : GuardLatch) (o : Nat) (v : Word) :
    guardCause (some l) (0x10000 + o) v 0xF =
      if o ≠ l.off.toNat then some 2 else if v ≠ ~~~l.val then some 1 else none := by
  simp [guardCause]

/-- A committed value at an offset that names no guarded register has no effect. -/
theorem guardApply_elsewhere (s : State) {off : Nat} (v : Word) (h1 : 0x60 ≤ off) (h2 : off ≠ 0x100)
    (h3 : off < 0x800 ∨ 0x820 ≤ off) : guardApply s off v = s := by
  rw [guardApply, if_neg (by omega), if_neg h2, if_neg (by omega)]

/-- A row whose write is a stage write loads the latch, or fails for partial byte enables or a latch already loaded. -/
theorem stage_write_takes_or_fails {s : State} {i : Instr} {off : BitVec 16} {v : Word} {be : BitVec 4}
    (hi : exec i s = .next (guardPut (tlpSeen s) (off.toNat / 4 * 4) v be)) :
    (be ≠ 0xF → GuardFails s i 5 (0x00100000 + off.toNat / 4 * 4)) ∧
    (be = 0xF → s.guard = none → exec i s =
      .next { tlpSeen s with guard := some { off := BitVec.ofNat 16 (off.toNat / 4 * 4), val := v } }) ∧
    (be = 0xF → s.guard ≠ none → GuardFails s i 4 (0x00100000 + off.toNat / 4 * 4)) := by
  have ho : off.toNat / 4 * 4 < 0x10000 := by omega
  refine ⟨fun hbe => ?partialEnables, fun hbe hg => ?idle, fun hbe hg => ?pending⟩
  case partialEnables => exact guardFails_of_cause hi (guardCause_partial _ _ _ hbe) (by omega)
  case idle =>
    subst hbe
    rw [hi, guardPut, show (tlpSeen s).guard = none from hg, guardCause_stage_idle v ho]
  case pending =>
    subst hbe
    obtain ⟨l, hl⟩ := Option.ne_none_iff_exists'.1 hg
    exact guardFails_of_cause hi (by rw [hl, guardCause_stage_pending l v ho]) (by omega)

/-- A commit write that matches the latch clears it, and does no more where the offset names no guarded register. -/
theorem exec_guardedCommit_matching {s : State} {off : BitVec 16} {l : GuardLatch} (hd : memDecoded s = true)
    (hl : s.guard = some l) (ho : off.toNat / 4 * 4 = l.off.toNat) (h1 : 0x60 ≤ off.toNat / 4 * 4)
    (h2 : off.toNat / 4 * 4 ≠ 0x100) (h3 : off.toNat / 4 * 4 < 0x800 ∨ 0x820 ≤ off.toNat / 4 * 4) :
    exec (.guardedCommit true off (~~~l.val) 0xF) s = .next { tlpSeen s with guard := none } := by
  rw [exec_guardedCommit_true off _ _ hd, guardPut, show (tlpSeen s).guard = some l from hl, guardCause_commit_pending]
  simp only [ho, ne_eq, not_true_eq_false, if_false]
  rw [ho] at h1 h2 h3
  rw [guardApply_elsewhere _ _ h1 h2 h3]

/-- Settles O31: each write of the guarded block is `guardPut`, and `guardCause` names the cause it fails with or lets it load
the latch or commit. -/
theorem guardedWritesTakeAPair : Obligations.GuardedWritesTakeAPair := by
  intro s off v be hd o fails
  refine ⟨?stage, fun hbe => ?partialEnables, fun hbe hg => ?nothingStaged, fun l hbe hl =>
    ⟨fun ho => ?otherOffset, fun ho hv => ?wrongValue, fun ho hv h1 h2 h3 => ?matching⟩⟩
  case stage =>
    have hx := exec_guardStage off v be hd
    rintro i (rfl | rfl)
    · exact stage_write_takes_or_fails hx
    · exact stage_write_takes_or_fails ((exec_guardedCommit_false s off v be).trans hx)
  case partialEnables => exact guardFails_commit hd (guardCause_partial _ _ _ hbe)
  case nothingStaged =>
    subst hbe
    exact guardFails_commit hd (by rw [hg, guardCause_commit_idle])
  case otherOffset =>
    subst hbe
    exact guardFails_commit hd (by rw [hl, guardCause_commit_pending, if_pos ho])
  case wrongValue =>
    subst hbe
    exact guardFails_commit hd (by rw [hl, guardCause_commit_pending, if_neg (not_not.2 ho), if_pos hv])
  case matching =>
    subst hbe hv
    exact exec_guardedCommit_matching hd hl ho h1 h2 h3

end Sys2Proof.Machine
end

section
/-! The host's register writes: of a plain register, of a counter, of the gates' registers and of the MSI-X table
(spec/02_register_model.md, R13, R34, R45; spec/15_host_endpoint.md, R321, R322, R339; spec/19_access_gates.md, R380, R385). -/

namespace Sys2Proof.Machine

-- One proof at a time, as above.
set_option Elab.async false

/-! ### Blocks of BAR0 -/

theorem blockOf_ctl {a : Nat} (h : a < 0x00100000) : blockOf a = .ctl a := if_pos h

theorem blockOff_ctl (s : State) {a : Nat} (h : a < 0x00100000) : blockOff s a = false := by
  simp [blockOff, offDomain, blockOf_ctl h]

/-- Offset `a` is offset `o` in the unit the block names. -/
def OffsetIn (a : Nat) : Block → Prop
  | .ctl o => o = a
  | .mbx m o => mR m o = a ∧ m < 16
  | .eng n o => eR n o = a
  | .ring r o => rR r o = a ∧ r < 0x8000
  | _ => True

theorem offsetIn_blockOf (a : Nat) : OffsetIn a (blockOf a) := by
  unfold blockOf
  repeat' refine iteInduction (motive := OffsetIn a) (fun _ => ?_) (fun _ => ?_)
  all_goals simp only [OffsetIn, mR, eR, rR]
  all_goals omega

theorem eq_of_blockOf_ctl {a o : Nat} (h : blockOf a = .ctl o) : o = a := by
  have ha := offsetIn_blockOf a
  rwa [h] at ha

theorem mR_of_blockOf {a m o : Nat} (h : blockOf a = .mbx m o) : mR m o = a ∧ m < 16 := by
  have ha := offsetIn_blockOf a
  rwa [h] at ha

theorem eR_of_blockOf {a n o : Nat} (h : blockOf a = .eng n o) : eR n o = a := by
  have ha := offsetIn_blockOf a
  rwa [h] at ha

theorem rR_of_blockOf {a r o : Nat} (h : blockOf a = .ring r o) : rR r o = a ∧ r < 0x8000 := by
  have ha := offsetIn_blockOf a
  rwa [h] at ha

theorem blockOf_mR {m o : Nat} (hm : m < 16) (ho : o < 0x1000) : blockOf (mR m o) = .mbx m o := by
  unfold blockOf mR
  rw [if_neg (by omega), if_neg (by omega), if_neg (by omega), if_neg (by omega), if_pos (by omega), Block.mbx.injEq]
  omega

theorem blockOf_rR {r o : Nat} (hr : r < 0x8000) (ho : o < 0x80) : blockOf (rR r o) = .ring r o := by
  unfold blockOf rR
  rw [if_neg (by omega), if_neg (by omega), if_neg (by omega), if_neg (by omega), if_neg (by omega), if_neg (by omega),
    if_neg (by omega), if_pos (by omega), Block.ring.injEq]
  omega

/-! ### Access codes of the registers that decide what a write does -/

theorem accessOf_mbxState {m : Nat} (hm : m < 16) : accessOf (mR m 0x14) = accW1c 0x100 := by
  rw [accessOf, if_neg (by rw [mR]; omega), blockOf_mR hm (by decide)]
  rfl

theorem accessOf_ringCtrl {r : Nat} (hr : r < 0x8000) : accessOf (rR r 0) = accNone := by
  rw [accessOf, if_neg (by rw [rR]; omega), blockOf_rR hr (by decide)]
  rfl

theorem accCtl_gateCfgR : ∀ w : Fin 64, accCtl (gateCfgR w.val) = accRw 0xFFFFFFFF := by decide

theorem accessOf_makerCfg {a : Nat} (h4 : a % 4 = 0) (h : 0xD100 ≤ a ∧ a < 0xD200) : accessOf a = accRw 0xFFFFFFFF := by
  obtain ⟨w, rfl⟩ : ∃ w : Fin 64, a = gateCfgR w.val :=
    ⟨⟨(a - 0xD100) / 4, by omega⟩, by simp only [gateCfgR]; omega⟩
  rw [accessOf, if_neg (by omega), blockOf_ctl (by omega)]
  exact accCtl_gateCfgR w

/-! ### noteHost and plainPut -/

theorem noteHost_regs (s : State) (off : Nat) : (noteHost s off).regs = s.regs := by
  rw [noteHost]; split <;> rfl
theorem noteHost_cycSet (s : State) (off : Nat) : (noteHost s off).cycSet = s.cycSet := by
  rw [noteHost]; split <;> rfl
theorem noteHost_eng (s : State) (off : Nat) : (noteHost s off).eng = s.eng := by
  rw [noteHost]; split <;> rfl

@[simp] theorem rd_noteHost (s : State) (off o : Nat) : rd (noteHost s off) o = rd s o := rd_congr (noteHost_regs s off) o

/-- What a host write of `v` under `mask` leaves in a register that is no counter (R13, R45). -/
def plainValue (s : State) (off : Nat) (v mask : Word) : Word :=
  mergeBits (rd s off) v ((accessOf off).rw &&& mask) &&& ~~~(v &&& mask &&& (accessOf off).w1c &&& ~~~cycBits s off)

theorem plainPut_eq (s : State) {off : Nat} (v mask : Word) (h : (accessOf off).ctr = false) :
    plainPut s off v mask = wr (if (accessOf off).rw = 0 then s else noteHost s off) off (plainValue s off v mask) := by
  simp [plainPut, plainValue, h]

theorem rd_plainPut_self (s : State) {off : Nat} (v mask : Word) (h : (accessOf off).ctr = false) :
    rd (plainPut s off v mask) off = plainValue s off v mask := by
  rw [plainPut_eq s v mask h, rd_wr_self]

theorem rd_plainPut_ne (s : State) {off o : Nat} (v mask : Word) (h : (accessOf off).ctr = false) (ho : o ≠ off) :
    rd (plainPut s off v mask) o = rd s o := by
  rw [plainPut_eq s v mask h, rd_wr_ne _ _ ho]
  split
  · rfl
  · exact rd_noteHost s off o

theorem plainPut_cycSet (s : State) {off : Nat} (v mask : Word) (h : (accessOf off).ctr = false) :
    (plainPut s off v mask).cycSet = s.cycSet := by
  rw [plainPut_eq s v mask h, wr_cycSet]
  split
  · rfl
  · exact noteHost_cycSet s off

theorem plainPut_eng (s : State) {off : Nat} (v mask : Word) (h : (accessOf off).ctr = false) :
    (plainPut s off v mask).eng = s.eng := by
  rw [plainPut_eq s v mask h, wr_eng]
  split
  · rfl
  · exact noteHost_eng s off

/-- A bit that is neither RW nor W1C keeps its value, at whatever register the write lands. -/
theorem rdBit_plainPut_readOnly (s : State) {off : Nat} (v mask : Word) (h : (accessOf off).ctr = false) {o i : Nat}
    (hrw : bitAt (accessOf o).rw i = false) (hw1c : bitAt (accessOf o).w1c i = false) :
    rdBit (plainPut s off v mask) o i = rdBit s o i := by
  by_cases ho : o = off
  · subst ho
    rw [rdBit, rd_plainPut_self s v mask h, rdBit]
    simp only [bitAt] at hrw hw1c ⊢
    by_cases hi : i < 32
    · simp only [plainValue, mergeBits, BitVec.getLsbD_and, BitVec.getLsbD_or, BitVec.getLsbD_not, hrw, hw1c, hi]
      simp
    · simp [BitVec.getLsbD_of_ge _ _ (Nat.le_of_not_lt hi)]
  · rw [rdBit, rd_plainPut_ne s v mask h ho, rdBit]

/-! ### Plain registers -/

/-- Whether an offset is that of a plain register depends on the domains, the mailbox's state, the ring's existence and the
engine's lead only. -/
theorem plainRegister_congr {s t : State} {a : Nat} (hon : ∀ d, domOn t d = domOn s d)
    (hready : ∀ d, domReady t d = domReady s d) (hmbx : ∀ m < 16, mbxState t m = mbxState s m)
    (hring : ∀ r < 0x8000, ringExists t r = ringExists s r) (heng : t.eng = s.eng) (h : Safety.PlainRegister s a) : Safety.PlainRegister t a := by
  obtain ⟨h4, hoff, hkind⟩ := h
  have hoff' : blockOff t a = false := by rw [← hoff, blockOff, hon, hready, blockOff]
  refine ⟨h4, hoff', ?_⟩
  cases hb : blockOf a with
  | mbx m o => simpa only [hb, hmbx m (mR_of_blockOf hb).2] using hkind
  | eng n o => simpa only [hb, getEng, heng] using hkind
  | ring r o => simpa only [hb, hring r (rR_of_blockOf hb).2] using hkind
  | _ => rw [hb] at hkind; exact hkind

/-- A write of a register that is no counter leaves every plain register plain. -/
theorem plainRegister_plainPut {s : State} {off b : Nat} (v mask : Word) (h : (accessOf off).ctr = false)
    (hb : Safety.PlainRegister s b) : Safety.PlainRegister (plainPut s off v mask) b := by
  have hro {o : Nat} (i : Nat) (ho : accessOf o = accNone) : rdBit (plainPut s off v mask) o i = rdBit s o i :=
    rdBit_plainPut_readOnly s v mask h (by simp [ho, accNone, bitAt]) (by simp [ho, accNone, bitAt])
  refine plainRegister_congr (fun d => hro d rfl) (fun d => hro d rfl) (fun m hm => ?_)
    (fun r hr => hro 31 (accessOf_ringCtrl hr)) (plainPut_eng s v mask h) hb
  apply Nat.eq_of_testBit_eq
  intro i
  simp only [mbxState, rdF, testBit_fld, Nat.zero_add]
  by_cases hi : i < 2
  · have hacc := accessOf_mbxState hm
    have hbit := rdBit_plainPut_readOnly s v mask h (o := mR m 0x14) (i := i) (by simp [hacc, accW1c, bitAt])
      (by rw [hacc]; interval_cases i <;> rfl)
    simpa [hi, rdBit, bitAt] using hbit
  · simp [hi]

/-- A write of a plain register does what the access codes say. -/
theorem regPut_plain {s : State} {a : Nat} (h : Safety.PlainRegister s a) (v mask : Word) (at_ : Nat) (al : Bool) :
    regPut s a v mask at_ al = plainPut s a v mask := by
  obtain ⟨-, hoff, hkind⟩ := h
  rw [regPut, hoff, if_neg Bool.false_ne_true]
  cases hb : blockOf a with
  | ctl o =>
    obtain rfl := eq_of_blockOf_ctl hb
    simp only [hb] at hkind ⊢
    obtain ⟨hevt, hpwd, hcfg, hwin, hdma, hctrl, halert⟩ := hkind
    rw [ctlPut, if_neg hevt, if_neg hpwd, if_neg hcfg, if_neg hwin, if_neg (by omega), if_neg (by omega), if_neg halert,
      if_neg hctrl]
  | mbx m o =>
    simp only [hb] at hkind ⊢
    obtain ⟨ho, h1, h2⟩ := hkind
    simp [mbxPut, h1, h2, ho, (mR_of_blockOf hb).1]
  | eng n o =>
    simp only [hb] at hkind ⊢
    obtain ⟨h4, h8, h1C, h2C, hcnt, hlead⟩ := hkind
    rw [engPut, if_neg h4, if_neg h8, if_neg h1C, if_neg h2C, if_neg (by omega), if_neg (by omega),
      if_neg (fun h => h.2.2 (hlead ⟨h.1, h.2.1⟩)), eR_of_blockOf hb]
  | ring r o =>
    simp only [hb] at hkind ⊢
    obtain ⟨hex, h40, h38⟩ := hkind
    simp [ringPut, hex, h40, h38, (rR_of_blockOf hb).1]
  | lane n o => rfl
  | _ => simp [hb] at hkind

/-- A BAR0 write of a plain register (R30, R34). -/
theorem bar0Write_plain {s : State} {off : Nat} (h : Safety.PlainRegister s (off / 4 * 4)) (v : Word) (be : BitVec 4) :
    bar0Write s off v be = plainPut s (off / 4 * 4) v (beMask be) := by
  have hkind := h.2.2
  rw [bar0Write]
  cases hb : blockOf (off / 4 * 4) with
  | stage o => rw [hb] at hkind; exact hkind.elim
  | commit o => rw [hb] at hkind; exact hkind.elim
  | bitBand n => rw [hb] at hkind; exact hkind.elim
  | _ => exact regPut_plain h v _ _ _

/-- A BAR0 write of the control and status block. -/
theorem bar0Write_ctl (s : State) {off : Nat} (h : off / 4 * 4 < 0x00100000) (v : Word) (be : BitVec 4) :
    bar0Write s off v be = ctlPut s (off / 4 * 4) v (beMask be) (off / 4 * 4) false := by
  simp only [bar0Write, blockOf_ctl h, regPut, blockOff_ctl s h, Bool.false_eq_true, if_false]

theorem regsOnlyAt_plainPut (s : State) {off : Nat} (v mask : Word) (h : (accessOf off).ctr = false) :
    Safety.RegsOnlyAt s (plainPut s off v mask) [off] := fun _ ho =>
  rd_plainPut_ne s v mask h (by simpa using ho)

/-! ### Counters that did not advance on this tick -/

theorem setFld_fld (v : Word) (lo w : Nat) : setFld v lo w (fld v lo w) = v := by
  apply BitVec.eq_of_getLsbD_eq
  intro i hi
  rw [getLsbD_setFld _ _ _ _ _ hi, testBit_fld]
  split
  · rename_i h
    simp [show i - lo < w by omega, show lo + (i - lo) = i by omega]
  · rfl

theorem counterPut_idle (s : State) {off : Nat} (v m : Word) (hp : ctrPair off = none) (hi : tabGet 0 s.cycInc off = 0) :
    counterPut s off v m = wr (noteHost s off) off (mergeBits (rd s off) v m) := by
  have hle (x : Word) : min ctrMax x.toNat = x.toNat := Nat.min_eq_right (Nat.le_of_lt_succ x.isLt)
  simp only [counterPut, hp, hi, Nat.sub_zero, Nat.add_zero, BitVec.ofNat_toNat, BitVec.setWidth_eq, hle]

theorem counterPut16_idle (s : State) {off : Nat} (v m : Word) (hlow : tabGet 0 s.cycInc off = 0)
    (hhigh : tabGet 0 s.cycInc (off + 2) = 0) :
    counterPut16 s off v m = wr (noteHost s off) off (mergeBits (rd s off) v m) := by
  have hle (x : Word) (lo : Nat) : min 0xFFFF (fld x lo 16) = fld x lo 16 :=
    Nat.min_eq_right (Nat.le_of_lt_succ (Nat.mod_lt _ (by decide)))
  simp only [counterPut16, rdF, List.range_succ, List.range_zero, List.nil_append, List.cons_append, List.foldl_cons,
    List.foldl_nil, Nat.mul_zero, Nat.mul_one, Nat.zero_div, Nat.add_zero, hlow, hhigh, Nat.sub_zero, setFld_fld, hle,
    show 16 / 8 = 2 from rfl]

/-- A host write of a counter of at most 32 bits loads it where the tick has added nothing (R45). -/
theorem plainPut_idleCounter (s : State) {off : Nat} (v mask : Word) (hc : (accessOf off).ctr = true)
    (hp : ctrPair off = none) (hi : tabGet 0 s.cycInc off = 0)
    (hi2 : ctrHalves off = true → tabGet 0 s.cycInc (off + 2) = 0) :
    plainPut s off v mask = wr (noteHost s off) off (mergeBits (rd s off) v ((accessOf off).rw &&& mask)) := by
  rw [plainPut, if_pos hc]
  split
  next hh => exact counterPut16_idle s v _ hi (hi2 hh)
  next => exact counterPut_idle s v _ hp hi

/-! ### TLPs (R339) -/

theorem rd_tlpSeen (s : State) (o : Nat) : rd (tlpSeen s) o = rd s o := rfl

theorem plainRegister_tlpSeen {s : State} {a : Nat} (h : Safety.PlainRegister s a) :
    Safety.PlainRegister (tlpSeen s) a := h

theorem exec_registerWrite_undecoded {s : State} (tg : RegTarget) (v : Word) (be : BitVec 4 × Option (Word × BitVec 4))
    (h : memDecoded s = false) : exec (.registerWrite tg v be .clean) s = .next (unsupported s true) := by
  change execRegisterWrite tg v be .clean s = _
  simp only [execRegisterWrite, hostWriteAs, hostWrite, h, Bool.false_eq_true, if_false]

theorem exec_registerWrite_bar0 {s : State} (off : BitVec 26) (v : Word) (be : BitVec 4) (up : Option (Word × BitVec 4))
    (h : memDecoded s = true) : exec (.registerWrite (.bar0 off) v (be, up) .clean) s =
      .next (tlpPut bar0Write (tlpSeen s) off.toNat v be up) := by
  change execRegisterWrite (.bar0 off) v (be, up) .clean s = _
  simp only [execRegisterWrite, hostWriteAs, hostWrite, h, if_true]

theorem exec_registerWrite_bar4 {s : State} (off : BitVec 16) (v : Word) (be : BitVec 4) (h : memDecoded s = true) :
    exec (.registerWrite (.bar4 off) v (be, none) .clean) s = .next (bar4Write (tlpSeen s) off.toNat v be) := by
  change execRegisterWrite (.bar4 off) v (be, none) .clean s = _
  simp only [execRegisterWrite, hostWriteAs, hostWrite, h, if_true, tlpPut]

theorem exec_registerWrite_poisoned {s : State} (tg : RegTarget) (v : Word) (be : BitVec 4 × Option (Word × BitVec 4))
    (h : memDecoded (poisonRx s) = true) :
    exec (.registerWrite tg v be .poisoned) s = .next (tlpSeen (poisonRx s)) := by
  change execRegisterWrite tg v be .poisoned s = _
  simp only [execRegisterWrite, hostWriteAs, hostWrite, h, if_true, id]

theorem exec_registerWrite_ecrcFails {s : State} (tg : RegTarget) (v : Word) (be : BitVec 4 × Option (Word × BitVec 4))
    (h : ecrcChecked s = true) :
    exec (.registerWrite tg v be .ecrcFails) s = .next (aerReport (tlpSeen s) aerECRC) := by
  change execRegisterWrite tg v be .ecrcFails s = _
  simp only [execRegisterWrite, hostWriteAs, h, if_true]

/-- Without ECRC checking, a write whose ECRC fails is a write like any other. -/
theorem exec_registerWrite_ecrcUnchecked {s : State} (tg : RegTarget) (v : Word)
    (be : BitVec 4 × Option (Word × BitVec 4)) (h : ecrcChecked s = false) :
    exec (.registerWrite tg v be .ecrcFails) s = exec (.registerWrite tg v be .clean) s := by
  change execRegisterWrite tg v be .ecrcFails s = execRegisterWrite tg v be .clean s
  simp only [execRegisterWrite, hostWriteAs, h, Bool.false_eq_true, if_false]

/-! ### Configuration space and poisoned TLPs -/

/-- Every configuration doubleword but those the fuses and the flash give reads as stored. -/
theorem cfgRead_stored (s : State) {d : Nat} (h : d ∉ [0x02, 0x0B, 0x53, 0x54]) :
    cfgRead s d = tabGet (cfgReg d).reset s.pcie.cfg d := by
  simp only [List.mem_cons, List.not_mem_nil, or_false, not_or] at h
  obtain ⟨h1, h2, h3, h4⟩ := h
  rw [cfgRead, if_neg h1, if_neg h2, if_neg h3, if_neg h4]

theorem bitAt_cfgRead_aerReport (s : State) {i : Nat} (h : i < 32) : bitAt (cfgRead (aerReport s i) 0x41) i = true := by
  rw [cfgRead_stored _ (by decide), aerReport, cfgSet, tabGet_tabSet_self]
  simp only [bitAt, BitVec.getLsbD_or, getLsbD_bit i i h, decide_true, Bool.or_true]

theorem cfgRead_aerReport_ne (s : State) (i : Nat) {d : Nat} (h : d ∉ [0x02, 0x0B, 0x53, 0x54]) (hd : d ≠ 0x41) :
    cfgRead (aerReport s i) d = cfgRead s d := by
  rw [cfgRead_stored _ h, cfgRead_stored _ h, aerReport, cfgSet, tabGet_tabSet_ne _ _ _ _ hd]

theorem poisonRx_pcie (s : State) : (poisonRx s).pcie = (aerReport s aerPOISONED).pcie := by
  rw [poisonRx, pcieEvent, setCause_pcie]
  rfl

theorem poisonRx_guard (s : State) : (poisonRx s).guard = s.guard := by
  rw [poisonRx, pcieEvent, setCause_guard]
  rfl

theorem cfgRead_poisonRx (s : State) {d : Nat} (h : d ∉ [0x02, 0x0B, 0x53, 0x54]) :
    cfgRead (poisonRx s) d = cfgRead (aerReport s aerPOISONED) d := by
  rw [cfgRead_stored _ h, cfgRead_stored _ h, poisonRx_pcie]

theorem memDecoded_poisonRx (s : State) : memDecoded (poisonRx s) = memDecoded s := by
  have hcfg {d : Nat} (h : d ∉ [0x02, 0x0B, 0x53, 0x54]) (hd : d ≠ 0x41) : cfgRead (poisonRx s) d = cfgRead s d := by
    rw [cfgRead_poisonRx s h, cfgRead_aerReport_ne s _ h hd]
  simp only [memDecoded, memEnable, dState, hcfg (d := 0x01) (by decide) (by decide), hcfg (d := 0x11) (by decide) (by decide)]

theorem rd_aerReport (s : State) (i o : Nat) : rd (aerReport s i) o = rd s o := rfl

/-- A poisoned TLP is counted, up to the largest value (R340). -/
theorem rd_poisonRx_count (s : State) :
    (rd (poisonRx s) PCIE_POISON_RX).toNat = min (2 ^ 32 - 1) ((rd s PCIE_POISON_RX).toNat + 1) := by
  have hctr : rd (ctrAdd (aerReport s aerPOISONED) PCIE_POISON_RX 1) PCIE_POISON_RX =
      BitVec.ofNat 32 (min ctrMax ((rd s PCIE_POISON_RX).toNat + 1)) := rd_wr_self _ _ _
  rw [poisonRx, pcieEvent, rd_setCause_ne _ _ _ (by decide) (by decide), hctr, BitVec.toNat_ofNat, ctrMax]
  omega

theorem regsOnlyAt_poisonRx (s : State) : Safety.RegsOnlyAt s (poisonRx s) [PCIE_POISON_RX, PCIE_EVENT, evtR 638] := by
  intro o ho
  simp only [List.mem_cons, List.not_mem_nil, or_false, not_or] at ho
  obtain ⟨hctr, hev, hsrc⟩ := ho
  rw [poisonRx, pcieEvent, rd_setCause_ne _ _ _ hev hsrc, rd_ctrAdd_ne _ _ hctr, rd_aerReport]

/-! ### The gates' registers (R380, R385) -/

/-- GATE_PWD, and GATE_MAKER_CFG while the customer gate is closed, take no host write. -/
theorem ctlPut_locked {s : State} {o : Nat} (v mask : Word) (at_ : Nat)
    (h : 0xD010 ≤ o ∧ o < 0xD020 ∨ 0xD100 ≤ o ∧ o < 0xD200 ∧ custClosed s = true) :
    ctlPut s o v mask at_ false = accessViolation s 2 7 at_ := by
  rw [ctlPut, if_neg (by omega)]
  rcases h with hpwd | ⟨hlo, hhi, hc⟩
  · rw [if_pos hpwd]; rfl
  · rw [if_neg (by omega), if_pos ⟨hlo, hhi⟩, if_pos hc]

theorem ctlPut_makerCfg {s : State} {o : Nat} (v mask : Word) (at_ : Nat) (al : Bool) (h : 0xD100 ≤ o ∧ o < 0xD200)
    (hc : custClosed s = false) : ctlPut s o v mask at_ al = gateShow (plainPut s o v mask) := by
  rw [ctlPut, if_neg (by omega), if_neg (by omega), if_pos h, if_neg (by rw [hc]; decide)]

theorem rd_gateShow_ne (s : State) {o : Nat} (h : o ≠ GATE_STATUS) : rd (gateShow s) o = rd s o := rd_wr_ne _ _ h

/-- An RW register of 32 bits takes the bytes enabled. -/
theorem plainValue_rwAll (s : State) {off : Nat} (v mask : Word) (h : accessOf off = accRw 0xFFFFFFFF) :
    plainValue s off v mask = mergeBits (rd s off) v mask := by
  have hacc : accessOf off = { rw := BitVec.allOnes 32, w1c := 0#32, ctr := false } := h
  simp only [plainValue, hacc, BitVec.allOnes_and, BitVec.and_zero, BitVec.zero_and, BitVec.not_zero, BitVec.and_allOnes]

/-! ### The MSI-X table (R322, R350) -/

theorem msixRead_msixWrite_self (s : State) (i : Nat) (v be : Word) :
    let m := if i % 4 = 3 then 1 &&& be else be
    msixRead (msixWrite s i v be) i = (msixRead s i &&& ~~~m) ||| (v &&& m) := tabGet_tabSet_self _ _ _ _

theorem msixRead_msixWrite_ne (s : State) {i j : Nat} (v be : Word) (h : j ≠ i) :
    msixRead (msixWrite s i v be) j = msixRead s j := tabGet_tabSet_ne _ _ _ _ h

/-! ### The clauses of the statement on register writes -/

/-- A poisoned write is counted and reported, and stores nothing (R339, R340). -/
theorem exec_poisonedWrite_counts {s : State} (tg : RegTarget) (v : Word) (be : BitVec 4 × Option (Word × BitVec 4))
    (h : memDecoded s = true) : ∃ t, exec (.registerWrite tg v be .poisoned) s = .next t ∧
      (rd t PCIE_POISON_RX).toNat = min (2 ^ 32 - 1) ((rd s PCIE_POISON_RX).toNat + 1) ∧ bitAt (cfgRead t 0x41) 12 = true ∧
      t.guard = s.guard ∧ t.pcie.msix = s.pcie.msix ∧ Safety.RegsOnlyAt s t [PCIE_POISON_RX, PCIE_EVENT, evtR 638] := by
  refine ⟨_, exec_registerWrite_poisoned tg v be ((memDecoded_poisonRx s).trans h), rd_poisonRx_count s, ?reported,
    poisonRx_guard s, ?table, regsOnlyAt_poisonRx s⟩
  case reported =>
    rw [show cfgRead (tlpSeen (poisonRx s)) 0x41 = cfgRead (poisonRx s) 0x41 from rfl, cfgRead_poisonRx s (by decide)]
    exact bitAt_cfgRead_aerReport s (by decide)
  case table =>
    rw [show (tlpSeen (poisonRx s)).pcie.msix = (poisonRx s).pcie.msix from rfl, poisonRx_pcie]
    rfl

/-- A 32-bit write of a plain register that is no counter. -/
theorem exec_plainWrite {s : State} {off : BitVec 26} (v : Word) (be : BitVec 4) (hd : memDecoded s = true)
    (hp : Safety.PlainRegister s (off.toNat / 4 * 4)) (hc : (accessOf (off.toNat / 4 * 4)).ctr = false) :
    ∃ t, exec (.registerWrite (.bar0 off) v (be, none) .clean) s = .next t ∧
      rd t (off.toNat / 4 * 4) = plainValue s (off.toNat / 4 * 4) v (beMask be) ∧
      Safety.RegsOnlyAt s t [off.toNat / 4 * 4] ∧ Safety.SameMemory s t := by
  refine ⟨_, exec_registerWrite_bar0 off v be none hd, ?_⟩
  rw [tlpPut, bar0Write_plain (plainRegister_tlpSeen hp)]
  exact ⟨rd_plainPut_self _ v _ hc, regsOnlyAt_plainPut _ v _ hc,
    (still_plainPut _ _ _ _ (still_tlpSeen s (.refl s))).sameMemory⟩

/-- Writes of two plain registers, one after the other: each takes its own value, since the first leaves the second plain and
with the value and the hardware's bits it had. -/
theorem plainPut_pair {s : State} {a b : Nat} (v u m n : Word) (hne : b ≠ a) (hc : (accessOf a).ctr = false)
    (hc' : (accessOf b).ctr = false) :
    let t := plainPut (plainPut s a v m) b u n
    rd t a = plainValue s a v m ∧ rd t b = plainValue s b u n ∧ Safety.RegsOnlyAt s t [a, b] := by
  refine ⟨?first, ?second, fun o ho => ?others⟩
  case first => rw [rd_plainPut_ne _ u n hc' hne.symm, rd_plainPut_self s v m hc]
  case second =>
    rw [rd_plainPut_self _ u n hc', plainValue, cycBits, rd_plainPut_ne s v m hc hne, plainPut_cycSet s v m hc]
    rfl
  case others =>
    simp only [List.mem_cons, List.not_mem_nil, or_false, not_or] at ho
    rw [rd_plainPut_ne _ u n hc' ho.2, rd_plainPut_ne s v m hc ho.1]

/-- A 64-bit write of two plain registers (R34). -/
theorem exec_plainPairWrite {s : State} {off : BitVec 26} (v u : Word) (be ub : BitVec 4) (hd : memDecoded s = true)
    (hp : Safety.PlainRegister s (off.toNat / 4 * 4)) (hc : (accessOf (off.toNat / 4 * 4)).ctr = false)
    (hp' : Safety.PlainRegister s (off.toNat / 4 * 4 + 4)) (hc' : (accessOf (off.toNat / 4 * 4 + 4)).ctr = false) :
    ∃ t, exec (.registerWrite (.bar0 off) v (be, some (u, ub)) .clean) s = .next t ∧
      rd t (off.toNat / 4 * 4) = plainValue s (off.toNat / 4 * 4) v (beMask be) ∧
      rd t (off.toNat / 4 * 4 + 4) = plainValue s (off.toNat / 4 * 4 + 4) u (beMask ub) ∧
      Safety.RegsOnlyAt s t [off.toNat / 4 * 4, off.toNat / 4 * 4 + 4] ∧ Safety.SameMemory s t := by
  have hoff : (off.toNat + 4) / 4 * 4 = off.toNat / 4 * 4 + 4 := by omega
  have hplain := plainRegister_plainPut v (beMask be) hc (plainRegister_tlpSeen hp')
  refine ⟨_, exec_registerWrite_bar0 off v be (some (u, ub)) hd, ?_⟩
  rw [tlpPut, bar0Write_plain (plainRegister_tlpSeen hp), bar0Write_plain (hoff ▸ hplain), hoff]
  obtain ⟨hfirst, hsecond, hothers⟩ :=
    plainPut_pair (s := tlpSeen s) v u (beMask be) (beMask ub) (Nat.ne_of_gt (Nat.lt_add_of_pos_right (by decide))) hc hc'
  exact ⟨hfirst, hsecond, hothers,
    (still_plainPut _ _ _ _ (still_plainPut _ _ _ _ (still_tlpSeen s (.refl s)))).sameMemory⟩

/-- A write of a counter of at most 32 bits that did not advance on this tick loads it. -/
theorem exec_counterWrite {s : State} {off : BitVec 26} (v : Word) (be : BitVec 4) (hd : memDecoded s = true)
    (hp : Safety.PlainRegister s (off.toNat / 4 * 4)) (hc : (accessOf (off.toNat / 4 * 4)).ctr = true)
    (hw : ctrPair (off.toNat / 4 * 4) = none) (hi : tabGet 0 s.cycInc (off.toNat / 4 * 4) = 0)
    (hi2 : ctrHalves (off.toNat / 4 * 4) = true → tabGet 0 s.cycInc (off.toNat / 4 * 4 + 2) = 0) :
    ∃ t, exec (.registerWrite (.bar0 off) v (be, none) .clean) s = .next t ∧
      rd t (off.toNat / 4 * 4) =
        mergeBits (rd s (off.toNat / 4 * 4)) v ((accessOf (off.toNat / 4 * 4)).rw &&& beMask be) ∧
      Safety.RegsOnlyAt s t [off.toNat / 4 * 4] := by
  refine ⟨_, exec_registerWrite_bar0 off v be none hd, ?_⟩
  rw [tlpPut, bar0Write_plain (plainRegister_tlpSeen hp), plainPut_idleCounter (tlpSeen s) v _ hc hw hi hi2]
  refine ⟨rd_wr_self _ _ _, fun o ho => ?_⟩
  rw [rd_wr_ne _ _ (by simpa using ho), rd_noteHost, rd_tlpSeen]

/-- A write of a locked gate register is a lock violation. -/
theorem exec_lockedWrite {s : State} {off : BitVec 26} (v : Word) (be : BitVec 4) (hd : memDecoded s = true)
    (h : 0xD010 ≤ off.toNat / 4 * 4 ∧ off.toNat / 4 * 4 < 0xD020 ∨
      0xD100 ≤ off.toNat / 4 * 4 ∧ off.toNat / 4 * 4 < 0xD200 ∧ custClosed s = true) :
    ∃ t, exec (.registerWrite (.bar0 off) v (be, none) .clean) s = .next t ∧ rdBit t SYS_ACCESS 1 = true ∧
      rd t SYS_ACCESS_ADDR = BitVec.ofNat 32 (7 * 2 ^ 28 + off.toNat / 4 * 4) ∧ t.gates = s.gates ∧
      Safety.RegsOnlyAt s t [SYS_ACCESS, SYS_ACCESS_ADDR, evtR 639] := by
  have hregs : (tlpSeen s).regs = s.regs := rfl
  refine ⟨_, exec_registerWrite_bar0 off v be none hd, ?_⟩
  rw [tlpPut, bar0Write_ctl _ (by omega), ctlPut_locked (s := tlpSeen s) v _ _ h]
  exact ⟨rdBit_accessViolation _ _ _ (by decide), rd_accessViolation_addr _ _ _ (by omega), accessViolation_gates _ _ _ _,
    regsOnlyAt_accessViolation hregs _ _ _⟩

/-- A write of GATE_MAKER_CFG with the customer gate not closed stores the bytes enabled and shows in GATE_STATUS. -/
theorem exec_makerCfgWrite {s : State} {off : BitVec 26} (v : Word) (be : BitVec 4) (hd : memDecoded s = true)
    (h : 0xD100 ≤ off.toNat / 4 * 4 ∧ off.toNat / 4 * 4 < 0xD200) (hc : custClosed s = false) :
    ∃ t, exec (.registerWrite (.bar0 off) v (be, none) .clean) s = .next t ∧
      rd t (off.toNat / 4 * 4) = mergeBits (rd s (off.toNat / 4 * 4)) v (beMask be) ∧
      Safety.RegsOnlyAt s t [off.toNat / 4 * 4, GATE_STATUS] := by
  have hacc := accessOf_makerCfg (by omega) h
  have hctr : (accessOf (off.toNat / 4 * 4)).ctr = false := by rw [hacc]; rfl
  refine ⟨_, exec_registerWrite_bar0 off v be none hd, ?_⟩
  rw [tlpPut, bar0Write_ctl _ (by omega), ctlPut_makerCfg (s := tlpSeen s) v _ _ _ h hc]
  refine ⟨?written, fun o ho => ?others⟩
  case written =>
    rw [rd_gateShow_ne _ (by simp only [GATE_STATUS]; omega), rd_plainPut_self _ v _ hctr, plainValue_rwAll _ v _ hacc,
      rd_tlpSeen]
  case others =>
    simp only [List.mem_cons, List.not_mem_nil, or_false, not_or] at ho
    rw [rd_gateShow_ne _ ho.2, rd_plainPut_ne _ v _ hctr ho.1, rd_tlpSeen]

/-- A BAR4 write within the MSI-X table changes one doubleword of it (R322, R350). -/
theorem exec_msixTableWrite {s : State} {off : BitVec 16} (v : Word) (be : BitVec 4) (hd : memDecoded s = true)
    (h : off.toNat < 0x4000) :
    ∃ t, exec (.registerWrite (.bar4 off) v (be, none) .clean) s = .next t ∧ t.regs = s.regs ∧
      (let m := if off.toNat / 4 % 4 = 3 then 1 &&& beMask be else beMask be
       msixRead t (off.toNat / 4) = (msixRead s (off.toNat / 4) &&& ~~~m) ||| (v &&& m)) ∧
      ∀ i, i ≠ off.toNat / 4 → msixRead t i = msixRead s i := by
  refine ⟨_, exec_registerWrite_bar4 off v be hd, ?_⟩
  rw [bar4Write, if_pos h]
  exact ⟨rfl, msixRead_msixWrite_self (tlpSeen s) _ v _, fun i hi => msixRead_msixWrite_ne (tlpSeen s) v _ hi⟩

/-- Settles O36: a write that reaches the registers lands as `plainPut` says where the register is plain, and each other clause
is a lemma about the TLP, the gates' registers or the MSI-X table. -/
theorem hostWritesFollowTheAccessCodes : Obligations.HostWritesFollowTheAccessCodes := by
  intro s v be
  refine ⟨fun tg hd => exec_registerWrite_undecoded tg v _ hd, fun tg hd => exec_poisonedWrite_counts tg v _ hd,
    fun tg he => ?ecrcFails, fun tg he => exec_registerWrite_ecrcUnchecked tg v _ he,
    fun hd => ⟨fun off => ?bar0, fun off => ?bar4⟩⟩
  case ecrcFails =>
    exact ⟨_, exec_registerWrite_ecrcFails tg v _ he, bitAt_cfgRead_aerReport (tlpSeen s) (by decide), rfl, rfl, rfl⟩
  case bar0 =>
    exact ⟨fun hp hc => exec_plainWrite v be hd hp hc,
      fun u ub _ hp hc hp' hc' => exec_plainPairWrite v u be ub hd hp hc hp' hc',
      fun hp hc hw hi hi2 => exec_counterWrite v be hd hp hc hw hi hi2, fun h => exec_lockedWrite v be hd h,
      fun ⟨hlo, hhi, hc⟩ => exec_makerCfgWrite v be hd ⟨hlo, hhi⟩ hc⟩
  case bar4 =>
    refine ⟨fun h => exec_msixTableWrite v be hd h, fun h => ?_⟩
    rw [exec_registerWrite_bar4 off v be hd, bar4Write, if_neg (Nat.not_lt.2 h)]

end Sys2Proof.Machine
end

section
/-! Bit-band writes and the blocks of domains that are off (spec/02_register_model.md, R32, R33, R36, R43, R44;
spec/19_access_gates.md, R385). -/

namespace Sys2Proof.Machine

-- One proof at a time, as above.
set_option Elab.async false

/-! ### One bit of a plain write -/

theorem bitAt_bit_self {i : Nat} (h : i < 32) : bitAt (bit i) i = true := by
  rw [bitAt, getLsbD_bit i i h, decide_eq_true rfl]

theorem bitAt_bit_ne {i j : Nat} (h : j ≠ i) : bitAt (bit i) j = false := by
  by_cases hj : j < 32
  · rw [bitAt, getLsbD_bit i j hj, decide_eq_false h.symm]
  · rw [bitAt, BitVec.getLsbD_of_ge _ _ (Nat.le_of_not_lt hj)]

/-- A bit outside the mask keeps its value. -/
theorem bitAt_plainValue_unmasked (s : State) (off : Nat) (v : Word) {mask : Word} {j : Nat} (h : bitAt mask j = false) :
    bitAt (plainValue s off v mask) j = rdBit s off j := by
  simp only [bitAt] at h
  by_cases hj : j < 32
  · simp only [plainValue, mergeBits, rdBit, bitAt, BitVec.getLsbD_and, BitVec.getLsbD_or, BitVec.getLsbD_not, h, hj,
      decide_true, Bool.and_false, Bool.false_and, Bool.not_false, Bool.and_true, Bool.or_false]
  · simp [rdBit, bitAt, BitVec.getLsbD_of_ge _ _ (Nat.le_of_not_lt hj)]

/-- A bit of the mask takes the value where it is RW, and is cleared by a 1 where it is W1C and the hardware did not set it on
this tick (R13, R45). -/
theorem bitAt_plainValue_masked (s : State) (off : Nat) (v : Word) {mask : Word} {j : Nat} (hj : j < 32)
    (h : bitAt mask j = true) :
    bitAt (plainValue s off v mask) j =
      ((if bitAt (accessOf off).rw j then bitAt v j else rdBit s off j) &&
        !(bitAt v j && bitAt (accessOf off).w1c j && !bitAt (cycBits s off) j)) := by
  by_cases hrw : bitAt (accessOf off).rw j = true
  · rw [if_pos hrw]
    simp only [bitAt] at h hrw
    simp [plainValue, mergeBits, bitAt, h, hrw, hj, -BitVec.getLsbD_eq_getElem]
  · rw [if_neg hrw]
    simp only [bitAt] at h hrw
    simp [plainValue, mergeBits, rdBit, bitAt, h, hrw, hj, -BitVec.getLsbD_eq_getElem]

/-! ### Bit-band writes (R43) -/

theorem blockOf_bitBand {n : Nat} (h : n < 2 ^ 23) : blockOf (0x02000000 + 4 * n) = .bitBand n := by
  unfold blockOf
  iterate 10 rw [if_neg (by omega)]
  rw [if_pos (by omega), Block.bitBand.injEq]
  omega

/-- The word a bit-band write carries to bit `i` of the register: bit 0 of the data. -/
def aliasWord (i : Nat) (v : Word) : Word := if bitAt v 0 then bit i else 0

theorem bitAt_aliasWord {i : Nat} (v : Word) (h : i < 32) : bitAt (aliasWord i v) i = bitAt v 0 := by
  rw [aliasWord]
  split
  next hv => rw [bitAt_bit_self h, hv]
  next hv => rw [Bool.eq_false_iff.2 hv]; exact BitVec.getLsbD_zero

/-- A bit-band write is a write of the control and status register under the mask of one bit. -/
theorem exec_bitBandWrite {s : State} (n : BitVec 23) (v : Word) (h : memDecoded s = true) :
    exec (.bitBandWrite n v) s = .next (regPut (tlpSeen s) (n.toNat / 32 * 4) (aliasWord (n.toNat % 32) v)
      (bit (n.toNat % 32)) (0x02000000 + 4 * n.toNat) true) := by
  have ha : (0x02000000 + 4 * n.toNat) / 4 * 4 = 0x02000000 + 4 * n.toNat := by omega
  have hbe : (0xF : BitVec 4).getLsbD 0 = true := rfl
  change execBitBandWrite n v s = _
  simp only [execBitBandWrite, hostPut, hostWrite, h, if_true, bar0Write, ha, blockOf_bitBand n.isLt, hbe]
  rfl

theorem exec_bitBandWrite_plain {s : State} {n : BitVec 23} (v : Word) (hd : memDecoded s = true)
    (hp : Safety.PlainRegister s (n.toNat / 32 * 4)) :
    exec (.bitBandWrite n v) s = .next
      (plainPut (tlpSeen s) (n.toNat / 32 * 4) (aliasWord (n.toNat % 32) v) (bit (n.toNat % 32))) := by
  rw [exec_bitBandWrite n v hd, regPut_plain (plainRegister_tlpSeen hp)]

theorem rdBit_plainPut_alias_ne (s : State) {off i j : Nat} (v : Word) (hc : (accessOf off).ctr = false) (h : j ≠ i) :
    rdBit (plainPut s off (aliasWord i v) (bit i)) off j = rdBit s off j := by
  rw [rdBit, rd_plainPut_self _ _ _ hc, bitAt_plainValue_unmasked _ _ _ (bitAt_bit_ne h)]

/-- The bit a bit-band write reaches follows its access code (R44). -/
theorem rdBit_plainPut_alias_self (s : State) {off i : Nat} (v : Word) (hc : (accessOf off).ctr = false) (hi : i < 32) :
    rdBit (plainPut s off (aliasWord i v) (bit i)) off i =
      ((if bitAt (accessOf off).rw i then bitAt v 0 else rdBit s off i) &&
        !(bitAt v 0 && bitAt (accessOf off).w1c i && !bitAt (cycBits s off) i)) := by
  rw [rdBit, rd_plainPut_self _ _ _ hc, bitAt_plainValue_masked _ _ _ hi (bitAt_bit_self hi), bitAt_aliasWord v hi]

/-- GATE_PWD takes no bit-band write, and the violation is recorded as a write to a write-once register (R36, R385). -/
theorem ctlPut_passwordAlias (s : State) {o : Nat} (v mask : Word) (at_ : Nat) (h : 0xD010 ≤ o ∧ o < 0xD020) :
    ctlPut s o v mask at_ true = accessViolation s 2 6 at_ := by
  rw [ctlPut, if_neg (by omega), if_pos h, if_pos rfl]

theorem exec_bitBandWrite_password {s : State} {n : BitVec 23} (v : Word) (hd : memDecoded s = true)
    (h : 0xD010 ≤ n.toNat / 32 * 4 ∧ n.toNat / 32 * 4 < 0xD020) :
    ∃ t, exec (.bitBandWrite n v) s = .next t ∧ rdBit t SYS_ACCESS 1 = true ∧
      rd t SYS_ACCESS_ADDR = BitVec.ofNat 32 (6 * 2 ^ 28 + 0x02000000 + 4 * n.toNat) ∧
      Safety.RegsOnlyAt s t [SYS_ACCESS, SYS_ACCESS_ADDR, evtR 639] := by
  have hoffset : 0x02000000 + 4 * n.toNat < 2 ^ 26 := by omega
  have hctl : n.toNat / 32 * 4 < 0x00100000 := by omega
  have hregs : (tlpSeen s).regs = s.regs := rfl
  refine ⟨_, exec_bitBandWrite n v hd, ?_⟩
  rw [regPut, blockOff_ctl _ hctl, if_neg Bool.false_ne_true, blockOf_ctl hctl]
  simp only [ctlPut_passwordAlias _ _ _ _ h]
  rw [Nat.add_assoc]
  exact ⟨rdBit_accessViolation _ _ _ (by decide), rd_accessViolation_addr _ _ _ hoffset,
    regsOnlyAt_accessViolation hregs _ _ _⟩

/-- Settles O37: the bit-band write is a write of the register under a mask of one bit, which `plainValue` gives bit by bit. -/
theorem bitBandWritesOneBit : Obligations.BitBandWritesOneBit := by
  intro s n v hd a i
  refine ⟨fun hp hc => ?plain, fun hlo hhi => exec_bitBandWrite_password v hd ⟨hlo, hhi⟩⟩
  have hbit : rdBit (plainPut (tlpSeen s) a (aliasWord i v) (bit i)) a i =
      ((if bitAt (accessOf a).rw i then bitAt v 0 else rdBit s a i) &&
        !(bitAt v 0 && bitAt (accessOf a).w1c i && !bitAt (cycBits s a) i)) :=
    rdBit_plainPut_alias_self (tlpSeen s) v hc (Nat.mod_lt _ (by decide))
  refine ⟨_, exec_bitBandWrite_plain v hd hp, fun j hj => rdBit_plainPut_alias_ne (tlpSeen s) v hc hj,
    fun hrw hw1c => hbit.trans ?rw, fun hrw hw1c hv hcyc => hbit.trans ?cleared, fun hrw hkept => hbit.trans ?kept,
    regsOnlyAt_plainPut (tlpSeen s) _ _ hc⟩
  case rw => simp [hrw, hw1c]
  case cleared => simp [hw1c, hv, hcyc]
  case kept => rcases hkept with h | h | h <;> simp [hrw, h]

/-! ### Blocks of domains that are off (R33) -/

theorem offDomain_eng {a : Nat} (hlo : 0x00400000 ≤ a) (hhi : a < 0x00800000) :
    offDomain a = 11 + (a - 0x00400000) / 0x4000 / 64 := by
  have hblock : blockOf a = .eng ((a - 0x00400000) / 0x4000) ((a - 0x00400000) % 0x4000) := by
    unfold blockOf
    iterate 6 rw [if_neg (by omega)]
    rw [if_pos hhi]
  rw [offDomain, hblock]

theorem offDomain_ring {a : Nat} (hlo : 0x00800000 ≤ a) (hhi : a < 0x00C00000) : offDomain a = 22 := by
  have hblock : blockOf a = .ring ((a - 0x00800000) / 0x80) ((a - 0x00800000) % 0x80) := by
    unfold blockOf
    iterate 7 rw [if_neg (by omega)]
    rw [if_pos hhi]
  rw [offDomain, hblock]

theorem offDomain_lane {a : Nat} (hlo : 0x00C00000 ≤ a) (hhi : a < 0x01000000) :
    offDomain a = 3 + (a - 0x00C00000) / 0x4000 / 32 := by
  have hblock : blockOf a = .lane ((a - 0x00C00000) / 0x4000) ((a - 0x00C00000) % 0x4000) := by
    unfold blockOf
    iterate 8 rw [if_neg (by omega)]
    rw [if_pos hhi]
  rw [offDomain, hblock]

/-- `b` is none of the blocks in a switched domain. -/
def AonBlock : Block → Prop
  | .eng _ _ | .ring _ _ | .lane _ _ => False
  | _ => True

/-- Below the engines' blocks and above the lanes' all is AON's. -/
theorem aonBlock_blockOf {a : Nat} (h : a < 0x00400000 ∨ 0x01000000 ≤ a) : AonBlock (blockOf a) := by
  unfold blockOf
  repeat' refine iteInduction (motive := AonBlock) (fun _ => ?_) (fun _ => ?_)
  all_goals simp only [AonBlock]
  all_goals omega

theorem offDomain_aon {a : Nat} (h : a < 0x00400000 ∨ 0x01000000 ≤ a) : offDomain a = 0 := by
  have haon := aonBlock_blockOf h
  rw [offDomain]
  cases hb : blockOf a with
  | eng n o => rw [hb] at haon; exact haon.elim
  | ring r o => rw [hb] at haon; exact haon.elim
  | lane n o => rw [hb] at haon; exact haon.elim
  | _ => rfl

/-- All bytes of a register lie in one domain. -/
theorem offDomain_aligned (a : Nat) : offDomain (a / 4 * 4) = offDomain a := by
  by_cases hunit : 0x00400000 ≤ a ∧ a < 0x01000000
  · by_cases heng : a < 0x00800000
    · rw [offDomain_eng (by omega) heng, offDomain_eng (by omega) (by omega)]
      omega
    · by_cases hring : a < 0x00C00000
      · rw [offDomain_ring (by omega) hring, offDomain_ring (by omega) (by omega)]
      · rw [offDomain_lane (by omega) hunit.2, offDomain_lane (by omega) (by omega)]
        omega
  · rw [offDomain_aon (by omega), offDomain_aon (by omega)]

theorem blockOff_of_domain_off {s : State} {a : Nat} (hdom : offDomain a ≠ 0) (hoff : domOn s (offDomain a) = false) :
    blockOff s a = true := by
  simp [blockOff, hdom, hoff]

theorem blockOff_of_aon (s : State) {a : Nat} (hdom : offDomain a = 0) : blockOff s a = false := by
  simp [blockOff, hdom]

theorem bar0Read_off {s : State} {a : Nat} (hdom : offDomain a ≠ 0) (hoff : domOn s (offDomain a) = false) :
    bar0Read s a = 0 := by
  have hblock : blockOff s (a / 4 * 4) = true := by
    apply blockOff_of_domain_off <;> rwa [offDomain_aligned]
  rw [bar0Read]
  cases hb : blockOf a with
  | bitBand n => exact absurd (by simp only [offDomain, hb]) hdom
  | _ => rw [regRead, if_pos hblock]

/-- A BAR0 write to a block whose domain is off only sets DOMOFF. -/
theorem bar0Write_off {s : State} {a : Nat} (v : Word) (be : BitVec 4) (hdom : offDomain a ≠ 0)
    (hoff : domOn s (offDomain a) = false) : bar0Write s a v be = domoffSet s := by
  rw [← offDomain_aligned] at hdom hoff
  rw [bar0Write]
  cases hb : blockOf (a / 4 * 4) with
  | stage o => exact absurd (by simp only [offDomain, hb]) hdom
  | commit o => exact absurd (by simp only [offDomain, hb]) hdom
  | bitBand n => exact absurd (by simp only [offDomain, hb]) hdom
  | _ => rw [regPut, if_pos (blockOff_of_domain_off hdom hoff)]

/-- `t` differs from `s` in the registers and memories by SYS_ACCESS only, where DOMOFF is set. -/
def DomoffShown (s t : State) : Prop :=
  rdBit t SYS_ACCESS 2 = true ∧ Safety.RegsOnlyAt s t [SYS_ACCESS] ∧ Safety.SameMemory s t

/-- Setting DOMOFF shows it and leaves the rest, in a state with the registers and memories of `s`. -/
theorem domoffShown_domoffSet {s u : State} (hregs : u.regs = s.regs) (hstill : Still s u) :
    DomoffShown s (domoffSet u) := by
  refine ⟨?shown, fun o ho => ?others, (still_domoffSet u hstill).sameMemory⟩
  case shown => rw [rdBit, domoffSet, rd_hwOr_self]; simp [bitAt]
  case others => rw [domoffSet, rd_hwOr_ne _ _ (by simpa using ho), rd_congr hregs]

/-! ### The row DOMOFF -/

theorem exec_domoff_reads {s : State} (off : BitVec 26) (be : BitVec 4) (h : memDecoded s = true) :
    exec (.domoff off (.reads be none)) s =
      .next (setCpl (readEffects { tlpSeen s with readData := bar0Read s off.toNat } off.toNat)
        (.regs [readDw s off.toNat be])) := by
  change execDomoff off (.reads be none) s = _
  simp only [execDomoff, hostRead, h, if_true]

theorem exec_domoff_writes {s : State} (off : BitVec 26) (h : memDecoded s = true) :
    exec (.domoff off .writes) s =
      .next (if blockOff (tlpSeen s) off.toNat then domoffSet (tlpSeen s) else tlpSeen s) := by
  change execDomoff off .writes s = _
  simp only [execDomoff, hostWrite, h, if_true]

theorem exec_domoff_reads_off {s : State} {off : BitVec 26} (be : BitVec 4) (hd : memDecoded s = true)
    (hdom : offDomain off.toNat ≠ 0) (hoff : domOn s (offDomain off.toNat) = false) :
    ∃ t, exec (.domoff off (.reads be none)) s = .next t ∧ t.readData = 0 ∧ t.pcie.cpl = some (.regs [(0, be)]) ∧
      DomoffShown s t := by
  have hblock (w : Word) : blockOff { tlpSeen s with readData := w } off.toNat = true := blockOff_of_domain_off hdom hoff
  have hzero : (0 : Word) &&& beMask be = 0 := BitVec.zero_and
  refine ⟨_, exec_domoff_reads off be hd, ?_⟩
  rw [readEffects, if_pos (hblock _), readDw, bar0Read_off hdom hoff, hzero]
  exact ⟨rfl, rfl, domoffShown_domoffSet (u := { tlpSeen s with readData := 0 }) rfl (.refl s)⟩

theorem exec_domoff_writes_off {s : State} {off : BitVec 26} (hd : memDecoded s = true)
    (hdom : offDomain off.toNat ≠ 0) (hoff : domOn s (offDomain off.toNat) = false) :
    ∃ t, exec (.domoff off .writes) s = .next t ∧ DomoffShown s t := by
  refine ⟨_, exec_domoff_writes off hd, ?_⟩
  rw [if_pos (blockOff_of_domain_off (s := tlpSeen s) hdom hoff)]
  exact domoffShown_domoffSet rfl (still_tlpSeen s (.refl s))

theorem exec_registerWrite_off {s : State} {off : BitVec 26} (v : Word) (be : BitVec 4) (hd : memDecoded s = true)
    (hdom : offDomain off.toNat ≠ 0) (hoff : domOn s (offDomain off.toNat) = false) :
    ∃ t, exec (.registerWrite (.bar0 off) v (be, none) .clean) s = .next t ∧ DomoffShown s t := by
  refine ⟨_, exec_registerWrite_bar0 off v be none hd, ?_⟩
  rw [tlpPut, bar0Write_off (s := tlpSeen s) v be hdom hoff]
  exact domoffShown_domoffSet rfl (still_tlpSeen s (.refl s))

/-! ### Blocks that are always readable -/

/-- A read in the AON domain has no recorded effect (R32): only ring heads and blocks that are off have one. -/
theorem readEffects_aon (s : State) {a : Nat} (hdom : offDomain a = 0) : readEffects s a = s := by
  rw [readEffects, blockOff_of_aon s hdom, if_neg Bool.false_ne_true]
  cases hb : blockOf a with
  | ring r o => simp [offDomain, hb] at hdom
  | _ => rfl

/-- A mailbox register but the doorbell reads as stored (R49). -/
theorem bar0Read_mbx (s : State) {a : Nat} (hlo : 0x00200000 ≤ a) (hhi : a < 0x00210000)
    (hbell : a / 4 * 4 % 0x1000 ≠ 0x10) : bar0Read s a = rd s (a / 4 * 4) := by
  obtain ⟨m, o, hm, ho, ha⟩ : ∃ m o, m < 16 ∧ o < 0x1000 ∧ a = mR m o :=
    ⟨(a - 0x00200000) / 0x1000, (a - 0x00200000) % 0x1000, by omega, by omega, by rw [mR]; omega⟩
  have haligned : a / 4 * 4 = mR m (o / 4 * 4) := by rw [ha, mR, mR]; omega
  have hne : o / 4 * 4 ≠ 0x010 := by rw [haligned, mR] at hbell; omega
  have hdom : offDomain (mR m (o / 4 * 4)) = 0 := offDomain_aon (.inl (by rw [mR]; omega))
  rw [bar0Read, haligned, ha, blockOf_mR hm ho]
  simp only [regRead, blockOff_of_aon s hdom, blockOf_mR hm (show o / 4 * 4 < 0x1000 by omega), Bool.false_eq_true,
    if_false, hne]

theorem exec_domoff_reads_aon {s : State} {off : BitVec 26} (be : BitVec 4) (hd : memDecoded s = true)
    (hdom : offDomain off.toNat = 0) :
    ∃ t, exec (.domoff off (.reads be none)) s = .next t ∧ t.readData = bar0Read s off.toNat ∧ t.regs = s.regs ∧
      t.pcie.cpl = some (.regs [(bar0Read s off.toNat &&& beMask be, be)]) := by
  refine ⟨_, exec_domoff_reads off be hd, ?_⟩
  rw [readEffects_aon _ hdom]
  exact ⟨rfl, rfl, rfl⟩

/-- Settles O38: of a block whose domain is off a read gives zero and both kinds of access only set DOMOFF; the blocks named
are AON's, which never counts as off. -/
theorem blocksSwitchedOffReadZero : Obligations.BlocksSwitchedOffReadZero := by
  refine ⟨fun s off hd hdom hoff => ⟨fun be => exec_domoff_reads_off be hd hdom hoff, exec_domoff_writes_off hd hdom hoff,
    fun v be => exec_registerWrite_off v be hd hdom hoff⟩, fun s off hd hrange be => ?alwaysReadable⟩
  have hdom : offDomain off.toNat = 0 := offDomain_aon (.inl (by omega))
  obtain ⟨t, hexec, hdata, hregs, hcpl⟩ := exec_domoff_reads_aon be hd hdom
  exact ⟨t, hexec, hdata, hregs, hcpl, fun hlo hbell => hdata.trans (bar0Read_mbx s hlo (by omega) hbell)⟩

end Sys2Proof.Machine
end

section
/-! Completing and starting the command of a mailbox (spec/03_dvorna_mailboxes.md, R50, R51, R53, R57). -/

namespace Sys2Proof.Machine

-- One proof at a time, as above.
set_option Elab.async false

/-! ### Completing -/

/-- The state in which a command has completed, before its bit of SYS_MBX_DONE is set: result words, header, DONE. -/
def mbxAnswered (s : State) (m status : Nat) (res : List Nat) : State :=
  wrF (wr (putRes { s with running := s.running.filter (fun c => c.m != m) } m 0 res) (mR m 0x18)
    (BitVec.ofNat 32 (cmdTag s m * 2 ^ 16 + capState s * 2 ^ 8 + status))) (mR m 0x14) 0 2 3

theorem completeCmd_eq (s : State) (m status : Nat) (res : List Nat) : completeCmd s m status res =
    if cmdNotify s m then mbxDoneEvent (mbxAnswered s m status res) m else mbxAnswered s m status res := rfl

/-- The offset lies outside the mailbox's result words. -/
def OutsideRes (m o : Nat) : Prop := o < resR m 0 ∨ resR m 256 ≤ o

theorem rd_putRes_outside (s : State) {m o : Nat} {res : List Nat} (hlen : res.length ≤ 256) (h : OutsideRes m o) :
    rd (putRes s m 0 res) o = rd s o := by
  refine rd_putRes_out s m 0 res (h.imp id fun hle => Nat.le_trans ?_ hle)
  simp only [resR, mR]; omega

/-- Result words reach the registers they stand in only. -/
theorem rd_putRes_ne (s : State) (m i : Nat) {l : List Nat} {o : Nat} (h : ∀ j < l.length, o ≠ resR m (i + j)) :
    rd (putRes s m i l) o = rd s o := by
  induction l generalizing s i with
  | nil => rfl
  | cons v l ih =>
    have hhead : o ≠ resR m i := h 0 (Nat.zero_lt_succ _)
    rw [putRes, ih _ _ fun j hj => ?tail, rd_wr_ne _ _ hhead]
    case tail =>
      have htail := h (j + 1) (Nat.succ_lt_succ hj)
      rwa [← Nat.add_assoc, Nat.add_right_comm] at htail

/-- Of the registers outside its result words an answer writes MBX_STATE and MBX_RESULT_HDR only. -/
theorem rd_mbxAnswered_ne (s : State) {m o : Nat} (status : Nat) (res : List Nat) (hstate : o ≠ mR m 0x14)
    (hhdr : o ≠ mR m 0x18) : rd (mbxAnswered s m status res) o =
      rd (putRes { s with running := s.running.filter (fun c => c.m != m) } m 0 res) o := by
  rw [mbxAnswered, rd_wrF_ne _ _ _ _ hstate, rd_wr_ne _ _ hhdr]

theorem mbxAnswered_running (s : State) (m status : Nat) (res : List Nat) :
    (mbxAnswered s m status res).running = s.running.filter (fun c => c.m != m) := by
  obtain ⟨-, -, hrunning, -, -⟩ := putRes_regs_only { s with running := s.running.filter (fun c => c.m != m) } m 0 res
  exact hrunning

/-- The event of a completion reaches SYS_MBX_DONE and its event source only. -/
theorem rd_completeCmd_ne (s : State) {m o : Nat} (status : Nat) (res : List Nat) (hdone : o ≠ SYS_MBX_DONE)
    (hsrc : o ≠ evtR 636) : rd (completeCmd s m status res) o = rd (mbxAnswered s m status res) o := by
  rw [completeCmd_eq]
  split
  · exact rd_setCause_ne _ _ _ hdone hsrc
  · rfl

theorem rd_completeCmd_mbx (s : State) (m : Nat) {o : Nat} (status : Nat) (res : List Nat) :
    rd (completeCmd s m status res) (mR m o) = rd (mbxAnswered s m status res) (mR m o) :=
  rd_completeCmd_ne s status res (by simp only [mR, SYS_MBX_DONE]; omega) (by simp only [mR, evtR]; omega)

/-- A completion leaves every register outside the mailbox, SYS_MBX_DONE and its source alone. -/
theorem rd_completeCmd_out (s : State) {m o status : Nat} {res : List Nat} (hlen : res.length ≤ 256)
    (hout : OutsideRes m o) (hstate : o ≠ mR m 0x14) (hhdr : o ≠ mR m 0x18) (hdone : o ≠ SYS_MBX_DONE)
    (hsrc : o ≠ evtR 636) : rd (completeCmd s m status res) o = rd s o := by
  rw [rd_completeCmd_ne s status res hdone hsrc, rd_mbxAnswered_ne s status res hstate hhdr, rd_putRes_outside _ hlen hout]
  rfl

theorem mbxState_completeCmd (s : State) (m status : Nat) (res : List Nat) :
    mbxState (completeCmd s m status res) m = 3 := by
  rw [mbxState, rdF, rd_completeCmd_mbx]
  exact rdF_wrF_self _ _ 0 2 3 (by decide)

theorem rd_completeCmd_header (s : State) (m status : Nat) (res : List Nat) :
    rd (completeCmd s m status res) (mR m 0x18) =
      BitVec.ofNat 32 (cmdTag s m * 2 ^ 16 + capState s * 2 ^ 8 + status) := by
  rw [rd_completeCmd_mbx, mbxAnswered, rd_wrF_ne _ _ _ _ (by simp only [mR]; omega), rd_wr_self]

theorem rd_completeCmd_result (s : State) (m status : Nat) {res : List Nat} {i : Nat} (hi : i < res.length) :
    rd (completeCmd s m status res) (resR m i) = BitVec.ofNat 32 (res.getD i 0) := by
  rw [resR, rd_completeCmd_mbx, rd_mbxAnswered_ne _ _ _ (by simp only [mR]; omega) (by simp only [mR]; omega)]
  have h := rd_putRes_at { s with running := s.running.filter (fun c => c.m != m) } m 0 res hi
  rwa [Nat.zero_add, resR] at h

@[simp] theorem setCause_running (s : State) (off k : Nat) (en m : Word) :
    (setCause s off en k m).running = s.running := by
  simp only [setCause]; split <;> rfl

theorem completeCmd_running (s : State) (m status : Nat) (res : List Nat) :
    (completeCmd s m status res).running = s.running.filter (fun c => c.m != m) := by
  rw [completeCmd_eq]
  split
  · rw [mbxDoneEvent, setCause_running, mbxAnswered_running]
  · exact mbxAnswered_running s m status res

/-- With NOTIFY the mailbox's bit of SYS_MBX_DONE is set. -/
theorem rdBit_completeCmd_done {s : State} {m : Nat} (status : Nat) (res : List Nat) (hm : m < 32)
    (h : cmdNotify s m = true) : rdBit (completeCmd s m status res) SYS_MBX_DONE m = true := by
  rw [rdBit, completeCmd_eq, if_pos h, mbxDoneEvent, rd_setCause_self _ _ _ (by decide), bitAt, BitVec.getLsbD_or,
    getLsbD_bit _ _ hm, decide_eq_true rfl, Bool.or_true]

theorem regsOnlyAt_mbxAnswered (s : State) (m status : Nat) (res : List Nat) :
    Safety.RegsOnlyAt s (mbxAnswered s m status res)
      ([mR m 0x14, mR m 0x18] ++ (List.range res.length).map (resR m)) := by
  intro o ho
  simp only [List.mem_append, List.mem_cons, List.not_mem_nil, or_false, List.mem_map, List.mem_range, not_or,
    not_exists, not_and] at ho
  obtain ⟨⟨hstate, hhdr⟩, hres⟩ := ho
  rw [rd_mbxAnswered_ne s status res hstate hhdr, rd_putRes_ne _ _ _ fun i hi h => hres i hi (by rw [h, Nat.zero_add])]
  rfl

/-- Settles O7: a completion writes the answer, and the event of SYS_MBX_DONE where NOTIFY is 1. -/
theorem completionWritesTheMailbox : Obligations.CompletionWritesTheMailbox := by
  intro s m status res hlen hst t
  refine ⟨mbxState_completeCmd s m status res, rd_completeCmd_header s m status res,
    fun i hi => rd_completeCmd_result s m status hi, rdBit_completeCmd_done status res (by omega),
    completeCmd_running s m status res, ?regs, (still_completeCmd s m status res (.refl s)).sameMemory⟩
  case regs =>
    intro o ho
    rw [List.mem_append, not_or] at ho
    obtain ⟨hanswer, hevent⟩ := ho
    refine Eq.trans ?_ (regsOnlyAt_mbxAnswered s m status res o hanswer)
    by_cases hn : cmdNotify s m = true
    · rw [if_pos hn] at hevent
      simp only [List.mem_cons, List.not_mem_nil, or_false, not_or] at hevent
      exact rd_completeCmd_ne s status res hevent.1 hevent.2
    · exact congrArg (rd · o) ((completeCmd_eq s m status res).trans (if_neg hn))

/-! ### Starting -/

/-- A register table with an entry at an offset inside the result words of mailbox 0 that is no register's. -/
def strayResultEntry : State := { State.reset with regs := [(resR 0 0 + 1, 1)] }

/-- Refutes O8: starting clears the whole range of offsets of the result words, so an entry of the register table between two of
them is lost too, at an offset the statement does not name. -/
theorem not_commandsStartInOrder : ¬ Obligations.CommandsStartInOrder := by
  rintro ⟨hstart, -⟩
  obtain ⟨-, -, -, -, hregs, -⟩ := hstart strayResultEntry 0
  have hunnamed : resR 0 0 + 1 ∉ [mR 0 0x14, mR 0 0x20, mR 0 0x24] ++ (List.range 256).map (resR 0) := by
    simp only [List.mem_append, List.mem_cons, List.not_mem_nil, or_false, List.mem_map, List.mem_range, resR, mR]
    omega
  have hkept : rd (startCmd strayResultEntry 0) (resR 0 0 + 1) = rd strayResultEntry (resR 0 0 + 1) := hregs _ hunnamed
  exact absurd hkept (by decide)

end Sys2Proof.Machine
end

section
/-! The rows of the catalogue: commands refused before their own checks, and commands that only report
(spec/03_dvorna_mailboxes.md, R56, R57, R59, R60, R69). -/

namespace Sys2Proof.Machine

-- One proof at a time, as above.
set_option Elab.async false

/-! ### Checks -/

theorem firstFail_pass {c : Option Fail} (l : List (Option Fail)) (h : c = none) : firstFail (c :: l) = firstFail l := by
  rw [h, firstFail_none]

theorem noSched_fails {s : State} {m : Nat} (h : cmdSched s m = true) :
    noSched s m = some { status := 3, res := [0xFFFFFFFF] } := by rw [noSched, h]; rfl

/-- A failed check other than one of a state completes the command in the state it is checked in. -/
theorem checked_fails {s : State} {m status : Nat} {res : List Nat} {l : List (Option Fail)} (body : State → State)
    (h : firstFail l = some { status := status, res := res }) (hstatus : status ≠ 5) :
    checked s m l body = completeCmd s m status res := by
  rw [checked_fail body h]
  exact congrArg (completeCmd · m status res) (if_neg hstatus)

/-- A command whose first check is that of SCHED is refused where SCHED is 1. -/
theorem checked_sched {s : State} {m : Nat} {l : List (Option Fail)} {body : State → State} (h : cmdSched s m = true) :
    checked s m (noSched s m :: l) body = completeCmd s m 3 [0xFFFFFFFF] :=
  checked_fails body (by rw [noSched_fails h, firstFail_some]) (by decide)

/-! ### The firmware's rows -/

/-- The opcodes that may carry an execution tick (R60), and the service range. -/
def ScheduledOp (op : Nat) : Prop := op ∈ [0x0602, 0x0603, 0x0604, 0x0903, 0x0D03, 0x0C80]

/-- Row `p` of mailbox `m` starts its opcode's command. `p`'s command is refused with SCHED = 1 unless it takes an execution
tick; UCODE_LOAD checks its gates first. -/
def ServesRow (m : Fin 16) (p : Nat × Instr) : Prop :=
  ∃ body : State → State,
    (∀ s, serviceOp (cmdOpcode s m.val) = false ∨ p.1 ≠ 0x0C80 → exec p.2 s = .next (fwRow s m.val p.1 body)) ∧
    (¬ ScheduledOp p.1 → ∀ e, cmdSched e m.val = true → (p.1 = 0x0301 → e.gates.svcOpen = true ∧ custClosed e = false) →
      body e = completeCmd e m.val 3 [0xFFFFFFFF])

theorem servesRow_of_checked {m : Fin 16} {op : Nat} {i : Instr} {body : State → State}
    (hrow : ∀ s, exec i s = .next (fwRow s m.val op body))
    (hsched : ∀ e, cmdSched e m.val = true → body e = completeCmd e m.val 3 [0xFFFFFFFF]) : ServesRow m (op, i) :=
  ⟨body, fun s _ => hrow s, fun _ e he _ => hsched e he⟩

theorem servesRow_of_scheduled {m : Fin 16} {op : Nat} {i : Instr} {body : State → State}
    (hrow : ∀ s, exec i s = .next (fwRow s m.val op body)) (hop : ScheduledOp op) : ServesRow m (op, i) :=
  ⟨body, fun s _ => hrow s, fun h => absurd hop h⟩

theorem servesRow_ucodeLoad (m : Fin 16) (im : ImageRead) : ServesRow m (0x0301, .ucodeLoad m im) := by
  refine ⟨fun s => ucodeLoadCmd s m.val im, fun _ _ => rfl, fun _ e he hgates => ?_⟩
  obtain ⟨hsvc, hcust⟩ := hgates rfl
  simp only [ucodeLoadCmd]
  refine checked_fails _ ?_ (by decide)
  rw [firstFail_pass _ (by simp [needSvc, hsvc]), firstFail_pass _ (by simp [needCust, hcust]), noSched_fails he,
    firstFail_some]

theorem servesRow_dfcConfig (m : Fin 16) : ServesRow m (0x0901, .dfcConfig m) := by
  refine servesRow_of_checked (fun _ => rfl) fun e he => ?_
  simp only [dfcConfigCmd]
  split
  · exact checked_sched he
  · exact checked_sched he

theorem servesRow_serviceCommand (m : Fin 16) : ServesRow m (0x0C80, .serviceCommand m) := by
  refine ⟨id, fun s hs => ?_, fun h => absurd (by simp [ScheduledOp]) h⟩
  have hop : serviceOp (cmdOpcode s m.val) = false := hs.resolve_right fun h => h rfl
  change execServiceCommand m s = _
  rw [execServiceCommand, hop, Bool.and_false, if_neg Bool.false_ne_true]
  rfl

theorem servesRow_of_mem {m : Fin 16} {im : ImageRead} {p : Nat × Instr} (h : p ∈ Safety.firmwareRows m im) :
    ServesRow m p := by
  revert p
  have hsched {op : Nat} (h : op ∈ [0x0602, 0x0603, 0x0604, 0x0903, 0x0D03, 0x0C80]) : ScheduledOp op := h
  simp only [Safety.firmwareRows, List.forall_mem_cons, List.not_mem_nil, false_implies, implies_true, and_true]
  refine ⟨?_, ?_, ?_, ?_, ?_, ?_, ?_, ?_, ?_, ?_, ?_, ?_, ?_, servesRow_ucodeLoad m im, ?_, ?_, ?_, ?_, ?_, ?_, ?_, ?_, ?_,
    ?_, ?_, ?_, ?_, servesRow_of_scheduled (fun _ => rfl) (hsched (by decide)),
    servesRow_of_scheduled (fun _ => rfl) (hsched (by decide)), servesRow_of_scheduled (fun _ => rfl) (hsched (by decide)),
    ?_, ?_, ?_, ?_, ?_, ?_, ?_, ?_, servesRow_dfcConfig m, ?_, servesRow_of_scheduled (fun _ => rfl) (hsched (by decide)),
    ?_, ?_, ?_, ?_, ?_, ?_, ?_, ?_, ?_, ?_, ?_, servesRow_serviceCommand m, ?_, ?_,
    servesRow_of_scheduled (fun _ => rfl) (hsched (by decide))⟩
  all_goals
    refine servesRow_of_checked (fun _ => rfl) fun e he => ?_
    simp only [sysInfoCmd, sysEchoCmd, sysTempCmd, tbRefSelectCmd, pllConfigCmd, refOutSetCmd, tbStatusCmd, timeSetCmd,
      laneFormatCmd, laneTrainCmd, laneIdleCmd, returnSendCmd, engineModeCmd, consistSetCmd, engineSnapshotCmd,
      ctxConfigCmd, ctxClearCmd, ctxAgeCmd, ctxDumpCmd, ringCreateCmd, ringDeleteCmd, streamModeCmd, budgetCheckCmd,
      ringFlushCmd, capturePrepareCmd, captureReleaseCmd, captureStatusCmd, replayStartCmd, replayStopCmd,
      replayStatusCmd, tiuConfigCmd, tiuMeasureCmd, tiuStopCmd, dfcThresholdCmd, deflateJobCmd, inflateJobCmd,
      deflateFlushCmd, deflateStatusCmd, memtestRunCmd, memtestStatusCmd, gateChallengeCmd, gateResponseCmd,
      gatePasswordSetCmd, gateUnlockCmd, gateLockCmd, loopCalibrateCmd, loopStatusCmd, List.cons_append, checked_sched he]

/-- The opcodes of the rows do not depend on their operands. -/
theorem firmwareRows_opcodes (m : Fin 16) (im : ImageRead) :
    (Safety.firmwareRows m im).map Prod.fst = (Safety.firmwareRows 0 .failed).map Prod.fst := rfl

theorem knownOp_of_mem {m : Fin 16} {im : ImageRead} {p : Nat × Instr} (h : p ∈ Safety.firmwareRows m im) :
    knownOp p.1 = true := by
  have hall : ∀ op ∈ (Safety.firmwareRows 0 .failed).map Prod.fst, knownOp op = true := by decide
  exact hall p.1 (firmwareRows_opcodes m im ▸ List.mem_map_of_mem h)

/-- An opcode outside the catalogue and the service range completes with BAD_COMMAND in whatever row starts it. -/
theorem fwRow_unknown {s : State} {m op : Nat} (body : State → State) (hstart : fwStarts s m = true)
    (hop : knownOp op = true) (h : knownOp (cmdOpcode s m) = false) :
    fwRow s m op body = completeCmd (startCmd s m) m 2 [] := by
  have hne : cmdOpcode s m ≠ op := by rintro rfl; simp [hop] at h
  rw [fwRow, if_pos hstart, if_neg hne, if_neg (by simp [h])]
  rfl

theorem fwRow_starts {s : State} {m op : Nat} (body : State → State) (hstart : fwStarts s m = true)
    (hop : cmdOpcode s m = op) : fwRow s m op body = body (startCmd s m) := by
  rw [fwRow, if_pos hstart, if_pos hop]

/-- Settles O9: every row of the firmware starts the command of its own opcode, and its first check is that of SCHED. -/
theorem refusedBeforeAnyCheck : Obligations.RefusedBeforeAnyCheck := by
  refine ⟨fun m im s p hp hstart hunknown => ?unknown, fun m im s e p hp hplain hstart hop he hsched hgates => ?sched⟩
  case unknown =>
    obtain ⟨body, hrow, -⟩ := servesRow_of_mem hp
    have hservice : serviceOp (cmdOpcode s m.val) = false := (Bool.or_eq_false_iff.1 hunknown).2
    rw [hrow s (.inl hservice), fwRow_unknown body hstart (knownOp_of_mem hp) hunknown]
  case sched =>
    subst he
    obtain ⟨body, hrow, hrefuse⟩ := servesRow_of_mem hp
    have hop' : p.1 ≠ 0x0C80 := fun h => hplain (by rw [h]; decide)
    rw [hrow s (.inr hop'), fwRow_starts body hstart hop, hrefuse hplain _ hsched hgates]

end Sys2Proof.Machine
end

section
/-! Commands that only report (spec/03_dvorna_mailboxes.md, R59, R69). -/

namespace Sys2Proof.Machine

-- One proof at a time, as above.
set_option Elab.async false

/-! ### Commands that execute -/

/-- A row of the catalogue carries out the command that executes. -/
theorem exec_executing {s e : State} {m op : Nat} {i : Instr} {body : State → State} (h : Safety.Executing s m op e)
    (hrow : exec i s = .next (fwRow s m op body)) : exec i s = .next (body e) := by
  rw [hrow, fwRow_executing body h]

theorem noSched_executing {s e : State} {m op : Nat} (h : Safety.Executing s m op e) : noSched e m = none :=
  noSched_none h.2.2.2

/-- A command whose one check is that of SCHED. -/
theorem checked_noSched {s : State} {m : Nat} (body : State → State) (h : noSched s m = none) :
    checked s m [noSched s m] body = body s :=
  checked_pass body (by rw [h]; rfl)

/-- A command with one check beside that of SCHED. -/
theorem checked_noSched_and {s : State} {m : Nat} {c : Option Fail} (body : State → State) (h : noSched s m = none)
    (hc : c = none) : checked s m [noSched s m, c] body = body s :=
  checked_pass body (by rw [h, hc]; rfl)

/-! ### The budget (R25, R59) -/

theorem budgetFail_none {s : State} (hcharge : totalCharge s ≤ 480000) (hrings : stratusRingBytes s ≤ capGib s * 2 ^ 30) :
    budgetFail s = none := by
  have hbudget : ¬ writeBudget < totalCharge s := Nat.not_lt.2 hcharge
  simp only [budgetFail, if_neg hbudget, if_neg (Nat.not_lt.2 hrings)]

theorem budgetFail_charge {s : State} (h : 480000 < totalCharge s) :
    budgetFail s = some { status := 6, res := [1, totalCharge s, 480000] } := by
  have hbudget : writeBudget < totalCharge s := h
  simp only [budgetFail, if_pos hbudget]
  rfl

theorem budgetFail_rings {s : State} (hcharge : totalCharge s ≤ 480000) (h : capGib s * 2 ^ 30 < stratusRingBytes s) :
    budgetFail s =
      some { status := 6, res := [2, (stratusRingBytes s + 1048575) / 1048576, capGib s * 1024] } := by
  have hbudget : ¬ writeBudget < totalCharge s := Nat.not_lt.2 hcharge
  have hmib (b : Nat) : ceilDiv b (2 ^ 20) = (b + 1048575) / 1048576 := by
    rw [ceilDiv, Nat.add_sub_assoc Nat.one_le_two_pow]
    rfl
  simp only [budgetFail, if_neg hbudget, if_pos h, hmib, stBUDGET]

/-- BUDGET_CHECK completes with the failure of the budget check. -/
theorem exec_budgetCheck_fails {m : Fin 16} {s e : State} {res : List Nat} (h : Safety.Executing s m.val 0x0504 e)
    (hf : budgetFail e = some { status := 6, res := res }) :
    exec (.budgetCheck m) s = .next (completeCmd e m.val 6 res) := by
  rw [exec_executing (body := fun s => budgetCheckCmd s m.val) h rfl]
  exact congrArg _ (checked_fails _ (by rw [noSched_executing h, hf]; rfl) (by decide))

/-! ### The words reported -/

theorem signWord_eq (n : Nat) : signWord n = (BitVec.signExtend 32 (BitVec.ofNat 16 n)).toNat := by
  have htoInt : signed16 n = (BitVec.ofNat 16 n).toInt := by
    simp only [signed16, signedOf, BitVec.toInt, BitVec.toNat_ofNat]
    split <;> split <;> omega
  rw [signWord, htoInt, BitVec.signExtend]

/-- Settles O12: the checks of a command that only reports pass, and its answer is a completion of the state it started in. -/
theorem statusCommandsAnswer : Obligations.StatusCommandsAnswer := by
  refine ⟨fun m s e => ⟨fun h => ?sysInfo, fun h => ?sysEcho, fun h => ?sysTemp, fun h => ?tbStatus,
    fun h hcharge hrings => ?budgetKept, fun h hfree => ?captureStatus, fun h hjob => ?replayStatus,
    fun h hengine => ?deflateStatus, fun h => ?memtestStatus, fun h hfree => ?loopStatus⟩,
    fun m s e h => ⟨fun hcharge => exec_budgetCheck_fails h (budgetFail_charge hcharge),
      fun hcharge hrings => exec_budgetCheck_fails h (budgetFail_rings hcharge hrings)⟩⟩
  all_goals have hsched := noSched_executing h
  case sysInfo =>
    rw [exec_executing (body := fun s => sysInfoCmd s m.val) h rfl]
    simp only [sysInfoCmd, checked_noSched _ hsched]
    cases e.loop.pos <;> simp [stOK]
  case sysEcho =>
    rw [exec_executing (body := fun s => sysEchoCmd s m.val) h rfl]
    simp only [sysEchoCmd, checked_noSched _ hsched]
    rfl
  case sysTemp =>
    rw [exec_executing (body := fun s => sysTempCmd s m.val) h rfl]
    simp only [sysTempCmd, checked_noSched _ hsched, signWord_eq]
    rfl
  case tbStatus =>
    rw [exec_executing (body := fun s => tbStatusCmd s m.val) h rfl]
    simp only [tbStatusCmd, checked_noSched _ hsched]
    rfl
  case budgetKept =>
    rw [exec_executing (body := fun s => budgetCheckCmd s m.val) h rfl]
    simp only [budgetCheckCmd, checked_noSched_and _ hsched (budgetFail_none hcharge hrings)]
    rfl
  case captureStatus =>
    rw [exec_executing (body := fun s => captureStatusCmd s m.val) h rfl]
    simp only [captureStatusCmd, checked_noSched_and _ hsched (needFree_none hfree)]
    rfl
  case replayStatus =>
    rw [exec_executing (body := fun s => replayStatusCmd s m.val) h rfl]
    simp only [replayStatusCmd, checked_noSched_and _ hsched (needRange_of (decide_eq_true hjob) 0)]
    rfl
  case deflateStatus =>
    rw [exec_executing (body := fun s => deflateStatusCmd s m.val) h rfl]
    simp only [deflateStatusCmd, checked_noSched_and _ hsched (needRange_of (decide_eq_true hengine) 0)]
    rfl
  case memtestStatus =>
    rw [exec_executing (body := fun s => memtestStatusCmd s m.val) h rfl]
    simp only [memtestStatusCmd, checked_noSched _ hsched]
    cases e.mt.or e.mtLast <;> rfl
  case loopStatus =>
    rw [exec_executing (body := fun s => loopStatusCmd s m.val) h rfl]
    simp only [loopStatusCmd, checked_noSched_and _ hsched (needFree_none hfree)]
    rfl

end Sys2Proof.Machine
end

section
/-! Host writes of a mailbox: the doorbell, and writes while a command is in progress
(spec/03_dvorna_mailboxes.md, R51, R52). -/

namespace Sys2Proof.Machine

-- One proof at a time, as above.
set_option Elab.async false

/-! ### Writes that reach a mailbox -/

/-- A BAR0 write of a mailbox register; mailboxes lie in AON. -/
theorem bar0Write_mbx (s : State) {m o : Nat} (v : Word) (be : BitVec 4) (hm : m < 16) (ho : o < 0x1000) (h4 : o % 4 = 0) :
    bar0Write s (mR m o) v be = mbxPut s m o v (beMask be) := by
  have haligned : mR m o / 4 * 4 = mR m o := by simp only [mR]; omega
  have hdom : offDomain (mR m o) = 0 := offDomain_aon (.inl (by simp only [mR]; omega))
  simp only [bar0Write, haligned, regPut, blockOff_of_aon s hdom, Bool.false_eq_true, if_false, blockOf_mR hm ho]

/-- A write that the mailbox refuses while its command is in progress (R52). -/
theorem mbxPut_busy {s : State} {m o : Nat} (v mask : Word) (hbusy : mbxState s m = 1 ∨ mbxState s m = 2)
    (ho : o ≤ 0x010 ∨ 0x100 ≤ o ∧ o < 0x500) : mbxPut s m o v mask = hwOr s (mR m 0x14) 0x100 := by
  have hrefused : ((mbxState s m == 1 || mbxState s m == 2) &&
      (decide (o ≤ 0x010) || decide (0x100 ≤ o) && decide (o < 0x500))) = true := by
    rcases hbusy with h | h <;> rcases ho with h' | ⟨h', h''⟩ <;> simp [*]
  exact if_pos hrefused

/-- A doorbell of a mailbox with no command in progress posts its command, behind those posted before (R51). -/
theorem mbxPut_doorbell {s : State} {m : Nat} {v mask : Word} (h1 : mbxState s m ≠ 1) (h2 : mbxState s m ≠ 2)
    (hbell : bitAt (v &&& mask) 0 = true) :
    mbxPut s m 0x010 v mask = { wrF s (mR m 0x14) 0 2 1 with posted := s.posted ++ [m] } := by
  simp [mbxPut, h1, h2, hbell]

theorem mbxState_posted (s : State) (m : Nat) (l : List Nat) :
    mbxState { wrF s (mR m 0x14) 0 2 1 with posted := l } m = 1 := by
  have hrd : rd { wrF s (mR m 0x14) 0 2 1 with posted := l } (mR m 0x14) = rd (wrF s (mR m 0x14) 0 2 1) (mR m 0x14) :=
    rd_congr rfl _
  rw [mbxState, rdF, hrd]
  exact rdF_wrF_self s _ 0 2 1 (by decide)

/-! ### OVERRUN -/

/-- Setting OVERRUN leaves MBX_STATE.STATE. -/
theorem mbxState_hwOr_overrun (s : State) (m : Nat) : mbxState (hwOr s (mR m 0x14) 0x100) m = mbxState s m := by
  apply Nat.eq_of_testBit_eq
  intro i
  simp only [mbxState, rdF, testBit_fld, rd_hwOr_self, Nat.zero_add, BitVec.getLsbD_or]
  by_cases hi : i < 2
  · have hbit : (0x100 : Word).getLsbD i = false := by interval_cases i <;> rfl
    rw [hbit, Bool.or_false]
  · simp [hi]

theorem rdBit_hwOr_overrun (s : State) (off : Nat) : rdBit (hwOr s off 0x100) off 8 = true := by
  rw [rdBit, rd_hwOr_self, bitAt, BitVec.getLsbD_or]
  simp

theorem regsOnlyAt_hwOr (s : State) (off : Nat) (m : Word) : Safety.RegsOnlyAt s (hwOr s off m) [off] := fun _ ho =>
  rd_hwOr_ne s m (by simpa using ho)

/-! ### The doorbell -/

theorem exec_mbxDoorbell {m : Fin 16} {s : State} (h : memDecoded s = true) :
    exec (.mbxDoorbell m) s = .next (mbxPut (tlpSeen s) m.val 0x010 1 (beMask 0xF)) := by
  change execMbxDoorbell m s = _
  rw [execMbxDoorbell, hostPut, hostWrite, if_pos h, bar0Write_mbx _ _ _ m.isLt (by decide) (by decide)]

/-- Settles O10: the doorbell is the mailbox's own write, which posts the command or is refused. -/
theorem doorbellPostsOrOverruns : Obligations.DoorbellPostsOrOverruns := by
  intro m s hd
  refine ⟨_, exec_mbxDoorbell hd, ?_⟩
  by_cases hbusy : mbxState s m.val = 1 ∨ mbxState s m.val = 2
  · rw [mbxPut_busy (s := tlpSeen s) _ _ hbusy (.inl (Nat.le_refl _))]
    exact ⟨by omega, fun _ => ⟨rdBit_hwOr_overrun _ _, mbxState_hwOr_overrun _ _, rfl⟩, rfl, regsOnlyAt_hwOr (tlpSeen s) _ _,
      (still_hwOr _ _ _ (still_tlpSeen s (.refl s))).sameMemory⟩
  · obtain ⟨h1, h2⟩ := not_or.1 hbusy
    rw [mbxPut_doorbell (s := tlpSeen s) h1 h2 (by decide)]
    exact ⟨fun _ => ⟨mbxState_posted _ _ _, rfl⟩, fun h => absurd h hbusy, rfl,
      fun o ho => rd_wrF_ne (tlpSeen s) _ _ _ (by simpa using ho),
      Still.sameMemory ⟨rfl, rfl, rfl⟩⟩

/-- Settles O11: each of these registers is guarded while the command is in progress, so the write only sets OVERRUN. -/
theorem busyMailboxRefusesWrites : Obligations.BusyMailboxRefusesWrites := by
  intro m o v be s hd ho hbusy
  obtain ⟨hguarded, hlt, h4⟩ : (o ≤ 0x010 ∨ 0x100 ≤ o ∧ o < 0x500) ∧ o < 0x1000 ∧ o % 4 = 0 := by
    simp only [List.mem_cons, List.not_mem_nil, or_false] at ho
    omega
  have hoff : (BitVec.ofNat 26 (mR m.val o)).toNat = mR m.val o := by
    have := m.isLt
    rw [BitVec.toNat_ofNat, Nat.mod_eq_of_lt]
    simp only [mR]
    omega
  refine ⟨_, exec_registerWrite_bar0 _ v be none hd, ?_⟩
  rw [tlpPut, hoff, bar0Write_mbx _ _ _ m.isLt hlt h4, mbxPut_busy (s := tlpSeen s) _ _ hbusy hguarded]
  exact ⟨rd_hwOr_self _ _ _, regsOnlyAt_hwOr (tlpSeen s) _ _, rfl, rfl⟩

end Sys2Proof.Machine
end

section
/-! The service range, the nonce's end and the save of the maker block (spec/19_access_gates.md, R380, R383, R386). -/

namespace Sys2Proof.Machine

-- One proof at a time, as above.
set_option Elab.async false

/-! ### The service range -/

theorem serviceOp_of_range {op : Nat} (hlo : 0x0C80 ≤ op) (hhi : op ≤ 0x0CFF) : serviceOp op = true := by
  simp [serviceOp, hlo, hhi]

/-- A service opcode that the firmware starts is LOCKED, or has no effect the spec gives. -/
theorem exec_serviceCommand {m : Fin 16} {s : State} (hstart : fwStarts s m.val = true)
    (hop : serviceOp (cmdOpcode s m.val) = true) : exec (.serviceCommand m) s =
      if s.gates.svcOpen then .refused .serviceEffectNotGiven
      else .next (completeCmd (startCmd s m.val) m.val 7 [0]) := by
  change execServiceCommand m s = _
  rw [execServiceCommand, hstart, hop]
  rfl

/-! ### GATE_STATUS -/

@[simp] theorem setGates_gates (s : State) (g : Gates) : (setGates s g).gates = g := rfl
@[simp] theorem setGates_flash (s : State) (g : Gates) : (setGates s g).flash = s.flash := rfl

theorem regsOnlyAt_setGates (s : State) (g : Gates) : Safety.RegsOnlyAt s (setGates s g) [GATE_STATUS] := fun o ho =>
  (rd_gateShow_ne { s with gates := g } (by simpa using ho)).trans (rd_congr rfl o)

/-- GATE_STATUS shows the firmware's word. -/
theorem rdBit_setGates (s : State) (g : Gates) {i : Nat} (hi : i < 32) :
    rdBit (setGates s g) GATE_STATUS i = (gateWord { s with gates := g }).testBit i := by
  rw [rdBit, setGates, gateShow, rd_wr_self, bitAt, BitVec.getLsbD_ofNat, decide_eq_true hi, Bool.true_and]

/-- The bits of GATE_STATUS that show a nonce and a finished save (R389). -/
theorem testBit_gateBits (svc fused nonce pwd cust restricted saved : Bool) :
    let n := b2n svc + 2 * b2n fused + 4 * b2n nonce + 256 * b2n pwd + 512 * b2n cust + 1024 * b2n restricted +
      2048 * b2n saved
    n.testBit 2 = nonce ∧ n.testBit 11 = saved := by
  revert svc fused nonce pwd cust restricted saved
  decide

theorem testBit_gateWord_nonce (s : State) : (gateWord s).testBit 2 = s.gates.nonce.isSome :=
  (testBit_gateBits _ _ _ _ _ _ _).1

theorem testBit_gateWord_saved (s : State) : (gateWord s).testBit 11 = gateSaved s :=
  (testBit_gateBits _ _ _ _ _ _ _).2

/-! ### The nonce's end (R383) -/

theorem exec_nonceExpiry_old {s : State} {n : BitVec 256} (hn : s.gates.nonce = some n)
    (h : s.gates.nonceAt + 10000000000 ≤ s.ns) :
    exec .nonceExpiry s = .next (setGates s { s.gates with nonce := none }) := by
  change execNonceExpiry s = _
  rw [execNonceExpiry, nonceExpiry, hn, Option.isSome_some, decide_eq_true h]
  rfl

theorem exec_nonceExpiry_young {s : State} (h : s.ns < s.gates.nonceAt + 10000000000) :
    exec .nonceExpiry s = .next s := by
  change execNonceExpiry s = _
  rw [execNonceExpiry, nonceExpiry, decide_eq_false (Nat.not_le.2 h), Bool.and_false, if_neg Bool.false_ne_true]

/-! ### The save (R386) -/

/-- What a save writes into the copy it takes: one generation after `gen`, or damage where it does not verify. -/
def savedCopy (s : State) (verifies : Bool) (gen : Nat) : Copy :=
  if verifies = true then .valid (gen + 1) s.gates.savedPwd (makerCfg s) else .damaged

/-- The save of a maker block with two valid copies overwrites the one of the lower generation count. -/
def savedFlash (s : State) (verifies : Bool) (ga gb : Nat) : Flash :=
  if ga < gb then { s.flash with a := savedCopy s verifies gb } else { s.flash with b := savedCopy s verifies ga }

theorem exec_gateSave {s : State} {ga gb : Nat} {pa pb : BitVec 128} {ca cb : List Word} (v : Bool)
    (hsaving : s.gates.saving = true) (hfw : fwReady s = true) (ha : s.flash.a = .valid ga pa ca)
    (hb : s.flash.b = .valid gb pb cb) : exec (.gateSave v) s =
      .next (setGates { s with flash := savedFlash s v ga gb } { s.gates with saving := false }) := by
  change execGateSave v s = _
  simp only [execGateSave, gateSave, hsaving, hfw, ha, hb, copyGen, Bool.and_self, if_true, Option.getD_some, savedFlash,
    savedCopy, decide_eq_true_eq]
  rcases Nat.lt_or_ge ga gb with hlt | hle
  · rw [if_neg (Nat.not_le.2 hlt), if_pos hlt, Nat.max_eq_right hlt.le]
  · rw [if_pos hle, if_neg (Nat.not_lt.2 hle), Nat.max_eq_left hle]

/-- After a save that verifies, the copy in force is the one it wrote. -/
theorem makerCopy_savedFlash {s : State} {ga gb : Nat} {pa pb : BitVec 128} {ca cb : List Word}
    (ha : s.flash.a = .valid ga pa ca) (hb : s.flash.b = .valid gb pb cb) :
    makerCopy (savedFlash s true ga gb) = some (s.gates.savedPwd, makerCfg s) := by
  rw [savedFlash]
  split
  next hlt => simp only [makerCopy, hb, savedCopy, if_true, if_neg (show ¬ gb + 1 < gb by omega)]
  next hge => simp only [makerCopy, ha, savedCopy, if_true, if_pos (show ga < ga + 1 by omega)]

theorem gateSaved_of_makerCopy {s : State} (hsaving : s.gates.saving = false)
    (h : makerCopy s.flash = some (s.gates.savedPwd, makerCfg s)) : gateSaved s = true := by
  simp [gateSaved, hsaving, h]

/-- Settles O29: the service row's two outcomes, and what the end of a nonce and of a save show in GATE_STATUS. -/
theorem serviceRangeNonceAndSave : Obligations.ServiceRangeNonceAndSave := by
  refine ⟨fun m s hstart hlo hhi => ?service, fun s n hn => ⟨fun hold => ?discarded, exec_nonceExpiry_young⟩,
    fun s v ga gb pa pb ca cb hsaving hfw ha hb => ?save⟩
  case service =>
    have hexec := exec_serviceCommand hstart (serviceOp_of_range hlo hhi)
    exact ⟨fun h => by rw [hexec, h, if_neg Bool.false_ne_true], fun h => by rw [hexec, h, if_pos rfl]⟩
  case discarded =>
    refine ⟨_, exec_nonceExpiry_old hn hold, setGates_gates _ _, ?_, regsOnlyAt_setGates _ _⟩
    rw [rdBit_setGates _ _ (by decide), testBit_gateWord_nonce]
    rfl
  case save =>
    refine ⟨_, exec_gateSave v hsaving hfw ha hb, setGates_gates _ _, fun hlt => ?intoA, fun hle => ?intoB, fun hv => ?shown,
      regsOnlyAt_setGates { s with flash := savedFlash s v ga gb } _⟩
    case intoA => rw [setGates_flash, savedFlash, if_pos hlt]; exact ⟨rfl, rfl⟩
    case intoB => rw [setGates_flash, savedFlash, if_neg (Nat.not_lt.2 hle)]; exact ⟨rfl, rfl⟩
    case shown =>
      subst hv
      rw [rdBit_setGates _ _ (by decide), testBit_gateWord_saved]
      exact gateSaved_of_makerCopy rfl (makerCopy_savedFlash ha hb)

end Sys2Proof.Machine
end

section
/-! Capture commands and DFC_SYNC with an execution tick: posting and acting (spec/03_dvorna_mailboxes.md, R54, R60, R61). -/

namespace Sys2Proof.Machine

-- One proof at a time, as above.
set_option Elab.async false

/-! ### The checks of an execution tick -/

theorem schedBits_below {s : State} {m : Nat} (h : cmdExecTick s m < 2 ^ 56) : schedBits s m = none := by
  rw [schedBits, decide_eq_false (Nat.not_le.2 h), Bool.and_false, failIf_false]

theorem schedRange_within {s : State} {m p lead : Nat} (hlo : p + lead ≤ cmdExecTick s m)
    (hhi : cmdExecTick s m ≤ p + 2 ^ 32) : schedRange s m p lead = none := by
  rw [schedRange, decide_eq_false (Nat.not_lt.2 hlo), decide_eq_false (Nat.not_lt.2 hhi), Bool.or_false, Bool.and_false,
    failIf_false]

theorem schedRange_early {s : State} {m p lead : Nat} (hs : cmdSched s m = true) (h : cmdExecTick s m < p + lead) :
    schedRange s m p lead = some { status := 4, res := 0xFFFFFFFF :: words2 (p + lead) } := by
  rw [schedRange, hs, decide_eq_true h, Bool.true_or, Bool.and_true, failIf_true]
  rfl

/-! ### Posting -/

/-- A command that takes an execution tick: the checks of the tick, then its own; with SCHED it is posted, without it acts. -/
def scheduledCmd (s : State) (m : Nat) (own : List (Option Fail)) (held : List Res) (act : State → State) : State :=
  checked s m ([schedBits s m, schedRange s m (now s) 3] ++ own)
    (fun s => if cmdSched s m then postScheduled s m held else act s)

/-- A tick far enough ahead is waited for, with the resources held. -/
theorem scheduledCmd_posts {s : State} {m : Nat} {own : List (Option Fail)} {held : List Res} (act : State → State)
    (hs : cmdSched s m = true) (hbits : cmdExecTick s m < 2 ^ 56) (hhi : cmdExecTick s m ≤ now s + 2 ^ 32)
    (hlo : now s + 3 ≤ cmdExecTick s m) (hown : firstFail own = none) :
    scheduledCmd s m own held act =
      holdCmd (wr64 s (mR m 0x20) (now s)) m (.scheduled (cmdExecTick s m)) held := by
  rw [scheduledCmd, checked_pass, if_pos hs, postScheduled]
  rw [List.cons_append, List.cons_append, List.nil_append, firstFail_pass _ (schedBits_below hbits),
    firstFail_pass _ (schedRange_within hlo hhi), hown]

/-- A tick too near is refused with the earliest one that is not. -/
theorem scheduledCmd_early {s : State} {m : Nat} (own : List (Option Fail)) (held : List Res) (act : State → State)
    (hs : cmdSched s m = true) (hbits : cmdExecTick s m < 2 ^ 56) (h : cmdExecTick s m < now s + 3) :
    scheduledCmd s m own held act = completeCmd s m 4 (0xFFFFFFFF :: words2 (now s + 3)) := by
  refine checked_fails _ ?_ (by decide)
  rw [List.cons_append, List.cons_append, firstFail_pass _ (schedBits_below hbits), schedRange_early hs h, firstFail_some]

theorem captureStopCmd_eq (s : State) (m : Nat) : captureStopCmd s m =
    scheduledCmd s m (stopChecks s (schedRes s m)) (.capture :: schedRes s m)
      (fun s => completeCmd (captureHalt s 2) m 0 (words2 (now s))) := rfl

theorem captureForceCmd_eq (s : State) (m : Nat) : captureForceCmd s m =
    scheduledCmd s m (forceChecks s (schedRes s m)) (.capture :: schedRes s m)
      (fun s => completeCmd (forceTrigger s (now s)) m 0 (words2 (now s * 256))) := rfl

theorem schedRes_sched {s : State} {m : Nat} (h : cmdSched s m = true) : schedRes s m = [.timebase] := if_pos h

/-- The checks of CAPTURE_STOP and CAPTURE_FORCE_TRIGGER: a state that admits them, and resources nobody holds. -/
theorem capFree_pass {s : State} {l : List Nat} {held : List Res} (hcap : capState s ∈ l)
    (hfree : Safety.NoneHolds s held) : firstFail [needCap s l, needFree s held] = none := by
  rw [firstFail_pass _ (needCap_none hcap), firstFail_pass _ (needFree_none hfree), firstFail_nil]

/-- A row of the catalogue carries out the command it starts. -/
theorem exec_starts {s : State} {m op : Nat} {i : Instr} {body : State → State}
    (hrow : exec i s = .next (fwRow s m op body)) (hstart : fwStarts s m = true) (hop : cmdOpcode s m = op) :
    exec i s = .next (body (startCmd s m)) := by
  rw [hrow, fwRow_starts body hstart hop]

/-- The two answers to a scheduled command whose own checks pass. -/
theorem next_postsOrRefuses {s : State} {m : Nat} {own : List (Option Fail)} {held : List Res} (act : State → State)
    (hs : cmdSched s m = true) (hbits : cmdExecTick s m < 2 ^ 56) (hhi : cmdExecTick s m ≤ now s + 2 ^ 32)
    (hown : firstFail own = none) :
    let answer : Out := .next (scheduledCmd s m own held act)
    (now s + 3 ≤ cmdExecTick s m →
      answer = .next (holdCmd (wr64 s (mR m 0x20) (now s)) m (.scheduled (cmdExecTick s m)) held)) ∧
    (cmdExecTick s m < now s + 3 → answer = .next (completeCmd s m 4 (0xFFFFFFFF :: words2 (now s + 3)))) :=
  ⟨fun hlo => congrArg _ (scheduledCmd_posts act hs hbits hhi hlo hown),
    fun h => congrArg _ (scheduledCmd_early own held act hs hbits h)⟩

/-! ### Acting on the tick -/

/-- How the command of mailbox `m` completes where acting on its tick gave `r`. -/
def completeAct (m : Nat) (r : Option Fail × List Nat × State) : State :=
  match r with
  | (some f, _, s1) => completeCmd s1 m f.status f.res
  | (none, res, s1) => completeCmd s1 m stOK res

/-- The one command under way is that of mailbox `m` and waits for its tick `x`. -/
def WaitsAlone (s : State) (m : Nat) (c : RunCmd) (x : Tick) : Prop :=
  s.running = [c] ∧ c.m = m ∧ c.wait = .scheduled x

theorem scheduledExecution_waiting {s : State} {m : Nat} {c : RunCmd} {x : Tick} (h : WaitsAlone s m c x) :
    scheduledExecution s m =
      if x ≤ now s then completeAct m (actAt s c.op x (actParam s m 0 c.op)) else s := by
  obtain ⟨hrun, rfl, hwait⟩ := h
  simp only [scheduledExecution, hrun, List.find?_cons, beq_self_eq_true, hwait]
  rfl

theorem exec_scheduled_early {m : Fin 16} {s : State} {c : RunCmd} {x : Tick} (h : WaitsAlone s m.val c x)
    (hx : now s < x) : exec (.scheduledCommandExecution m) s = .next s := by
  change execScheduledCommandExecution m s = _
  rw [execScheduledCommandExecution, scheduledExecution_waiting h, if_neg (Nat.not_le.2 hx)]

theorem exec_scheduled_due {m : Fin 16} {s : State} {c : RunCmd} {x : Tick} (h : WaitsAlone s m.val c x)
    (hx : x ≤ now s) : exec (.scheduledCommandExecution m) s =
      .next (completeAct m.val (actAt s c.op x (actParam s m.val 0 c.op))) := by
  change execScheduledCommandExecution m s = _
  rw [execScheduledCommandExecution, scheduledExecution_waiting h, if_pos hx]

theorem actAt_stop {s : State} (x : Tick) (v : Nat) (h : capState s = 2 ∨ capState s = 3) :
    actAt s 0x0603 x v = (none, words2 x, captureHalt s 2) := by
  have hcap : needCap s [capARMED, capTRIGGERED] = none := needCap_none (by simpa [capARMED, capTRIGGERED] using h)
  simp only [actAt, hcap]
  rfl

theorem actAt_force {s : State} (x : Tick) (v : Nat) (h : capState s = 2) :
    actAt s 0x0604 x v = (none, words2 (x * 256), forceTrigger s x) := by
  have hcap : needCap s [capARMED] = none := needCap_none (by simpa [capARMED] using h)
  simp only [actAt, hcap]
  rfl

/-- A force trigger whose capture is no longer ARMED only reports that state (R60). -/
theorem actAt_force_notArmed {s : State} (x : Tick) (v : Nat) (h : capState s ≠ 2) :
    actAt s 0x0604 x v = (some { status := 5, res := [capState s] }, [], s) := by
  have hcap : needCap s [capARMED] = some { status := 5, res := [capState s] } := by
    simp [needCap, needState, capARMED, h, unitWord, stBAD_STATE]
  simp only [actAt, hcap]
  rfl

theorem actAt_sync {s : State} (x : Tick) (v : Nat) (h : domReady s 20 = true) :
    actAt s 0x0903 x v = (none, words2 x, dfcSyncAct s v x) := by
  have hdoms : needDoms s [domAnalog] = none := needDoms_none (by simpa [Safety.Ready, domAnalog] using h)
  simp only [actAt, hdoms]
  rfl

/-- DFC_SYNC sets a restart of the chains of the mask that run (R299). -/
theorem dfcSyncAct_eq (s : State) (v : Nat) (x : Int) : dfcSyncAct s v x =
    forEach (chainMask v) s (fun t j => if 2 ≤ dfcState t j then
      setDfc t j { getDfc t j with resets := (getDfc t j).resets ++ [x] } else t) := by
  have hat : (fun t j => dfcSyncAt t j x) = fun t j => if 2 ≤ dfcState t j then
      setDfc t j { getDfc t j with resets := (getDfc t j).resets ++ [x] } else t := by
    funext t j
    simp only [dfcSyncAt, dfcActive, modDfc, decide_eq_true_eq]
  rw [dfcSyncAct, hat]

/-- Settles O22: posting is `scheduledCmd`, and on its tick each command acts as `actAt` says. -/
theorem scheduledCommandsWaitAndAct : Obligations.ScheduledCommandsWaitAndAct := by
  refine ⟨fun m s e c hc hstart hop he hs hbits hhi hcap hfree => ?posting, fun m s c x hrun hm hwait => ?acting⟩
  case posting =>
    subst he
    have hres := schedRes_sched hs
    simp only [List.mem_cons, List.not_mem_nil, or_false] at hc
    rcases hc with rfl | rfl
    · have hexec := exec_starts (body := fun s => captureStopCmd s m.val) (i := .captureStop m) rfl hstart hop
      rw [hexec, captureStopCmd_eq, hres]
      exact next_postsOrRefuses _ hs hbits hhi (capFree_pass
        (by simpa [capARMED, capTRIGGERED] using hcap.imp_right And.left) hfree)
    · have hexec := exec_starts (body := fun s => captureForceCmd s m.val) (i := .captureForceTrigger m) rfl hstart hop
      rw [hexec, captureForceCmd_eq, hres]
      exact next_postsOrRefuses _ hs hbits hhi (capFree_pass (by simpa [capARMED] using hcap) hfree)
  case acting =>
    have hw : WaitsAlone s m.val c x := ⟨hrun, hm, hwait⟩
    refine ⟨exec_scheduled_early hw, fun hx hop hcap => ?force, fun hx hop hcap => ?notArmed, fun hx hop hcap => ?stop,
      fun hx hop hdom => ?sync⟩
    all_goals rw [exec_scheduled_due hw hx, hop]
    case force => rw [actAt_force x _ hcap]; rfl
    case notArmed => rw [actAt_force_notArmed x _ hcap]; rfl
    case stop => rw [actAt_stop x _ hcap]; rfl
    case sync =>
      rw [actAt_sync x _ hdom, dfcSyncAct_eq]
      rfl

end Sys2Proof.Machine
end

section
/-! A capture armed beside an engine record that is no engine's (spec/03_dvorna_mailboxes.md, R63; spec/10_rings.md, R251). -/

namespace Sys2Proof.Machine

-- One proof at a time, as above.
set_option Elab.async false

/-- CAPTURE_ARM waits in mailbox 0 of a READY capture: lane stream 0 goes to ring 12, whose WR is 2. The table of engines has an
entry 256, beyond the 256 engines of the device, whose block would lie in those of the rings. -/
def strayEngineArm : State :=
  { State.reset with
    posted := [0]
    ctx := { CtxStore.init with drawn := false }
    eng := [(256, { EngCore.init 256 with loaded := true })]
    regs := [(SYS_FW_STATUS, 1), (SYS_CAPTURE, 1), (PWR_READY, 0xFFFFFF), (strR 0 0, 0x84000000), (strR 0 4, 12),
      (mR 0 0, 0x06020000), (rR 12 0x10, 2)] }

/-- SEGBASE of ring `r` where a command answers a next state. -/
def segBaseAfter (r : Nat) : Out → Option Nat
  | .next t => some (ringSEGBASE t r)
  | _ => none

/-- A completion leaves the pointers of the rings. -/
theorem ringSEGBASE_completeCmd (s : State) {m status r : Nat} {res : List Nat} (hlen : res.length ≤ 256) (hm : m < 16) :
    ringSEGBASE (completeCmd s m status res) r = ringSEGBASE s r := by
  have hrd {o : Nat} (ho : 0x00800000 ≤ o) : rd (completeCmd s m status res) o = rd s o := by
    apply rd_completeCmd_out s hlen <;> simp only [OutsideRes, resR, mR, SYS_MBX_DONE, evtR] <;> omega
  rw [ringSEGBASE, rd64, hrd (by rw [rR]; omega), hrd (by rw [rR]; omega)]
  rfl

/-- The engine that is none starts with the arm, and the reset of its timer 1 clears bit 1 of SEGBASE. -/
theorem segBaseAfter_strayEngineArm : segBaseAfter 12 (exec (.captureArm 0) strayEngineArm) = some 0 := by
  decide +kernel

/-- Refutes O21: SEGBASE of ring 12 does not keep the WR it takes at the arm, where an engine beyond the 256 starts with it. -/
theorem not_captureCommandsMoveTheState : ¬ Obligations.CaptureCommandsMoveTheState := by
  intro h
  obtain ⟨-, harm, -⟩ := h 0 strayEngineArm (startCmd strayEngineArm 0)
  obtain ⟨t, hexec, -, -, -, -, -, -, -, hbase, -⟩ := harm ⟨by decide +kernel, by decide +kernel, rfl, by decide +kernel⟩
    (by decide +kernel) (by decide +kernel) (by decide +kernel) (by unfold Safety.Ready; decide +kernel)
    (by unfold Safety.StartsFree; decide +kernel) (by unfold Safety.NoneHolds; decide +kernel)
    (by unfold Safety.BudgetKept; decide +kernel) (by decide +kernel)
  have hring : ringSEGBASE t 12 = 2 := (hbase 12 (by decide +kernel)).trans (by decide +kernel)
  have hkept : segBaseAfter 12 (exec (.captureArm 0) strayEngineArm) = some 2 := by
    rw [hexec, segBaseAfter, ringSEGBASE_completeCmd t (by simp [words2]) (by decide), hring]
  rw [segBaseAfter_strayEngineArm] at hkept
  exact absurd hkept (by decide)

end Sys2Proof.Machine
end

section
/-! Steps and the queue of waiting commands: what every command leaves alone (spec/opcode_table.json; R53). -/

namespace Sys2Proof.Machine

-- One proof at a time, as above.
set_option Elab.async false

/-! ### From the answer of a row to the state it answers -/

theorem keeps_next {s t u : State} (h : (.next u : Out) = .next t) (k : Keeps s u) : Keeps s t := by
  cases h
  exact k

/-- A row of the catalogue keeps what its command keeps. -/
theorem keeps_row {s t : State} {m op : Nat} {body : State → State} (h : (.next (fwRow s m op body) : Out) = .next t)
    (k : Keeps (startCmd s m) (body (startCmd s m))) : Keeps s t :=
  keeps_next h (keeps_fwRow s m op body (.refl s) ((keeps_startCmd s m (.refl s)).trans k))

/-! ### Rows that are no call of one operation -/

theorem keeps_serviceCommand {m : Fin 16} {s t : State} (h : exec (.serviceCommand m) s = .next t) : Keeps s t := by
  change execServiceCommand m s = _ at h
  rw [execServiceCommand] at h
  split at h
  · split at h
    · cases h
    · exact keeps_next h (keeps_serviceLocked s m.val (.refl s))
  · exact keeps_row h (.refl _)

theorem keeps_hostBar0 (s : State) (off : Nat) (v : Word) (be : BitVec 4) :
    Keeps s (hostWrite s (fun s => bar0Write s off v be)) :=
  keeps_hostWrite s _ (.refl s) (keeps_bar0Write _ off v be (keeps_tlpSeen s (.refl s)))

theorem keeps_registerWrite (s : State) (tg : RegTarget) (v : Word) (be : BitVec 4 × Option (Word × BitVec 4))
    (mark : TlpMark) : Keeps s (hostWriteAs s mark (fun s => match tg with
      | .bar0 off => tlpPut bar0Write s off.toNat v be.1 be.2
      | .bar4 off => tlpPut bar4Write s off.toNat v be.1 be.2)) := by
  refine keeps_hostWriteAs s mark _ (.refl s) ?_
  have hseen : Keeps s (tlpSeen s) := keeps_tlpSeen s (.refl s)
  cases tg with
  | bar0 off => exact keeps_tlpPut _ _ _ _ _ _ hseen fun u a w b => keeps_bar0Write u a w b (.refl u)
  | bar4 off => exact keeps_tlpPut _ _ _ _ _ _ hseen fun u a w b => keeps_bar4Write u a w b (.refl u)

theorem keeps_domoff {s t : State} {off : BitVec 26} (access : OffAccess) (h : exec (.domoff off access) s = .next t) :
    Keeps s t := by
  have hseen : Keeps s (tlpSeen s) := keeps_tlpSeen s (.refl s)
  cases access with
  | writes => exact keeps_next h (keeps_hostWrite s _ (.refl s) ((keeps_domoffSet _ hseen).ite hseen))
  | reads be upper => exact keeps_next h (keeps_hostRead s _ be upper (.refl s))

/-! ### Every command -/

/-- A command that answers a next state leaves the queue, and the canonical form of both memories. -/
theorem keeps_exec {c : Instr} {s t : State} (h : exec c s = .next t) : Keeps s t := by
  cases c with
  | mbxDoorbell _ => exact keeps_next h (keeps_hostPut _ _ _ (.refl s))
  | sysInfo _ => exact keeps_row h (keeps_sysInfoCmd _ _ (.refl _))
  | sysEcho _ => exact keeps_row h (keeps_sysEchoCmd _ _ (.refl _))
  | sysTemp _ => exact keeps_row h (keeps_sysTempCmd _ _ (.refl _))
  | tbRefSelect _ => exact keeps_row h (keeps_tbRefSelectCmd _ _ (.refl _))
  | pllConfig _ => exact keeps_row h (keeps_pllConfigCmd _ _ (.refl _))
  | refOutSet _ => exact keeps_row h (keeps_refOutSetCmd _ _ (.refl _))
  | tbStatus _ => exact keeps_row h (keeps_tbStatusCmd _ _ (.refl _))
  | timeSet _ => exact keeps_row h (keeps_timeSetCmd _ _ (.refl _))
  | laneFormat _ => exact keeps_row h (keeps_laneFormatCmd _ _ (.refl _))
  | laneTrain _ => exact keeps_row h (keeps_laneTrainCmd _ _ _ (.refl _))
  | laneRetrain _ => exact keeps_row h (keeps_laneTrainCmd _ _ _ (.refl _))
  | laneIdle _ => exact keeps_row h (keeps_laneIdleCmd _ _ (.refl _))
  | returnSend _ => exact keeps_row h (keeps_returnSendCmd _ _ (.refl _))
  | ucodeLoad _ _ => exact keeps_row h (keeps_ucodeLoadCmd _ _ _ (.refl _))
  | engineMode _ => exact keeps_row h (keeps_engineModeCmd _ _ (.refl _))
  | consistSet _ => exact keeps_row h (keeps_consistSetCmd _ _ (.refl _))
  | engineSnapshot _ => exact keeps_row h (keeps_engineSnapshotCmd _ _ (.refl _))
  | ctxConfig _ => exact keeps_row h (keeps_ctxConfigCmd _ _ (.refl _))
  | ctxClear _ => exact keeps_row h (keeps_ctxClearCmd _ _ (.refl _))
  | ctxAge _ => exact keeps_row h (keeps_ctxAgeCmd _ _ (.refl _))
  | ctxDump _ => exact keeps_row h (keeps_ctxDumpCmd _ _ (.refl _))
  | ringCreate _ => exact keeps_row h (keeps_ringCreateCmd _ _ (.refl _))
  | ringDelete _ => exact keeps_row h (keeps_ringDeleteCmd _ _ (.refl _))
  | streamMode _ => exact keeps_row h (keeps_streamModeCmd _ _ (.refl _))
  | budgetCheck _ => exact keeps_row h (keeps_budgetCheckCmd _ _ (.refl _))
  | ringFlush _ => exact keeps_row h (keeps_ringFlushCmd _ _ (.refl _))
  | ringFlushForcedClose _ => exact keeps_next h (keeps_flushForcedClose _ _ (.refl s))
  | capturePrepare _ => exact keeps_row h (keeps_capturePrepareCmd _ _ (.refl _))
  | captureArm _ => exact keeps_row h (keeps_captureArmCmd _ _ (.refl _))
  | captureStop _ => exact keeps_row h (keeps_captureStopCmd _ _ (.refl _))
  | captureForceTrigger _ => exact keeps_row h (keeps_captureForceCmd _ _ (.refl _))
  | captureRelease _ => exact keeps_row h (keeps_captureReleaseCmd _ _ (.refl _))
  | captureStatus _ => exact keeps_row h (keeps_captureStatusCmd _ _ (.refl _))
  | replayStart _ => exact keeps_row h (keeps_replayStartCmd _ _ (.refl _))
  | replayStop _ => exact keeps_row h (keeps_replayStopCmd _ _ (.refl _))
  | replayStatus _ => exact keeps_row h (keeps_replayStatusCmd _ _ (.refl _))
  | tiuConfig _ => exact keeps_row h (keeps_tiuConfigCmd _ _ (.refl _))
  | tiuMeasure _ => exact keeps_row h (keeps_tiuMeasureCmd _ _ (.refl _))
  | tiuStop _ => exact keeps_row h (keeps_tiuStopCmd _ _ (.refl _))
  | dfcConfig _ => exact keeps_row h (keeps_dfcConfigCmd _ _ (.refl _))
  | dfcThreshold _ => exact keeps_row h (keeps_dfcThresholdCmd _ _ (.refl _))
  | dfcSync _ => exact keeps_row h (keeps_dfcSyncCmd _ _ (.refl _))
  | deflateJob _ => exact keeps_row h (keeps_deflateJobCmd _ _ (.refl _))
  | inflateJob _ => exact keeps_row h (keeps_inflateJobCmd _ _ (.refl _))
  | deflateFlush _ => exact keeps_row h (keeps_deflateFlushCmd _ _ (.refl _))
  | deflateStatus _ => exact keeps_row h (keeps_deflateStatusCmd _ _ (.refl _))
  | memtestRun _ => exact keeps_row h (keeps_memtestRunCmd _ _ (.refl _))
  | memtestStatus _ => exact keeps_row h (keeps_memtestStatusCmd _ _ (.refl _))
  | gateChallenge _ => exact keeps_row h (keeps_gateChallengeCmd _ _ (.refl _))
  | gateResponse _ => exact keeps_row h (keeps_gateResponseCmd _ _ (.refl _))
  | gatePasswordSet _ => exact keeps_row h (keeps_gatePasswordSetCmd _ _ (.refl _))
  | gateUnlock _ => exact keeps_row h (keeps_gateUnlockCmd _ _ (.refl _))
  | gateLock _ => exact keeps_row h (keeps_gateLockCmd _ _ (.refl _))
  | serviceCommand _ => exact keeps_serviceCommand h
  | loopCalibrate _ => exact keeps_row h (keeps_loopCalibrateCmd _ _ (.refl _))
  | loopStatus _ => exact keeps_row h (keeps_loopStatusCmd _ _ (.refl _))
  | loopPost _ => exact keeps_row h (keeps_loopPostCmd _ _ (.refl _))
  | scheduledCommandExecution _ => exact keeps_next h (keeps_scheduledExecution _ _ (.refl s))
  | guardStage _ _ _ => exact keeps_next h (keeps_hostBar0 s _ _ _)
  | guardedCommit _ _ _ _ => exact keeps_next h (keeps_hostBar0 s _ _ _)
  | powerDomainOn _ _ => exact keeps_next h (keeps_hostPut _ _ _ (.refl s))
  | powerDomainOff _ _ => exact keeps_next h (keeps_hostPut _ _ _ (.refl s))
  | bistComplete _ _ _ => exact keeps_next h (keeps_bistComplete _ _ _ _ (.refl s))
  | warmReset _ => exact keeps_next h (keeps_hostPut _ _ _ (.refl s))
  | peerWin _ _ => exact keeps_next h (keeps_hostPut _ _ _ (.refl s))
  | bitBandWrite _ _ => exact keeps_next h (keeps_hostPut _ _ _ (.refl s))
  | registerWrite tg v be mark => exact keeps_next h (keeps_registerWrite s tg v be mark)
  | domoff _ access => exact keeps_domoff access h
  | ringHeadRead _ _ => exact keeps_next h (keeps_hostRead _ _ _ _ (.refl s))
  | advance _ _ => exact keeps_next h (keeps_doorbellPut _ _ _ _ (.refl s))
  | mark _ => exact keeps_next h (keeps_doorbellPut _ _ _ _ (.refl s))
  | rewind _ => exact keeps_next h (keeps_doorbellPut _ _ _ _ (.refl s))
  | release _ => exact keeps_next h (keeps_doorbellPut _ _ _ _ (.refl s))
  | consume _ _ => exact keeps_next h (keeps_doorbellPut _ _ _ _ (.refl s))
  | ringDoorbellNone _ => exact keeps_next h (keeps_doorbellPut _ _ _ _ (.refl s))
  | ringDoorbellReserved _ _ => exact keeps_next h (keeps_doorbellPut _ _ _ _ (.refl s))
  | snapshot _ => exact keeps_next h (keeps_noticePut _ _ _ _ (.refl s))
  | forceLevel _ _ => exact keeps_next h (keeps_noticePut _ _ _ _ (.refl s))
  | stop _ => exact keeps_next h (keeps_noticePut _ _ _ _ (.refl s))
  | pause _ => exact keeps_next h (keeps_noticePut _ _ _ _ (.refl s))
  | resume _ => exact keeps_next h (keeps_noticePut _ _ _ _ (.refl s))
  | engReset _ => exact keeps_next h (keeps_hostPut _ _ _ (.refl s))
  | inc _ => exact keeps_next h (keeps_engineWord _ _ _ (.refl s))
  | jump _ => exact keeps_next h (keeps_engineWord _ _ _ (.refl s))
  | brt _ => exact keeps_next h (keeps_engineWord _ _ _ (.refl s))
  | brf _ => exact keeps_next h (keeps_engineWord _ _ _ (.refl s))
  | call _ => exact keeps_next h (keeps_engineWord _ _ _ (.refl s))
  | ret _ => exact keeps_next h (keeps_engineWord _ _ _ (.refl s))
  | dispatch _ => exact keeps_next h (keeps_engineWord _ _ _ (.refl s))
  | wait _ => exact keeps_next h (keeps_engineWord _ _ _ (.refl s))
  | lookup _ => exact keeps_next h (keeps_ctxGrant _ _ _ (.refl s))
  | insert _ => exact keeps_next h (keeps_ctxGrant _ _ _ (.refl s))
  | update _ => exact keeps_next h (keeps_ctxGrant _ _ _ (.refl s))
  | delete _ => exact keeps_next h (keeps_ctxGrant _ _ _ (.refl s))
  | lookupInsert _ => exact keeps_next h (keeps_ctxGrant _ _ _ (.refl s))
  | ctxSweepRow _ => exact keeps_next h (keeps_ctxSweep _ _ (.refl s))
  | timerLimit _ _ => exact keeps_next h (keeps_timerLimit _ _ _ (.refl s))
  | triggerDecide => exact keeps_next h (keeps_decideTriggers _ (.refl s))
  | recordFormerSlice _ => exact keeps_next h (keeps_recordFormerSlice _ _ (.refl s))
  | segmentEnd => exact keeps_next h (keeps_segmentEnd _ (.refl s))
  | recordCommit _ => exact keeps_next h (keeps_recordCommit _ _ (.refl s))
  | ringGapCommit _ => exact keeps_next h ((keeps_ringGapCommit _ _ (.refl s)).ite (.refl s))
  | ringNoticeTimer _ => exact keeps_next h (keeps_ringNoticeTimer _ _ (.refl s))
  | superframe _ _ _ => exact keeps_next h (keeps_superframe _ _ _ _ (.refl s))
  | cdrLockLoss _ => exact keeps_next h (keeps_laneLosing _ _ (.refl s))
  | idleDetect _ => exact keeps_next h (keeps_idleDetect _ _ (.refl s))
  | clockDataRecovery _ => exact keeps_next h (keeps_cdrDone _ _ (.refl s))
  | markerLock _ _ => exact keeps_next h (keeps_markerLock _ _ _ (.refl s))
  | deskew _ => exact keeps_next h (keeps_deskew _ _ (.refl s))
  | latency _ => exact keeps_next h (keeps_latency _ _ (.refl s))
  | live _ => exact keeps_next h (keeps_laneGoLive _ _ (.refl s))
  | trainingPhaseLimit _ _ => exact keeps_next h (keeps_trainingPhaseLimit _ _ _ (.refl s))
  | returnSuperframe _ => exact keeps_next h (keeps_returnSuperframe _ _ (.refl s))
  | census _ _ => exact keeps_next h (keeps_census _ _ _ (.refl s))
  | measure _ _ _ _ => exact keeps_next h (keeps_measure _ _ _ _ _ (.refl s))
  | align _ => exact keeps_next h (keeps_align _ _ (.refl s))
  | time _ => exact keeps_next h (keeps_timeFrame _ _ (.refl s))
  | command _ _ => exact keeps_next h (keeps_command _ _ _ (.refl s))
  | trigger _ => exact keeps_next h (keeps_trigger _ _ (.refl s))
  | halt _ => exact keeps_next h (keeps_haltFrame _ _ (.refl s))
  | dissolve _ => exact keeps_next h (keeps_dissolve _ _ (.refl s))
  | loopFrameSend => exact keeps_next h (keeps_loopFrameSend _ (.refl s))
  | censusTimeout => exact keeps_next h (keeps_censusTimeout _ (.refl s))
  | syncInLoss => exact keeps_next h (keeps_syncInLoss _ (.refl s))
  | trigIn _ _ => exact keeps_next h (keeps_trigIn _ _ _ (.refl s))
  | trigOutPulseEnd _ => exact keeps_next h (keeps_trigPulseEnd _ _ (.refl s))
  | refDetectWindow _ => exact keeps_next h (keeps_refDetectWindow _ _ (.refl s))
  | refLost => exact keeps_next h (keeps_refLost _ (.refl s))
  | pllLock _ _ => exact keeps_next h (keeps_pllLock _ _ _ (.refl s))
  | pllLockTimeout _ => exact keeps_next h (keeps_pllLockTimeout _ _ (.refl s))
  | unlock _ => exact keeps_next h (keeps_pllUnlock _ _ (.refl s))
  | ptiEdge _ _ _ _ => exact keeps_next h (keeps_ptiEdge _ _ _ _ _ (.refl s))
  | tiuCalibration _ _ _ => exact keeps_next h (keeps_tiuCalibration _ _ _ _ (.refl s))
  | tiuGateClose _ => exact keeps_next h (keeps_tiuGateClose _ _ (.refl s))
  | tiuNoStop _ => exact keeps_next h (keeps_tiuNoStop _ _ (.refl s))
  | tiuWinWrite _ _ _ _ => exact keeps_next h (keeps_hostBar0 s _ _ _)
  | stampRequestTimeout _ => exact keeps_next h (keeps_stampTimeout _ _ (.refl s))
  | dfcOutput _ => exact keeps_next h (keeps_dfcOutput _ _ (.refl s))
  | deflateBlockEnd _ => exact keeps_next h (keeps_dflBlockEnd _ _ (.refl s))
  | deflateBlockIdleTimeout _ => exact keeps_next h (keeps_dflIdle _ _ (.refl s))
  | deflateJobEnd _ => exact keeps_next h (keeps_dflJobEnd _ _ (.refl s))
  | inflateRecordCommit _ => exact keeps_next h (keeps_inflateCommit _ _ (.refl s))
  | inflateStreamEnd _ => exact keeps_next h (keeps_inflateEnd _ _ (.refl s))
  | replayFeed _ => exact keeps_next h (keeps_replayFeed _ _ (.refl s))
  | replaySkip _ => exact keeps_next h (keeps_replaySkip _ _ (.refl s))
  | replayJobEnd _ => exact keeps_next h (keeps_replayJobEnd _ _ (.refl s))
  | memtestRegion _ => exact keeps_next h (keeps_memtestRegion _ _ (.refl s))
  | dmaDescriptor _ _ _ => exact keeps_next h (keeps_dmaDescriptor _ _ _ _ (.refl s))
  | start _ => exact keeps_next h (keeps_hostPut _ _ _ (.refl s))
  | dmaStop _ => exact keeps_next h (keeps_hostPut _ _ _ (.refl s))
  | reclaim => exact keeps_next h (keeps_hostPut _ _ _ (.refl s))
  | completionReceived _ _ _ => exact keeps_next h (keeps_completion _ _ _ _ (.refl s))
  | completionTimeout _ => exact keeps_next h (keeps_completionTimeout _ _ (.refl s))
  | peerWindowRead _ _ => exact keeps_next h (keeps_peerRead _ _ _ (.refl s))
  | peerWindowWrite _ _ _ => exact keeps_next h (keeps_peerWrite _ _ _ _ (.refl s))
  | atomicopRequest _ _ => exact keeps_next h (keeps_atomicOp _ _ (.refl s))
  | configurationRequest _ _ => exact keeps_next h (keeps_cfgRequest _ _ _ (.refl s))
  | d3hot => exact keeps_next h (keeps_enterD3 _ (.refl s))
  | aspmL1Entry => exact keeps_next h (keeps_aspmL1 _ (.refl s))
  | linkTraining _ _ _ => exact keeps_next h (keeps_linkTraining _ _ _ _ (.refl s))
  | msixMessage _ => exact keeps_next h (keeps_msixMessage _ _ (.refl s))
  | flr _ => exact keeps_next h (keeps_flrReset _ _ (.refl s))
  | coldReset _ _ => exact keeps_next h (keeps_coldReset _ _ _ (.refl s))
  | firmwareBoot _ _ => exact keeps_next h (keeps_firmwareBoot _ _ _ (.refl s))
  | fwFault => exact keeps_next h (keeps_fwFault _ (.refl s))
  | temperatureMeasurement _ => exact keeps_next h (keeps_temperature _ _ (.refl s))
  | thermalTrip => exact keeps_next h (keeps_thermalTrip _ (.refl s))
  | nonceExpiry => exact keeps_next h (keeps_nonceExpiry _ (.refl s))
  | gateSave _ => exact keeps_next h (keeps_gateSave _ _ (.refl s))
  | smbusBlockRead _ _ => exact keeps_next h (keeps_smbusRead _ _ _ (.refl s))
  | sliceAtLaneInput _ _ _ => exact keeps_next h (keeps_sliceAtLaneInput _ _ _ _ (.refl s))
  | contextStoreClearEnd => exact keeps_next h (keeps_contextStoreClearEnd _ (.refl s))

/-- Settles O2: every row of the table keeps the queue. -/
theorem commandsLeaveQueue : Obligations.CommandsLeaveQueue := fun _ _ _ h => (keeps_exec h).1

/-- Settles O1: the front command is taken from the queue and run. -/
theorem stepRunsFrontCommand : Obligations.StepRunsFrontCommand := by
  intro c rest s h
  rw [step, h]

end Sys2Proof.Machine
end

section
/-! Register values after a cold reset, as the register tables give them (spec/03_dvorna_mailboxes.md, R49, R50, R63;
spec/06_sequencer_engines.md, R126; spec/18_power_reset_startup.md, R365, R370, R378). -/

namespace Sys2Proof.Machine

-- One proof at a time, as above.
set_option Elab.async false

/-- After reset a register holds its reset value. -/
theorem rd_reset (off : Nat) : rd State.reset off = resetVal off := rfl

theorem blockOf_eR {n o : Nat} (hn : n < 256) (ho : o < 0x4000) : blockOf (eR n o) = .eng n o := by
  unfold blockOf eR
  iterate 6 rw [if_neg (by omega)]
  rw [if_pos (by omega), Block.eng.injEq]
  omega

theorem blockOf_lR {n o : Nat} (hn : n < 256) (ho : o < 0x4000) : blockOf (lR n o) = .lane n o := by
  unfold blockOf lR
  iterate 8 rw [if_neg (by omega)]
  rw [if_pos (by omega), Block.lane.injEq]
  omega

theorem resetVal_mR {m o : Nat} (hm : m < 16) (ho : o < 0x1000) : resetVal (mR m o) = if o = 4 then 2 else 0 := by
  rw [resetVal, blockOf_mR hm ho]

theorem resetVal_eR {n o : Nat} (hn : n < 256) (ho : o < 0x4000) :
    resetVal (eR n o) = if 0x100 ≤ o ∧ o < 0x180 then 0x7FF else 0 := by
  rw [resetVal, blockOf_eR hn ho]

theorem resetVal_lR {n o : Nat} (hn : n < 256) (ho : o < 0x4000) : resetVal (lR n o) = 0 := by
  rw [resetVal, blockOf_lR hn ho]

theorem resetVal_rR {r o : Nat} (hr : r < 0x8000) (ho : o < 0x80) : resetVal (rR r o) = 0 := by
  rw [resetVal, blockOf_rR hr ho]

/-- Settles O6: after reset the register file is empty, so every register reads its table's reset value. -/
theorem resetRegisterValues : Obligations.ResetRegisterValues := by
  refine ⟨rfl, by decide, fun m => ⟨?mbxState, ?mbxFlags⟩, by decide, by decide, by decide, by decide,
    fun e => ⟨?engRun, ?engSelector⟩, fun n => ?laneState, fun r => ?ringExists, rfl, rfl, rfl⟩
  case mbxState => rw [mbxState, rdF, rd_reset, resetVal_mR m.isLt (by decide)]; rfl
  case mbxFlags => rw [rd_reset, resetVal_mR m.isLt (by decide)]; rfl
  case engRun => rw [engRun, rdF, rd_reset, resetVal_eR e.isLt (by decide)]; rfl
  case engSelector => rw [rd_reset, resetVal_eR e.isLt (by decide)]; rfl
  case laneState => rw [laneState, rdF, rd_reset, resetVal_lR n.isLt (by decide)]; rfl
  case ringExists => rw [ringExists, rdBit, rd_reset, resetVal_rR r.isLt (by decide)]; rfl

end Sys2Proof.Machine
end
